-- ==== Sys2Proof/Word.lean ====
section
/-! DEFINITION. The word types and the two register widths of the block (spec 00_scope.md R7, R10; 10_state.md R21). -/

namespace Sys2Proof

/-- One byte of the memory buffer (R34). -/
abbrev Byte := BitVec 8

/-- The storage of one XLEN-bit value: a general register, `pc`, `adv` or an address. It is 64 bits wide, the wider of the
two widths; with XLEN = 32 the value occupies the low 32 bits and the upper 32 are zero, which every write establishes. -/
abbrev Word := BitVec 64

/-- An index into the 32 general registers (R83). -/
abbrev RegIdx := BitVec 5

/-- A compressed "prime" register field, which names x8 to x15 (R85). -/
abbrev CRegIdx := BitVec 3

/-- The register width `XLEN`, 32 or 64 (R7, decision D1). -/
inductive Xlen where
  /-- The alternative configuration, XLEN = 32. -/
  | rv32
  /-- The primary configuration, XLEN = 64. -/
  | rv64
  deriving DecidableEq, Repr

/-- `XLEN` as a number. -/
def Xlen.bits : Xlen → Nat
  | .rv32 => 32
  | .rv64 => 64

end Sys2Proof
end

