-- ==== Sys2Proof/Syntax.lean ====
section
/-! DEFINITION. The instructions of the registry as syntax: one constructor for each mnemonic of spec/opcode_table.json. A
mnemonic with two rows (`slli srli srai c.slli c.srli c.srai`) has one row for each XLEN, with one meaning, and is one
constructor. Each constructor holds every field that its row's matcher leaves free, so that no bit of an encoding is lost. -/

namespace Sys2Proof

/-- The names of the registry entries (R99, R100), in scan order. -/
inductive Op where
  | lui
  | auipc
  | jal
  | jalr
  | beq
  | bne
  | blt
  | bge
  | bltu
  | bgeu
  | lb
  | lh
  | lw
  | lbu
  | lhu
  | lwu
  | ld
  | sb
  | sh
  | sw
  | sd
  | addi
  | slti
  | sltiu
  | xori
  | ori
  | andi
  | slli
  | srli
  | srai
  | add
  | sub
  | sll
  | slt
  | sltu
  | xor
  | srl
  | sra
  | or
  | and
  | fence
  | ecall
  | ebreak
  | addiw
  | slliw
  | srliw
  | sraiw
  | addw
  | subw
  | sllw
  | srlw
  | sraw
  | fenceI
  | csrrw
  | csrrs
  | csrrc
  | csrrwi
  | csrrsi
  | csrrci
  | mul
  | mulh
  | mulhsu
  | mulhu
  | div
  | divu
  | rem
  | remu
  | mulw
  | divw
  | divuw
  | remw
  | remuw
  | lrW
  | scW
  | lrD
  | scD
  | cInvalid
  | cAddi4spnRes
  | cAddi4spn
  | cFld
  | cLw
  | cFlw
  | cLd
  | cFsd
  | cSw
  | cFsw
  | cSd
  | cNop
  | cAddi
  | cJal
  | cAddiwRes
  | cAddiw
  | cLi
  | cAddi16spRes
  | cAddi16sp
  | cLuiRes
  | cLui
  | cSrli
  | cSrai
  | cAndi
  | cSub
  | cXor
  | cOr
  | cAnd
  | cSubw
  | cAddw
  | cJ
  | cBeqz
  | cBnez
  | cSlli
  | cFldsp
  | cLwspRes
  | cLwsp
  | cFlwsp
  | cLdspRes
  | cLdsp
  | cJrRes
  | cJr
  | cMv
  | cEbreak
  | cJalr
  | cAdd
  | cFsdsp
  | cSwsp
  | cFswsp
  | cSdsp
  deriving DecidableEq, Repr

/-- The instructions. An immediate is held as the bits the encoding carries; the rule cited by each constructor says what
value they stand for. -/
inductive Instr where
  /-- `lui` (R157). Here `imm` is bits 31:12 of the word. -/
  | lui (rd : RegIdx) (imm : BitVec 20)
  /-- `auipc` (R158). Here `imm` is bits 31:12 of the word. -/
  | auipc (rd : RegIdx) (imm : BitVec 20)
  /-- `jal` (R252). Here `off` is the offset without its bit 0, offset[20:1]. -/
  | jal (rd : RegIdx) (off : BitVec 20)
  /-- `jalr` (R253). Here `imm` is the 12-bit immediate field. -/
  | jalr (rd : RegIdx) (rs1 : RegIdx) (imm : BitVec 12)
  /-- `beq` (R254). Here `off` is the offset without its bit 0, offset[12:1]. -/
  | beq (rs1 : RegIdx) (rs2 : RegIdx) (off : BitVec 12)
  /-- `bne` (R255). Here `off` is the offset without its bit 0, offset[12:1]. -/
  | bne (rs1 : RegIdx) (rs2 : RegIdx) (off : BitVec 12)
  /-- `blt` (R256). Here `off` is the offset without its bit 0, offset[12:1]. -/
  | blt (rs1 : RegIdx) (rs2 : RegIdx) (off : BitVec 12)
  /-- `bge` (R257). Here `off` is the offset without its bit 0, offset[12:1]. -/
  | bge (rs1 : RegIdx) (rs2 : RegIdx) (off : BitVec 12)
  /-- `bltu` (R258). Here `off` is the offset without its bit 0, offset[12:1]. -/
  | bltu (rs1 : RegIdx) (rs2 : RegIdx) (off : BitVec 12)
  /-- `bgeu` (R259). Here `off` is the offset without its bit 0, offset[12:1]. -/
  | bgeu (rs1 : RegIdx) (rs2 : RegIdx) (off : BitVec 12)
  /-- `lb` (R232). Here `imm` is the 12-bit immediate field. -/
  | lb (rd : RegIdx) (rs1 : RegIdx) (imm : BitVec 12)
  /-- `lh` (R233). Here `imm` is the 12-bit immediate field. -/
  | lh (rd : RegIdx) (rs1 : RegIdx) (imm : BitVec 12)
  /-- `lw` (R234). Here `imm` is the 12-bit immediate field. -/
  | lw (rd : RegIdx) (rs1 : RegIdx) (imm : BitVec 12)
  /-- `lbu` (R235). Here `imm` is the 12-bit immediate field. -/
  | lbu (rd : RegIdx) (rs1 : RegIdx) (imm : BitVec 12)
  /-- `lhu` (R236). Here `imm` is the 12-bit immediate field. -/
  | lhu (rd : RegIdx) (rs1 : RegIdx) (imm : BitVec 12)
  /-- `lwu` (R237). XLEN = 64 only. Here `imm` is the 12-bit immediate field. -/
  | lwu (rd : RegIdx) (rs1 : RegIdx) (imm : BitVec 12)
  /-- `ld` (R238). XLEN = 64 only. Here `imm` is the 12-bit immediate field. -/
  | ld (rd : RegIdx) (rs1 : RegIdx) (imm : BitVec 12)
  /-- `sb` (R239). Here `imm` is the 12-bit store offset. -/
  | sb (rs1 : RegIdx) (rs2 : RegIdx) (imm : BitVec 12)
  /-- `sh` (R240). Here `imm` is the 12-bit store offset. -/
  | sh (rs1 : RegIdx) (rs2 : RegIdx) (imm : BitVec 12)
  /-- `sw` (R241). Here `imm` is the 12-bit store offset. -/
  | sw (rs1 : RegIdx) (rs2 : RegIdx) (imm : BitVec 12)
  /-- `sd` (R242). XLEN = 64 only. Here `imm` is the 12-bit store offset. -/
  | sd (rs1 : RegIdx) (rs2 : RegIdx) (imm : BitVec 12)
  /-- `addi` (R159). Here `imm` is the 12-bit immediate field. -/
  | addi (rd : RegIdx) (rs1 : RegIdx) (imm : BitVec 12)
  /-- `slti` (R160). Here `imm` is the 12-bit immediate field. -/
  | slti (rd : RegIdx) (rs1 : RegIdx) (imm : BitVec 12)
  /-- `sltiu` (R161). Here `imm` is the 12-bit immediate field. -/
  | sltiu (rd : RegIdx) (rs1 : RegIdx) (imm : BitVec 12)
  /-- `xori` (R162). Here `imm` is the 12-bit immediate field. -/
  | xori (rd : RegIdx) (rs1 : RegIdx) (imm : BitVec 12)
  /-- `ori` (R163). Here `imm` is the 12-bit immediate field. -/
  | ori (rd : RegIdx) (rs1 : RegIdx) (imm : BitVec 12)
  /-- `andi` (R164). Here `imm` is the 12-bit immediate field. -/
  | andi (rd : RegIdx) (rs1 : RegIdx) (imm : BitVec 12)
  /-- `slli` (R165). Here `shamt` is bits 25:20 of the word. -/
  | slli (rd : RegIdx) (rs1 : RegIdx) (shamt : BitVec 6)
  /-- `srli` (R166). Here `shamt` is bits 25:20 of the word. -/
  | srli (rd : RegIdx) (rs1 : RegIdx) (shamt : BitVec 6)
  /-- `srai` (R167). Here `shamt` is bits 25:20 of the word. -/
  | srai (rd : RegIdx) (rs1 : RegIdx) (shamt : BitVec 6)
  /-- `add` (R168). -/
  | add (rd : RegIdx) (rs1 : RegIdx) (rs2 : RegIdx)
  /-- `sub` (R169). -/
  | sub (rd : RegIdx) (rs1 : RegIdx) (rs2 : RegIdx)
  /-- `sll` (R170). -/
  | sll (rd : RegIdx) (rs1 : RegIdx) (rs2 : RegIdx)
  /-- `slt` (R171). -/
  | slt (rd : RegIdx) (rs1 : RegIdx) (rs2 : RegIdx)
  /-- `sltu` (R172). -/
  | sltu (rd : RegIdx) (rs1 : RegIdx) (rs2 : RegIdx)
  /-- `xor` (R173). -/
  | xor (rd : RegIdx) (rs1 : RegIdx) (rs2 : RegIdx)
  /-- `srl` (R174). -/
  | srl (rd : RegIdx) (rs1 : RegIdx) (rs2 : RegIdx)
  /-- `sra` (R175). -/
  | sra (rd : RegIdx) (rs1 : RegIdx) (rs2 : RegIdx)
  /-- `or` (R176). -/
  | or (rd : RegIdx) (rs1 : RegIdx) (rs2 : RegIdx)
  /-- `and` (R177). -/
  | and (rd : RegIdx) (rs1 : RegIdx) (rs2 : RegIdx)
  /-- `fence` (R281). Every field of the word; none has an effect. -/
  | fence (fm : BitVec 4) (pred : BitVec 4) (succ : BitVec 4) (rs1 : RegIdx) (rd : RegIdx)
  /-- `ecall` (R283). -/
  | ecall
  /-- `ebreak` (R284). -/
  | ebreak
  /-- `addiw` (R178). XLEN = 64 only. Here `imm` is the 12-bit immediate field. -/
  | addiw (rd : RegIdx) (rs1 : RegIdx) (imm : BitVec 12)
  /-- `slliw` (R179). XLEN = 64 only. Here `shamt` is bits 24:20 of the word. -/
  | slliw (rd : RegIdx) (rs1 : RegIdx) (shamt : BitVec 5)
  /-- `srliw` (R180). XLEN = 64 only. Here `shamt` is bits 24:20 of the word. -/
  | srliw (rd : RegIdx) (rs1 : RegIdx) (shamt : BitVec 5)
  /-- `sraiw` (R181). XLEN = 64 only. Here `shamt` is bits 24:20 of the word. -/
  | sraiw (rd : RegIdx) (rs1 : RegIdx) (shamt : BitVec 5)
  /-- `addw` (R182). XLEN = 64 only. -/
  | addw (rd : RegIdx) (rs1 : RegIdx) (rs2 : RegIdx)
  /-- `subw` (R183). XLEN = 64 only. -/
  | subw (rd : RegIdx) (rs1 : RegIdx) (rs2 : RegIdx)
  /-- `sllw` (R184). XLEN = 64 only. -/
  | sllw (rd : RegIdx) (rs1 : RegIdx) (rs2 : RegIdx)
  /-- `srlw` (R185). XLEN = 64 only. -/
  | srlw (rd : RegIdx) (rs1 : RegIdx) (rs2 : RegIdx)
  /-- `sraw` (R186). XLEN = 64 only. -/
  | sraw (rd : RegIdx) (rs1 : RegIdx) (rs2 : RegIdx)
  /-- `fence.i` (R282). Every field of the word; none has an effect. -/
  | fenceI (imm : BitVec 12) (rs1 : RegIdx) (rd : RegIdx)
  /-- `csrrw` (R285). The CSR number and both registers; none has an effect. -/
  | csrrw (rd : RegIdx) (csr : BitVec 12) (rs1 : RegIdx)
  /-- `csrrs` (R286). The CSR number and both registers; none has an effect. -/
  | csrrs (rd : RegIdx) (csr : BitVec 12) (rs1 : RegIdx)
  /-- `csrrc` (R287). The CSR number and both registers; none has an effect. -/
  | csrrc (rd : RegIdx) (csr : BitVec 12) (rs1 : RegIdx)
  /-- `csrrwi` (R288). The CSR number, `rd` and the 5-bit immediate; none has an effect. -/
  | csrrwi (rd : RegIdx) (csr : BitVec 12) (uimm : BitVec 5)
  /-- `csrrsi` (R289). The CSR number, `rd` and the 5-bit immediate; none has an effect. -/
  | csrrsi (rd : RegIdx) (csr : BitVec 12) (uimm : BitVec 5)
  /-- `csrrci` (R290). The CSR number, `rd` and the 5-bit immediate; none has an effect. -/
  | csrrci (rd : RegIdx) (csr : BitVec 12) (uimm : BitVec 5)
  /-- `mul` (R212). -/
  | mul (rd : RegIdx) (rs1 : RegIdx) (rs2 : RegIdx)
  /-- `mulh` (R213). -/
  | mulh (rd : RegIdx) (rs1 : RegIdx) (rs2 : RegIdx)
  /-- `mulhsu` (R214). -/
  | mulhsu (rd : RegIdx) (rs1 : RegIdx) (rs2 : RegIdx)
  /-- `mulhu` (R215). -/
  | mulhu (rd : RegIdx) (rs1 : RegIdx) (rs2 : RegIdx)
  /-- `div` (R216). -/
  | div (rd : RegIdx) (rs1 : RegIdx) (rs2 : RegIdx)
  /-- `divu` (R217). -/
  | divu (rd : RegIdx) (rs1 : RegIdx) (rs2 : RegIdx)
  /-- `rem` (R218). -/
  | rem (rd : RegIdx) (rs1 : RegIdx) (rs2 : RegIdx)
  /-- `remu` (R219). -/
  | remu (rd : RegIdx) (rs1 : RegIdx) (rs2 : RegIdx)
  /-- `mulw` (R220). XLEN = 64 only. -/
  | mulw (rd : RegIdx) (rs1 : RegIdx) (rs2 : RegIdx)
  /-- `divw` (R221). XLEN = 64 only. -/
  | divw (rd : RegIdx) (rs1 : RegIdx) (rs2 : RegIdx)
  /-- `divuw` (R222). XLEN = 64 only. -/
  | divuw (rd : RegIdx) (rs1 : RegIdx) (rs2 : RegIdx)
  /-- `remw` (R223). XLEN = 64 only. -/
  | remw (rd : RegIdx) (rs1 : RegIdx) (rs2 : RegIdx)
  /-- `remuw` (R224). XLEN = 64 only. -/
  | remuw (rd : RegIdx) (rs1 : RegIdx) (rs2 : RegIdx)
  /-- `lr.w` (R271). Here `aq`, `rl` are the ordering bits, without effect. -/
  | lrW (rd : RegIdx) (rs1 : RegIdx) (aq : BitVec 1) (rl : BitVec 1)
  /-- `sc.w` (R272). Here `aq`, `rl` are the ordering bits, without effect. -/
  | scW (rd : RegIdx) (rs1 : RegIdx) (rs2 : RegIdx) (aq : BitVec 1) (rl : BitVec 1)
  /-- `lr.d` (R273). XLEN = 64 only. Here `aq`, `rl` are the ordering bits, without effect. -/
  | lrD (rd : RegIdx) (rs1 : RegIdx) (aq : BitVec 1) (rl : BitVec 1)
  /-- `sc.d` (R274). XLEN = 64 only. Here `aq`, `rl` are the ordering bits, without effect. -/
  | scD (rd : RegIdx) (rs1 : RegIdx) (rs2 : RegIdx) (aq : BitVec 1) (rl : BitVec 1)
  /-- `c.invalid` (R311). -/
  | cInvalid
  /-- `c.addi4spn.res` (R312). Here `rd` is the prime field rd'. -/
  | cAddi4spnRes (rd : CRegIdx)
  /-- `c.addi4spn` (R313). Here `imm` is nzuimm[9:2]. -/
  | cAddi4spn (rd : CRegIdx) (imm : BitVec 8)
  /-- `c.fld` (R314). Here `uimm` is offset[7:3]. -/
  | cFld (rd : CRegIdx) (rs1 : CRegIdx) (uimm : BitVec 5)
  /-- `c.lw` (R315). Here `uimm` is offset[6:2]. -/
  | cLw (rd : CRegIdx) (rs1 : CRegIdx) (uimm : BitVec 5)
  /-- `c.flw` (R316). XLEN = 32 only. Here `uimm` is offset[6:2]. -/
  | cFlw (rd : CRegIdx) (rs1 : CRegIdx) (uimm : BitVec 5)
  /-- `c.ld` (R317). XLEN = 64 only. Here `uimm` is offset[7:3]. -/
  | cLd (rd : CRegIdx) (rs1 : CRegIdx) (uimm : BitVec 5)
  /-- `c.fsd` (R318). Here `uimm` is offset[7:3]. -/
  | cFsd (rs1 : CRegIdx) (rs2 : CRegIdx) (uimm : BitVec 5)
  /-- `c.sw` (R319). Here `uimm` is offset[6:2]. -/
  | cSw (rs1 : CRegIdx) (rs2 : CRegIdx) (uimm : BitVec 5)
  /-- `c.fsw` (R320). XLEN = 32 only. Here `uimm` is offset[6:2]. -/
  | cFsw (rs1 : CRegIdx) (rs2 : CRegIdx) (uimm : BitVec 5)
  /-- `c.sd` (R321). XLEN = 64 only. Here `uimm` is offset[7:3]. -/
  | cSd (rs1 : CRegIdx) (rs2 : CRegIdx) (uimm : BitVec 5)
  /-- `c.nop` (R322). -/
  | cNop
  /-- `c.addi` (R323). Here `imm` is the 6-bit immediate field. -/
  | cAddi (rd : RegIdx) (imm : BitVec 6)
  /-- `c.jal` (R324). XLEN = 32 only. Here `off` is offset[11:1]. -/
  | cJal (off : BitVec 11)
  /-- `c.addiw.res` (R325). XLEN = 64 only. Here `imm` is the 6-bit immediate field. -/
  | cAddiwRes (imm : BitVec 6)
  /-- `c.addiw` (R326). XLEN = 64 only. Here `imm` is the 6-bit immediate field. -/
  | cAddiw (rd : RegIdx) (imm : BitVec 6)
  /-- `c.li` (R327). Here `imm` is the 6-bit immediate field. -/
  | cLi (rd : RegIdx) (imm : BitVec 6)
  /-- `c.addi16sp.res` (R328). -/
  | cAddi16spRes
  /-- `c.addi16sp` (R329). Here `imm` is imm[9:4]. -/
  | cAddi16sp (imm : BitVec 6)
  /-- `c.lui.res` (R330). -/
  | cLuiRes (rd : RegIdx)
  /-- `c.lui` (R331). Here `imm` is the 6-bit immediate field. -/
  | cLui (rd : RegIdx) (imm : BitVec 6)
  /-- `c.srli` (R332). Here `shamt` is the 6-bit amount; `rd` is also the source. -/
  | cSrli (rd : CRegIdx) (shamt : BitVec 6)
  /-- `c.srai` (R333). Here `shamt` is the 6-bit amount; `rd` is also the source. -/
  | cSrai (rd : CRegIdx) (shamt : BitVec 6)
  /-- `c.andi` (R334). Here `imm` is the 6-bit immediate field; `rd` is also the source. -/
  | cAndi (rd : CRegIdx) (imm : BitVec 6)
  /-- `c.sub` (R335). Here `rd` is also the first source. -/
  | cSub (rd : CRegIdx) (rs2 : CRegIdx)
  /-- `c.xor` (R336). Here `rd` is also the first source. -/
  | cXor (rd : CRegIdx) (rs2 : CRegIdx)
  /-- `c.or` (R337). Here `rd` is also the first source. -/
  | cOr (rd : CRegIdx) (rs2 : CRegIdx)
  /-- `c.and` (R338). Here `rd` is also the first source. -/
  | cAnd (rd : CRegIdx) (rs2 : CRegIdx)
  /-- `c.subw` (R339). XLEN = 64 only. Here `rd` is also the first source. -/
  | cSubw (rd : CRegIdx) (rs2 : CRegIdx)
  /-- `c.addw` (R340). XLEN = 64 only. Here `rd` is also the first source. -/
  | cAddw (rd : CRegIdx) (rs2 : CRegIdx)
  /-- `c.j` (R341). Here `off` is offset[11:1]. -/
  | cJ (off : BitVec 11)
  /-- `c.beqz` (R342). Here `off` is offset[8:1]. -/
  | cBeqz (rs1 : CRegIdx) (off : BitVec 8)
  /-- `c.bnez` (R343). Here `off` is offset[8:1]. -/
  | cBnez (rs1 : CRegIdx) (off : BitVec 8)
  /-- `c.slli` (R344). Here `shamt` is the 6-bit amount; `rd` is also the source. -/
  | cSlli (rd : RegIdx) (shamt : BitVec 6)
  /-- `c.fldsp` (R345). Here `uimm` is offset[8:3]. -/
  | cFldsp (rd : RegIdx) (uimm : BitVec 6)
  /-- `c.lwsp.res` (R346). Here `uimm` is offset[7:2]. -/
  | cLwspRes (uimm : BitVec 6)
  /-- `c.lwsp` (R347). Here `uimm` is offset[7:2]. -/
  | cLwsp (rd : RegIdx) (uimm : BitVec 6)
  /-- `c.flwsp` (R348). XLEN = 32 only. Here `uimm` is offset[7:2]. -/
  | cFlwsp (rd : RegIdx) (uimm : BitVec 6)
  /-- `c.ldsp.res` (R349). XLEN = 64 only. Here `uimm` is offset[8:3]. -/
  | cLdspRes (uimm : BitVec 6)
  /-- `c.ldsp` (R350). XLEN = 64 only. Here `uimm` is offset[8:3]. -/
  | cLdsp (rd : RegIdx) (uimm : BitVec 6)
  /-- `c.jr.res` (R351). -/
  | cJrRes
  /-- `c.jr` (R352). -/
  | cJr (rs1 : RegIdx)
  /-- `c.mv` (R353). -/
  | cMv (rd : RegIdx) (rs2 : RegIdx)
  /-- `c.ebreak` (R354). -/
  | cEbreak
  /-- `c.jalr` (R355). -/
  | cJalr (rs1 : RegIdx)
  /-- `c.add` (R356). -/
  | cAdd (rd : RegIdx) (rs2 : RegIdx)
  /-- `c.fsdsp` (R357). Here `uimm` is offset[8:3]. -/
  | cFsdsp (rs2 : RegIdx) (uimm : BitVec 6)
  /-- `c.swsp` (R358). Here `uimm` is offset[7:2]. -/
  | cSwsp (rs2 : RegIdx) (uimm : BitVec 6)
  /-- `c.fswsp` (R359). XLEN = 32 only. Here `uimm` is offset[7:2]. -/
  | cFswsp (rs2 : RegIdx) (uimm : BitVec 6)
  /-- `c.sdsp` (R360). XLEN = 64 only. Here `uimm` is offset[8:3]. -/
  | cSdsp (rs2 : RegIdx) (uimm : BitVec 6)
  deriving DecidableEq, Repr

end Sys2Proof
end

