-- ==== Sys2Proof/WellFormed.lean ====
section
/-! DEFINITION. Which instructions the registry of a given XLEN holds: the row applies to that XLEN (R100) and the fields are
not the ones an earlier, more specific row takes (R363) or that the matcher excludes (R91, R108). -/

namespace Sys2Proof

/-- A shift amount that the shift-immediate entries of this XLEN match: bit 5 must be 0 when XLEN = 32 (R91, R332, R344). -/
def shamtFits (xl : Xlen) (shamt : BitVec 6) : Bool := decide (shamt.toNat < xl.bits)

/-- Well-formedness for one XLEN. -/
def Instr.wf (xl : Xlen) : Instr → Bool
  | .lui _ _ => true
  | .auipc _ _ => true
  | .jal _ _ => true
  | .jalr _ _ _ => true
  | .beq _ _ _ => true
  | .bne _ _ _ => true
  | .blt _ _ _ => true
  | .bge _ _ _ => true
  | .bltu _ _ _ => true
  | .bgeu _ _ _ => true
  | .lb _ _ _ => true
  | .lh _ _ _ => true
  | .lw _ _ _ => true
  | .lbu _ _ _ => true
  | .lhu _ _ _ => true
  | .lwu _ _ _ => xl == .rv64
  | .ld _ _ _ => xl == .rv64
  | .sb _ _ _ => true
  | .sh _ _ _ => true
  | .sw _ _ _ => true
  | .sd _ _ _ => xl == .rv64
  | .addi _ _ _ => true
  | .slti _ _ _ => true
  | .sltiu _ _ _ => true
  | .xori _ _ _ => true
  | .ori _ _ _ => true
  | .andi _ _ _ => true
  | .slli _ _ shamt => shamtFits xl shamt
  | .srli _ _ shamt => shamtFits xl shamt
  | .srai _ _ shamt => shamtFits xl shamt
  | .add _ _ _ => true
  | .sub _ _ _ => true
  | .sll _ _ _ => true
  | .slt _ _ _ => true
  | .sltu _ _ _ => true
  | .xor _ _ _ => true
  | .srl _ _ _ => true
  | .sra _ _ _ => true
  | .or _ _ _ => true
  | .and _ _ _ => true
  | .fence _ _ _ _ _ => true
  | .ecall => true
  | .ebreak => true
  | .addiw _ _ _ => xl == .rv64
  | .slliw _ _ _ => xl == .rv64
  | .srliw _ _ _ => xl == .rv64
  | .sraiw _ _ _ => xl == .rv64
  | .addw _ _ _ => xl == .rv64
  | .subw _ _ _ => xl == .rv64
  | .sllw _ _ _ => xl == .rv64
  | .srlw _ _ _ => xl == .rv64
  | .sraw _ _ _ => xl == .rv64
  | .fenceI _ _ _ => true
  | .csrrw _ _ _ => true
  | .csrrs _ _ _ => true
  | .csrrc _ _ _ => true
  | .csrrwi _ _ _ => true
  | .csrrsi _ _ _ => true
  | .csrrci _ _ _ => true
  | .mul _ _ _ => true
  | .mulh _ _ _ => true
  | .mulhsu _ _ _ => true
  | .mulhu _ _ _ => true
  | .div _ _ _ => true
  | .divu _ _ _ => true
  | .rem _ _ _ => true
  | .remu _ _ _ => true
  | .mulw _ _ _ => xl == .rv64
  | .divw _ _ _ => xl == .rv64
  | .divuw _ _ _ => xl == .rv64
  | .remw _ _ _ => xl == .rv64
  | .remuw _ _ _ => xl == .rv64
  | .lrW _ _ _ _ => true
  | .scW _ _ _ _ _ => true
  | .lrD _ _ _ _ => xl == .rv64
  | .scD _ _ _ _ _ => xl == .rv64
  | .cInvalid => true
  | .cAddi4spnRes rd => rd != 0
  | .cAddi4spn _ imm => imm != 0
  | .cFld _ _ _ => true
  | .cLw _ _ _ => true
  | .cFlw _ _ _ => xl == .rv32
  | .cLd _ _ _ => xl == .rv64
  | .cFsd _ _ _ => true
  | .cSw _ _ _ => true
  | .cFsw _ _ _ => xl == .rv32
  | .cSd _ _ _ => xl == .rv64
  | .cNop => true
  | .cAddi rd imm => !(rd == 0 && imm == 0)
  | .cJal _ => xl == .rv32
  | .cAddiwRes _ => xl == .rv64
  | .cAddiw rd _ => xl == .rv64 && rd != 0
  | .cLi _ _ => true
  | .cAddi16spRes => true
  | .cAddi16sp imm => imm != 0
  | .cLuiRes rd => rd != 2
  | .cLui rd imm => rd != 2 && imm != 0
  | .cSrli _ shamt => shamtFits xl shamt
  | .cSrai _ shamt => shamtFits xl shamt
  | .cAndi _ _ => true
  | .cSub _ _ => true
  | .cXor _ _ => true
  | .cOr _ _ => true
  | .cAnd _ _ => true
  | .cSubw _ _ => xl == .rv64
  | .cAddw _ _ => xl == .rv64
  | .cJ _ => true
  | .cBeqz _ _ => true
  | .cBnez _ _ => true
  | .cSlli _ shamt => shamtFits xl shamt
  | .cFldsp _ _ => true
  | .cLwspRes _ => true
  | .cLwsp rd _ => rd != 0
  | .cFlwsp _ _ => xl == .rv32
  | .cLdspRes _ => xl == .rv64
  | .cLdsp rd _ => xl == .rv64 && rd != 0
  | .cJrRes => true
  | .cJr rs1 => rs1 != 0
  | .cMv _ rs2 => rs2 != 0
  | .cEbreak => true
  | .cJalr rs1 => rs1 != 0
  | .cAdd _ rs2 => rs2 != 0
  | .cFsdsp _ _ => true
  | .cSwsp _ _ => true
  | .cFswsp _ _ => xl == .rv32
  | .cSdsp _ _ => xl == .rv64

end Sys2Proof
end

