-- ==== Sys2Proof/Decode.lean ====
section
/-! DEFINITION. The decoder and the encoder (spec 30_encoding.md, 47_compressed.md): field extraction, the bit matcher, the
ordered registry and its first-match lookup, the decoder over bytes, the encoder, and the expansion of the compressed
instructions. -/

namespace Sys2Proof

/-! ### Fields of a word (R83 to R96)

Every field is read from a 32-bit value; a 16-bit word is read zero-extended (R102). -/

/-- `w[lo+len-1 : lo]`. -/
def bits (w : BitVec 32) (lo len : Nat) : BitVec len := w.extractLsb' lo len

/-- `rd = bits[11:7]` (R83; full compressed field R84). -/
def fRd (w : BitVec 32) : RegIdx := bits w 7 5
/-- `rs1 = bits[19:15]` (R83). -/
def fRs1 (w : BitVec 32) : RegIdx := bits w 15 5
/-- `rs2 = bits[24:20]` (R83). -/
def fRs2 (w : BitVec 32) : RegIdx := bits w 20 5
/-- `bits[31:20]` (R86). -/
def fImmI (w : BitVec 32) : BitVec 12 := bits w 20 12
/-- `{bits[31:25], bits[11:7]}` (R87). -/
def fImmS (w : BitVec 32) : BitVec 12 := bits w 25 7 ++ bits w 7 5
/-- `{bit31, bit7, bits[30:25], bits[11:8]}`, which is offset[12:1] (R88). -/
def fImmB (w : BitVec 32) : BitVec 12 := bits w 31 1 ++ bits w 7 1 ++ bits w 25 6 ++ bits w 8 4
/-- `bits[31:12]` (R89). -/
def fImmU (w : BitVec 32) : BitVec 20 := bits w 12 20
/-- `{bit31, bits[19:12], bit20, bits[30:21]}`, which is offset[20:1] (R90). -/
def fImmJ (w : BitVec 32) : BitVec 20 := bits w 31 1 ++ bits w 12 8 ++ bits w 20 1 ++ bits w 21 10
/-- `bits[25:20]` (R91). -/
def fShamt (w : BitVec 32) : BitVec 6 := bits w 20 6
/-- `bits[24:20]`, the amount of a word shift (R91). -/
def fShamtW (w : BitVec 32) : BitVec 5 := bits w 20 5
/-- `csr = bits[31:20]` (R92). -/
def fCsr (w : BitVec 32) : BitVec 12 := bits w 20 12
/-- `fm = bits[31:28]` (R92). -/
def fFm (w : BitVec 32) : BitVec 4 := bits w 28 4
/-- `pred = bits[27:24]` (R92). -/
def fPred (w : BitVec 32) : BitVec 4 := bits w 24 4
/-- `succ = bits[23:20]` (R92). -/
def fSucc (w : BitVec 32) : BitVec 4 := bits w 20 4
/-- `aq = bit26` (R92). -/
def fAq (w : BitVec 32) : BitVec 1 := bits w 26 1
/-- `rl = bit25` (R92). -/
def fRl (w : BitVec 32) : BitVec 1 := bits w 25 1
/-- `rs2 = bits[6:2]` of a 16-bit word (R84). -/
def fCRs2 (w : BitVec 32) : RegIdx := bits w 2 5
/-- The prime field `bits[4:2]`, `rd'` or `rs2'` (R85). -/
def fCRdLo (w : BitVec 32) : CRegIdx := bits w 2 3
/-- The prime field `bits[9:7]`, `rs1'` or `rd'/rs1'` (R85). -/
def fCRs1 (w : BitVec 32) : CRegIdx := bits w 7 3
/-- `{bit12, bits[6:2]}` (R93). -/
def fImmCI (w : BitVec 32) : BitVec 6 := bits w 12 1 ++ bits w 2 5
/-- `{bits[10:7], bits[12:11], bit5, bit6}`, which is nzuimm[9:2] (R94). -/
def fImmCIW (w : BitVec 32) : BitVec 8 := bits w 7 4 ++ bits w 11 2 ++ bits w 5 1 ++ bits w 6 1
/-- `{bits[8:7], bits[12:9]}`, which is uimm[7:2] (R95). -/
def fImmCSSw (w : BitVec 32) : BitVec 6 := bits w 7 2 ++ bits w 9 4
/-- `{bits[9:7], bits[12:10]}`, which is uimm[8:3] (R95). -/
def fImmCSSd (w : BitVec 32) : BitVec 6 := bits w 7 3 ++ bits w 10 3
/-- `{bit5, bits[12:10], bit6}`, which is offset[6:2] (R96). -/
def fImmCLw (w : BitVec 32) : BitVec 5 := bits w 5 1 ++ bits w 10 3 ++ bits w 6 1
/-- `{bits[6:5], bits[12:10]}`, which is offset[7:3] (R96). -/
def fImmCLd (w : BitVec 32) : BitVec 5 := bits w 5 2 ++ bits w 10 3
/-- `{bit12, bit8, bits[10:9], bit6, bit7, bit2, bit11, bits[5:3]}`, which is offset[11:1] (R96). -/
def fImmCJ (w : BitVec 32) : BitVec 11 :=
  bits w 12 1 ++ bits w 8 1 ++ bits w 9 2 ++ bits w 6 1 ++ bits w 7 1 ++ bits w 2 1 ++ bits w 11 1 ++ bits w 3 3
/-- `{bit12, bits[6:5], bit2, bits[11:10], bits[4:3]}`, which is offset[8:1] (R96). -/
def fImmCB (w : BitVec 32) : BitVec 8 := bits w 12 1 ++ bits w 5 2 ++ bits w 2 1 ++ bits w 10 2 ++ bits w 3 2
/-- `{bit12, bits[4:3], bit5, bit2, bit6}`, which is imm[9:4] (R96). -/
def fImmCI16 (w : BitVec 32) : BitVec 6 := bits w 12 1 ++ bits w 3 2 ++ bits w 5 1 ++ bits w 2 1 ++ bits w 6 1
/-- `{bits[3:2], bit12, bits[6:4]}`, which is uimm[7:2] (R96). -/
def fImmCILw (w : BitVec 32) : BitVec 6 := bits w 2 2 ++ bits w 12 1 ++ bits w 4 3
/-- `{bits[4:2], bit12, bits[6:5]}`, which is uimm[8:3] (R96). -/
def fImmCILd (w : BitVec 32) : BitVec 6 := bits w 2 3 ++ bits w 12 1 ++ bits w 5 2

/-! ### The bit matcher and the registry (R97 to R102) -/

/-- The kind of an entry (R99): what a step does on a match. -/
inductive Kind where
  /-- Runs the instruction's rule. -/
  | executor
  /-- The no-op functor: nothing but the default advance. -/
  | noop
  /-- Expands to a 32-bit word and looks up again. -/
  | translator
  /-- Matches and formats, and stalls like a decode miss. -/
  | reserved
  deriving DecidableEq, Repr

/-- The standard an entry belongs to (R99, glossary of R16): the named extension, which is the registry's group (R100). -/
inductive Standard where
  /-- `I`, the base integer set. -/
  | i
  /-- `I64`, its additions for XLEN = 64. -/
  | i64
  /-- `Zifencei`. -/
  | zifencei
  /-- `Zicsr`. -/
  | zicsr
  /-- `M`, multiply and divide. -/
  | m
  /-- `M64`, its additions for XLEN = 64. -/
  | m64
  /-- `A-lrsc`, the load-reserved and store-conditional part of A. -/
  | aLrsc
  /-- `C`, the compressed instructions. -/
  | c
  deriving DecidableEq, Repr

/-- The opcode format of an entry (R99): which bit positions hold which fields, the layouts of R81 and R82. -/
inductive OpFormat where
  /-- R, register-register. -/
  | r
  /-- I, immediate. -/
  | i
  /-- I-shift, shift by an immediate. -/
  | iShift
  /-- S, store. -/
  | s
  /-- B, branch. -/
  | b
  /-- U, upper immediate. -/
  | u
  /-- J, jump. -/
  | j
  /-- R-atomic. -/
  | rAtomic
  /-- Fence. -/
  | fence
  /-- CSR. -/
  | csr
  /-- CR, compressed register. -/
  | cr
  /-- CI, compressed immediate. -/
  | ci
  /-- CSS, compressed stack-relative store. -/
  | css
  /-- CIW, compressed wide immediate. -/
  | ciw
  /-- CL, compressed load. -/
  | cl
  /-- CS, compressed store. -/
  | cs
  /-- CA, compressed arithmetic. -/
  | ca
  /-- CB, compressed branch, shift and `c.andi`. -/
  | cb
  /-- CJ, compressed jump. -/
  | cj
  deriving DecidableEq, Repr

/-- One instruction definition (R99): its name, its standard, its format, its bit matcher (`mask` is the care mask, `want` the
wanted pattern, R97), the XLEN values whose registry holds it, and its kind. Of the functions of the record, the executor is
`Machine.exec`, the translator `Instr.expansion` and the formatter `Machine.formatInstr`. -/
structure Row where
  /-- The entry's name. -/
  op : Op
  /-- The standard. -/
  standard : Standard
  /-- The format, as R104, R105 and R363 name it. -/
  format : OpFormat
  /-- The care mask. -/
  mask : BitVec 32
  /-- The wanted pattern. -/
  want : BitVec 32
  /-- In the registry of XLEN = 32. -/
  on32 : Bool
  /-- In the registry of XLEN = 64. -/
  on64 : Bool
  /-- The kind. -/
  kind : Kind
  deriving DecidableEq, Repr

/-- `match(v) = (care_about & (v ^ want)) == 0` (R97). -/
def Row.accepts (r : Row) (w : BitVec 32) : Bool := (r.mask &&& (w ^^^ r.want)) == 0

/-- Composition of two matchers: the bitwise or of the masks and of the wants (R98). -/
def combineMatchers (a b : BitVec 32 × BitVec 32) : BitVec 32 × BitVec 32 := (a.1 ||| b.1, a.2 ||| b.2)

/-- Whether the registry of this XLEN holds the row (R100). -/
def Row.appliesTo (r : Row) : Xlen → Bool
  | .rv32 => r.on32
  | .rv64 => r.on64

/-- Group `I`, with the additions `I64` (R104). -/
def rowsI : List Row :=
  [ ⟨.lui, .i, .u, 0x0000007f, 0x00000037, true, true, .executor⟩,
    ⟨.auipc, .i, .u, 0x0000007f, 0x00000017, true, true, .executor⟩,
    ⟨.jal, .i, .j, 0x0000007f, 0x0000006f, true, true, .executor⟩,
    ⟨.jalr, .i, .i, 0x0000707f, 0x00000067, true, true, .executor⟩,
    ⟨.beq, .i, .b, 0x0000707f, 0x00000063, true, true, .executor⟩,
    ⟨.bne, .i, .b, 0x0000707f, 0x00001063, true, true, .executor⟩,
    ⟨.blt, .i, .b, 0x0000707f, 0x00004063, true, true, .executor⟩,
    ⟨.bge, .i, .b, 0x0000707f, 0x00005063, true, true, .executor⟩,
    ⟨.bltu, .i, .b, 0x0000707f, 0x00006063, true, true, .executor⟩,
    ⟨.bgeu, .i, .b, 0x0000707f, 0x00007063, true, true, .executor⟩,
    ⟨.lb, .i, .i, 0x0000707f, 0x00000003, true, true, .executor⟩,
    ⟨.lh, .i, .i, 0x0000707f, 0x00001003, true, true, .executor⟩,
    ⟨.lw, .i, .i, 0x0000707f, 0x00002003, true, true, .executor⟩,
    ⟨.lbu, .i, .i, 0x0000707f, 0x00004003, true, true, .executor⟩,
    ⟨.lhu, .i, .i, 0x0000707f, 0x00005003, true, true, .executor⟩,
    ⟨.lwu, .i64, .i, 0x0000707f, 0x00006003, false, true, .executor⟩,
    ⟨.ld, .i64, .i, 0x0000707f, 0x00003003, false, true, .executor⟩,
    ⟨.sb, .i, .s, 0x0000707f, 0x00000023, true, true, .executor⟩,
    ⟨.sh, .i, .s, 0x0000707f, 0x00001023, true, true, .executor⟩,
    ⟨.sw, .i, .s, 0x0000707f, 0x00002023, true, true, .executor⟩ ] ++
  [ ⟨.sd, .i64, .s, 0x0000707f, 0x00003023, false, true, .executor⟩,
    ⟨.addi, .i, .i, 0x0000707f, 0x00000013, true, true, .executor⟩,
    ⟨.slti, .i, .i, 0x0000707f, 0x00002013, true, true, .executor⟩,
    ⟨.sltiu, .i, .i, 0x0000707f, 0x00003013, true, true, .executor⟩,
    ⟨.xori, .i, .i, 0x0000707f, 0x00004013, true, true, .executor⟩,
    ⟨.ori, .i, .i, 0x0000707f, 0x00006013, true, true, .executor⟩,
    ⟨.andi, .i, .i, 0x0000707f, 0x00007013, true, true, .executor⟩,
    ⟨.slli, .i, .iShift, 0xfe00707f, 0x00001013, true, false, .executor⟩,
    ⟨.slli, .i, .iShift, 0xfc00707f, 0x00001013, false, true, .executor⟩,
    ⟨.srli, .i, .iShift, 0xfe00707f, 0x00005013, true, false, .executor⟩,
    ⟨.srli, .i, .iShift, 0xfc00707f, 0x00005013, false, true, .executor⟩,
    ⟨.srai, .i, .iShift, 0xfe00707f, 0x40005013, true, false, .executor⟩,
    ⟨.srai, .i, .iShift, 0xfc00707f, 0x40005013, false, true, .executor⟩,
    ⟨.add, .i, .r, 0xfe00707f, 0x00000033, true, true, .executor⟩,
    ⟨.sub, .i, .r, 0xfe00707f, 0x40000033, true, true, .executor⟩,
    ⟨.sll, .i, .r, 0xfe00707f, 0x00001033, true, true, .executor⟩,
    ⟨.slt, .i, .r, 0xfe00707f, 0x00002033, true, true, .executor⟩,
    ⟨.sltu, .i, .r, 0xfe00707f, 0x00003033, true, true, .executor⟩,
    ⟨.xor, .i, .r, 0xfe00707f, 0x00004033, true, true, .executor⟩,
    ⟨.srl, .i, .r, 0xfe00707f, 0x00005033, true, true, .executor⟩ ] ++
  [ ⟨.sra, .i, .r, 0xfe00707f, 0x40005033, true, true, .executor⟩,
    ⟨.or, .i, .r, 0xfe00707f, 0x00006033, true, true, .executor⟩,
    ⟨.and, .i, .r, 0xfe00707f, 0x00007033, true, true, .executor⟩,
    ⟨.fence, .i, .fence, 0x0000707f, 0x0000000f, true, true, .noop⟩,
    ⟨.ecall, .i, .i, 0xffffffff, 0x00000073, true, true, .noop⟩,
    ⟨.ebreak, .i, .i, 0xffffffff, 0x00100073, true, true, .noop⟩,
    ⟨.addiw, .i64, .i, 0x0000707f, 0x0000001b, false, true, .executor⟩,
    ⟨.slliw, .i64, .iShift, 0xfe00707f, 0x0000101b, false, true, .executor⟩,
    ⟨.srliw, .i64, .iShift, 0xfe00707f, 0x0000501b, false, true, .executor⟩,
    ⟨.sraiw, .i64, .iShift, 0xfe00707f, 0x4000501b, false, true, .executor⟩,
    ⟨.addw, .i64, .r, 0xfe00707f, 0x0000003b, false, true, .executor⟩,
    ⟨.subw, .i64, .r, 0xfe00707f, 0x4000003b, false, true, .executor⟩,
    ⟨.sllw, .i64, .r, 0xfe00707f, 0x0000103b, false, true, .executor⟩,
    ⟨.srlw, .i64, .r, 0xfe00707f, 0x0000503b, false, true, .executor⟩,
    ⟨.sraw, .i64, .r, 0xfe00707f, 0x4000503b, false, true, .executor⟩ ]

/-- Groups `Zifencei` and `Zicsr` (R105). -/
def rowsZ : List Row :=
  [ ⟨.fenceI, .zifencei, .i, 0x0000707f, 0x0000100f, true, true, .noop⟩,
    ⟨.csrrw, .zicsr, .csr, 0x0000707f, 0x00001073, true, true, .noop⟩,
    ⟨.csrrs, .zicsr, .csr, 0x0000707f, 0x00002073, true, true, .noop⟩,
    ⟨.csrrc, .zicsr, .csr, 0x0000707f, 0x00003073, true, true, .noop⟩,
    ⟨.csrrwi, .zicsr, .csr, 0x0000707f, 0x00005073, true, true, .noop⟩,
    ⟨.csrrsi, .zicsr, .csr, 0x0000707f, 0x00006073, true, true, .noop⟩,
    ⟨.csrrci, .zicsr, .csr, 0x0000707f, 0x00007073, true, true, .noop⟩ ]

/-- Group `M`, with the additions `M64` (R105). -/
def rowsM : List Row :=
  [ ⟨.mul, .m, .r, 0xfe00707f, 0x02000033, true, true, .executor⟩,
    ⟨.mulh, .m, .r, 0xfe00707f, 0x02001033, true, true, .executor⟩,
    ⟨.mulhsu, .m, .r, 0xfe00707f, 0x02002033, true, true, .executor⟩,
    ⟨.mulhu, .m, .r, 0xfe00707f, 0x02003033, true, true, .executor⟩,
    ⟨.div, .m, .r, 0xfe00707f, 0x02004033, true, true, .executor⟩,
    ⟨.divu, .m, .r, 0xfe00707f, 0x02005033, true, true, .executor⟩,
    ⟨.rem, .m, .r, 0xfe00707f, 0x02006033, true, true, .executor⟩,
    ⟨.remu, .m, .r, 0xfe00707f, 0x02007033, true, true, .executor⟩,
    ⟨.mulw, .m64, .r, 0xfe00707f, 0x0200003b, false, true, .executor⟩,
    ⟨.divw, .m64, .r, 0xfe00707f, 0x0200403b, false, true, .executor⟩,
    ⟨.divuw, .m64, .r, 0xfe00707f, 0x0200503b, false, true, .executor⟩,
    ⟨.remw, .m64, .r, 0xfe00707f, 0x0200603b, false, true, .executor⟩,
    ⟨.remuw, .m64, .r, 0xfe00707f, 0x0200703b, false, true, .executor⟩ ]

/-- Group `A-lrsc` (R105). -/
def rowsA : List Row :=
  [ ⟨.lrW, .aLrsc, .rAtomic, 0xf9f0707f, 0x1000202f, true, true, .executor⟩,
    ⟨.scW, .aLrsc, .rAtomic, 0xf800707f, 0x1800202f, true, true, .executor⟩,
    ⟨.lrD, .aLrsc, .rAtomic, 0xf9f0707f, 0x1000302f, false, true, .executor⟩,
    ⟨.scD, .aLrsc, .rAtomic, 0xf800707f, 0x1800302f, false, true, .executor⟩ ]

/-- Group `C`, quadrant 00 (R363). -/
def rowsC0 : List Row :=
  [ ⟨.cInvalid, .c, .ciw, 0x0000ffff, 0x00000000, true, true, .reserved⟩,
    ⟨.cAddi4spnRes, .c, .ciw, 0x0000ffe3, 0x00000000, true, true, .reserved⟩,
    ⟨.cAddi4spn, .c, .ciw, 0x0000e003, 0x00000000, true, true, .translator⟩,
    ⟨.cFld, .c, .cl, 0x0000e003, 0x00002000, true, true, .noop⟩,
    ⟨.cLw, .c, .cl, 0x0000e003, 0x00004000, true, true, .translator⟩,
    ⟨.cFlw, .c, .cl, 0x0000e003, 0x00006000, true, false, .noop⟩,
    ⟨.cLd, .c, .cl, 0x0000e003, 0x00006000, false, true, .translator⟩,
    ⟨.cFsd, .c, .cs, 0x0000e003, 0x0000a000, true, true, .noop⟩,
    ⟨.cSw, .c, .cs, 0x0000e003, 0x0000c000, true, true, .translator⟩,
    ⟨.cFsw, .c, .cs, 0x0000e003, 0x0000e000, true, false, .noop⟩,
    ⟨.cSd, .c, .cs, 0x0000e003, 0x0000e000, false, true, .translator⟩ ]

/-- Group `C`, quadrant 01 (R363). -/
def rowsC1 : List Row :=
  [ ⟨.cNop, .c, .ci, 0x0000ffff, 0x00000001, true, true, .translator⟩,
    ⟨.cAddi, .c, .ci, 0x0000e003, 0x00000001, true, true, .translator⟩,
    ⟨.cJal, .c, .cj, 0x0000e003, 0x00002001, true, false, .translator⟩,
    ⟨.cAddiwRes, .c, .ci, 0x0000ef83, 0x00002001, false, true, .reserved⟩,
    ⟨.cAddiw, .c, .ci, 0x0000e003, 0x00002001, false, true, .translator⟩,
    ⟨.cLi, .c, .ci, 0x0000e003, 0x00004001, true, true, .translator⟩,
    ⟨.cAddi16spRes, .c, .ci, 0x0000ffff, 0x00006101, true, true, .reserved⟩,
    ⟨.cAddi16sp, .c, .ci, 0x0000ef83, 0x00006101, true, true, .translator⟩,
    ⟨.cLuiRes, .c, .ci, 0x0000f07f, 0x00006001, true, true, .reserved⟩,
    ⟨.cLui, .c, .ci, 0x0000e003, 0x00006001, true, true, .translator⟩,
    ⟨.cSrli, .c, .cb, 0x0000fc03, 0x00008001, true, false, .translator⟩,
    ⟨.cSrli, .c, .cb, 0x0000ec03, 0x00008001, false, true, .translator⟩,
    ⟨.cSrai, .c, .cb, 0x0000fc03, 0x00008401, true, false, .translator⟩,
    ⟨.cSrai, .c, .cb, 0x0000ec03, 0x00008401, false, true, .translator⟩,
    ⟨.cAndi, .c, .cb, 0x0000ec03, 0x00008801, true, true, .translator⟩,
    ⟨.cSub, .c, .ca, 0x0000fc63, 0x00008c01, true, true, .translator⟩,
    ⟨.cXor, .c, .ca, 0x0000fc63, 0x00008c21, true, true, .translator⟩,
    ⟨.cOr, .c, .ca, 0x0000fc63, 0x00008c41, true, true, .translator⟩,
    ⟨.cAnd, .c, .ca, 0x0000fc63, 0x00008c61, true, true, .translator⟩,
    ⟨.cSubw, .c, .ca, 0x0000fc63, 0x00009c01, false, true, .translator⟩ ] ++
  [ ⟨.cAddw, .c, .ca, 0x0000fc63, 0x00009c21, false, true, .translator⟩,
    ⟨.cJ, .c, .cj, 0x0000e003, 0x0000a001, true, true, .translator⟩,
    ⟨.cBeqz, .c, .cb, 0x0000e003, 0x0000c001, true, true, .translator⟩,
    ⟨.cBnez, .c, .cb, 0x0000e003, 0x0000e001, true, true, .translator⟩ ]

/-- Group `C`, quadrant 10 (R363). -/
def rowsC2 : List Row :=
  [ ⟨.cSlli, .c, .ci, 0x0000f003, 0x00000002, true, false, .translator⟩,
    ⟨.cSlli, .c, .ci, 0x0000e003, 0x00000002, false, true, .translator⟩,
    ⟨.cFldsp, .c, .ci, 0x0000e003, 0x00002002, true, true, .noop⟩,
    ⟨.cLwspRes, .c, .ci, 0x0000ef83, 0x00004002, true, true, .reserved⟩,
    ⟨.cLwsp, .c, .ci, 0x0000e003, 0x00004002, true, true, .translator⟩,
    ⟨.cFlwsp, .c, .ci, 0x0000e003, 0x00006002, true, false, .noop⟩,
    ⟨.cLdspRes, .c, .ci, 0x0000ef83, 0x00006002, false, true, .reserved⟩,
    ⟨.cLdsp, .c, .ci, 0x0000e003, 0x00006002, false, true, .translator⟩,
    ⟨.cJrRes, .c, .cr, 0x0000ffff, 0x00008002, true, true, .reserved⟩,
    ⟨.cJr, .c, .cr, 0x0000f07f, 0x00008002, true, true, .translator⟩,
    ⟨.cMv, .c, .cr, 0x0000f003, 0x00008002, true, true, .translator⟩,
    ⟨.cEbreak, .c, .cr, 0x0000ffff, 0x00009002, true, true, .translator⟩,
    ⟨.cJalr, .c, .cr, 0x0000f07f, 0x00009002, true, true, .translator⟩,
    ⟨.cAdd, .c, .cr, 0x0000f003, 0x00009002, true, true, .translator⟩,
    ⟨.cFsdsp, .c, .css, 0x0000e003, 0x0000a002, true, true, .noop⟩,
    ⟨.cSwsp, .c, .css, 0x0000e003, 0x0000c002, true, true, .translator⟩,
    ⟨.cFswsp, .c, .css, 0x0000e003, 0x0000e002, true, false, .noop⟩,
    ⟨.cSdsp, .c, .css, 0x0000e003, 0x0000e002, false, true, .translator⟩ ]

/-- All rows in scan order: the groups concatenated (R100, R363). -/
def rows : List Row := rowsI ++ rowsZ ++ rowsM ++ rowsA ++ rowsC0 ++ rowsC1 ++ rowsC2

/-- The registry of one configuration (R100): 98 entries for XLEN = 32, 121 for XLEN = 64. -/
def registry (xl : Xlen) : List Row := rows.filter (·.appliesTo xl)

/-- `find(word)`: the first definition in scan order whose matcher accepts the word (R101). -/
def findRow (xl : Xlen) (w : BitVec 32) : Option Row := (registry xl).find? (·.accepts w)

/-- The instruction an entry reads from a word it matches: its fields (R117). -/
def fieldsOf (op : Op) (w : BitVec 32) : Instr :=
  match op with
  | .lui => .lui (fRd w) (fImmU w)
  | .auipc => .auipc (fRd w) (fImmU w)
  | .jal => .jal (fRd w) (fImmJ w)
  | .jalr => .jalr (fRd w) (fRs1 w) (fImmI w)
  | .beq => .beq (fRs1 w) (fRs2 w) (fImmB w)
  | .bne => .bne (fRs1 w) (fRs2 w) (fImmB w)
  | .blt => .blt (fRs1 w) (fRs2 w) (fImmB w)
  | .bge => .bge (fRs1 w) (fRs2 w) (fImmB w)
  | .bltu => .bltu (fRs1 w) (fRs2 w) (fImmB w)
  | .bgeu => .bgeu (fRs1 w) (fRs2 w) (fImmB w)
  | .lb => .lb (fRd w) (fRs1 w) (fImmI w)
  | .lh => .lh (fRd w) (fRs1 w) (fImmI w)
  | .lw => .lw (fRd w) (fRs1 w) (fImmI w)
  | .lbu => .lbu (fRd w) (fRs1 w) (fImmI w)
  | .lhu => .lhu (fRd w) (fRs1 w) (fImmI w)
  | .lwu => .lwu (fRd w) (fRs1 w) (fImmI w)
  | .ld => .ld (fRd w) (fRs1 w) (fImmI w)
  | .sb => .sb (fRs1 w) (fRs2 w) (fImmS w)
  | .sh => .sh (fRs1 w) (fRs2 w) (fImmS w)
  | .sw => .sw (fRs1 w) (fRs2 w) (fImmS w)
  | .sd => .sd (fRs1 w) (fRs2 w) (fImmS w)
  | .addi => .addi (fRd w) (fRs1 w) (fImmI w)
  | .slti => .slti (fRd w) (fRs1 w) (fImmI w)
  | .sltiu => .sltiu (fRd w) (fRs1 w) (fImmI w)
  | .xori => .xori (fRd w) (fRs1 w) (fImmI w)
  | .ori => .ori (fRd w) (fRs1 w) (fImmI w)
  | .andi => .andi (fRd w) (fRs1 w) (fImmI w)
  | .slli => .slli (fRd w) (fRs1 w) (fShamt w)
  | .srli => .srli (fRd w) (fRs1 w) (fShamt w)
  | .srai => .srai (fRd w) (fRs1 w) (fShamt w)
  | .add => .add (fRd w) (fRs1 w) (fRs2 w)
  | .sub => .sub (fRd w) (fRs1 w) (fRs2 w)
  | .sll => .sll (fRd w) (fRs1 w) (fRs2 w)
  | .slt => .slt (fRd w) (fRs1 w) (fRs2 w)
  | .sltu => .sltu (fRd w) (fRs1 w) (fRs2 w)
  | .xor => .xor (fRd w) (fRs1 w) (fRs2 w)
  | .srl => .srl (fRd w) (fRs1 w) (fRs2 w)
  | .sra => .sra (fRd w) (fRs1 w) (fRs2 w)
  | .or => .or (fRd w) (fRs1 w) (fRs2 w)
  | .and => .and (fRd w) (fRs1 w) (fRs2 w)
  | .fence => .fence (fFm w) (fPred w) (fSucc w) (fRs1 w) (fRd w)
  | .ecall => .ecall
  | .ebreak => .ebreak
  | .addiw => .addiw (fRd w) (fRs1 w) (fImmI w)
  | .slliw => .slliw (fRd w) (fRs1 w) (fShamtW w)
  | .srliw => .srliw (fRd w) (fRs1 w) (fShamtW w)
  | .sraiw => .sraiw (fRd w) (fRs1 w) (fShamtW w)
  | .addw => .addw (fRd w) (fRs1 w) (fRs2 w)
  | .subw => .subw (fRd w) (fRs1 w) (fRs2 w)
  | .sllw => .sllw (fRd w) (fRs1 w) (fRs2 w)
  | .srlw => .srlw (fRd w) (fRs1 w) (fRs2 w)
  | .sraw => .sraw (fRd w) (fRs1 w) (fRs2 w)
  | .fenceI => .fenceI (fImmI w) (fRs1 w) (fRd w)
  | .csrrw => .csrrw (fRd w) (fCsr w) (fRs1 w)
  | .csrrs => .csrrs (fRd w) (fCsr w) (fRs1 w)
  | .csrrc => .csrrc (fRd w) (fCsr w) (fRs1 w)
  | .csrrwi => .csrrwi (fRd w) (fCsr w) (fRs1 w)
  | .csrrsi => .csrrsi (fRd w) (fCsr w) (fRs1 w)
  | .csrrci => .csrrci (fRd w) (fCsr w) (fRs1 w)
  | .mul => .mul (fRd w) (fRs1 w) (fRs2 w)
  | .mulh => .mulh (fRd w) (fRs1 w) (fRs2 w)
  | .mulhsu => .mulhsu (fRd w) (fRs1 w) (fRs2 w)
  | .mulhu => .mulhu (fRd w) (fRs1 w) (fRs2 w)
  | .div => .div (fRd w) (fRs1 w) (fRs2 w)
  | .divu => .divu (fRd w) (fRs1 w) (fRs2 w)
  | .rem => .rem (fRd w) (fRs1 w) (fRs2 w)
  | .remu => .remu (fRd w) (fRs1 w) (fRs2 w)
  | .mulw => .mulw (fRd w) (fRs1 w) (fRs2 w)
  | .divw => .divw (fRd w) (fRs1 w) (fRs2 w)
  | .divuw => .divuw (fRd w) (fRs1 w) (fRs2 w)
  | .remw => .remw (fRd w) (fRs1 w) (fRs2 w)
  | .remuw => .remuw (fRd w) (fRs1 w) (fRs2 w)
  | .lrW => .lrW (fRd w) (fRs1 w) (fAq w) (fRl w)
  | .scW => .scW (fRd w) (fRs1 w) (fRs2 w) (fAq w) (fRl w)
  | .lrD => .lrD (fRd w) (fRs1 w) (fAq w) (fRl w)
  | .scD => .scD (fRd w) (fRs1 w) (fRs2 w) (fAq w) (fRl w)
  | .cInvalid => .cInvalid
  | .cAddi4spnRes => .cAddi4spnRes (fCRdLo w)
  | .cAddi4spn => .cAddi4spn (fCRdLo w) (fImmCIW w)
  | .cFld => .cFld (fCRdLo w) (fCRs1 w) (fImmCLd w)
  | .cLw => .cLw (fCRdLo w) (fCRs1 w) (fImmCLw w)
  | .cFlw => .cFlw (fCRdLo w) (fCRs1 w) (fImmCLw w)
  | .cLd => .cLd (fCRdLo w) (fCRs1 w) (fImmCLd w)
  | .cFsd => .cFsd (fCRs1 w) (fCRdLo w) (fImmCLd w)
  | .cSw => .cSw (fCRs1 w) (fCRdLo w) (fImmCLw w)
  | .cFsw => .cFsw (fCRs1 w) (fCRdLo w) (fImmCLw w)
  | .cSd => .cSd (fCRs1 w) (fCRdLo w) (fImmCLd w)
  | .cNop => .cNop
  | .cAddi => .cAddi (fRd w) (fImmCI w)
  | .cJal => .cJal (fImmCJ w)
  | .cAddiwRes => .cAddiwRes (fImmCI w)
  | .cAddiw => .cAddiw (fRd w) (fImmCI w)
  | .cLi => .cLi (fRd w) (fImmCI w)
  | .cAddi16spRes => .cAddi16spRes
  | .cAddi16sp => .cAddi16sp (fImmCI16 w)
  | .cLuiRes => .cLuiRes (fRd w)
  | .cLui => .cLui (fRd w) (fImmCI w)
  | .cSrli => .cSrli (fCRs1 w) (fImmCI w)
  | .cSrai => .cSrai (fCRs1 w) (fImmCI w)
  | .cAndi => .cAndi (fCRs1 w) (fImmCI w)
  | .cSub => .cSub (fCRs1 w) (fCRdLo w)
  | .cXor => .cXor (fCRs1 w) (fCRdLo w)
  | .cOr => .cOr (fCRs1 w) (fCRdLo w)
  | .cAnd => .cAnd (fCRs1 w) (fCRdLo w)
  | .cSubw => .cSubw (fCRs1 w) (fCRdLo w)
  | .cAddw => .cAddw (fCRs1 w) (fCRdLo w)
  | .cJ => .cJ (fImmCJ w)
  | .cBeqz => .cBeqz (fCRs1 w) (fImmCB w)
  | .cBnez => .cBnez (fCRs1 w) (fImmCB w)
  | .cSlli => .cSlli (fRd w) (fImmCI w)
  | .cFldsp => .cFldsp (fRd w) (fImmCILd w)
  | .cLwspRes => .cLwspRes (fImmCILw w)
  | .cLwsp => .cLwsp (fRd w) (fImmCILw w)
  | .cFlwsp => .cFlwsp (fRd w) (fImmCILw w)
  | .cLdspRes => .cLdspRes (fImmCILd w)
  | .cLdsp => .cLdsp (fRd w) (fImmCILd w)
  | .cJrRes => .cJrRes
  | .cJr => .cJr (fRd w)
  | .cMv => .cMv (fRd w) (fCRs2 w)
  | .cEbreak => .cEbreak
  | .cJalr => .cJalr (fRd w)
  | .cAdd => .cAdd (fRd w) (fCRs2 w)
  | .cFsdsp => .cFsdsp (fCRs2 w) (fImmCSSd w)
  | .cSwsp => .cSwsp (fCRs2 w) (fImmCSSw w)
  | .cFswsp => .cFswsp (fCRs2 w) (fImmCSSw w)
  | .cSdsp => .cSdsp (fCRs2 w) (fImmCSSd w)

/-! ### The decoder -/

/-- Both low bits 1: a 32-bit instruction (R80, R131). -/
def isWide (w : BitVec 32) : Bool := bits w 0 2 == 3

/-- The byte length of the instruction in a fetched word: 4 or 2 (R131). -/
def widthOf (w : BitVec 32) : Nat := if isWide w then 4 else 2

/-- The word presented to the registry: all 32 bits, or the low half-word zero-extended (R102, R131). -/
def instrWord (raw : BitVec 32) : BitVec 32 := if isWide raw then raw else (bits raw 0 16).setWidth 32

/-- The instruction descriptor (R117): the word and the definition it matched. Its standard, its format and its fields are
computed from these on demand, its mnemonic too (`Descriptor.mnemonic`). -/
structure Descriptor where
  /-- The instruction word. -/
  word : BitVec 32
  /-- The matched definition. -/
  row : Row
  deriving DecidableEq, Repr

/-- The descriptor of a fetched word; `none` is the decode miss of R108 and R142. -/
def describe (xl : Xlen) (raw : BitVec 32) : Option Descriptor :=
  (findRow xl (instrWord raw)).map fun r => ⟨instrWord raw, r⟩

/-- The descriptor's standard (R117). -/
def Descriptor.standard (d : Descriptor) : Standard := d.row.standard

/-- The descriptor's format (R117). -/
def Descriptor.format (d : Descriptor) : OpFormat := d.row.format

/-- The descriptor's fields, as an instruction (R117). -/
def Descriptor.instr (d : Descriptor) : Instr := fieldsOf d.row.op d.word

/-- The instruction a fetched word holds; `none` is the decode miss of R108 and R142. -/
def decodeWord (xl : Xlen) (raw : BitVec 32) : Option Instr := (describe xl raw).map Descriptor.instr

/-- Why bytes do not decode. -/
inductive DecodeError where
  /-- No registry entry matches the word: the decode miss (R108). -/
  | noEntry (word : BitVec 32)
  /-- Fewer bytes than the instruction's length. -/
  | truncated
  deriving DecidableEq, Repr

/-- The decoder over bytes, lowest address first: the instruction and the bytes after it, or the reason there is none. -/
def decode (xl : Xlen) : List Byte → Except DecodeError (Instr × List Byte)
  | b0 :: b1 :: rest =>
    if isWide (b0.setWidth 32) then
      match rest with
      | b2 :: b3 :: rest' =>
        match decodeWord xl (b3 ++ b2 ++ b1 ++ b0) with
        | some i => .ok (i, rest')
        | none => .error (.noEntry (b3 ++ b2 ++ b1 ++ b0))
      | _ => .error .truncated
    else
      match decodeWord xl ((b1 ++ b0).setWidth 32) with
      | some i => .ok (i, rest)
      | none => .error (.noEntry ((b1 ++ b0).setWidth 32))
  | _ => .error .truncated

/-- Byte `k` of a number laid out little-endian. -/
def leByte (w k : Nat) : Byte := BitVec.ofNat 8 (w >>> (8 * k))

/-- The first four bytes of the instruction whose bits, numbered as spec/opcode_table.json numbers them, are the low `nbits`
of `w`; every bit above is 0. -/
def tableBytes (nbits w : Nat) : List Byte :=
  let v := w % 2 ^ nbits
  [leByte v 0, leByte v 1, leByte v 2, leByte v 3]

/-- What the decoder of this XLEN reads from the instruction whose bits are `w`. -/
def decodeTableWordFor (xl : Xlen) (nbits w : Nat) : Option Instr :=
  match decode xl (tableBytes nbits w) with
  | .ok (i, _) => some i
  | .error _ => none

/-- The same for the primary configuration, XLEN = 64 (R2, D1), which is the one State.reset has. -/
def decodeTableWord (nbits w : Nat) : Option Instr := decodeTableWordFor .rv64 nbits w

/-! ### The encoder: the field constructors of R310 and their compressed counterparts -/

/-- `v` placed with its bit 0 at bit `lo` of a word. -/
def place {n : Nat} (v : BitVec n) (lo : Nat) : BitVec 32 := v.setWidth 32 <<< lo

/-- U format: `imm` in bits 31:12 (R81). -/
def encU (base : BitVec 32) (rd : RegIdx) (imm : BitVec 20) : BitVec 32 := base ||| place rd 7 ||| place imm 12
/-- J format: offset[20], [10:1], [11], [19:12] in bits 31, 30:21, 20, 19:12 (R81). -/
def encJ (base : BitVec 32) (rd : RegIdx) (off : BitVec 20) : BitVec 32 :=
  base ||| place rd 7 ||| place (off.extractLsb' 11 8) 12 ||| place (off.extractLsb' 10 1) 20 |||
    place (off.extractLsb' 0 10) 21 ||| place (off.extractLsb' 19 1) 31
/-- I format (R81). -/
def encI (base : BitVec 32) (rd rs1 : RegIdx) (imm : BitVec 12) : BitVec 32 :=
  base ||| place rd 7 ||| place rs1 15 ||| place imm 20
/-- S format: imm[4:0] in bits 11:7, imm[11:5] in bits 31:25 (R81). -/
def encS (base : BitVec 32) (rs1 rs2 : RegIdx) (imm : BitVec 12) : BitVec 32 :=
  base ||| place (imm.extractLsb' 0 5) 7 ||| place rs1 15 ||| place rs2 20 ||| place (imm.extractLsb' 5 7) 25
/-- B format: offset[11], [4:1], [10:5], [12] in bits 7, 11:8, 30:25, 31 (R81). -/
def encB (base : BitVec 32) (rs1 rs2 : RegIdx) (off : BitVec 12) : BitVec 32 :=
  base ||| place (off.extractLsb' 10 1) 7 ||| place (off.extractLsb' 0 4) 8 ||| place rs1 15 ||| place rs2 20 |||
    place (off.extractLsb' 4 6) 25 ||| place (off.extractLsb' 11 1) 31
/-- I-shift format, six bits of amount (R81). -/
def encShift (base : BitVec 32) (rd rs1 : RegIdx) (shamt : BitVec 6) : BitVec 32 :=
  base ||| place rd 7 ||| place rs1 15 ||| place shamt 20
/-- I-shift format of the word shifts, five bits of amount (R81, R91). -/
def encShiftW (base : BitVec 32) (rd rs1 : RegIdx) (shamt : BitVec 5) : BitVec 32 :=
  base ||| place rd 7 ||| place rs1 15 ||| place shamt 20
/-- R format (R81). -/
def encR (base : BitVec 32) (rd rs1 rs2 : RegIdx) : BitVec 32 := base ||| place rd 7 ||| place rs1 15 ||| place rs2 20
/-- fence format (R81). -/
def encFence (base : BitVec 32) (fm pred succ : BitVec 4) (rs1 rd : RegIdx) : BitVec 32 :=
  base ||| place rd 7 ||| place rs1 15 ||| place succ 20 ||| place pred 24 ||| place fm 28
/-- `fence.i`: I format with every field free (R105). -/
def encFenceI (base : BitVec 32) (imm : BitVec 12) (rs1 rd : RegIdx) : BitVec 32 :=
  base ||| place rd 7 ||| place rs1 15 ||| place imm 20
/-- CSR format (R81). -/
def encCsr (base : BitVec 32) (rd : RegIdx) (csr : BitVec 12) (rs1 : BitVec 5) : BitVec 32 :=
  base ||| place rd 7 ||| place rs1 15 ||| place csr 20
/-- R-atomic format with `rs2 = 00000` (R105). -/
def encLr (base : BitVec 32) (rd rs1 : RegIdx) (aq rl : BitVec 1) : BitVec 32 :=
  base ||| place rd 7 ||| place rs1 15 ||| place rl 25 ||| place aq 26
/-- R-atomic format (R81). -/
def encSc (base : BitVec 32) (rd rs1 rs2 : RegIdx) (aq rl : BitVec 1) : BitVec 32 :=
  base ||| place rd 7 ||| place rs1 15 ||| place rs2 20 ||| place rl 25 ||| place aq 26
/-- A prime register in bits 4:2 alone. -/
def encCRdP (base : BitVec 32) (rd : CRegIdx) : BitVec 32 := base ||| place rd 2
/-- CIW: nzuimm[5:4], [9:6], [2], [3] in bits 12:11, 10:7, 6, 5 (R94). -/
def encCIW (base : BitVec 32) (rd : CRegIdx) (imm : BitVec 8) : BitVec 32 :=
  base ||| place rd 2 ||| place (imm.extractLsb' 1 1) 5 ||| place (imm.extractLsb' 0 1) 6 |||
    place (imm.extractLsb' 4 4) 7 ||| place (imm.extractLsb' 2 2) 11
/-- CL, word offset: offset[6], [5:3], [2] in bits 5, 12:10, 6 (R96). -/
def encCLw (base : BitVec 32) (rd rs1 : CRegIdx) (uimm : BitVec 5) : BitVec 32 :=
  base ||| place rd 2 ||| place (uimm.extractLsb' 4 1) 5 ||| place (uimm.extractLsb' 0 1) 6 ||| place rs1 7 |||
    place (uimm.extractLsb' 1 3) 10
/-- CL, doubleword offset: offset[7:6], [5:3] in bits 6:5, 12:10 (R96). -/
def encCLd (base : BitVec 32) (rd rs1 : CRegIdx) (uimm : BitVec 5) : BitVec 32 :=
  base ||| place rd 2 ||| place (uimm.extractLsb' 3 2) 5 ||| place rs1 7 ||| place (uimm.extractLsb' 0 3) 10
/-- CS, word offset: as CL with `rs2'` in bits 4:2 (R82). -/
def encCSw (base : BitVec 32) (rs1 rs2 : CRegIdx) (uimm : BitVec 5) : BitVec 32 := encCLw base rs2 rs1 uimm
/-- CS, doubleword offset (R82). -/
def encCSd (base : BitVec 32) (rs1 rs2 : CRegIdx) (uimm : BitVec 5) : BitVec 32 := encCLd base rs2 rs1 uimm
/-- CI: imm[5] in bit 12, imm[4:0] in bits 6:2 (R82). -/
def encCI (base : BitVec 32) (rd : RegIdx) (imm : BitVec 6) : BitVec 32 :=
  base ||| place (imm.extractLsb' 0 5) 2 ||| place rd 7 ||| place (imm.extractLsb' 5 1) 12
/-- CI with `rd` fixed by the matcher. -/
def encCI0 (base : BitVec 32) (imm : BitVec 6) : BitVec 32 := encCI base 0 imm
/-- `c.addi16sp`: imm[9], [8:7], [6], [5], [4] in bits 12, 4:3, 5, 2, 6 (R96). -/
def encCI16 (base : BitVec 32) (imm : BitVec 6) : BitVec 32 :=
  base ||| place (imm.extractLsb' 1 1) 2 ||| place (imm.extractLsb' 3 2) 3 ||| place (imm.extractLsb' 2 1) 5 |||
    place (imm.extractLsb' 0 1) 6 ||| place (imm.extractLsb' 5 1) 12
/-- A full register in bits 11:7 alone. -/
def encCRd (base : BitVec 32) (rd : RegIdx) : BitVec 32 := base ||| place rd 7
/-- CJ: offset[11], [4], [9:8], [10], [6], [7], [3:1], [5] in bits 12, 11, 10:9, 8, 7, 6, 5:3, 2 (R96). -/
def encCJ (base : BitVec 32) (off : BitVec 11) : BitVec 32 :=
  base ||| place (off.extractLsb' 4 1) 2 ||| place (off.extractLsb' 0 3) 3 ||| place (off.extractLsb' 6 1) 6 |||
    place (off.extractLsb' 5 1) 7 ||| place (off.extractLsb' 9 1) 8 ||| place (off.extractLsb' 7 2) 9 |||
    place (off.extractLsb' 3 1) 11 ||| place (off.extractLsb' 10 1) 12
/-- CB with a six-bit operand (shift amount or immediate): bit 5 in bit 12, bits 4:0 in bits 6:2 (R82). -/
def encCBImm (base : BitVec 32) (rd : CRegIdx) (imm : BitVec 6) : BitVec 32 :=
  base ||| place (imm.extractLsb' 0 5) 2 ||| place rd 7 ||| place (imm.extractLsb' 5 1) 12
/-- CA (R82). -/
def encCA (base : BitVec 32) (rd rs2 : CRegIdx) : BitVec 32 := base ||| place rs2 2 ||| place rd 7
/-- CB branch: offset[8], [4:3], [7:6], [2:1], [5] in bits 12, 11:10, 6:5, 4:3, 2 (R96). -/
def encCB (base : BitVec 32) (rs1 : CRegIdx) (off : BitVec 8) : BitVec 32 :=
  base ||| place (off.extractLsb' 4 1) 2 ||| place (off.extractLsb' 0 2) 3 ||| place (off.extractLsb' 5 2) 5 |||
    place rs1 7 ||| place (off.extractLsb' 2 2) 10 ||| place (off.extractLsb' 7 1) 12
/-- CI, word stack offset: offset[5], [4:2], [7:6] in bits 12, 6:4, 3:2 (R96). -/
def encCILw (rd : RegIdx) (base : BitVec 32) (uimm : BitVec 6) : BitVec 32 :=
  base ||| place (uimm.extractLsb' 4 2) 2 ||| place (uimm.extractLsb' 0 3) 4 ||| place rd 7 |||
    place (uimm.extractLsb' 3 1) 12
/-- CI, doubleword stack offset: offset[5], [4:3], [8:6] in bits 12, 6:5, 4:2 (R96). -/
def encCILd (rd : RegIdx) (base : BitVec 32) (uimm : BitVec 6) : BitVec 32 :=
  base ||| place (uimm.extractLsb' 3 3) 2 ||| place (uimm.extractLsb' 0 2) 5 ||| place rd 7 |||
    place (uimm.extractLsb' 2 1) 12
/-- CR (R82). -/
def encCR (base : BitVec 32) (rd rs2 : RegIdx) : BitVec 32 := base ||| place rs2 2 ||| place rd 7
/-- CSS, word offset: offset[5:2], [7:6] in bits 12:9, 8:7 (R95). -/
def encCSSw (base : BitVec 32) (rs2 : RegIdx) (uimm : BitVec 6) : BitVec 32 :=
  base ||| place rs2 2 ||| place (uimm.extractLsb' 4 2) 7 ||| place (uimm.extractLsb' 0 4) 9
/-- CSS, doubleword offset: offset[5:3], [8:6] in bits 12:10, 9:7 (R95). -/
def encCSSd (base : BitVec 32) (rs2 : RegIdx) (uimm : BitVec 6) : BitVec 32 :=
  base ||| place rs2 2 ||| place (uimm.extractLsb' 3 3) 7 ||| place (uimm.extractLsb' 0 3) 10

/-- The word of an instruction, the fixed bits being the row's wanted pattern (R104, R105, R363); a 16-bit instruction's word
is zero-extended. -/
def encode : Instr → BitVec 32
  | .lui rd imm => encU 0x00000037 rd imm
  | .auipc rd imm => encU 0x00000017 rd imm
  | .jal rd off => encJ 0x0000006f rd off
  | .jalr rd rs1 imm => encI 0x00000067 rd rs1 imm
  | .beq rs1 rs2 off => encB 0x00000063 rs1 rs2 off
  | .bne rs1 rs2 off => encB 0x00001063 rs1 rs2 off
  | .blt rs1 rs2 off => encB 0x00004063 rs1 rs2 off
  | .bge rs1 rs2 off => encB 0x00005063 rs1 rs2 off
  | .bltu rs1 rs2 off => encB 0x00006063 rs1 rs2 off
  | .bgeu rs1 rs2 off => encB 0x00007063 rs1 rs2 off
  | .lb rd rs1 imm => encI 0x00000003 rd rs1 imm
  | .lh rd rs1 imm => encI 0x00001003 rd rs1 imm
  | .lw rd rs1 imm => encI 0x00002003 rd rs1 imm
  | .lbu rd rs1 imm => encI 0x00004003 rd rs1 imm
  | .lhu rd rs1 imm => encI 0x00005003 rd rs1 imm
  | .lwu rd rs1 imm => encI 0x00006003 rd rs1 imm
  | .ld rd rs1 imm => encI 0x00003003 rd rs1 imm
  | .sb rs1 rs2 imm => encS 0x00000023 rs1 rs2 imm
  | .sh rs1 rs2 imm => encS 0x00001023 rs1 rs2 imm
  | .sw rs1 rs2 imm => encS 0x00002023 rs1 rs2 imm
  | .sd rs1 rs2 imm => encS 0x00003023 rs1 rs2 imm
  | .addi rd rs1 imm => encI 0x00000013 rd rs1 imm
  | .slti rd rs1 imm => encI 0x00002013 rd rs1 imm
  | .sltiu rd rs1 imm => encI 0x00003013 rd rs1 imm
  | .xori rd rs1 imm => encI 0x00004013 rd rs1 imm
  | .ori rd rs1 imm => encI 0x00006013 rd rs1 imm
  | .andi rd rs1 imm => encI 0x00007013 rd rs1 imm
  | .slli rd rs1 shamt => encShift 0x00001013 rd rs1 shamt
  | .srli rd rs1 shamt => encShift 0x00005013 rd rs1 shamt
  | .srai rd rs1 shamt => encShift 0x40005013 rd rs1 shamt
  | .add rd rs1 rs2 => encR 0x00000033 rd rs1 rs2
  | .sub rd rs1 rs2 => encR 0x40000033 rd rs1 rs2
  | .sll rd rs1 rs2 => encR 0x00001033 rd rs1 rs2
  | .slt rd rs1 rs2 => encR 0x00002033 rd rs1 rs2
  | .sltu rd rs1 rs2 => encR 0x00003033 rd rs1 rs2
  | .xor rd rs1 rs2 => encR 0x00004033 rd rs1 rs2
  | .srl rd rs1 rs2 => encR 0x00005033 rd rs1 rs2
  | .sra rd rs1 rs2 => encR 0x40005033 rd rs1 rs2
  | .or rd rs1 rs2 => encR 0x00006033 rd rs1 rs2
  | .and rd rs1 rs2 => encR 0x00007033 rd rs1 rs2
  | .fence fm pred succ rs1 rd => encFence 0x0000000f fm pred succ rs1 rd
  | .ecall => 0x00000073
  | .ebreak => 0x00100073
  | .addiw rd rs1 imm => encI 0x0000001b rd rs1 imm
  | .slliw rd rs1 shamt => encShiftW 0x0000101b rd rs1 shamt
  | .srliw rd rs1 shamt => encShiftW 0x0000501b rd rs1 shamt
  | .sraiw rd rs1 shamt => encShiftW 0x4000501b rd rs1 shamt
  | .addw rd rs1 rs2 => encR 0x0000003b rd rs1 rs2
  | .subw rd rs1 rs2 => encR 0x4000003b rd rs1 rs2
  | .sllw rd rs1 rs2 => encR 0x0000103b rd rs1 rs2
  | .srlw rd rs1 rs2 => encR 0x0000503b rd rs1 rs2
  | .sraw rd rs1 rs2 => encR 0x4000503b rd rs1 rs2
  | .fenceI imm rs1 rd => encFenceI 0x0000100f imm rs1 rd
  | .csrrw rd csr rs1 => encCsr 0x00001073 rd csr rs1
  | .csrrs rd csr rs1 => encCsr 0x00002073 rd csr rs1
  | .csrrc rd csr rs1 => encCsr 0x00003073 rd csr rs1
  | .csrrwi rd csr uimm => encCsr 0x00005073 rd csr uimm
  | .csrrsi rd csr uimm => encCsr 0x00006073 rd csr uimm
  | .csrrci rd csr uimm => encCsr 0x00007073 rd csr uimm
  | .mul rd rs1 rs2 => encR 0x02000033 rd rs1 rs2
  | .mulh rd rs1 rs2 => encR 0x02001033 rd rs1 rs2
  | .mulhsu rd rs1 rs2 => encR 0x02002033 rd rs1 rs2
  | .mulhu rd rs1 rs2 => encR 0x02003033 rd rs1 rs2
  | .div rd rs1 rs2 => encR 0x02004033 rd rs1 rs2
  | .divu rd rs1 rs2 => encR 0x02005033 rd rs1 rs2
  | .rem rd rs1 rs2 => encR 0x02006033 rd rs1 rs2
  | .remu rd rs1 rs2 => encR 0x02007033 rd rs1 rs2
  | .mulw rd rs1 rs2 => encR 0x0200003b rd rs1 rs2
  | .divw rd rs1 rs2 => encR 0x0200403b rd rs1 rs2
  | .divuw rd rs1 rs2 => encR 0x0200503b rd rs1 rs2
  | .remw rd rs1 rs2 => encR 0x0200603b rd rs1 rs2
  | .remuw rd rs1 rs2 => encR 0x0200703b rd rs1 rs2
  | .lrW rd rs1 aq rl => encLr 0x1000202f rd rs1 aq rl
  | .scW rd rs1 rs2 aq rl => encSc 0x1800202f rd rs1 rs2 aq rl
  | .lrD rd rs1 aq rl => encLr 0x1000302f rd rs1 aq rl
  | .scD rd rs1 rs2 aq rl => encSc 0x1800302f rd rs1 rs2 aq rl
  | .cInvalid => 0x00000000
  | .cAddi4spnRes rd => encCRdP 0x00000000 rd
  | .cAddi4spn rd imm => encCIW 0x00000000 rd imm
  | .cFld rd rs1 uimm => encCLd 0x00002000 rd rs1 uimm
  | .cLw rd rs1 uimm => encCLw 0x00004000 rd rs1 uimm
  | .cFlw rd rs1 uimm => encCLw 0x00006000 rd rs1 uimm
  | .cLd rd rs1 uimm => encCLd 0x00006000 rd rs1 uimm
  | .cFsd rs1 rs2 uimm => encCSd 0x0000a000 rs1 rs2 uimm
  | .cSw rs1 rs2 uimm => encCSw 0x0000c000 rs1 rs2 uimm
  | .cFsw rs1 rs2 uimm => encCSw 0x0000e000 rs1 rs2 uimm
  | .cSd rs1 rs2 uimm => encCSd 0x0000e000 rs1 rs2 uimm
  | .cNop => 0x00000001
  | .cAddi rd imm => encCI 0x00000001 rd imm
  | .cJal off => encCJ 0x00002001 off
  | .cAddiwRes imm => encCI0 0x00002001 imm
  | .cAddiw rd imm => encCI 0x00002001 rd imm
  | .cLi rd imm => encCI 0x00004001 rd imm
  | .cAddi16spRes => 0x00006101
  | .cAddi16sp imm => encCI16 0x00006101 imm
  | .cLuiRes rd => encCRd 0x00006001 rd
  | .cLui rd imm => encCI 0x00006001 rd imm
  | .cSrli rd shamt => encCBImm 0x00008001 rd shamt
  | .cSrai rd shamt => encCBImm 0x00008401 rd shamt
  | .cAndi rd imm => encCBImm 0x00008801 rd imm
  | .cSub rd rs2 => encCA 0x00008c01 rd rs2
  | .cXor rd rs2 => encCA 0x00008c21 rd rs2
  | .cOr rd rs2 => encCA 0x00008c41 rd rs2
  | .cAnd rd rs2 => encCA 0x00008c61 rd rs2
  | .cSubw rd rs2 => encCA 0x00009c01 rd rs2
  | .cAddw rd rs2 => encCA 0x00009c21 rd rs2
  | .cJ off => encCJ 0x0000a001 off
  | .cBeqz rs1 off => encCB 0x0000c001 rs1 off
  | .cBnez rs1 off => encCB 0x0000e001 rs1 off
  | .cSlli rd shamt => encCI 0x00000002 rd shamt
  | .cFldsp rd uimm => encCILd rd 0x00002002 uimm
  | .cLwspRes uimm => encCILw 0 0x00004002 uimm
  | .cLwsp rd uimm => encCILw rd 0x00004002 uimm
  | .cFlwsp rd uimm => encCILw rd 0x00006002 uimm
  | .cLdspRes uimm => encCILd 0 0x00006002 uimm
  | .cLdsp rd uimm => encCILd rd 0x00006002 uimm
  | .cJrRes => 0x00008002
  | .cJr rs1 => encCRd 0x00008002 rs1
  | .cMv rd rs2 => encCR 0x00008002 rd rs2
  | .cEbreak => 0x00009002
  | .cJalr rs1 => encCRd 0x00009002 rs1
  | .cAdd rd rs2 => encCR 0x00009002 rd rs2
  | .cFsdsp rs2 uimm => encCSSd 0x0000a002 rs2 uimm
  | .cSwsp rs2 uimm => encCSSw 0x0000c002 rs2 uimm
  | .cFswsp rs2 uimm => encCSSw 0x0000e002 rs2 uimm
  | .cSdsp rs2 uimm => encCSSd 0x0000e002 rs2 uimm

/-- The entry an instruction belongs to. -/
def Instr.op : Instr → Op
  | .lui .. => .lui
  | .auipc .. => .auipc
  | .jal .. => .jal
  | .jalr .. => .jalr
  | .beq .. => .beq
  | .bne .. => .bne
  | .blt .. => .blt
  | .bge .. => .bge
  | .bltu .. => .bltu
  | .bgeu .. => .bgeu
  | .lb .. => .lb
  | .lh .. => .lh
  | .lw .. => .lw
  | .lbu .. => .lbu
  | .lhu .. => .lhu
  | .lwu .. => .lwu
  | .ld .. => .ld
  | .sb .. => .sb
  | .sh .. => .sh
  | .sw .. => .sw
  | .sd .. => .sd
  | .addi .. => .addi
  | .slti .. => .slti
  | .sltiu .. => .sltiu
  | .xori .. => .xori
  | .ori .. => .ori
  | .andi .. => .andi
  | .slli .. => .slli
  | .srli .. => .srli
  | .srai .. => .srai
  | .add .. => .add
  | .sub .. => .sub
  | .sll .. => .sll
  | .slt .. => .slt
  | .sltu .. => .sltu
  | .xor .. => .xor
  | .srl .. => .srl
  | .sra .. => .sra
  | .or .. => .or
  | .and .. => .and
  | .fence .. => .fence
  | .ecall => .ecall
  | .ebreak => .ebreak
  | .addiw .. => .addiw
  | .slliw .. => .slliw
  | .srliw .. => .srliw
  | .sraiw .. => .sraiw
  | .addw .. => .addw
  | .subw .. => .subw
  | .sllw .. => .sllw
  | .srlw .. => .srlw
  | .sraw .. => .sraw
  | .fenceI .. => .fenceI
  | .csrrw .. => .csrrw
  | .csrrs .. => .csrrs
  | .csrrc .. => .csrrc
  | .csrrwi .. => .csrrwi
  | .csrrsi .. => .csrrsi
  | .csrrci .. => .csrrci
  | .mul .. => .mul
  | .mulh .. => .mulh
  | .mulhsu .. => .mulhsu
  | .mulhu .. => .mulhu
  | .div .. => .div
  | .divu .. => .divu
  | .rem .. => .rem
  | .remu .. => .remu
  | .mulw .. => .mulw
  | .divw .. => .divw
  | .divuw .. => .divuw
  | .remw .. => .remw
  | .remuw .. => .remuw
  | .lrW .. => .lrW
  | .scW .. => .scW
  | .lrD .. => .lrD
  | .scD .. => .scD
  | .cInvalid => .cInvalid
  | .cAddi4spnRes .. => .cAddi4spnRes
  | .cAddi4spn .. => .cAddi4spn
  | .cFld .. => .cFld
  | .cLw .. => .cLw
  | .cFlw .. => .cFlw
  | .cLd .. => .cLd
  | .cFsd .. => .cFsd
  | .cSw .. => .cSw
  | .cFsw .. => .cFsw
  | .cSd .. => .cSd
  | .cNop => .cNop
  | .cAddi .. => .cAddi
  | .cJal .. => .cJal
  | .cAddiwRes .. => .cAddiwRes
  | .cAddiw .. => .cAddiw
  | .cLi .. => .cLi
  | .cAddi16spRes => .cAddi16spRes
  | .cAddi16sp .. => .cAddi16sp
  | .cLuiRes .. => .cLuiRes
  | .cLui .. => .cLui
  | .cSrli .. => .cSrli
  | .cSrai .. => .cSrai
  | .cAndi .. => .cAndi
  | .cSub .. => .cSub
  | .cXor .. => .cXor
  | .cOr .. => .cOr
  | .cAnd .. => .cAnd
  | .cSubw .. => .cSubw
  | .cAddw .. => .cAddw
  | .cJ .. => .cJ
  | .cBeqz .. => .cBeqz
  | .cBnez .. => .cBnez
  | .cSlli .. => .cSlli
  | .cFldsp .. => .cFldsp
  | .cLwspRes .. => .cLwspRes
  | .cLwsp .. => .cLwsp
  | .cFlwsp .. => .cFlwsp
  | .cLdspRes .. => .cLdspRes
  | .cLdsp .. => .cLdsp
  | .cJrRes => .cJrRes
  | .cJr .. => .cJr
  | .cMv .. => .cMv
  | .cEbreak => .cEbreak
  | .cJalr .. => .cJalr
  | .cAdd .. => .cAdd
  | .cFsdsp .. => .cFsdsp
  | .cSwsp .. => .cSwsp
  | .cFswsp .. => .cFswsp
  | .cSdsp .. => .cSdsp

/-- The byte length of an entry's instruction (R80, R102). -/
def Op.width : Op → Nat
  | .lui => 4
  | .auipc => 4
  | .jal => 4
  | .jalr => 4
  | .beq => 4
  | .bne => 4
  | .blt => 4
  | .bge => 4
  | .bltu => 4
  | .bgeu => 4
  | .lb => 4
  | .lh => 4
  | .lw => 4
  | .lbu => 4
  | .lhu => 4
  | .lwu => 4
  | .ld => 4
  | .sb => 4
  | .sh => 4
  | .sw => 4
  | .sd => 4
  | .addi => 4
  | .slti => 4
  | .sltiu => 4
  | .xori => 4
  | .ori => 4
  | .andi => 4
  | .slli => 4
  | .srli => 4
  | .srai => 4
  | .add => 4
  | .sub => 4
  | .sll => 4
  | .slt => 4
  | .sltu => 4
  | .xor => 4
  | .srl => 4
  | .sra => 4
  | .or => 4
  | .and => 4
  | .fence => 4
  | .ecall => 4
  | .ebreak => 4
  | .addiw => 4
  | .slliw => 4
  | .srliw => 4
  | .sraiw => 4
  | .addw => 4
  | .subw => 4
  | .sllw => 4
  | .srlw => 4
  | .sraw => 4
  | .fenceI => 4
  | .csrrw => 4
  | .csrrs => 4
  | .csrrc => 4
  | .csrrwi => 4
  | .csrrsi => 4
  | .csrrci => 4
  | .mul => 4
  | .mulh => 4
  | .mulhsu => 4
  | .mulhu => 4
  | .div => 4
  | .divu => 4
  | .rem => 4
  | .remu => 4
  | .mulw => 4
  | .divw => 4
  | .divuw => 4
  | .remw => 4
  | .remuw => 4
  | .lrW => 4
  | .scW => 4
  | .lrD => 4
  | .scD => 4
  | .cInvalid => 2
  | .cAddi4spnRes => 2
  | .cAddi4spn => 2
  | .cFld => 2
  | .cLw => 2
  | .cFlw => 2
  | .cLd => 2
  | .cFsd => 2
  | .cSw => 2
  | .cFsw => 2
  | .cSd => 2
  | .cNop => 2
  | .cAddi => 2
  | .cJal => 2
  | .cAddiwRes => 2
  | .cAddiw => 2
  | .cLi => 2
  | .cAddi16spRes => 2
  | .cAddi16sp => 2
  | .cLuiRes => 2
  | .cLui => 2
  | .cSrli => 2
  | .cSrai => 2
  | .cAndi => 2
  | .cSub => 2
  | .cXor => 2
  | .cOr => 2
  | .cAnd => 2
  | .cSubw => 2
  | .cAddw => 2
  | .cJ => 2
  | .cBeqz => 2
  | .cBnez => 2
  | .cSlli => 2
  | .cFldsp => 2
  | .cLwspRes => 2
  | .cLwsp => 2
  | .cFlwsp => 2
  | .cLdspRes => 2
  | .cLdsp => 2
  | .cJrRes => 2
  | .cJr => 2
  | .cMv => 2
  | .cEbreak => 2
  | .cJalr => 2
  | .cAdd => 2
  | .cFsdsp => 2
  | .cSwsp => 2
  | .cFswsp => 2
  | .cSdsp => 2

/-- The byte length of an instruction: 2 for the compressed group, 4 otherwise. -/
def Instr.width (i : Instr) : Nat := i.op.width

/-- The bytes of an instruction, lowest address first (R54). -/
def encodeBytes (i : Instr) : List Byte :=
  (List.range i.width).map fun k => leByte (encode i).toNat k

/-- The kind of an entry (R99), from the table. -/
def Op.kind (op : Op) : Kind := ((rows.find? (·.op == op)).map (·.kind)).getD .reserved

/-- The mnemonic of an entry, as spec/opcode_table.json spells it. -/
def Op.mnemonic : Op → String
  | .lui => "lui"
  | .auipc => "auipc"
  | .jal => "jal"
  | .jalr => "jalr"
  | .beq => "beq"
  | .bne => "bne"
  | .blt => "blt"
  | .bge => "bge"
  | .bltu => "bltu"
  | .bgeu => "bgeu"
  | .lb => "lb"
  | .lh => "lh"
  | .lw => "lw"
  | .lbu => "lbu"
  | .lhu => "lhu"
  | .lwu => "lwu"
  | .ld => "ld"
  | .sb => "sb"
  | .sh => "sh"
  | .sw => "sw"
  | .sd => "sd"
  | .addi => "addi"
  | .slti => "slti"
  | .sltiu => "sltiu"
  | .xori => "xori"
  | .ori => "ori"
  | .andi => "andi"
  | .slli => "slli"
  | .srli => "srli"
  | .srai => "srai"
  | .add => "add"
  | .sub => "sub"
  | .sll => "sll"
  | .slt => "slt"
  | .sltu => "sltu"
  | .xor => "xor"
  | .srl => "srl"
  | .sra => "sra"
  | .or => "or"
  | .and => "and"
  | .fence => "fence"
  | .ecall => "ecall"
  | .ebreak => "ebreak"
  | .addiw => "addiw"
  | .slliw => "slliw"
  | .srliw => "srliw"
  | .sraiw => "sraiw"
  | .addw => "addw"
  | .subw => "subw"
  | .sllw => "sllw"
  | .srlw => "srlw"
  | .sraw => "sraw"
  | .fenceI => "fence.i"
  | .csrrw => "csrrw"
  | .csrrs => "csrrs"
  | .csrrc => "csrrc"
  | .csrrwi => "csrrwi"
  | .csrrsi => "csrrsi"
  | .csrrci => "csrrci"
  | .mul => "mul"
  | .mulh => "mulh"
  | .mulhsu => "mulhsu"
  | .mulhu => "mulhu"
  | .div => "div"
  | .divu => "divu"
  | .rem => "rem"
  | .remu => "remu"
  | .mulw => "mulw"
  | .divw => "divw"
  | .divuw => "divuw"
  | .remw => "remw"
  | .remuw => "remuw"
  | .lrW => "lr.w"
  | .scW => "sc.w"
  | .lrD => "lr.d"
  | .scD => "sc.d"
  | .cInvalid => "c.invalid"
  | .cAddi4spnRes => "c.addi4spn.res"
  | .cAddi4spn => "c.addi4spn"
  | .cFld => "c.fld"
  | .cLw => "c.lw"
  | .cFlw => "c.flw"
  | .cLd => "c.ld"
  | .cFsd => "c.fsd"
  | .cSw => "c.sw"
  | .cFsw => "c.fsw"
  | .cSd => "c.sd"
  | .cNop => "c.nop"
  | .cAddi => "c.addi"
  | .cJal => "c.jal"
  | .cAddiwRes => "c.addiw.res"
  | .cAddiw => "c.addiw"
  | .cLi => "c.li"
  | .cAddi16spRes => "c.addi16sp.res"
  | .cAddi16sp => "c.addi16sp"
  | .cLuiRes => "c.lui.res"
  | .cLui => "c.lui"
  | .cSrli => "c.srli"
  | .cSrai => "c.srai"
  | .cAndi => "c.andi"
  | .cSub => "c.sub"
  | .cXor => "c.xor"
  | .cOr => "c.or"
  | .cAnd => "c.and"
  | .cSubw => "c.subw"
  | .cAddw => "c.addw"
  | .cJ => "c.j"
  | .cBeqz => "c.beqz"
  | .cBnez => "c.bnez"
  | .cSlli => "c.slli"
  | .cFldsp => "c.fldsp"
  | .cLwspRes => "c.lwsp.res"
  | .cLwsp => "c.lwsp"
  | .cFlwsp => "c.flwsp"
  | .cLdspRes => "c.ldsp.res"
  | .cLdsp => "c.ldsp"
  | .cJrRes => "c.jr.res"
  | .cJr => "c.jr"
  | .cMv => "c.mv"
  | .cEbreak => "c.ebreak"
  | .cJalr => "c.jalr"
  | .cAdd => "c.add"
  | .cFsdsp => "c.fsdsp"
  | .cSwsp => "c.swsp"
  | .cFswsp => "c.fswsp"
  | .cSdsp => "c.sdsp"

/-- The mnemonic of a definition (R99). -/
def Row.mnemonic (r : Row) : String := r.op.mnemonic

/-- The descriptor's mnemonic (R117). -/
def Descriptor.mnemonic (d : Descriptor) : String := d.row.mnemonic

/-! ### The expansion of the compressed instructions (R134, R310) -/

/-- The register a prime field names: field value + 8 (R85). -/
def CRegIdx.full (r : CRegIdx) : RegIdx := 8 + r.setWidth 5

/-- `immCI`, sign-extended to the 12-bit field it expands into (R93). -/
def ciImm (imm : BitVec 6) : BitVec 12 := imm.signExtend 12
/-- `immCIW = zext({nzuimm[9:2], 00})` (R94). -/
def ciwImm (imm : BitVec 8) : BitVec 12 := (imm ++ 0#2).setWidth 12
/-- `immCI16 = sext_10({imm[9:4], 0000})` (R96). -/
def ci16Imm (imm : BitVec 6) : BitVec 12 := (imm ++ 0#4).signExtend 12
/-- `immCLw = zext({offset[6:2], 00})` (R96). -/
def clwImm (uimm : BitVec 5) : BitVec 12 := (uimm ++ 0#2).setWidth 12
/-- `immCLd = zext({offset[7:3], 000})` (R96). -/
def cldImm (uimm : BitVec 5) : BitVec 12 := (uimm ++ 0#3).setWidth 12
/-- `immCIlwsp` and `immCSSw`: zext({offset[7:2], 00}) (R95, R96). -/
def lwspImm (uimm : BitVec 6) : BitVec 12 := (uimm ++ 0#2).setWidth 12
/-- `immCIldsp` and `immCSSd`: zext({offset[8:3], 000}) (R95, R96). -/
def ldspImm (uimm : BitVec 6) : BitVec 12 := (uimm ++ 0#3).setWidth 12

/-- The 32-bit instruction a translator entry expands to (R313 to R360); `none` for every other entry. -/
def Instr.expansion : Instr → Option Instr
  | .lui .. => none
  | .auipc .. => none
  | .jal .. => none
  | .jalr .. => none
  | .beq .. => none
  | .bne .. => none
  | .blt .. => none
  | .bge .. => none
  | .bltu .. => none
  | .bgeu .. => none
  | .lb .. => none
  | .lh .. => none
  | .lw .. => none
  | .lbu .. => none
  | .lhu .. => none
  | .lwu .. => none
  | .ld .. => none
  | .sb .. => none
  | .sh .. => none
  | .sw .. => none
  | .sd .. => none
  | .addi .. => none
  | .slti .. => none
  | .sltiu .. => none
  | .xori .. => none
  | .ori .. => none
  | .andi .. => none
  | .slli .. => none
  | .srli .. => none
  | .srai .. => none
  | .add .. => none
  | .sub .. => none
  | .sll .. => none
  | .slt .. => none
  | .sltu .. => none
  | .xor .. => none
  | .srl .. => none
  | .sra .. => none
  | .or .. => none
  | .and .. => none
  | .fence .. => none
  | .ecall => none
  | .ebreak => none
  | .addiw .. => none
  | .slliw .. => none
  | .srliw .. => none
  | .sraiw .. => none
  | .addw .. => none
  | .subw .. => none
  | .sllw .. => none
  | .srlw .. => none
  | .sraw .. => none
  | .fenceI .. => none
  | .csrrw .. => none
  | .csrrs .. => none
  | .csrrc .. => none
  | .csrrwi .. => none
  | .csrrsi .. => none
  | .csrrci .. => none
  | .mul .. => none
  | .mulh .. => none
  | .mulhsu .. => none
  | .mulhu .. => none
  | .div .. => none
  | .divu .. => none
  | .rem .. => none
  | .remu .. => none
  | .mulw .. => none
  | .divw .. => none
  | .divuw .. => none
  | .remw .. => none
  | .remuw .. => none
  | .lrW .. => none
  | .scW .. => none
  | .lrD .. => none
  | .scD .. => none
  | .cInvalid => none
  | .cAddi4spnRes .. => none
  | .cAddi4spn rd imm => some (.addi rd.full 2 (ciwImm imm))
  | .cFld .. => none
  | .cLw rd rs1 uimm => some (.lw rd.full rs1.full (clwImm uimm))
  | .cFlw .. => none
  | .cLd rd rs1 uimm => some (.ld rd.full rs1.full (cldImm uimm))
  | .cFsd .. => none
  | .cSw rs1 rs2 uimm => some (.sw rs1.full rs2.full (clwImm uimm))
  | .cFsw .. => none
  | .cSd rs1 rs2 uimm => some (.sd rs1.full rs2.full (cldImm uimm))
  | .cNop => some (.addi 0 0 0)
  | .cAddi rd imm => some (.addi rd rd (ciImm imm))
  | .cJal off => some (.jal 1 (off.signExtend 20))
  | .cAddiwRes .. => none
  | .cAddiw rd imm => some (.addiw rd rd (ciImm imm))
  | .cLi rd imm => some (.addi rd 0 (ciImm imm))
  | .cAddi16spRes => none
  | .cAddi16sp imm => some (.addi 2 2 (ci16Imm imm))
  | .cLuiRes .. => none
  | .cLui rd imm => some (.lui rd (imm.signExtend 20))
  | .cSrli rd shamt => some (.srli rd.full rd.full shamt)
  | .cSrai rd shamt => some (.srai rd.full rd.full shamt)
  | .cAndi rd imm => some (.andi rd.full rd.full (ciImm imm))
  | .cSub rd rs2 => some (.sub rd.full rd.full rs2.full)
  | .cXor rd rs2 => some (.xor rd.full rd.full rs2.full)
  | .cOr rd rs2 => some (.or rd.full rd.full rs2.full)
  | .cAnd rd rs2 => some (.and rd.full rd.full rs2.full)
  | .cSubw rd rs2 => some (.subw rd.full rd.full rs2.full)
  | .cAddw rd rs2 => some (.addw rd.full rd.full rs2.full)
  | .cJ off => some (.jal 0 (off.signExtend 20))
  | .cBeqz rs1 off => some (.beq rs1.full 0 (off.signExtend 12))
  | .cBnez rs1 off => some (.bne rs1.full 0 (off.signExtend 12))
  | .cSlli rd shamt => some (.slli rd rd shamt)
  | .cFldsp .. => none
  | .cLwspRes .. => none
  | .cLwsp rd uimm => some (.lw rd 2 (lwspImm uimm))
  | .cFlwsp .. => none
  | .cLdspRes .. => none
  | .cLdsp rd uimm => some (.ld rd 2 (ldspImm uimm))
  | .cJrRes => none
  | .cJr rs1 => some (.jalr 0 rs1 0)
  | .cMv rd rs2 => some (.add rd 0 rs2)
  | .cEbreak => some (.ebreak)
  | .cJalr rs1 => some (.jalr 1 rs1 0)
  | .cAdd rd rs2 => some (.add rd rd rs2)
  | .cFsdsp .. => none
  | .cSwsp rs2 uimm => some (.sw 2 rs2 (lwspImm uimm))
  | .cFswsp .. => none
  | .cSdsp rs2 uimm => some (.sd 2 rs2 (ldspImm uimm))

/-- `translate: 16-bit word -> 32-bit word` of an entry of kind translator, through the field constructors (R310). -/
def Instr.translate (i : Instr) : Option (BitVec 32) := i.expansion.map encode

/-- The lookup loop of R130 with at most `hops` translations: the executor, no-op or reserved instruction that a fetched word
ends at; `none` is a decode miss, at the first lookup or after a hop (R134). -/
def resolve (xl : Xlen) : Nat → BitVec 32 → Option Instr
  | hops, raw =>
    match decodeWord xl raw with
    | none => none
    | some i =>
      match i.translate with
      | none => some i
      | some w =>
        match hops with
        | 0 => none
        | k + 1 => resolve xl k w

end Sys2Proof
end

