-- ==== Sys2Proof/Machine/Arith.lean ====
section
/-! DEFINITION. The arithmetic primitives of spec 41_alu.md (R150 to R155), 42_muldiv.md (R210, R211) on values held in 64-bit
storage, for an operation width `n` of 32 or 64 bits. Results are exact integers narrowed at the end. -/

namespace Sys2Proof.Machine

/-- The value modulo `2^n`: what an n-bit register keeps of `v` (R10, R30). -/
def narrow (n : Nat) (v : Word) : Word := (v.setWidth n).setWidth 64

/-- `sext_N(v)`: bit N-1 replicated into all higher bits (R11, R150). -/
def sext (n : Nat) (v : Word) : Word := (v.setWidth n).signExtend 64

/-- `zext_N(v)`: the low N bits, zero above (R11). -/
def zext (n : Nat) (v : Word) : Word := (v.setWidth n).setWidth 64

/-- `sign_N(v) = v[N-1]` (R151). -/
def signBit (n : Nat) (v : Word) : Bool := (v.setWidth n).msb

/-- `signed(v)` of the low n bits (R10). -/
def signedAt (n : Nat) (v : Word) : Int := (v.setWidth n).toInt

/-- `unsigned(v)` of the low n bits (R10). -/
def unsignedAt (n : Nat) (v : Word) : Nat := (v.setWidth n).toNat

/-- An integer taken modulo `2^n`. -/
def ofIntAt (n : Nat) (z : Int) : Word := (BitVec.ofInt n z).setWidth 64

/-- A natural number taken modulo `2^n`. -/
def ofNatAt (n : Nat) (k : Nat) : Word := (BitVec.ofNat n k).setWidth 64

/-- `(a << k) mod 2^n` (R165). -/
def shlAt (n : Nat) (a : Word) (k : Nat) : Word := (a.setWidth n <<< k).setWidth 64

/-- `a >> k`, zero fill, within n bits (R166). -/
def shrAt (n : Nat) (a : Word) (k : Nat) : Word := (a.setWidth n >>> k).setWidth 64

/-- `a >>s k`, filled with bit n-1, within n bits (R153). -/
def sarAt (n : Nat) (a : Word) (k : Nat) : Word := ((a.setWidth n).sshiftRight k).setWidth 64

/-- `multiply(a, b, extend_lhs, extend_rhs) = (high, low)`: the halves of the exact product modulo `2^(2n)` (R210). -/
def multiply (n : Nat) (a b : Word) (extendLhs extendRhs : Bool) : Word × Word :=
  let x : Int := if extendLhs then signedAt n a else unsignedAt n a
  let y : Int := if extendRhs then signedAt n b else unsignedAt n b
  (ofIntAt n (x * y / 2 ^ n), ofIntAt n (x * y))

/-- The most negative n-bit integer, `-2^(n-1)`. -/
def minSigned (n : Nat) : Int := -2 ^ (n - 1)

/-- The pair of the signed overflow, `-2^(n-1)` and `-1` (R211). -/
def overflowPair (n : Nat) (a b : Word) : Bool := signedAt n a == minSigned n && signedAt n b == -1

/-- A zero divisor (R211). -/
def zeroDivisor (n : Nat) (b : Word) : Bool := unsignedAt n b == 0

/-- The signed quotient truncated toward zero, with the corners of R211 (R216). -/
def divS (n : Nat) (a b : Word) : Word :=
  if zeroDivisor n b then ofIntAt n (-1)
  else if overflowPair n a b then ofIntAt n (minSigned n)
  else ofIntAt n ((signedAt n a).tdiv (signedAt n b))

/-- The signed remainder, with the sign of the dividend, and the corners of R211 (R218). -/
def remS (n : Nat) (a b : Word) : Word :=
  if zeroDivisor n b then narrow n a
  else if overflowPair n a b then 0
  else ofIntAt n (signedAt n a - signedAt n b * (signedAt n a).tdiv (signedAt n b))

/-- The floor quotient of the unsigned values, all ones for a zero divisor (R217). -/
def divU (n : Nat) (a b : Word) : Word :=
  if zeroDivisor n b then ofNatAt n (2 ^ n - 1) else ofNatAt n (unsignedAt n a / unsignedAt n b)

/-- The unsigned remainder, the dividend for a zero divisor (R219). -/
def remU (n : Nat) (a b : Word) : Word :=
  if zeroDivisor n b then narrow n a else ofNatAt n (unsignedAt n a % unsignedAt n b)

end Sys2Proof.Machine
end

