-- ==== Sys2Proof/Config.lean ====
section
/-! DEFINITION. The parameters of spec 00_scope.md R7, as plain data fixed for the lifetime of one machine, and the one free
value, the bytes drawn when a read leaves the buffer. State carries a `Params`, so that a statement over every state is a
statement about every choice of the parameters; no step changes it. The choice the reset state makes is
`Machine.primaryParams`. -/

namespace Sys2Proof

/-- `DIV_CORNERS` (R7, R211, decision D13): what a division by zero or a signed overflow does. -/
inductive DivCorners where
  /-- The RISC-V table of R211 (the default). -/
  | riscv
  /-- Such a step is outside the model. -/
  | refuse
  deriving DecidableEq, Repr

/-- `WORD_MODE` (R7, R156, decision D11): how a word variant narrows. -/
inductive WordMode where
  /-- Operands are narrowed to 32 bits first (the chosen reading). -/
  | operandsFirst
  /-- Only the result is restricted to its low 32 bits. -/
  | resultOnly
  deriving DecidableEq, Repr

/-- `OOB_FILL` (R7, R58, decision D5): the bytes of a read that lie past the end of the buffer. -/
inductive OobFill where
  /-- Each byte is a fresh draw under no law (the default). -/
  | draw
  /-- A deterministic simulator's fixed byte (the spec's vectors use 0x00). -/
  | fixed (b : Byte)
  deriving DecidableEq, Repr

/-- The policy at the buffer end (R56 to R59, R67): what an access does whose span leaves the buffer. -/
inductive OobPolicy where
  /-- The normative behaviour: truncate, drop, draw. -/
  | clamp
  /-- R59's other setting: every such access stops the machine. -/
  | fault
  deriving DecidableEq, Repr

/-- What a step does with a fetch that does not lie wholly in the buffer, `pc + width > MEM_SIZE`, under `clamp` (R67 and ruling
U3 of 93_implementation_defined.md; R381). -/
inductive OobFetch where
  /-- Such a step leaves what is modelled (R67, U3; the default). -/
  | refuse
  /-- The word formed of the bytes inside the buffer and the drawn ones is executed (R66, R381). -/
  | execute
  deriving DecidableEq, Repr

/-- The parameters of R7. `FLEN` is `Config.flen`, `MAX_HOPS` is `Config.maxHops`, `REGISTRY` is the list R100 gives for
`xlen` (`registry`), and `RESET_FILL` is the argument of the reset operation, `seed` generating the one State.reset uses. -/
structure Params where
  /-- `XLEN`. -/
  xlen : Xlen
  /-- `MEM_SIZE`, in bytes. -/
  memSize : Nat
  /-- `RESET_PC` (R44, decision D4). -/
  resetPc : Word
  /-- The seed of the deterministic fill (R42, R413): a byte that nothing has written reads as the seed's byte. -/
  seed : Nat
  /-- `OOB_FILL`. -/
  oobFill : OobFill
  /-- The policy switch of R59. -/
  oobPolicy : OobPolicy
  /-- Whether a fetch that leaves the buffer is executed. -/
  oobFetch : OobFetch
  /-- `HAZARD_SET`: the executors on which the data-hazard check is made (R421, decision D21). -/
  hazardSet : List Op
  /-- `DIV_CORNERS`. -/
  divCorners : DivCorners
  /-- `WORD_MODE`. -/
  wordMode : WordMode
  deriving DecidableEq, Repr

/-- `FLEN` (R7, R26, decision D2). DESIGN CHOICE 64: the spec leaves it open and no rule depends on it (log 3). -/
def Config.flen : Nat := 64

/-- `MAX_HOPS` (R134, decision D23). -/
def Config.maxHops : Nat := 1

/-- The k-th byte drawn by a read that leaves the buffer (R58). It has no body: nothing is known of it (log 5). -/
opaque Config.oobDraw : Nat → Byte

end Sys2Proof
end

