-- ==== Sys2Proof/Machine/Defaults.lean ====
section
/-! DEFINITION. The parameter values of the reset state, and the deterministic fill of registers and memory at reset (spec
10_state.md R42 to R46, 70_reset_and_hazards.md R413). -/

namespace Sys2Proof.Machine

/-- The fixed seed of State.reset. DESIGN CHOICE (log 2). -/
def primarySeed : Nat := 1

/-- The parameters of State.reset: the primary configuration XLEN = 64 (R2, R7, D1) with the defaults of R7, and the
MEM_SIZE 0x1000 of the spec's vectors (95_test_vectors.md). DESIGN CHOICE for MEM_SIZE, seed and RESET_PC (log 1, log 2). -/
def primaryParams : Params where
  xlen := .rv64
  memSize := 0x1000
  resetPc := 0
  seed := primarySeed
  oobFill := .draw
  oobPolicy := .clamp
  oobFetch := .refuse
  hazardSet := []
  divCorners := .riscv
  wordMode := .operandsFirst

/-- The other configuration of R2, XLEN = 32, everything else the same. -/
def primaryParams32 : Params := { primaryParams with xlen := .rv32 }

/-- The seeded generator of the reset fill: the source asks for a pseudo-random fill and gives no generator (R42, R413).
DESIGN CHOICE (log 2). -/
def fillMix (seed i : Nat) : Nat :=
  (((seed + 1) * 0x9E3779B97F4A7C15 + (i + 1) * 0xBF58476D1CE4E5B9) % 2 ^ 64) ^^^ (((seed + i) * 0x94D049BB133111EB) % 2 ^ 61)

/-- What a byte of the buffer that nothing has written reads as (R46). -/
def fillByte (seed a : Nat) : Byte := BitVec.ofNat 8 (fillMix seed a >>> 24)

/-- The fill of a register: general registers use indices 1 to 31, float registers 32 to 63 (R42, R43). -/
def fillWord (seed i : Nat) : BitVec 64 := BitVec.ofNat 64 (fillMix seed (i + 0x100000000))

end Sys2Proof.Machine
end

