-- ==== Sys2Proof/Machine/State.lean ====
section
/-! DEFINITION. The state of the block (spec 10_state.md R20), why a step stops, and the state after reset (R412). -/

namespace Sys2Proof.Machine

/-- A float register, FLEN bits (R26). -/
abbrev FWord := BitVec Config.flen

/-- One write of the load port: an address and the bytes stored from it (R415). -/
abbrev PortWrite := Nat × List Byte

/-- The state: the processor's tuple of R20, the parameters it was built with (R39), what the host operations of R410 to R416
must remember, and the model's draw counter. -/
structure State where
  /-- The parameters, fixed for the lifetime of the machine (R7, R39); no step changes them. -/
  cfg : Params
  /-- `x1` to `x31`; `x0` is not stored (R21, R22). -/
  xs : Vector Word 31
  /-- `f0` to `f31` (R26). -/
  fs : Vector FWord 32
  /-- The program counter (R27). -/
  pc : Word
  /-- The next-advance register (R31). -/
  adv : Word
  /-- The bytes of the buffer that differ from the reset fill, by rising address (R34, R46). -/
  mem : List Host.Cell
  /-- The reservation slot (R36). -/
  resv : Option Word
  /-- The image of the last successful load, which reset writes again (R410, R414). -/
  image : List PortWrite
  /-- Set by a load that failed: memory is partially populated and no step is modelled (R416). -/
  loadFailed : Bool
  /-- The model's own: how many bytes have been drawn by reads that left the buffer (R58, log 5). -/
  draws : Nat
  deriving DecidableEq, Repr

/-- The reasons a step stops with a fault. Each is safe: a program that stops proves nothing further. -/
inductive Fault where
  /-- Raised by an executor of `HAZARD_SET` whose destination is one of its sources (R147, R421): the outcome
  `fatal(DataHazard)` with the destination index. Safe. Never with the default empty set. -/
  | dataHazard (rd : RegIdx)
  /-- Raised by a load, store, LR or successful SC whose span leaves the buffer, only under the `fault` setting of R59. Safe. -/
  | accessOutsideBuffer (addr len : Nat)
  /-- Raised by a fetch of an instruction that does not lie wholly in the buffer, only under the `fault` setting (R59, R67).
  Safe. -/
  | fetchOutsideBuffer (addr : Nat)
  deriving DecidableEq, Repr

/-- The reasons a step is refused: the model says nothing of it. -/
inductive Refusal where
  /-- Raised by an arm of exec whose instruction has no meaning yet. Safe. No arm does. -/
  | notModelled (mnemonic : String)
  /-- Raised by a division whose operands are a corner of R211, only with `DIV_CORNERS = refuse` (D13). Safe. -/
  | divisionCorner
  /-- Raised by step for a fetch with `pc + width > MEM_SIZE`, unless the parameter `oobFetch` is `execute` (R67, U3): the word
  is not defined, so nothing is claimed. Safe. -/
  | fetchOutsideBuffer (addr : Nat)
  /-- Raised by every step from the state a failed load leaves (R416, U14), until a reset or a load. Safe. -/
  | afterFailedLoad
  deriving DecidableEq, Repr

/-- What a step or a meaning answers. -/
abbrev Result := Host.Outcome State Fault Refusal

/-- The registers that a fill draws at reset (R410): `RESET_FILL` without memory. -/
structure RegisterFill where
  /-- The values of `x1` to `x31`. -/
  xs : Vector Word 31
  /-- The values of `f0` to `f31`. -/
  fs : Vector FWord 32
  deriving DecidableEq, Repr

/-- The registers of a seed's fill. -/
def RegisterFill.ofSeed (xl : Xlen) (seed : Nat) : RegisterFill where
  xs := Vector.ofFn fun i => narrow xl.bits (fillWord seed (i.val + 1))
  fs := Vector.ofFn fun i => fillWord seed (i.val + 32)

/-- The state that steps (1) to (5) of R410 leave, with memory all fill: registers as drawn, `resv = none`, `pc = RESET_PC`,
`adv = 0`. -/
def State.atReset (c : Params) (fill : RegisterFill) : State where
  cfg := c
  xs := fill.xs.map (narrow c.xlen.bits)
  fs := fill.fs
  pc := narrow c.xlen.bits c.resetPc
  adv := 0
  mem := []
  resv := none
  image := []
  loadFailed := false
  draws := 0

/-- The state after reset of the primary configuration, with the seed's fill and no image (R411, R412). -/
def State.reset : State := State.atReset primaryParams (RegisterFill.ofSeed primaryParams.xlen primaryParams.seed)

end Sys2Proof.Machine
end

