-- ==== Sys2Proof/Machine/Memory.lean ====
section
/-! DEFINITION. The memory buffer as a canonical list of cells (spec 10_state.md R34, R46): addresses strictly rising, and no
cell that holds what its address reads as unlisted. -/

namespace Sys2Proof.Machine

/-- The listed cells. -/
abbrev Memory := List Host.Cell

/-- The canonical form of a buffer of `size` bytes over a seed's fill. -/
abbrev Memory.wf (seed size : Nat) (m : Memory) : Prop :=
  m.Pairwise (fun p q => p.1 < q.1) ∧ ∀ c ∈ m, c.1 < size ∧ c.2 ≠ fillByte seed c.1

/-- The listed byte at an address, if any. -/
def Memory.lookup : Memory → Nat → Option Byte
  | [], _ => none
  | (k, b) :: m, a => if k = a then some b else Memory.lookup m a

/-- The byte at an address: the listed one, or the fill (R46). -/
def Memory.read (seed : Nat) (m : Memory) (a : Nat) : Byte := (Memory.lookup m a).getD (fillByte seed a)

/-- The list with the cell `(a, b)` in its place. -/
def Memory.insert : Memory → Nat → Byte → Memory
  | [], a, b => [(a, b)]
  | (k, c) :: m, a, b =>
    if a < k then (a, b) :: (k, c) :: m
    else if a = k then (a, b) :: m
    else (k, c) :: Memory.insert m a b

/-- The list without the address. -/
def Memory.erase (m : Memory) (a : Nat) : Memory := m.filter fun c => c.1 != a

/-- One byte written, keeping the canonical form. -/
def Memory.write (seed : Nat) (m : Memory) (a : Nat) (b : Byte) : Memory :=
  if b = fillByte seed a then Memory.erase m a else Memory.insert m a b

end Sys2Proof.Machine
end

