-- ==== Sys2Proof/Machine/Ops.lean ====
section
/-! DEFINITION. The named operations every meaning is written over: registers (spec 10_state.md R21 to R23), `pc` and `adv`
(R28, R251), the memory primitives (20_memory.md R52, R53, R56 to R64), the data-hazard check (70_reset_and_hazards.md R421),
and the functors that are not arithmetic.

TAKING AN EXCEPTION. The block has no trap mechanism: nothing saves state, changes a mode or redirects `pc` (60_exceptions.md
R380, R385), and the trap returns are not in the registry (R386). There is therefore no exception entry and no return to
write; the one abnormal outcome of an instruction is `fatal(DataHazard)`, `checked` below. -/

namespace Sys2Proof.Machine

/-- `XLEN` of this machine. -/
def State.bits (s : State) : Nat := s.cfg.xlen.bits

/-! ### General registers -/

/-- `x[i]`: 0 for index 0, else the register, XLEN bits (R21, R22). -/
def State.getX (s : State) (i : RegIdx) : Word :=
  if i = 0 then 0 else narrow s.bits (s.xs[i.toNat - 1]'(by have := i.isLt; omega))

/-- `x[i] <- v`: discarded for index 0 (R22), else the value modulo `2^XLEN` (R10). -/
def State.setX (s : State) (i : RegIdx) (v : Word) : State :=
  if i = 0 then s
  else { s with xs := s.xs.set (i.toNat - 1) (narrow s.bits v) (by have := i.isLt; omega) }

/-! ### The program counter -/

/-- `pc <- v`, modulo `2^XLEN` (R30). -/
def State.setPc (s : State) (v : Word) : State := { s with pc := narrow s.bits v }

/-- `adv <- v`, modulo `2^XLEN` (R31). -/
def State.setAdv (s : State) (v : Word) : State := { s with adv := narrow s.bits v }

/-- `jump_to(t)`: `pc <- t; adv <- 0` (R251). -/
def State.jumpTo (s : State) (t : Word) : State := (s.setPc t).setAdv 0

/-- The epilogue: `pc <- (pc + adv) mod 2^XLEN` (R136). -/
def State.epilogue (s : State) : State := s.setPc (s.pc + s.adv)

/-- The address of the next instruction in sequence, `pc + width`: while an executor runs, before it writes `adv`, `adv` holds
the fetched width (R132, R133), so this is the link value of R252 and R253. -/
def State.linkValue (s : State) : Word := narrow s.bits (s.pc + s.adv)

/-! ### Memory -/

/-- The byte at an address of the buffer (R34). -/
def State.byteOf (s : State) (a : Nat) : Byte := Memory.read s.cfg.seed s.mem a

/-- The byte of a read that lies outside the buffer, the k-th of the current access (R58). -/
def State.oobByte (s : State) (k : Nat) : Byte :=
  match s.cfg.oobFill with
  | .draw => Config.oobDraw (s.draws + k)
  | .fixed b => b

/-- Byte k of a read at `a`: the buffer's byte, or an unspecified one past the end (R52, R58). -/
def State.readByte (s : State) (a k : Nat) : Byte :=
  if a + k < s.cfg.memSize then s.byteOf (a + k) else s.oobByte k

/-- `MemRead(addr, n)`, little-endian, clamped (R52, R56), zero above its `8n` bits. -/
def State.memRead (s : State) (a : Nat) : Nat → Word
  | 0 => 0
  | n + 1 => State.memRead s a n ||| ((s.readByte a n).setWidth 64 <<< (8 * n))

/-- The draws of an n-byte read at `a` used up (R58: each read draws anew). A read changes nothing else (R52), and one that
stays in the buffer, or whose fill is fixed, draws nothing. -/
def State.noteDraws (s : State) (a n : Nat) : State :=
  match s.cfg.oobFill with
  | .draw => if a + n ≤ s.cfg.memSize then s else { s with draws := s.draws + n }
  | .fixed _ => s

/-- One byte written, dropped outside the buffer (R53, R57). -/
def State.writeByte (s : State) (a : Nat) (b : Byte) : State :=
  if a < s.cfg.memSize then { s with mem := Memory.write s.cfg.seed s.mem a b } else s

/-- `MemWrite(addr, n, v)`: the low `8n` bits little-endian, clamped (R53, R56). -/
def State.memWrite (s : State) (a : Nat) (v : Word) : Nat → State
  | 0 => s
  | n + 1 => (State.memWrite s a v n).writeByte (a + n) (v.extractLsb' (8 * n) 8)

/-- Under the `fault` setting of R59, an access whose span leaves the buffer stops; never under `clamp`, the normative one. -/
def State.accessStops (s : State) (a n : Nat) : Bool :=
  s.cfg.oobPolicy == .fault && decide (s.cfg.memSize < a + n)

/-- `resv <- r` (R36). -/
def State.setResv (s : State) (r : Option Word) : State := { s with resv := r }

/-- Bytes stored at ascending addresses, each clamped: a write of the load port (R415). The clamp holds under the `fault` setting
of R59 too, for which the spec does not say what the port does. DESIGN CHOICE (log 8): the port drops the bytes past the end. -/
def State.storeBytes (s : State) (a : Nat) : List Byte → State
  | [] => s
  | b :: bs => (s.writeByte a b).storeBytes (a + 1) bs

/-! ### Fetch (R66, R131) -/

/-- `raw = MemRead(pc, 4)`: the word a step fetches (R66). -/
def State.fetchWord (s : State) : BitVec 32 := (s.memRead s.pc.toNat 4).setWidth 32

/-- The instruction does not lie wholly in the buffer: `pc + width > MEM_SIZE` (R67). -/
def State.fetchLeaves (s : State) : Bool := decide (s.cfg.memSize < s.pc.toNat + widthOf s.fetchWord)

/-- Such a fetch stops under the `fault` setting (R59, R67). -/
def State.fetchStops (s : State) : Bool := s.fetchLeaves && s.cfg.oobPolicy == .fault

/-- Such a fetch leaves what is modelled (R67, U3), unless the parameter has it executed (R381). -/
def State.fetchRefused (s : State) : Bool := s.fetchLeaves && s.cfg.oobFetch == .refuse

/-- What a step has done before lookup: the fetch's draws and `adv <- width` (R132). -/
def State.prologue (s : State) : State :=
  (s.noteDraws s.pc.toNat 4).setAdv (BitVec.ofNat 64 (widthOf s.fetchWord))

/-- The epilogue after an instruction that completed; a stop stays a stop (R136). -/
def finish : Result → Result
  | .next t => .next t.epilogue
  | .fault f => .fault f
  | .refused r => .refused r

/-! ### The data-hazard check -/

/-- `d in HAZARD_SET and hazard(d, word)`: the executor writes `rd`, `rd` is not 0, and `rd` is one of the registers it reads
(R421). -/
def State.hazard (s : State) (d : Op) (rd : RegIdx) (reads : List RegIdx) : Bool :=
  s.cfg.hazardSet.contains d && rd != 0 && reads.contains rd

/-- The executor's result, unless the check makes the step `fatal(DataHazard)` before any state is written (R147). -/
def checked (d : Op) (rd : RegIdx) (reads : List RegIdx) (s : State) (r : Result) : Result :=
  if s.hazard d rd reads then .fault (.dataHazard rd) else r

/-! ### Functors -/

/-- The no-op functor (R280): no register, no memory, `adv` keeps the prologue value. -/
def noop (s : State) : Result := .next s

/-- A reserved row (R109): no effect, `adv <- 0`, so that the step stalls. -/
def stall (s : State) : Result := .next (s.setAdv 0)

/-- The load functor (R230): `n` bytes at `ea`, extended by `ext`, into `rd`. -/
def loadInto (d : Op) (rd : RegIdx) (reads : List RegIdx) (ea : Word) (n : Nat) (ext : Word → Word) (s : State) : Result :=
  checked d rd reads s <|
    if s.accessStops ea.toNat n then .fault (.accessOutsideBuffer ea.toNat n)
    else .next ((s.noteDraws ea.toNat n).setX rd (ext (s.memRead ea.toNat n)))

/-- The store functor (R231): the low `n` bytes of `v` at `ea`. -/
def storeFrom (ea : Word) (n : Nat) (v : Word) (s : State) : Result :=
  if s.accessStops ea.toNat n then .fault (.accessOutsideBuffer ea.toNat n)
  else .next (s.memWrite ea.toNat v n)

/-- `LoadReserved(addr, n)` into `rd` (R60, R270): the reservation is set, whatever `rd` is. -/
def loadReserved (d : Op) (rd : RegIdx) (reads : List RegIdx) (ea : Word) (n : Nat) (ext : Word → Word) (s : State) :
    Result :=
  checked d rd reads s <|
    if s.accessStops ea.toNat n then .fault (.accessOutsideBuffer ea.toNat n)
    else .next (((s.noteDraws ea.toNat n).setResv (some ea)).setX rd (ext (s.memRead ea.toNat n)))

/-- `StoreConditional(addr, n, v)` with its Boolean in `rd`, 0 for success and 1 for failure (R61, R272): on a match of the
full addresses (R64) the bytes are written and the reservation cleared, else nothing but `rd` changes. -/
def storeConditional (d : Op) (rd : RegIdx) (reads : List RegIdx) (ea : Word) (n : Nat) (v : Word) (s : State) : Result :=
  checked d rd reads s <|
    if s.resv = some ea then
      if s.accessStops ea.toNat n then .fault (.accessOutsideBuffer ea.toNat n)
      else .next (((s.memWrite ea.toNat v n).setResv none).setX rd 0)
    else .next (s.setX rd 1)

end Sys2Proof.Machine
end

