-- ==== Sys2Proof/Machine/Flags.lean ====
section
/-! DEFINITION. The block has no flags, condition codes or predicate registers (spec 10_state.md R32): "flags written" is none
for every instruction. What stands here is what takes their place: the two comparisons, the 0-or-1 value the compare
instructions write, and the branch functor over two registers. -/

namespace Sys2Proof.Machine

/-- `lt_s(a, b)`: signed comparison of n-bit values (R152). -/
def ltS (n : Nat) (a b : Word) : Bool := decide (signedAt n a < signedAt n b)

/-- `lt_u(a, b)`: unsigned comparison of n-bit values (R152). -/
def ltU (n : Nat) (a b : Word) : Bool := decide (unsignedAt n a < unsignedAt n b)

/-- `c ? 1 : 0` (R160). -/
def boolWord (c : Bool) : Word := if c then 1 else 0

/-- The branch functor (R250): with a true predicate the pending advance becomes the offset, else the default stays. -/
def branchIf (taken : Bool) (offset : Word) (s : State) : Result := .next (if taken then s.setAdv offset else s)

end Sys2Proof.Machine
end

