-- ==== Sys2Proof/Machine/Operands.lean ====
section
/-! DEFINITION. Operand forms: immediates at XLEN bits (spec 30_encoding.md R86 to R91), effective addresses (R51, R243), shift
amounts (R155), the operand width of the word variants (R156), and the ALU functor over them (R154). -/

namespace Sys2Proof.Machine

/-- `immI`, and `immS`: sext_12 of the field (R86, R87). -/
def State.imm12 (s : State) (imm : BitVec 12) : Word := narrow s.bits (imm.signExtend 64)

/-- `immB = sext_13({off, 0})` (R88). -/
def State.immB (s : State) (off : BitVec 12) : Word := narrow s.bits ((off ++ 0#1).signExtend 64)

/-- `immU = sext_32(imm << 12)` (R89). -/
def State.immU (s : State) (imm : BitVec 20) : Word := narrow s.bits ((imm ++ 0#12).signExtend 64)

/-- `immJ = sext_21({off, 0})` (R90). -/
def State.immJ (s : State) (off : BitVec 20) : Word := narrow s.bits ((off ++ 0#1).signExtend 64)

/-- The effective address `(x[rs1] + imm) mod 2^XLEN`, the only addressing mode (R51, R243). -/
def State.ea (s : State) (rs1 : RegIdx) (imm : BitVec 12) : Word := narrow s.bits (s.getX rs1 + s.imm12 imm)

/-- The amount of an immediate shift, `bits[25:20] & SHMASK` (R91). -/
def State.shamtImm (s : State) (shamt : BitVec 6) : Nat := shamt.toNat &&& (s.bits - 1)

/-- The amount of a register shift, `x[rs2] & SHMASK` (R155). -/
def State.shamtReg (s : State) (v : Word) : Nat := v.toNat &&& (s.bits - 1)

/-- The amount of a register word shift, `x[rs2] & 31` (R155). -/
def shamtWord (v : Word) : Nat := v.toNat &&& 31

/-- The width in which a word variant operates before its result is restricted to 32 bits and sign-extended: 32 with
`WORD_MODE = operands_first` (R156), XLEN under the other reading (D11). -/
def State.wordBits (s : State) : Nat :=
  match s.cfg.wordMode with
  | .operandsFirst => 32
  | .resultOnly => s.bits

/-- The ALU functor with an immediate second operand (R154). -/
def aluImm (d : Op) (f : Word → Word → Word) (rd rs1 : RegIdx) (b : Word) (s : State) : Result :=
  checked d rd [rs1] s (.next (s.setX rd (f (s.getX rs1) b)))

/-- The ALU functor with a register second operand (R154). -/
def aluReg (d : Op) (f : Word → Word → Word) (rd rs1 rs2 : RegIdx) (s : State) : Result :=
  checked d rd [rs1, rs2] s (.next (s.setX rd (f (s.getX rs1) (s.getX rs2))))

/-- A division through the ALU functor, in n bits: with `DIV_CORNERS = refuse` a corner of R211 is outside the model. -/
def aluDiv (d : Op) (corner : Word → Word → Bool) (f : Word → Word → Word) (rd rs1 rs2 : RegIdx) (s : State) : Result :=
  checked d rd [rs1, rs2] s <|
    if s.cfg.divCorners == .refuse && corner (s.getX rs1) (s.getX rs2) then .refused .divisionCorner
    else .next (s.setX rd (f (s.getX rs1) (s.getX rs2)))

/-- A corner of signed division (R211). -/
def cornerS (n : Nat) (a b : Word) : Bool := zeroDivisor n b || overflowPair n a b

/-- A corner of unsigned division (R211). -/
def cornerU (n : Nat) (_a b : Word) : Bool := zeroDivisor n b

end Sys2Proof.Machine
end

