-- ==== Sys2Proof/Machine/Alu.lean ====
section
/-! DEFINITION. The integer computational instructions (spec 41_alu.md R157 to R186). Each is the ALU functor of R154 with its
operation; `rd = 0` discards the result (R22), sources are read before `rd` is written (R23), and `adv` is left alone. -/

namespace Sys2Proof.Machine

/-- LUI: `x[rd] <- immU` (R157). -/
def execLui (rd : RegIdx) (imm : BitVec 20) (s : State) : Result := checked .lui rd [] s (.next (s.setX rd (s.immU imm)))

/-- AUIPC: `x[rd] <- pc + immU`, `pc` being the address of the instruction itself (R158). -/
def execAuipc (rd : RegIdx) (imm : BitVec 20) (s : State) : Result :=
  checked .auipc rd [] s (.next (s.setX rd (s.pc + s.immU imm)))

/-- ADDI: `x[rd] <- x[rs1] + immI` (R159). -/
def execAddi (rd rs1 : RegIdx) (imm : BitVec 12) (s : State) : Result :=
  aluImm .addi (fun a b => a + b) rd rs1 (s.imm12 imm) s

/-- SLTI: `x[rd] <- lt_s(x[rs1], immI) ? 1 : 0` (R160). -/
def execSlti (rd rs1 : RegIdx) (imm : BitVec 12) (s : State) : Result :=
  aluImm .slti (fun a b => boolWord (ltS s.bits a b)) rd rs1 (s.imm12 imm) s

/-- SLTIU: `x[rd] <- lt_u(x[rs1], immI) ? 1 : 0` (R161). -/
def execSltiu (rd rs1 : RegIdx) (imm : BitVec 12) (s : State) : Result :=
  aluImm .sltiu (fun a b => boolWord (ltU s.bits a b)) rd rs1 (s.imm12 imm) s

/-- XORI: `x[rd] <- x[rs1] ^ immI` (R162). -/
def execXori (rd rs1 : RegIdx) (imm : BitVec 12) (s : State) : Result :=
  aluImm .xori (fun a b => a ^^^ b) rd rs1 (s.imm12 imm) s

/-- ORI: `x[rd] <- x[rs1] | immI` (R163). -/
def execOri (rd rs1 : RegIdx) (imm : BitVec 12) (s : State) : Result :=
  aluImm .ori (fun a b => a ||| b) rd rs1 (s.imm12 imm) s

/-- ANDI: `x[rd] <- x[rs1] & immI` (R164). -/
def execAndi (rd rs1 : RegIdx) (imm : BitVec 12) (s : State) : Result :=
  aluImm .andi (fun a b => a &&& b) rd rs1 (s.imm12 imm) s

/-- SLLI: `x[rd] <- (x[rs1] << shamt) mod 2^XLEN` (R165). -/
def execSlli (rd rs1 : RegIdx) (shamt : BitVec 6) (s : State) : Result :=
  aluImm .slli (fun a _ => shlAt s.bits a (s.shamtImm shamt)) rd rs1 0 s

/-- SRLI: `x[rd] <- x[rs1] >> shamt` (R166). -/
def execSrli (rd rs1 : RegIdx) (shamt : BitVec 6) (s : State) : Result :=
  aluImm .srli (fun a _ => shrAt s.bits a (s.shamtImm shamt)) rd rs1 0 s

/-- SRAI: `x[rd] <- x[rs1] >>s shamt` (R167). -/
def execSrai (rd rs1 : RegIdx) (shamt : BitVec 6) (s : State) : Result :=
  aluImm .srai (fun a _ => sarAt s.bits a (s.shamtImm shamt)) rd rs1 0 s

/-- ADD: `x[rd] <- x[rs1] + x[rs2]` (R168). -/
def execAdd (rd rs1 rs2 : RegIdx) (s : State) : Result := aluReg .add (fun a b => a + b) rd rs1 rs2 s

/-- SUB: `x[rd] <- x[rs1] - x[rs2]` (R169). -/
def execSub (rd rs1 rs2 : RegIdx) (s : State) : Result := aluReg .sub (fun a b => a - b) rd rs1 rs2 s

/-- SLL: `x[rd] <- (x[rs1] << (x[rs2] & SHMASK)) mod 2^XLEN` (R170). -/
def execSll (rd rs1 rs2 : RegIdx) (s : State) : Result := aluReg .sll (fun a b => shlAt s.bits a (s.shamtReg b)) rd rs1 rs2 s

/-- SLT: `x[rd] <- lt_s(x[rs1], x[rs2]) ? 1 : 0` (R171). -/
def execSlt (rd rs1 rs2 : RegIdx) (s : State) : Result := aluReg .slt (fun a b => boolWord (ltS s.bits a b)) rd rs1 rs2 s

/-- SLTU: `x[rd] <- lt_u(x[rs1], x[rs2]) ? 1 : 0` (R172). -/
def execSltu (rd rs1 rs2 : RegIdx) (s : State) : Result := aluReg .sltu (fun a b => boolWord (ltU s.bits a b)) rd rs1 rs2 s

/-- XOR: `x[rd] <- x[rs1] ^ x[rs2]` (R173). -/
def execXor (rd rs1 rs2 : RegIdx) (s : State) : Result := aluReg .xor (fun a b => a ^^^ b) rd rs1 rs2 s

/-- SRL: `x[rd] <- x[rs1] >> (x[rs2] & SHMASK)` (R174). -/
def execSrl (rd rs1 rs2 : RegIdx) (s : State) : Result := aluReg .srl (fun a b => shrAt s.bits a (s.shamtReg b)) rd rs1 rs2 s

/-- SRA: `x[rd] <- x[rs1] >>s (x[rs2] & SHMASK)` (R175). -/
def execSra (rd rs1 rs2 : RegIdx) (s : State) : Result := aluReg .sra (fun a b => sarAt s.bits a (s.shamtReg b)) rd rs1 rs2 s

/-- OR: `x[rd] <- x[rs1] | x[rs2]` (R176). -/
def execOr (rd rs1 rs2 : RegIdx) (s : State) : Result := aluReg .or (fun a b => a ||| b) rd rs1 rs2 s

/-- AND: `x[rd] <- x[rs1] & x[rs2]` (R177). -/
def execAnd (rd rs1 rs2 : RegIdx) (s : State) : Result := aluReg .and (fun a b => a &&& b) rd rs1 rs2 s

/-! ### Word variants, XLEN = 64 only (R156) -/

/-- ADDIW: `x[rd] <- sext_32(x[rs1] + immI)` (R178). -/
def execAddiw (rd rs1 : RegIdx) (imm : BitVec 12) (s : State) : Result :=
  aluImm .addiw (fun a b => sext 32 (a + b)) rd rs1 (s.imm12 imm) s

/-- SLLIW: `x[rd] <- sext_32(x[rs1] << shamt5)` (R179). -/
def execSlliw (rd rs1 : RegIdx) (shamt : BitVec 5) (s : State) : Result :=
  aluImm .slliw (fun a _ => sext 32 (shlAt s.wordBits a shamt.toNat)) rd rs1 0 s

/-- SRLIW: `x[rd] <- sext_32(x[rs1][31:0] >> shamt5)` (R180). -/
def execSrliw (rd rs1 : RegIdx) (shamt : BitVec 5) (s : State) : Result :=
  aluImm .srliw (fun a _ => sext 32 (shrAt s.wordBits a shamt.toNat)) rd rs1 0 s

/-- SRAIW: `x[rd] <- sext_32(x[rs1][31:0] >>s shamt5)` (R181). -/
def execSraiw (rd rs1 : RegIdx) (shamt : BitVec 5) (s : State) : Result :=
  aluImm .sraiw (fun a _ => sext 32 (sarAt s.wordBits a shamt.toNat)) rd rs1 0 s

/-- ADDW: `x[rd] <- sext_32(x[rs1] + x[rs2])` (R182). -/
def execAddw (rd rs1 rs2 : RegIdx) (s : State) : Result :=
  aluReg .addw (fun a b => sext 32 (a + b)) rd rs1 rs2 s

/-- SUBW: `x[rd] <- sext_32(x[rs1] - x[rs2])` (R183). -/
def execSubw (rd rs1 rs2 : RegIdx) (s : State) : Result :=
  aluReg .subw (fun a b => sext 32 (a - b)) rd rs1 rs2 s

/-- SLLW: `x[rd] <- sext_32(x[rs1] << (x[rs2] & 31))` (R184). -/
def execSllw (rd rs1 rs2 : RegIdx) (s : State) : Result :=
  aluReg .sllw (fun a b => sext 32 (shlAt s.wordBits a (shamtWord b))) rd rs1 rs2 s

/-- SRLW: `x[rd] <- sext_32(x[rs1][31:0] >> (x[rs2] & 31))` (R185). -/
def execSrlw (rd rs1 rs2 : RegIdx) (s : State) : Result :=
  aluReg .srlw (fun a b => sext 32 (shrAt s.wordBits a (shamtWord b))) rd rs1 rs2 s

/-- SRAW: `x[rd] <- sext_32(x[rs1][31:0] >>s (x[rs2] & 31))` (R186). -/
def execSraw (rd rs1 rs2 : RegIdx) (s : State) : Result :=
  aluReg .sraw (fun a b => sext 32 (sarAt s.wordBits a (shamtWord b))) rd rs1 rs2 s

end Sys2Proof.Machine
end

