-- ==== Sys2Proof/Machine/Atomic.lean ====
section
/-! DEFINITION. Load-reserved and store-conditional, group `A-lrsc` (spec 45_atomic_lrsc.md R270 to R274). The address is
`x[rs1]`; `aq` and `rl` have no effect (R76). -/

namespace Sys2Proof.Machine

/-- LR.W: `ea = x[rs1]; x[rd] <- LoadReserved(ea, 4)`, sign-extended (R271). -/
def execLrW (rd rs1 : RegIdx) (_aq _rl : BitVec 1) (s : State) : Result :=
  loadReserved .lrW rd [rs1] (s.getX rs1) 4 (sext 32) s

/-- LR.D: `ea = x[rs1]; x[rd] <- LoadReserved(ea, 8)` (R273). -/
def execLrD (rd rs1 : RegIdx) (_aq _rl : BitVec 1) (s : State) : Result :=
  loadReserved .lrD rd [rs1] (s.getX rs1) 8 (sext 64) s

/-- SC.W: `ok = StoreConditional(x[rs1], 4, x[rs2]); x[rd] <- ok ? 0 : 1` (R272). -/
def execScW (rd rs1 rs2 : RegIdx) (_aq _rl : BitVec 1) (s : State) : Result :=
  storeConditional .scW rd [rs1, rs2] (s.getX rs1) 4 (s.getX rs2) s

/-- SC.D: `ok = StoreConditional(x[rs1], 8, x[rs2]); x[rd] <- ok ? 0 : 1` (R274). -/
def execScD (rd rs1 rs2 : RegIdx) (_aq _rl : BitVec 1) (s : State) : Result :=
  storeConditional .scD rd [rs1, rs2] (s.getX rs1) 8 (s.getX rs2) s

end Sys2Proof.Machine
end

