-- ==== Sys2Proof/Machine/Control.lean ====
section
/-! DEFINITION. Control transfer (spec 44_control_transfer.md R252 to R259). A branch and `jal` write the pending advance,
`jalr` jumps; no target is checked (R260). -/

namespace Sys2Proof.Machine

/-- JAL: `x[rd] <- pc + width; adv <- immJ` (R252). -/
def execJal (rd : RegIdx) (off : BitVec 20) (s : State) : Result :=
  checked .jal rd [] s (.next ((s.setX rd s.linkValue).setAdv (s.immJ off)))

/-- JALR: `t = (x[rs1] + immI) & ~1; x[rd] <- pc + width; jump_to(t)`, `t` being computed from the old `x[rs1]` (R253). -/
def execJalr (rd rs1 : RegIdx) (imm : BitVec 12) (s : State) : Result :=
  checked .jalr rd [rs1] s (.next ((s.setX rd s.linkValue).jumpTo ((s.getX rs1 + s.imm12 imm) &&& ~~~1)))

/-- BEQ: `if x[rs1] == x[rs2] then adv <- immB` (R254). -/
def execBeq (rs1 rs2 : RegIdx) (off : BitVec 12) (s : State) : Result :=
  branchIf (s.getX rs1 == s.getX rs2) (s.immB off) s

/-- BNE: `if x[rs1] != x[rs2] then adv <- immB` (R255). -/
def execBne (rs1 rs2 : RegIdx) (off : BitVec 12) (s : State) : Result :=
  branchIf (s.getX rs1 != s.getX rs2) (s.immB off) s

/-- BLT: `if lt_s(x[rs1], x[rs2]) then adv <- immB` (R256). -/
def execBlt (rs1 rs2 : RegIdx) (off : BitVec 12) (s : State) : Result :=
  branchIf (ltS s.bits (s.getX rs1) (s.getX rs2)) (s.immB off) s

/-- BGE: `if not lt_s(x[rs1], x[rs2]) then adv <- immB` (R257). -/
def execBge (rs1 rs2 : RegIdx) (off : BitVec 12) (s : State) : Result :=
  branchIf (!ltS s.bits (s.getX rs1) (s.getX rs2)) (s.immB off) s

/-- BLTU: `if lt_u(x[rs1], x[rs2]) then adv <- immB` (R258). -/
def execBltu (rs1 rs2 : RegIdx) (off : BitVec 12) (s : State) : Result :=
  branchIf (ltU s.bits (s.getX rs1) (s.getX rs2)) (s.immB off) s

/-- BGEU: `if not lt_u(x[rs1], x[rs2]) then adv <- immB` (R259). -/
def execBgeu (rs1 rs2 : RegIdx) (off : BitVec 12) (s : State) : Result :=
  branchIf (!ltU s.bits (s.getX rs1) (s.getX rs2)) (s.immB off) s

end Sys2Proof.Machine
end

