-- ==== Sys2Proof/Machine/LoadStore.lean ====
section
/-! DEFINITION. Loads and stores (spec 43_load_store.md R230 to R242). No access has an alignment requirement (R68); neither
touches the reservation (R63). -/

namespace Sys2Proof.Machine

/-- LB: `x[rd] <- sext_8(MemRead(x[rs1] + immI, 1))` (R232). -/
def execLb (rd rs1 : RegIdx) (imm : BitVec 12) (s : State) : Result :=
  loadInto .lb rd [rs1] (s.ea rs1 imm) 1 (sext 8) s

/-- LH: `x[rd] <- sext_16(MemRead(x[rs1] + immI, 2))` (R233). -/
def execLh (rd rs1 : RegIdx) (imm : BitVec 12) (s : State) : Result :=
  loadInto .lh rd [rs1] (s.ea rs1 imm) 2 (sext 16) s

/-- LW: `x[rd] <- sext_32(MemRead(x[rs1] + immI, 4))` (R234). -/
def execLw (rd rs1 : RegIdx) (imm : BitVec 12) (s : State) : Result :=
  loadInto .lw rd [rs1] (s.ea rs1 imm) 4 (sext 32) s

/-- LBU: `x[rd] <- zext(MemRead(x[rs1] + immI, 1))` (R235). -/
def execLbu (rd rs1 : RegIdx) (imm : BitVec 12) (s : State) : Result :=
  loadInto .lbu rd [rs1] (s.ea rs1 imm) 1 (zext 8) s

/-- LHU: `x[rd] <- zext(MemRead(x[rs1] + immI, 2))` (R236). -/
def execLhu (rd rs1 : RegIdx) (imm : BitVec 12) (s : State) : Result :=
  loadInto .lhu rd [rs1] (s.ea rs1 imm) 2 (zext 16) s

/-- LWU: `x[rd] <- zext(MemRead(x[rs1] + immI, 4))` (R237). -/
def execLwu (rd rs1 : RegIdx) (imm : BitVec 12) (s : State) : Result :=
  loadInto .lwu rd [rs1] (s.ea rs1 imm) 4 (zext 32) s

/-- LD: `x[rd] <- MemRead(x[rs1] + immI, 8)` (R238). -/
def execLd (rd rs1 : RegIdx) (imm : BitVec 12) (s : State) : Result :=
  loadInto .ld rd [rs1] (s.ea rs1 imm) 8 (sext 64) s

/-- SB: `MemWrite(x[rs1] + immS, 1, x[rs2])` (R239). -/
def execSb (rs1 rs2 : RegIdx) (imm : BitVec 12) (s : State) : Result :=
  storeFrom (s.ea rs1 imm) 1 (s.getX rs2) s

/-- SH: `MemWrite(x[rs1] + immS, 2, x[rs2])` (R240). -/
def execSh (rs1 rs2 : RegIdx) (imm : BitVec 12) (s : State) : Result :=
  storeFrom (s.ea rs1 imm) 2 (s.getX rs2) s

/-- SW: `MemWrite(x[rs1] + immS, 4, x[rs2])` (R241). -/
def execSw (rs1 rs2 : RegIdx) (imm : BitVec 12) (s : State) : Result :=
  storeFrom (s.ea rs1 imm) 4 (s.getX rs2) s

/-- SD: `MemWrite(x[rs1] + immS, 8, x[rs2])` (R242). -/
def execSd (rs1 rs2 : RegIdx) (imm : BitVec 12) (s : State) : Result :=
  storeFrom (s.ea rs1 imm) 8 (s.getX rs2) s

end Sys2Proof.Machine
end

