-- ==== Sys2Proof/Machine/MulDiv.lean ====
section
/-! DEFINITION. Multiply, divide and remainder, groups `M` and `M64` (spec 42_muldiv.md R212 to R224). -/

namespace Sys2Proof.Machine

/-- MUL: the low half of the product (R212). -/
def execMul (rd rs1 rs2 : RegIdx) (s : State) : Result :=
  aluReg .mul (fun a b => (multiply s.bits a b true true).2) rd rs1 rs2 s

/-- MULH: the high half, signed by signed (R213). -/
def execMulh (rd rs1 rs2 : RegIdx) (s : State) : Result :=
  aluReg .mulh (fun a b => (multiply s.bits a b true true).1) rd rs1 rs2 s

/-- MULHSU: the high half, signed by unsigned (R214). -/
def execMulhsu (rd rs1 rs2 : RegIdx) (s : State) : Result :=
  aluReg .mulhsu (fun a b => (multiply s.bits a b true false).1) rd rs1 rs2 s

/-- MULHU: the high half, unsigned by unsigned (R215). -/
def execMulhu (rd rs1 rs2 : RegIdx) (s : State) : Result :=
  aluReg .mulhu (fun a b => (multiply s.bits a b false false).1) rd rs1 rs2 s

/-- DIV: the signed quotient truncated toward zero, or the corner value (R216, R211). -/
def execDiv (rd rs1 rs2 : RegIdx) (s : State) : Result :=
  aluDiv .div (cornerS s.bits) (divS s.bits) rd rs1 rs2 s

/-- DIVU: the unsigned floor quotient, or all ones (R217, R211). -/
def execDivu (rd rs1 rs2 : RegIdx) (s : State) : Result :=
  aluDiv .divu (cornerU s.bits) (divU s.bits) rd rs1 rs2 s

/-- REM: the signed remainder, or the corner value (R218, R211). -/
def execRem (rd rs1 rs2 : RegIdx) (s : State) : Result :=
  aluDiv .rem (cornerS s.bits) (remS s.bits) rd rs1 rs2 s

/-- REMU: the unsigned remainder, or the dividend (R219, R211). -/
def execRemu (rd rs1 rs2 : RegIdx) (s : State) : Result :=
  aluDiv .remu (cornerU s.bits) (remU s.bits) rd rs1 rs2 s

/-! ### Word variants, XLEN = 64 only -/

/-- MULW: `x[rd] <- sext_32(x[rs1] * x[rs2])` (R220). -/
def execMulw (rd rs1 rs2 : RegIdx) (s : State) : Result := aluReg .mulw (fun a b => sext 32 (a * b)) rd rs1 rs2 s

/-- DIVW: signed division of the low words, sign-extended (R221, R156, R211). -/
def execDivw (rd rs1 rs2 : RegIdx) (s : State) : Result :=
  aluDiv .divw (cornerS s.wordBits) (fun a b => sext 32 (divS s.wordBits a b)) rd rs1 rs2 s

/-- DIVUW: unsigned division of the low words, sign-extended (R222, R156, R211). -/
def execDivuw (rd rs1 rs2 : RegIdx) (s : State) : Result :=
  aluDiv .divuw (cornerU s.wordBits) (fun a b => sext 32 (divU s.wordBits a b)) rd rs1 rs2 s

/-- REMW: signed remainder of the low words, sign-extended (R223, R156, R211). -/
def execRemw (rd rs1 rs2 : RegIdx) (s : State) : Result :=
  aluDiv .remw (cornerS s.wordBits) (fun a b => sext 32 (remS s.wordBits a b)) rd rs1 rs2 s

/-- REMUW: unsigned remainder of the low words, sign-extended (R224, R156, R211). -/
def execRemuw (rd rs1 rs2 : RegIdx) (s : State) : Result :=
  aluDiv .remuw (cornerU s.wordBits) (fun a b => sext 32 (remU s.wordBits a b)) rd rs1 rs2 s

end Sys2Proof.Machine
end

