-- ==== Sys2Proof/Machine/System.lean ====
section
/-! DEFINITION. The placeholder instructions (spec 46_system_placeholder.md R281 to R290): fences, environment call,
breakpoint and CSR access decode and format, and execute through the no-op functor of R280. No CSR exists, `rd` is not
written, nothing traps. -/

namespace Sys2Proof.Machine

/-- FENCE: nothing, for every value of its fields (R281). -/
def execFence (_fm _pred _succ : BitVec 4) (_rs1 _rd : RegIdx) (s : State) : Result := noop s

/-- FENCE.I: nothing; a store is visible to the next fetch without it (R282, R74). -/
def execFenceI (_imm : BitVec 12) (_rs1 _rd : RegIdx) (s : State) : Result := noop s

/-- ECALL: nothing; it neither traps nor stops the run (R283, R380). -/
def execEcall (s : State) : Result := noop s

/-- EBREAK: nothing, as ECALL (R284). -/
def execEbreak (s : State) : Result := noop s

/-- CSRRW: nothing; `rd` keeps its value (R285). -/
def execCsrrw (_rd : RegIdx) (_csr : BitVec 12) (_rs1 : RegIdx) (s : State) : Result := noop s

/-- CSRRS: nothing; `rd` keeps its value (R286). -/
def execCsrrs (_rd : RegIdx) (_csr : BitVec 12) (_rs1 : RegIdx) (s : State) : Result := noop s

/-- CSRRC: nothing; `rd` keeps its value (R287). -/
def execCsrrc (_rd : RegIdx) (_csr : BitVec 12) (_rs1 : RegIdx) (s : State) : Result := noop s

/-- CSRRWI: nothing; `rd` keeps its value (R288). -/
def execCsrrwi (_rd : RegIdx) (_csr : BitVec 12) (_uimm : BitVec 5) (s : State) : Result := noop s

/-- CSRRSI: nothing; `rd` keeps its value (R289). -/
def execCsrrsi (_rd : RegIdx) (_csr : BitVec 12) (_uimm : BitVec 5) (s : State) : Result := noop s

/-- CSRRCI: nothing; `rd` keeps its value (R290). -/
def execCsrrci (_rd : RegIdx) (_csr : BitVec 12) (_uimm : BitVec 5) (s : State) : Result := noop s

end Sys2Proof.Machine
end

