-- ==== Sys2Proof/Machine/Compressed.lean ====
section
/-! DEFINITION. The compressed instructions (spec 47_compressed.md R311 to R360). The effect of a translator entry is by
definition the effect of its expansion, found in the same step, with the fetched width 2 kept in `adv` (R133, R310); a no-op
entry does nothing (R280); a reserved entry stalls (R109). -/

namespace Sys2Proof.Machine

/-- C.INVALID: no state changes and the step stalls (R311). -/
def execCInvalid (s : State) : Result := stall s

/-- C.ADDI4SPN.RES: no state changes and the step stalls (R312). -/
def execCAddi4spnRes (_rd : CRegIdx) (s : State) : Result := stall s

/-- C.ADDI4SPN: `x[rd'] <- x[2] + immCIW`, the effect of its expansion (R313). -/
def execCAddi4spn (rd : CRegIdx) (imm : BitVec 8) (s : State) : Result := execAddi rd.full 2 (ciwImm imm) s

/-- C.FLD: nothing; no float register, no general register and no memory is touched (R314). -/
def execCFld (_rd : CRegIdx) (_rs1 : CRegIdx) (_uimm : BitVec 5) (s : State) : Result := noop s

/-- C.LW: `x[rd'] <- sext_32(MemRead(x[rs1'] + immCLw, 4))`, the effect of its expansion (R315). -/
def execCLw (rd : CRegIdx) (rs1 : CRegIdx) (uimm : BitVec 5) (s : State) : Result := execLw rd.full rs1.full (clwImm uimm) s

/-- C.FLW: nothing; no float register, no general register and no memory is touched (R316). -/
def execCFlw (_rd : CRegIdx) (_rs1 : CRegIdx) (_uimm : BitVec 5) (s : State) : Result := noop s

/-- C.LD: `x[rd'] <- MemRead(x[rs1'] + immCLd, 8)`, the effect of its expansion (R317). -/
def execCLd (rd : CRegIdx) (rs1 : CRegIdx) (uimm : BitVec 5) (s : State) : Result := execLd rd.full rs1.full (cldImm uimm) s

/-- C.FSD: nothing; no float register, no general register and no memory is touched (R318). -/
def execCFsd (_rs1 : CRegIdx) (_rs2 : CRegIdx) (_uimm : BitVec 5) (s : State) : Result := noop s

/-- C.SW: `MemWrite(x[rs1'] + immCLw, 4, x[rs2'])`, the effect of its expansion (R319). -/
def execCSw (rs1 : CRegIdx) (rs2 : CRegIdx) (uimm : BitVec 5) (s : State) : Result :=
  execSw rs1.full rs2.full (clwImm uimm) s

/-- C.FSW: nothing; no float register, no general register and no memory is touched (R320). -/
def execCFsw (_rs1 : CRegIdx) (_rs2 : CRegIdx) (_uimm : BitVec 5) (s : State) : Result := noop s

/-- C.SD: `MemWrite(x[rs1'] + immCLd, 8, x[rs2'])`, the effect of its expansion (R321). -/
def execCSd (rs1 : CRegIdx) (rs2 : CRegIdx) (uimm : BitVec 5) (s : State) : Result :=
  execSd rs1.full rs2.full (cldImm uimm) s

/-- C.NOP: `nothing but pc <- pc + 2`, the effect of its expansion (R322). -/
def execCNop (s : State) : Result := execAddi 0 0 0 s

/-- C.ADDI: `x[rd] <- x[rd] + immCI`, the effect of its expansion (R323). -/
def execCAddi (rd : RegIdx) (imm : BitVec 6) (s : State) : Result := execAddi rd rd (ciImm imm) s

/-- C.JAL: `x[1] <- pc + 2; pc <- pc + immCJ`, the effect of its expansion (R324). -/
def execCJal (off : BitVec 11) (s : State) : Result := execJal 1 (off.signExtend 20) s

/-- C.ADDIW.RES: no state changes and the step stalls (R325). -/
def execCAddiwRes (_imm : BitVec 6) (s : State) : Result := stall s

/-- C.ADDIW: `x[rd] <- sext_32(x[rd] + immCI)`, the effect of its expansion (R326). -/
def execCAddiw (rd : RegIdx) (imm : BitVec 6) (s : State) : Result := execAddiw rd rd (ciImm imm) s

/-- C.LI: `x[rd] <- immCI`, the effect of its expansion (R327). -/
def execCLi (rd : RegIdx) (imm : BitVec 6) (s : State) : Result := execAddi rd 0 (ciImm imm) s

/-- C.ADDI16SP.RES: no state changes and the step stalls (R328). -/
def execCAddi16spRes (s : State) : Result := stall s

/-- C.ADDI16SP: `x[2] <- x[2] + immCI16`, the effect of its expansion (R329). -/
def execCAddi16sp (imm : BitVec 6) (s : State) : Result := execAddi 2 2 (ci16Imm imm) s

/-- C.LUI.RES: no state changes and the step stalls (R330). -/
def execCLuiRes (_rd : RegIdx) (s : State) : Result := stall s

/-- C.LUI: `x[rd] <- immCLUI`, the effect of its expansion (R331). -/
def execCLui (rd : RegIdx) (imm : BitVec 6) (s : State) : Result := execLui rd (imm.signExtend 20) s

/-- C.SRLI: `x[rd'] <- x[rd'] >> shamt`, the effect of its expansion (R332). -/
def execCSrli (rd : CRegIdx) (shamt : BitVec 6) (s : State) : Result := execSrli rd.full rd.full shamt s

/-- C.SRAI: `x[rd'] <- x[rd'] >>s shamt`, the effect of its expansion (R333). -/
def execCSrai (rd : CRegIdx) (shamt : BitVec 6) (s : State) : Result := execSrai rd.full rd.full shamt s

/-- C.ANDI: `x[rd'] <- x[rd'] & immCI`, the effect of its expansion (R334). -/
def execCAndi (rd : CRegIdx) (imm : BitVec 6) (s : State) : Result := execAndi rd.full rd.full (ciImm imm) s

/-- C.SUB: `x[rd'] <- x[rd'] - x[rs2']`, the effect of its expansion (R335). -/
def execCSub (rd : CRegIdx) (rs2 : CRegIdx) (s : State) : Result := execSub rd.full rd.full rs2.full s

/-- C.XOR: `x[rd'] <- x[rd'] ^ x[rs2']`, the effect of its expansion (R336). -/
def execCXor (rd : CRegIdx) (rs2 : CRegIdx) (s : State) : Result := execXor rd.full rd.full rs2.full s

/-- C.OR: `x[rd'] <- x[rd'] | x[rs2']`, the effect of its expansion (R337). -/
def execCOr (rd : CRegIdx) (rs2 : CRegIdx) (s : State) : Result := execOr rd.full rd.full rs2.full s

/-- C.AND: `x[rd'] <- x[rd'] & x[rs2']`, the effect of its expansion (R338). -/
def execCAnd (rd : CRegIdx) (rs2 : CRegIdx) (s : State) : Result := execAnd rd.full rd.full rs2.full s

/-- C.SUBW: `x[rd'] <- sext_32(x[rd'] - x[rs2'])`, the effect of its expansion (R339). -/
def execCSubw (rd : CRegIdx) (rs2 : CRegIdx) (s : State) : Result := execSubw rd.full rd.full rs2.full s

/-- C.ADDW: `x[rd'] <- sext_32(x[rd'] + x[rs2'])`, the effect of its expansion (R340). -/
def execCAddw (rd : CRegIdx) (rs2 : CRegIdx) (s : State) : Result := execAddw rd.full rd.full rs2.full s

/-- C.J: `pc <- pc + immCJ`, the effect of its expansion (R341). -/
def execCJ (off : BitVec 11) (s : State) : Result := execJal 0 (off.signExtend 20) s

/-- C.BEQZ: `if x[rs1'] == 0 then pc <- pc + immCB else pc <- pc + 2`, the effect of its expansion (R342). -/
def execCBeqz (rs1 : CRegIdx) (off : BitVec 8) (s : State) : Result := execBeq rs1.full 0 (off.signExtend 12) s

/-- C.BNEZ: `if x[rs1'] != 0 then pc <- pc + immCB else pc <- pc + 2`, the effect of its expansion (R343). -/
def execCBnez (rs1 : CRegIdx) (off : BitVec 8) (s : State) : Result := execBne rs1.full 0 (off.signExtend 12) s

/-- C.SLLI: `x[rd] <- (x[rd] << shamt) mod 2^XLEN`, the effect of its expansion (R344). -/
def execCSlli (rd : RegIdx) (shamt : BitVec 6) (s : State) : Result := execSlli rd rd shamt s

/-- C.FLDSP: nothing; no float register, no general register and no memory is touched (R345). -/
def execCFldsp (_rd : RegIdx) (_uimm : BitVec 6) (s : State) : Result := noop s

/-- C.LWSP.RES: no state changes and the step stalls (R346). -/
def execCLwspRes (_uimm : BitVec 6) (s : State) : Result := stall s

/-- C.LWSP: `x[rd] <- sext_32(MemRead(x[2] + immCIlwsp, 4))`, the effect of its expansion (R347). -/
def execCLwsp (rd : RegIdx) (uimm : BitVec 6) (s : State) : Result := execLw rd 2 (lwspImm uimm) s

/-- C.FLWSP: nothing; no float register, no general register and no memory is touched (R348). -/
def execCFlwsp (_rd : RegIdx) (_uimm : BitVec 6) (s : State) : Result := noop s

/-- C.LDSP.RES: no state changes and the step stalls (R349). -/
def execCLdspRes (_uimm : BitVec 6) (s : State) : Result := stall s

/-- C.LDSP: `x[rd] <- MemRead(x[2] + immCIldsp, 8)`, the effect of its expansion (R350). -/
def execCLdsp (rd : RegIdx) (uimm : BitVec 6) (s : State) : Result := execLd rd 2 (ldspImm uimm) s

/-- C.JR.RES: no state changes and the step stalls (R351). -/
def execCJrRes (s : State) : Result := stall s

/-- C.JR: `pc <- x[rs1] & ~1`, the effect of its expansion (R352). -/
def execCJr (rs1 : RegIdx) (s : State) : Result := execJalr 0 rs1 0 s

/-- C.MV: `x[rd] <- x[rs2]`, the effect of its expansion (R353). -/
def execCMv (rd : RegIdx) (rs2 : RegIdx) (s : State) : Result := execAdd rd 0 rs2 s

/-- C.EBREAK: `nothing but pc <- pc + 2`, the effect of its expansion (R354). -/
def execCEbreak (s : State) : Result := execEbreak s

/-- C.JALR: `t = x[rs1] & ~1; x[1] <- pc + 2; pc <- t`, the effect of its expansion (R355). -/
def execCJalr (rs1 : RegIdx) (s : State) : Result := execJalr 1 rs1 0 s

/-- C.ADD: `x[rd] <- x[rd] + x[rs2]`, the effect of its expansion (R356). -/
def execCAdd (rd : RegIdx) (rs2 : RegIdx) (s : State) : Result := execAdd rd rd rs2 s

/-- C.FSDSP: nothing; no float register, no general register and no memory is touched (R357). -/
def execCFsdsp (_rs2 : RegIdx) (_uimm : BitVec 6) (s : State) : Result := noop s

/-- C.SWSP: `MemWrite(x[2] + immCSSw, 4, x[rs2])`, the effect of its expansion (R358). -/
def execCSwsp (rs2 : RegIdx) (uimm : BitVec 6) (s : State) : Result := execSw 2 rs2 (lwspImm uimm) s

/-- C.FSWSP: nothing; no float register, no general register and no memory is touched (R359). -/
def execCFswsp (_rs2 : RegIdx) (_uimm : BitVec 6) (s : State) : Result := noop s

/-- C.SDSP: `MemWrite(x[2] + immCSSd, 8, x[rs2])`, the effect of its expansion (R360). -/
def execCSdsp (rs2 : RegIdx) (uimm : BitVec 6) (s : State) : Result := execSd 2 rs2 (ldspImm uimm) s

end Sys2Proof.Machine
end

