-- ==== Sys2Proof/Machine/Step.lean ====
section
/-! DEFINITION. The one operation that makes the machine move (spec 40_step_cycle.md R130). -/

namespace Sys2Proof.Machine

/-- One step (R130): fetch, classify the width, prologue `adv <- width` (R132), lookup, execute, epilogue `pc <- pc + adv`
(R136). A decode miss sets `adv` to 0 and changes nothing else (R142). After a failed load no step is modelled (R416), and by
default no step whose fetch leaves the buffer (R67). -/
def step (s : State) : Host.Outcome State Fault Refusal :=
  if s.loadFailed then .refused .afterFailedLoad
  else if s.fetchStops then .fault (.fetchOutsideBuffer s.pc.toNat)
  else if s.fetchRefused then .refused (.fetchOutsideBuffer s.pc.toNat)
  else
    match decodeWord s.cfg.xlen s.fetchWord with
    | none => .next (s.prologue.setAdv 0).epilogue
    | some i => finish (exec i s.prologue)

/-- `s` with the instruction whose bits are the low `nbits` of `w` stored, as four bytes little-endian, at the `pc`, where
step fetches. It stands for a load of that program (R414), so a failed load before it is forgotten. -/
def State.withFetchWord (s : State) (nbits w : Nat) : State :=
  { s.storeBytes s.pc.toNat (tableBytes nbits w) with loadFailed := false }

end Sys2Proof.Machine
end

