-- ==== Sys2Proof/Machine/Format.lean ====
section
/-! DEFINITION. Disassembly (spec 30_encoding.md R113 to R116): `format` resolves a word with the same lookup as step, and reads
no machine state. The spec claims exactness for the first token, the mnemonic (R113, D30). -/

namespace Sys2Proof.Machine

/-- The ABI names by index (R24). -/
def abiNames : List String :=
  ["zero", "ra", "sp", "gp", "tp", "t0", "t1", "t2", "s0", "s1", "a0", "a1", "a2", "a3", "a4", "a5"] ++
  ["a6", "a7", "s2", "s3", "s4", "s5", "s6", "s7", "s8", "s9", "s10", "s11", "t3", "t4", "t5", "t6"]

/-- A register's name (R24). -/
def regName (abi : Bool) (r : RegIdx) : String :=
  if abi then abiNames.getD r.toNat "" else "x" ++ toString r.toNat

/-- A number in signed decimal. -/
def signedDec {n : Nat} (v : BitVec n) : String := toString v.toInt

/-- A hexadecimal number `0x...` (R114). DESIGN CHOICE (log 24): the digits are lower-case letters without leading zeros, which
the spec does not say. -/
def hex (n : Nat) : String := "0x" ++ String.ofList (Nat.toDigits 16 n)

/-- A fence set as the letters of its set bits in the order i o r w; `0` if empty (R114). -/
def fenceSet (v : BitVec 4) : String :=
  let letters := (if v.getLsbD 3 then "i" else "") ++ (if v.getLsbD 2 then "o" else "") ++
    (if v.getLsbD 1 then "r" else "") ++ (if v.getLsbD 0 then "w" else "")
  if v = 0 then "0" else letters

/-- Operands separated by a comma and one space. -/
def commaSep : List String → String
  | [] => ""
  | [a] => a
  | a :: as => a ++ ", " ++ commaSep as

/-- The mnemonic, one space, the operands; the mnemonic alone if there are none (R114). -/
def asmLine (i : Instr) (ops : List String) : String :=
  match ops with
  | [] => i.op.mnemonic
  | _ => i.op.mnemonic ++ " " ++ commaSep ops

/-- `imm(rs1)`. -/
def memOperand (disp base : String) : String := disp ++ "(" ++ base ++ ")"

/-- The operands of an instruction in assembly order (R114; the compressed forms as each rule of 47_compressed.md gives them);
none for a no-op or reserved compressed entry. -/
def operandTexts (abi : Bool) (i : Instr) : List String :=
  let r := regName abi
  match i with
  | .lui rd imm => [r rd, signedDec imm]
  | .auipc rd imm => [r rd, signedDec imm]
  | .jal rd off => [r rd, signedDec (off ++ 0#1)]
  | .jalr rd rs1 imm => [r rd, memOperand (signedDec imm) (r rs1)]
  | .beq rs1 rs2 off => [r rs1, r rs2, signedDec (off ++ 0#1)]
  | .bne rs1 rs2 off => [r rs1, r rs2, signedDec (off ++ 0#1)]
  | .blt rs1 rs2 off => [r rs1, r rs2, signedDec (off ++ 0#1)]
  | .bge rs1 rs2 off => [r rs1, r rs2, signedDec (off ++ 0#1)]
  | .bltu rs1 rs2 off => [r rs1, r rs2, signedDec (off ++ 0#1)]
  | .bgeu rs1 rs2 off => [r rs1, r rs2, signedDec (off ++ 0#1)]
  | .lb rd rs1 imm => [r rd, memOperand (signedDec imm) (r rs1)]
  | .lh rd rs1 imm => [r rd, memOperand (signedDec imm) (r rs1)]
  | .lw rd rs1 imm => [r rd, memOperand (signedDec imm) (r rs1)]
  | .lbu rd rs1 imm => [r rd, memOperand (signedDec imm) (r rs1)]
  | .lhu rd rs1 imm => [r rd, memOperand (signedDec imm) (r rs1)]
  | .lwu rd rs1 imm => [r rd, memOperand (signedDec imm) (r rs1)]
  | .ld rd rs1 imm => [r rd, memOperand (signedDec imm) (r rs1)]
  | .sb rs1 rs2 imm => [r rs2, memOperand (signedDec imm) (r rs1)]
  | .sh rs1 rs2 imm => [r rs2, memOperand (signedDec imm) (r rs1)]
  | .sw rs1 rs2 imm => [r rs2, memOperand (signedDec imm) (r rs1)]
  | .sd rs1 rs2 imm => [r rs2, memOperand (signedDec imm) (r rs1)]
  | .addi rd rs1 imm => [r rd, r rs1, signedDec imm]
  | .slti rd rs1 imm => [r rd, r rs1, signedDec imm]
  | .sltiu rd rs1 imm => [r rd, r rs1, signedDec imm]
  | .xori rd rs1 imm => [r rd, r rs1, signedDec imm]
  | .ori rd rs1 imm => [r rd, r rs1, signedDec imm]
  | .andi rd rs1 imm => [r rd, r rs1, signedDec imm]
  | .slli rd rs1 shamt => [r rd, r rs1, toString shamt.toNat]
  | .srli rd rs1 shamt => [r rd, r rs1, toString shamt.toNat]
  | .srai rd rs1 shamt => [r rd, r rs1, toString shamt.toNat]
  | .add rd rs1 rs2 => [r rd, r rs1, r rs2]
  | .sub rd rs1 rs2 => [r rd, r rs1, r rs2]
  | .sll rd rs1 rs2 => [r rd, r rs1, r rs2]
  | .slt rd rs1 rs2 => [r rd, r rs1, r rs2]
  | .sltu rd rs1 rs2 => [r rd, r rs1, r rs2]
  | .xor rd rs1 rs2 => [r rd, r rs1, r rs2]
  | .srl rd rs1 rs2 => [r rd, r rs1, r rs2]
  | .sra rd rs1 rs2 => [r rd, r rs1, r rs2]
  | .or rd rs1 rs2 => [r rd, r rs1, r rs2]
  | .and rd rs1 rs2 => [r rd, r rs1, r rs2]
  | .fence _ pred succ _ _ => [fenceSet pred, fenceSet succ]
  | .ecall => []
  | .ebreak => []
  | .addiw rd rs1 imm => [r rd, r rs1, signedDec imm]
  | .slliw rd rs1 shamt => [r rd, r rs1, toString shamt.toNat]
  | .srliw rd rs1 shamt => [r rd, r rs1, toString shamt.toNat]
  | .sraiw rd rs1 shamt => [r rd, r rs1, toString shamt.toNat]
  | .addw rd rs1 rs2 => [r rd, r rs1, r rs2]
  | .subw rd rs1 rs2 => [r rd, r rs1, r rs2]
  | .sllw rd rs1 rs2 => [r rd, r rs1, r rs2]
  | .srlw rd rs1 rs2 => [r rd, r rs1, r rs2]
  | .sraw rd rs1 rs2 => [r rd, r rs1, r rs2]
  | .fenceI _ _ _ => []
  | .csrrw rd csr rs1 => [r rd, hex csr.toNat, r rs1]
  | .csrrs rd csr rs1 => [r rd, hex csr.toNat, r rs1]
  | .csrrc rd csr rs1 => [r rd, hex csr.toNat, r rs1]
  | .csrrwi rd csr uimm => [r rd, hex csr.toNat, toString uimm.toNat]
  | .csrrsi rd csr uimm => [r rd, hex csr.toNat, toString uimm.toNat]
  | .csrrci rd csr uimm => [r rd, hex csr.toNat, toString uimm.toNat]
  | .mul rd rs1 rs2 => [r rd, r rs1, r rs2]
  | .mulh rd rs1 rs2 => [r rd, r rs1, r rs2]
  | .mulhsu rd rs1 rs2 => [r rd, r rs1, r rs2]
  | .mulhu rd rs1 rs2 => [r rd, r rs1, r rs2]
  | .div rd rs1 rs2 => [r rd, r rs1, r rs2]
  | .divu rd rs1 rs2 => [r rd, r rs1, r rs2]
  | .rem rd rs1 rs2 => [r rd, r rs1, r rs2]
  | .remu rd rs1 rs2 => [r rd, r rs1, r rs2]
  | .mulw rd rs1 rs2 => [r rd, r rs1, r rs2]
  | .divw rd rs1 rs2 => [r rd, r rs1, r rs2]
  | .divuw rd rs1 rs2 => [r rd, r rs1, r rs2]
  | .remw rd rs1 rs2 => [r rd, r rs1, r rs2]
  | .remuw rd rs1 rs2 => [r rd, r rs1, r rs2]
  | .lrW rd rs1 _ _ => [r rd, memOperand "" (r rs1)]
  | .scW rd rs1 rs2 _ _ => [r rd, r rs2, memOperand "" (r rs1)]
  | .lrD rd rs1 _ _ => [r rd, memOperand "" (r rs1)]
  | .scD rd rs1 rs2 _ _ => [r rd, r rs2, memOperand "" (r rs1)]
  | .cInvalid => []
  | .cAddi4spnRes _ => []
  | .cAddi4spn rd imm => [r rd.full, r 2, toString (ciwImm imm).toNat]
  | .cFld _ _ _ => []
  | .cLw rd rs1 uimm => [r rd.full, memOperand (toString (clwImm uimm).toNat) (r rs1.full)]
  | .cFlw _ _ _ => []
  | .cLd rd rs1 uimm => [r rd.full, memOperand (toString (cldImm uimm).toNat) (r rs1.full)]
  | .cFsd _ _ _ => []
  | .cSw rs1 rs2 uimm => [r rs2.full, memOperand (toString (clwImm uimm).toNat) (r rs1.full)]
  | .cFsw _ _ _ => []
  | .cSd rs1 rs2 uimm => [r rs2.full, memOperand (toString (cldImm uimm).toNat) (r rs1.full)]
  | .cNop => []
  | .cAddi rd imm => [r rd, signedDec imm]
  | .cJal off => [signedDec (off ++ 0#1)]
  | .cAddiwRes _ => []
  | .cAddiw rd imm => [r rd, signedDec imm]
  | .cLi rd imm => [r rd, signedDec imm]
  | .cAddi16spRes => []
  | .cAddi16sp imm => [r 2, signedDec (ci16Imm imm)]
  | .cLuiRes _ => []
  | .cLui rd imm => [r rd, signedDec imm]
  | .cSrli rd shamt => [r rd.full, toString shamt.toNat]
  | .cSrai rd shamt => [r rd.full, toString shamt.toNat]
  | .cAndi rd imm => [r rd.full, signedDec imm]
  | .cSub rd rs2 => [r rd.full, r rs2.full]
  | .cXor rd rs2 => [r rd.full, r rs2.full]
  | .cOr rd rs2 => [r rd.full, r rs2.full]
  | .cAnd rd rs2 => [r rd.full, r rs2.full]
  | .cSubw rd rs2 => [r rd.full, r rs2.full]
  | .cAddw rd rs2 => [r rd.full, r rs2.full]
  | .cJ off => [signedDec (off ++ 0#1)]
  | .cBeqz rs1 off => [r rs1.full, signedDec (off ++ 0#1)]
  | .cBnez rs1 off => [r rs1.full, signedDec (off ++ 0#1)]
  | .cSlli rd shamt => [r rd, toString shamt.toNat]
  | .cFldsp _ _ => []
  | .cLwspRes _ => []
  | .cLwsp rd uimm => [r rd, memOperand (toString (lwspImm uimm).toNat) (r 2)]
  | .cFlwsp _ _ => []
  | .cLdspRes _ => []
  | .cLdsp rd uimm => [r rd, memOperand (toString (ldspImm uimm).toNat) (r 2)]
  | .cJrRes => []
  | .cJr rs1 => [r rs1]
  | .cMv rd rs2 => [r rd, r rs2]
  | .cEbreak => []
  | .cJalr rs1 => [r rs1]
  | .cAdd rd rs2 => [r rd, r rs2]
  | .cFsdsp _ _ => []
  | .cSwsp rs2 uimm => [r rs2, memOperand (toString (lwspImm uimm).toNat) (r 2)]
  | .cFswsp _ _ => []
  | .cSdsp rs2 uimm => [r rs2, memOperand (toString (ldspImm uimm).toNat) (r 2)]

/-- An instruction with its operands, a translator entry followed by the arrow and its expansion (R113). -/
def formatInstr (abi : Bool) (i : Instr) : String :=
  match i.expansion with
  | none => asmLine i (operandTexts abi i)
  | some e => asmLine i (operandTexts abi i) ++ " -> " ++ asmLine e (operandTexts abi e)

/-- `format(word, use_abi_register_names)`: `"unknown"` on a decode miss (R113, R116). -/
def format (xl : Xlen) (word : BitVec 32) (abi : Bool) : String :=
  match decodeWord xl word with
  | none => "unknown"
  | some i => formatInstr abi i

end Sys2Proof.Machine
end

