-- ==== Sys2Proof/Machine/HostPort.lean ====
section
/-! DEFINITION. The operations the host has beside step (spec 10_state.md R40, R41; 70_reset_and_hazards.md R410 to R416;
40_step_cycle.md R138 to R141): construct, reset, load, the observers, and how a step and a run are judged from outside. -/

namespace Sys2Proof.Machine

/-- What a reset draws (`RESET_FILL`, R42, R46): the registers, and the bytes of memory that differ from the seed's fill. The
listed bytes may be anything, so every content of the buffer is some draw. -/
structure ResetFill where
  /-- The registers. -/
  regs : RegisterFill
  /-- Bytes of memory, stored in turn. -/
  mem : List Host.Cell
  deriving DecidableEq, Repr

/-- The drawn bytes stored. -/
def State.drawMemory (s : State) (cells : List Host.Cell) : State :=
  cells.foldl (fun t c => t.writeByte c.1 c.2) s

/-- Steps (1) to (5) of R410. -/
def State.fresh (c : Params) (fill : ResetFill) : State := (State.atReset c fill.regs).drawMemory fill.mem

/-- Construction (R411): the parameters are fixed, and the state is a fresh one with no image. -/
def hostConstruct (c : Params) (fill : ResetFill) : State := State.fresh c fill

/-- A sequence of writes through the load port, later ones over earlier ones (R415). -/
def State.portWrites (s : State) (ws : List PortWrite) : State :=
  ws.foldl (fun t w => t.storeBytes w.1 w.2) s

/-- `reset()` (R410): fresh draws, then the image of the last load written again. The parameters stay (R39), and the draw
counter goes on. -/
def hostReset (s : State) (fill : ResetFill) : State :=
  { (State.fresh s.cfg fill).portWrites s.image with image := s.image, draws := s.draws }

/-- The kinds of record of a bulk load (R416). -/
inductive RecordKind where
  /-- Data bytes, of any number. -/
  | data
  /-- End of file: 0 bytes. -/
  | endOfFile
  /-- A start address: 4 bytes, validated and otherwise ignored (R414). -/
  | startAddress
  /-- An extended address: 2 bytes; the records' base addresses already include it (R414). -/
  | extendedAddress
  deriving DecidableEq, Repr

/-- One `(base_address, record_type, payload_bytes)` triple with the byte count it reports (R416). -/
structure LoadRecord where
  /-- The base address. -/
  base : Nat
  /-- The type. -/
  kind : RecordKind
  /-- The reported byte count. -/
  count : Nat
  /-- The payload. -/
  payload : List Byte
  deriving DecidableEq, Repr

/-- What the excluded loader hands over: a record, or the reason a line of the stream is malformed (R416). -/
inductive LoadItem where
  /-- A record. -/
  | record (r : LoadRecord)
  /-- A malformed line: bad checksum structure, prefix, nibble count or record type. -/
  | malformed (reason : String)
  deriving DecidableEq, Repr

/-- What `load` is given: the format tags of R414. -/
inductive LoadSource where
  /-- A raw binary image. -/
  | raw (bytes : List Byte)
  /-- A record stream. -/
  | records (items : List LoadItem)
  /-- ELF, a placeholder. -/
  | elf
  deriving DecidableEq, Repr

/-- The expected byte count of the fixed-size record types (R416). -/
def RecordKind.expectedCount : RecordKind → Option Nat
  | .data => none
  | .endOfFile => some 0
  | .startAddress => some 4
  | .extendedAddress => some 2

/-- A record whose reported byte count is not its type's is a format error (R416). -/
def LoadRecord.countMismatch (r : LoadRecord) : Bool :=
  match r.kind.expectedCount with
  | none => false
  | some n => r.count != n

/-- The write of a record: a data record's payload at its base plus the offset (R414). -/
def LoadRecord.write (offset : Nat) (r : LoadRecord) : Option PortWrite :=
  match r.kind with
  | .data => some (r.base + offset, r.payload)
  | _ => none

/-- The writes of a stream up to its first malformed record, and the reason if there is one (R416). -/
def streamWrites (offset : Nat) : List LoadItem → List PortWrite × Option String
  | [] => ([], none)
  | .malformed reason :: _ => ([], some reason)
  | .record r :: items =>
    if r.countMismatch then ([], some "byte count mismatch")
    else
      let rest := streamWrites offset items
      ((r.write offset).toList ++ rest.1, rest.2)

/-- What `load` returns (R41, R416). -/
inductive LoadResult where
  /-- Success. -/
  | loaded (s : State)
  /-- A typed failure with its reason; memory is partially populated. -/
  | failed (reason : String) (s : State)
  /-- ELF is not loadable (R414): the state as it was. -/
  | unsupported (s : State)
  deriving DecidableEq, Repr

/-- `load` (R414): a fresh state, the writes of the stream in order, and the image remembered. At the first malformed record
it aborts, the earlier writes done and the state unusable (R416). -/
def hostLoad (s : State) (fill : ResetFill) (src : LoadSource) (offset : Nat) : LoadResult :=
  let s0 : State := { State.fresh s.cfg fill with image := s.image, draws := s.draws }
  match src with
  | .elf => .unsupported s
  | .raw bytes => .loaded { s0.storeBytes offset bytes with image := [(offset, bytes)] }
  | .records items =>
    match streamWrites offset items with
    | (ws, none) => .loaded { s0.portWrites ws with image := ws }
    | (ws, some reason) => .failed reason { s0.portWrites ws with loadFailed := true }

/-! ### Observers (R40) -/

/-- Read pc. -/
def observePc (s : State) : Word := s.pc

/-- Read a general register by index. -/
def observeX (s : State) (i : RegIdx) : Word := s.getX i

/-- Read one raw memory byte; there is none past the end of the buffer. -/
def observeMem (s : State) (a : Nat) : Option Byte := if a < s.cfg.memSize then some (s.byteOf a) else none

/-! ### Outcomes and runs (R138 to R141) -/

/-- The outcome of a step as the host judges it. -/
inductive StepOutcome where
  /-- `pc` changed. -/
  | advanced (t : State)
  /-- `pc` is what it was: a miss, a reserved entry, or a transfer to itself. -/
  | stalled (t : State)
  /-- A fault: `fatal(DataHazard)`, or a stop of the `fault` setting. -/
  | fatal (f : Fault)
  /-- Outside what is modelled. -/
  | outside (r : Refusal)
  deriving DecidableEq, Repr

/-- `step()` judged by comparing `pc` before and after (R138). -/
def stepOutcome (s : State) : StepOutcome :=
  match step s with
  | .next t => if t.pc = s.pc then .stalled t else .advanced t
  | .fault f => .fatal f
  | .refused r => .outside r

/-- A run of at most `fuel` steps: it ends with the first step that stalls (R141), or that does not complete; `none` if the
fuel runs out. -/
def runToStall : Nat → State → Option StepOutcome
  | 0, _ => none
  | fuel + 1, s =>
    match stepOutcome s with
    | .advanced t => runToStall fuel t
    | o => some o

end Sys2Proof.Machine
end

