-- ==== Sys2Proof/Safety.lean ====
section
/-! DEFINITION. The vocabulary of the claims: the invariant of a state, when an instruction is allowed to complete, which
registers and bytes an instruction touches, and the relations between a state and the next one. -/

namespace Sys2Proof

/-! ### What an instruction touches -/

/-- What an instruction acts as: its expansion (R310), or itself. -/
def Instr.effective (i : Instr) : Instr := i.expansion.getD i

/-- The register an executor writes (R25, each instruction's rule); none for a store, a branch, a no-op, and for every compressed
instruction, which writes what its expansion writes. -/
def Instr.ownDest : Instr → Option RegIdx
  | .lui rd _ | .auipc rd _ | .jal rd _ | .jalr rd _ _ | .lb rd _ _ | .lh rd _ _ | .lw rd _ _ | .lbu rd _ _
  | .lhu rd _ _ | .lwu rd _ _ | .ld rd _ _ | .addi rd _ _ | .slti rd _ _ | .sltiu rd _ _ | .xori rd _ _
  | .ori rd _ _ | .andi rd _ _ | .slli rd _ _ | .srli rd _ _ | .srai rd _ _ | .add rd _ _ | .sub rd _ _
  | .sll rd _ _ | .slt rd _ _ | .sltu rd _ _ | .xor rd _ _ | .srl rd _ _ | .sra rd _ _ | .or rd _ _ | .and rd _ _
  | .addiw rd _ _ | .slliw rd _ _ | .srliw rd _ _ | .sraiw rd _ _ | .addw rd _ _ | .subw rd _ _ | .sllw rd _ _
  | .srlw rd _ _ | .sraw rd _ _ | .mul rd _ _ | .mulh rd _ _ | .mulhsu rd _ _ | .mulhu rd _ _ | .div rd _ _
  | .divu rd _ _ | .rem rd _ _ | .remu rd _ _ | .mulw rd _ _ | .divw rd _ _ | .divuw rd _ _ | .remw rd _ _
  | .remuw rd _ _ | .lrW rd _ _ _ | .scW rd _ _ _ _ | .lrD rd _ _ _ | .scD rd _ _ _ _ => some rd
  | .beq _ _ _ | .bne _ _ _ | .blt _ _ _ | .bge _ _ _ | .bltu _ _ _ | .bgeu _ _ _ | .sb _ _ _ | .sh _ _ _
  | .sw _ _ _ | .sd _ _ _ | .fence _ _ _ _ _ | .ecall | .ebreak | .fenceI _ _ _ | .csrrw _ _ _ | .csrrs _ _ _
  | .csrrc _ _ _ | .csrrwi _ _ _ | .csrrsi _ _ _ | .csrrci _ _ _ | .cInvalid | .cAddi4spnRes _ | .cAddi4spn _ _
  | .cFld _ _ _ | .cLw _ _ _ | .cFlw _ _ _ | .cLd _ _ _ | .cFsd _ _ _ | .cSw _ _ _ | .cFsw _ _ _ | .cSd _ _ _
  | .cNop | .cAddi _ _ | .cJal _ | .cAddiwRes _ | .cAddiw _ _ | .cLi _ _ | .cAddi16spRes | .cAddi16sp _ | .cLuiRes _
  | .cLui _ _ | .cSrli _ _ | .cSrai _ _ | .cAndi _ _ | .cSub _ _ | .cXor _ _ | .cOr _ _ | .cAnd _ _ | .cSubw _ _
  | .cAddw _ _ | .cJ _ | .cBeqz _ _ | .cBnez _ _ | .cSlli _ _ | .cFldsp _ _ | .cLwspRes _ | .cLwsp _ _ | .cFlwsp _ _
  | .cLdspRes _ | .cLdsp _ _ | .cJrRes | .cJr _ | .cMv _ _ | .cEbreak | .cJalr _ | .cAdd _ _ | .cFsdsp _ _
  | .cSwsp _ _ | .cFswsp _ _ | .cSdsp _ _ => none

/-- The registers an executor reads (R25, each instruction's rule); none for a no-op, and for every compressed instruction. -/
def Instr.ownSources : Instr → List RegIdx
  | .lui _ _ | .auipc _ _ | .jal _ _ | .fence _ _ _ _ _ | .ecall | .ebreak | .fenceI _ _ _ | .csrrw _ _ _
  | .csrrs _ _ _ | .csrrc _ _ _ | .csrrwi _ _ _ | .csrrsi _ _ _ | .csrrci _ _ _ | .cInvalid | .cAddi4spnRes _
  | .cAddi4spn _ _ | .cFld _ _ _ | .cLw _ _ _ | .cFlw _ _ _ | .cLd _ _ _ | .cFsd _ _ _ | .cSw _ _ _ | .cFsw _ _ _
  | .cSd _ _ _ | .cNop | .cAddi _ _ | .cJal _ | .cAddiwRes _ | .cAddiw _ _ | .cLi _ _ | .cAddi16spRes | .cAddi16sp _
  | .cLuiRes _ | .cLui _ _ | .cSrli _ _ | .cSrai _ _ | .cAndi _ _ | .cSub _ _ | .cXor _ _ | .cOr _ _ | .cAnd _ _
  | .cSubw _ _ | .cAddw _ _ | .cJ _ | .cBeqz _ _ | .cBnez _ _ | .cSlli _ _ | .cFldsp _ _ | .cLwspRes _ | .cLwsp _ _
  | .cFlwsp _ _ | .cLdspRes _ | .cLdsp _ _ | .cJrRes | .cJr _ | .cMv _ _ | .cEbreak | .cJalr _ | .cAdd _ _
  | .cFsdsp _ _ | .cSwsp _ _ | .cFswsp _ _ | .cSdsp _ _ => []
  | .jalr _ rs1 _ | .lb _ rs1 _ | .lh _ rs1 _ | .lw _ rs1 _ | .lbu _ rs1 _ | .lhu _ rs1 _ | .lwu _ rs1 _
  | .ld _ rs1 _ | .addi _ rs1 _ | .slti _ rs1 _ | .sltiu _ rs1 _ | .xori _ rs1 _ | .ori _ rs1 _ | .andi _ rs1 _
  | .slli _ rs1 _ | .srli _ rs1 _ | .srai _ rs1 _ | .addiw _ rs1 _ | .slliw _ rs1 _ | .srliw _ rs1 _
  | .sraiw _ rs1 _ | .lrW _ rs1 _ _ | .lrD _ rs1 _ _ => [rs1]
  | .beq rs1 rs2 _ | .bne rs1 rs2 _ | .blt rs1 rs2 _ | .bge rs1 rs2 _ | .bltu rs1 rs2 _ | .bgeu rs1 rs2 _
  | .sb rs1 rs2 _ | .sh rs1 rs2 _ | .sw rs1 rs2 _ | .sd rs1 rs2 _ | .add _ rs1 rs2 | .sub _ rs1 rs2 | .sll _ rs1 rs2
  | .slt _ rs1 rs2 | .sltu _ rs1 rs2 | .xor _ rs1 rs2 | .srl _ rs1 rs2 | .sra _ rs1 rs2 | .or _ rs1 rs2
  | .and _ rs1 rs2 | .addw _ rs1 rs2 | .subw _ rs1 rs2 | .sllw _ rs1 rs2 | .srlw _ rs1 rs2 | .sraw _ rs1 rs2
  | .mul _ rs1 rs2 | .mulh _ rs1 rs2 | .mulhsu _ rs1 rs2 | .mulhu _ rs1 rs2 | .div _ rs1 rs2 | .divu _ rs1 rs2
  | .rem _ rs1 rs2 | .remu _ rs1 rs2 | .mulw _ rs1 rs2 | .divw _ rs1 rs2 | .divuw _ rs1 rs2 | .remw _ rs1 rs2
  | .remuw _ rs1 rs2 | .scW _ rs1 rs2 _ _ | .scD _ rs1 rs2 _ _ => [rs1, rs2]

/-- The register an instruction writes. -/
def Instr.dest (i : Instr) : Option RegIdx := i.effective.ownDest

/-- The registers an instruction reads. -/
def Instr.sources (i : Instr) : List RegIdx := i.effective.ownSources

/-! ### Encodings, in the words of the rules: opcode, funct3, funct7 and the fields by their bits (R81) -/

/-- The word's opcode, `bits[6:0]`. -/
abbrev opcodeOf (w : BitVec 32) : BitVec 7 := w.extractLsb' 0 7

/-- The word's funct3, `bits[14:12]`. -/
abbrev funct3Of (w : BitVec 32) : BitVec 3 := w.extractLsb' 12 3

/-- The word's funct7, `bits[31:25]`. -/
abbrev funct7Of (w : BitVec 32) : BitVec 7 := w.extractLsb' 25 7

/-- Every U-type word with this opcode decodes to `mk` of `rd` and `bits[31:12]`. -/
def EncodedU (xl : Xlen) (op : BitVec 7) (mk : RegIdx → BitVec 20 → Instr) : Prop :=
  ∀ w : BitVec 32, opcodeOf w = op → decodeWord xl w = some (mk (w.extractLsb' 7 5) (w.extractLsb' 12 20))

/-- Every J-type word with this opcode decodes to `mk` of `rd` and offset[20:1]. -/
def EncodedJ (xl : Xlen) (op : BitVec 7) (mk : RegIdx → BitVec 20 → Instr) : Prop :=
  ∀ w : BitVec 32, opcodeOf w = op → decodeWord xl w =
    some (mk (w.extractLsb' 7 5) (w.extractLsb' 31 1 ++ w.extractLsb' 12 8 ++ w.extractLsb' 20 1 ++ w.extractLsb' 21 10))

/-- Every I-type word with this opcode and funct3 decodes to `mk` of `rd`, `rs1` and `bits[31:20]`. -/
def EncodedI (xl : Xlen) (op : BitVec 7) (f3 : BitVec 3) (mk : RegIdx → RegIdx → BitVec 12 → Instr) : Prop :=
  ∀ w : BitVec 32, opcodeOf w = op → funct3Of w = f3 →
    decodeWord xl w = some (mk (w.extractLsb' 7 5) (w.extractLsb' 15 5) (w.extractLsb' 20 12))

/-- Every S-type word with this opcode and funct3 decodes to `mk` of `rs1`, `rs2` and `{bits[31:25], bits[11:7]}`. -/
def EncodedS (xl : Xlen) (op : BitVec 7) (f3 : BitVec 3) (mk : RegIdx → RegIdx → BitVec 12 → Instr) : Prop :=
  ∀ w : BitVec 32, opcodeOf w = op → funct3Of w = f3 →
    decodeWord xl w = some (mk (w.extractLsb' 15 5) (w.extractLsb' 20 5) (w.extractLsb' 25 7 ++ w.extractLsb' 7 5))

/-- Every B-type word with this opcode and funct3 decodes to `mk` of `rs1`, `rs2` and offset[12:1]. -/
def EncodedB (xl : Xlen) (op : BitVec 7) (f3 : BitVec 3) (mk : RegIdx → RegIdx → BitVec 12 → Instr) : Prop :=
  ∀ w : BitVec 32, opcodeOf w = op → funct3Of w = f3 → decodeWord xl w =
    some (mk (w.extractLsb' 15 5) (w.extractLsb' 20 5)
      (w.extractLsb' 31 1 ++ w.extractLsb' 7 1 ++ w.extractLsb' 25 6 ++ w.extractLsb' 8 4))

/-- Every R-type word with this opcode, funct3 and funct7 decodes to `mk` of `rd`, `rs1` and `rs2` (or the five-bit amount). -/
def EncodedR (xl : Xlen) (op : BitVec 7) (f3 : BitVec 3) (f7 : BitVec 7) (mk : RegIdx → RegIdx → BitVec 5 → Instr) : Prop :=
  ∀ w : BitVec 32, opcodeOf w = op → funct3Of w = f3 → funct7Of w = f7 →
    decodeWord xl w = some (mk (w.extractLsb' 7 5) (w.extractLsb' 15 5) (w.extractLsb' 20 5))

/-- Every shift-immediate word whose bits above the amount are those of `top` decodes to `mk` of `rd`, `rs1` and `bits[25:20]`:
the bits above are funct7 with XLEN = 32 and funct6 with XLEN = 64; with XLEN = 32 and bit 25 set the word misses (R91). -/
def EncodedShift (f3 : BitVec 3) (top : BitVec 6) (mk : RegIdx → RegIdx → BitVec 6 → Instr) : Prop :=
  ∀ w : BitVec 32, opcodeOf w = 0b0010011#7 → funct3Of w = f3 → w.extractLsb' 26 6 = top →
    decodeWord .rv64 w = some (mk (w.extractLsb' 7 5) (w.extractLsb' 15 5) (w.extractLsb' 20 6)) ∧
    decodeWord .rv32 w =
      if w.extractLsb' 25 1 = 0#1 then some (mk (w.extractLsb' 7 5) (w.extractLsb' 15 5) (w.extractLsb' 20 6)) else none

/-- Every word that has these bits under this mask decodes to what `mk` makes of it. -/
def EncodedMask (xl : Xlen) (mask want : BitVec 32) (mk : BitVec 32 → Instr) : Prop :=
  ∀ w : BitVec 32, w &&& mask = want → decodeWord xl w = some (mk w)

/-- Every SYSTEM word with this funct3 decodes to `mk` of `rd`, the CSR number `bits[31:20]` and `bits[19:15]` (R92). -/
def EncodedCsr (xl : Xlen) (f3 : BitVec 3) (mk : RegIdx → BitVec 12 → BitVec 5 → Instr) : Prop :=
  ∀ w : BitVec 32, opcodeOf w = 0b1110011#7 → funct3Of w = f3 →
    decodeWord xl w = some (mk (w.extractLsb' 7 5) (w.extractLsb' 20 12) (w.extractLsb' 15 5))

/-! ### The 16-bit encodings: the fields of a half-word by its bits (R84, R85, R93 to R96) -/

/-- The half-word of a 16-bit instruction in a fetched word (R131). -/
abbrev halfOf (w : BitVec 32) : BitVec 16 := w.extractLsb' 0 16

/-- `rd/rs1 = bits[11:7]` (R84). -/
abbrev halfRd (h : BitVec 16) : RegIdx := h.extractLsb' 7 5

/-- `rs2 = bits[6:2]` (R84). -/
abbrev halfRs2 (h : BitVec 16) : RegIdx := h.extractLsb' 2 5

/-- The prime field `bits[4:2]`, rd' or rs2' (R85). -/
abbrev halfLow (h : BitVec 16) : CRegIdx := h.extractLsb' 2 3

/-- The prime field `bits[9:7]`, rs1' or rd'/rs1' (R85). -/
abbrev halfHigh (h : BitVec 16) : CRegIdx := h.extractLsb' 7 3

/-- `{bit12, bits[6:2]}` (R93). -/
abbrev halfCI (h : BitVec 16) : BitVec 6 := h.extractLsb' 12 1 ++ h.extractLsb' 2 5

/-- `{bits[10:7], bits[12:11], bit5, bit6}`, the immediate's bits 9:2 (R94). -/
abbrev halfCIW (h : BitVec 16) : BitVec 8 :=
  h.extractLsb' 7 4 ++ h.extractLsb' 11 2 ++ h.extractLsb' 5 1 ++ h.extractLsb' 6 1

/-- `{bits[8:7], bits[12:9]}`, the offset's bits 7:2 (R95). -/
abbrev halfCSSw (h : BitVec 16) : BitVec 6 := h.extractLsb' 7 2 ++ h.extractLsb' 9 4

/-- `{bits[9:7], bits[12:10]}`, the offset's bits 8:3 (R95). -/
abbrev halfCSSd (h : BitVec 16) : BitVec 6 := h.extractLsb' 7 3 ++ h.extractLsb' 10 3

/-- `{bit5, bits[12:10], bit6}`, the offset's bits 6:2 (R96). -/
abbrev halfCLw (h : BitVec 16) : BitVec 5 := h.extractLsb' 5 1 ++ h.extractLsb' 10 3 ++ h.extractLsb' 6 1

/-- `{bits[6:5], bits[12:10]}`, the offset's bits 7:3 (R96). -/
abbrev halfCLd (h : BitVec 16) : BitVec 5 := h.extractLsb' 5 2 ++ h.extractLsb' 10 3

/-- `{bit12, bit8, bits[10:9], bit6, bit7, bit2, bit11, bits[5:3]}`, the offset's bits 11:1 (R96). -/
abbrev halfCJ (h : BitVec 16) : BitVec 11 :=
  h.extractLsb' 12 1 ++ h.extractLsb' 8 1 ++ h.extractLsb' 9 2 ++ h.extractLsb' 6 1 ++ h.extractLsb' 7 1 ++
    h.extractLsb' 2 1 ++ h.extractLsb' 11 1 ++ h.extractLsb' 3 3

/-- `{bit12, bits[6:5], bit2, bits[11:10], bits[4:3]}`, the offset's bits 8:1 (R96). -/
abbrev halfCB (h : BitVec 16) : BitVec 8 :=
  h.extractLsb' 12 1 ++ h.extractLsb' 5 2 ++ h.extractLsb' 2 1 ++ h.extractLsb' 10 2 ++ h.extractLsb' 3 2

/-- `{bit12, bits[4:3], bit5, bit2, bit6}`, the immediate's bits 9:4 (R96). -/
abbrev halfCI16 (h : BitVec 16) : BitVec 6 :=
  h.extractLsb' 12 1 ++ h.extractLsb' 3 2 ++ h.extractLsb' 5 1 ++ h.extractLsb' 2 1 ++ h.extractLsb' 6 1

/-- `{bits[3:2], bit12, bits[6:4]}`, the offset's bits 7:2 (R96). -/
abbrev halfLwsp (h : BitVec 16) : BitVec 6 := h.extractLsb' 2 2 ++ h.extractLsb' 12 1 ++ h.extractLsb' 4 3

/-- `{bits[4:2], bit12, bits[6:5]}`, the offset's bits 8:3 (R96). -/
abbrev halfLdsp (h : BitVec 16) : BitVec 6 := h.extractLsb' 2 3 ++ h.extractLsb' 12 1 ++ h.extractLsb' 5 2

/-- Every fetched word whose low half-word has these bits under this mask, and is none of those an earlier row takes (R363),
decodes to what `mk` makes of the half-word. -/
def EncodedHalf (xl : Xlen) (mask want : BitVec 16) (mk : BitVec 16 → Instr) (taken : BitVec 16 → Bool := fun _ => false) : Prop :=
  ∀ w : BitVec 32, halfOf w &&& mask = want → taken (halfOf w) = false → decodeWord xl w = some (mk (halfOf w))

/-! ### The words of the tables, in the words of R108 and R362 -/

/-- The opcode, funct3 and funct7 combinations of R104 and R105, among words with both low bits 1: the words that do not miss
(R108). With XLEN = 64 bit 25 of a shift-immediate belongs to its amount (R91). -/
def inTables (xl : Xlen) (w : BitVec 32) : Bool :=
  let wide := xl == .rv64
  let op := opcodeOf w
  let f3 := funct3Of w
  let f7 := funct7Of w
  let top := if wide then f7 &&& 0b1111110#7 else f7
  if op == 0b0110111#7 || op == 0b0010111#7 || op == 0b1101111#7 then true
  else if op == 0b1100111#7 then f3 == 0
  else if op == 0b1100011#7 then f3 != 2 && f3 != 3
  else if op == 0b0000011#7 then f3 != 7 && (wide || f3 != 3 && f3 != 6)
  else if op == 0b0100011#7 then f3 == 0 || f3 == 1 || f3 == 2 || wide && f3 == 3
  else if op == 0b0010011#7 then f3 != 1 && f3 != 5 || top == 0 || f3 == 5 && top == 0b0100000#7
  else if op == 0b0110011#7 then f7 == 0 || f7 == 1 || f7 == 0b0100000#7 && (f3 == 0 || f3 == 5)
  else if op == 0b0001111#7 then f3 == 0 || f3 == 1
  else if op == 0b1110011#7 then if f3 == 0 then w == 0x00000073#32 || w == 0x00100073#32 else f3 != 4
  else if op == 0b0101111#7 then
    (f3 == 2 || wide && f3 == 3) &&
      (w.extractLsb' 27 5 == 0b00010#5 && w.extractLsb' 20 5 == 0 || w.extractLsb' 27 5 == 0b00011#5)
  else if op == 0b0011011#7 then wide && (f3 == 0 || (f3 == 1 || f3 == 5) && f7 == 0 || f3 == 5 && f7 == 0b0100000#7)
  else if op == 0b0111011#7 then
    wide && (f7 == 0 && (f3 == 0 || f3 == 1 || f3 == 5) || f7 == 0b0100000#7 && (f3 == 0 || f3 == 5) ||
      f7 == 1 && (f3 == 0 || f3 == 4 || f3 == 5 || f3 == 6 || f3 == 7))
  else false

/-- The half-words that no row matches (R362). -/
def missingHalf (xl : Xlen) (h : BitVec 16) : Bool :=
  let quadrant := h.extractLsb' 0 2
  let f3 := h.extractLsb' 13 3
  let f2 := h.extractLsb' 10 2
  let bit12 := h.extractLsb' 12 1 == 1
  let narrow := xl == .rv32
  quadrant == 0 && f3 == 4 ||
  quadrant == 1 && f3 == 4 && bit12 && f2 == 3 && (h.extractLsb' 6 1 == 1 || narrow) ||
  narrow && quadrant == 1 && f3 == 4 && bit12 && (f2 == 0 || f2 == 1) ||
  narrow && quadrant == 2 && f3 == 0 && bit12

/-- The parameters at their normative or default setting (R7, R59). -/
abbrev Params.Normative (c : Params) : Prop := c.oobPolicy = .clamp ∧ c.hazardSet = [] ∧ c.divCorners = .riscv

namespace Machine

/-! ### The invariant -/

/-- The value fits in XLEN bits. -/
abbrev State.Fits (s : State) (w : Word) : Prop := w.toNat < 2 ^ s.bits

/-- Every general register holds an XLEN-bit value (R21). -/
abbrev State.XsFit (s : State) : Prop := ∀ i : Fin 31, s.Fits s.xs[i]

/-- The memory is in its canonical form, wholly inside the buffer (R34). -/
abbrev State.MemWf (s : State) : Prop := Memory.wf s.cfg.seed s.cfg.memSize s.mem

/-- The shape of the state (R20): registers, `pc`, `adv` and the reservation are XLEN bits wide, and memory is canonical. -/
abbrev State.Inv (s : State) : Prop :=
  s.XsFit ∧ s.Fits s.pc ∧ s.Fits s.adv ∧ (∀ a ∈ s.resv, s.Fits a) ∧ s.MemWf

/-- `pc` is even (R29). -/
abbrev State.PcEven (s : State) : Prop := s.pc.toNat % 2 = 0

/-! ### When an instruction completes -/

/-- The data-hazard check does not stop executor `d` (R421). -/
abbrev State.HazardFree (s : State) (d : Op) (rd : RegIdx) (reads : List RegIdx) : Prop :=
  ¬ (d ∈ s.cfg.hazardSet ∧ rd ≠ 0 ∧ rd ∈ reads)

/-- The policy at the buffer end does not stop an access of `n` bytes at `a` (R56, R59). -/
abbrev State.Admits (s : State) (a n : Nat) : Prop := s.cfg.oobPolicy = .fault → a + n ≤ s.cfg.memSize

/-- Neither the policy at the buffer end nor `oobFetch` stops a fetch of an instruction of `w` bytes (R59, R67). -/
abbrev State.AdmitsFetch (s : State) (w : Nat) : Prop :=
  s.cfg.oobPolicy = .fault ∨ s.cfg.oobFetch = .refuse → s.pc.toNat + w ≤ s.cfg.memSize

/-- `DIV_CORNERS` does not stop a division with these operands (R7, D13). -/
abbrev State.Divides (s : State) (corner : Prop) : Prop := s.cfg.divCorners = .refuse → ¬ corner

/-! ### Values as numbers (R10) -/

/-- `signed(v)` of an n-bit value given as a number. -/
def signedNat (n a : Nat) : Int := if a < 2 ^ (n - 1) then a else (a : Int) - 2 ^ n

/-- An integer modulo `2^n`. -/
def modNat (n : Nat) (z : Int) : Nat := (z % 2 ^ n).toNat

/-- The n-bit value in the low bits of `a`, sign-extended to N bits (R11, R150). -/
def sextNat (N n a : Nat) : Nat := modNat N (signedNat n (a % 2 ^ n))

/-- The quotient of the signed division in n bits, corners included (R211). -/
def quotS (n : Nat) (a b : Int) : Nat :=
  if b = 0 then 2 ^ n - 1 else if a = -2 ^ (n - 1) ∧ b = -1 then 2 ^ (n - 1) else modNat n (a.tdiv b)

/-- The remainder of the signed division in n bits, corners included (R211). -/
def remainS (n : Nat) (a b : Int) : Nat :=
  if b = 0 then modNat n a else if a = -2 ^ (n - 1) ∧ b = -1 then 0 else modNat n (a - b * a.tdiv b)

/-- The quotient of the unsigned division in n bits, the corner included (R211). -/
def quotU (n a b : Nat) : Nat := if b = 0 then 2 ^ n - 1 else a / b

/-- The remainder of the unsigned division, the corner included (R211). -/
def remainU (a b : Nat) : Nat := if b = 0 then a else a % b

/-- The operand pairs of a signed division in n bits that R211 calls corners. -/
def CornerS (n : Nat) (a b : Int) : Prop := b = 0 ∨ (a = -2 ^ (n - 1) ∧ b = -1)

/-- `x[r]` as an unsigned number. -/
def State.natX (s : State) (r : RegIdx) : Nat := (s.getX r).toNat

/-- `x[r]` as a signed number. -/
def State.intX (s : State) (r : RegIdx) : Int := signedNat s.bits (s.natX r)

/-- The low n bits of `x[r]` as a signed number. -/
def State.lowX (s : State) (n : Nat) (r : RegIdx) : Int := signedNat n (s.natX r % 2 ^ n)

/-- The n bytes read at `a`, little-endian (R52): those of the buffer, and past its end the ones drawn (R58). -/
def State.readNat (s : State) (a : Nat) : Nat → Nat
  | 0 => 0
  | n + 1 => s.readNat a n + (s.readByte a n).toNat * 256 ^ n

/-! ### From a state to the next -/

/-- `t` is `s` with the value `v` written to `x[rd]`, and nothing else changed. With `rd = 0` nothing is changed at all. -/
structure WritesX (s t : State) (rd : RegIdx) (v : Nat) : Prop where
  /-- The destination. -/
  dest : t.natX rd = if rd = 0 then 0 else v
  /-- Every other register. -/
  others : ∀ r, r ≠ rd → t.getX r = s.getX r
  /-- Every byte of memory. -/
  bytes : ∀ a, t.byteOf a = s.byteOf a
  /-- Every other field. -/
  rest : t = { s with xs := t.xs }

/-- The same for a read of `n` bytes at `a`: bytes drawn past the end of the buffer are counted, if there are any. -/
structure LoadsX (s t : State) (rd : RegIdx) (v : Nat) (a n : Nat) : Prop where
  /-- The destination. -/
  dest : t.natX rd = if rd = 0 then 0 else v
  /-- Every other register. -/
  others : ∀ r, r ≠ rd → t.getX r = s.getX r
  /-- Every byte of memory. -/
  bytes : ∀ k, t.byteOf k = s.byteOf k
  /-- Every other field but the draw counter. -/
  rest : t = { s with xs := t.xs, draws := t.draws }
  /-- The draw counter, where the access stays in the buffer. -/
  draws : a + n ≤ s.cfg.memSize → t.draws = s.draws

/-- The bytes of `t` are those of `s` with the low `n` bytes of `v` stored little-endian at `a`, those past the end of the
buffer being dropped (R53, R54, R57). -/
def StoredBytes (s t : State) (a n v : Nat) : Prop :=
  ∀ k, t.byteOf k = if a ≤ k ∧ k < a + n ∧ k < s.cfg.memSize then leByte v (k - a) else s.byteOf k

/-- `t` is `s` with the low `n` bytes of `v` stored at `a`, and nothing else changed. -/
structure StoresAt (s t : State) (a n v : Nat) : Prop where
  /-- Every byte of memory. -/
  bytes : StoredBytes s t a n v
  /-- Every register. -/
  regs : ∀ r, t.getX r = s.getX r
  /-- Every field but memory. -/
  rest : t = { s with mem := t.mem }

/-- `t` is `s` with the pending advance `adv` set to the number `v`, and nothing else changed. -/
def SetsAdv (s t : State) (v : Nat) : Prop := t.adv.toNat = v ∧ t = { s with adv := t.adv }

/-- `t` is `s` after the link value `x[rd] <- pc + width` and a transfer: nothing but that register, `pc` and `adv` changed. The
width is in `adv` while the instruction executes (R132, R133). -/
structure LinksX (s t : State) (rd : RegIdx) : Prop where
  /-- The link register. -/
  dest : t.natX rd = if rd = 0 then 0 else (s.pc.toNat + s.adv.toNat) % 2 ^ s.bits
  /-- Every other register. -/
  others : ∀ r, r ≠ rd → t.getX r = s.getX r
  /-- Every byte of memory. -/
  bytes : ∀ a, t.byteOf a = s.byteOf a
  /-- Every other field. -/
  rest : t = { s with xs := t.xs, pc := t.pc, adv := t.adv }

/-- `t` is `s` after a load-reserved of `n` bytes at `a`: as a load, and the reservation is the address. -/
structure ReservesX (s t : State) (rd : RegIdx) (v : Nat) (a : Word) (n : Nat) : Prop where
  /-- The destination. -/
  dest : t.natX rd = if rd = 0 then 0 else v
  /-- Every other register. -/
  others : ∀ r, r ≠ rd → t.getX r = s.getX r
  /-- Every byte of memory. -/
  bytes : ∀ k, t.byteOf k = s.byteOf k
  /-- The reservation. -/
  resv : t.resv = some a
  /-- Every other field but the draw counter. -/
  rest : t = { s with xs := t.xs, resv := t.resv, draws := t.draws }
  /-- The draw counter, where the access stays in the buffer. -/
  draws : a.toNat + n ≤ s.cfg.memSize → t.draws = s.draws

/-- `t` is `s` after a successful store-conditional: the bytes are stored, the reservation is cleared and `x[rd]` is 0. -/
structure ConditionallyStores (s t : State) (rd : RegIdx) (a n v : Nat) : Prop where
  /-- The destination. -/
  dest : t.natX rd = 0
  /-- Every other register. -/
  others : ∀ r, r ≠ rd → t.getX r = s.getX r
  /-- Every byte of memory. -/
  bytes : StoredBytes s t a n v
  /-- The reservation. -/
  resv : t.resv = none
  /-- Every other field. -/
  rest : t = { s with xs := t.xs, mem := t.mem, resv := t.resv }

/-- `exec` answers a next state, which is `s` with `v` in `x[rd]`. -/
def Yields (s : State) (i : Instr) (rd : RegIdx) (v : Nat) : Prop := ∃ t, exec i s = .next t ∧ WritesX s t rd v

/-- `exec` answers a next state, which is `s` with `v`, read from `n` bytes at `a`, in `x[rd]`. -/
def Loads (s : State) (i : Instr) (rd : RegIdx) (v a n : Nat) : Prop := ∃ t, exec i s = .next t ∧ LoadsX s t rd v a n

/-- `exec` answers a next state, which is `s` with the low `n` bytes of `v` stored at `a`. -/
def Stores (s : State) (i : Instr) (a n v : Nat) : Prop := ∃ t, exec i s = .next t ∧ StoresAt s t a n v

/-- `exec` answers a next state, which is `s` with the number `v` as the pending advance. -/
def Advances (s : State) (i : Instr) (v : Nat) : Prop := ∃ t, exec i s = .next t ∧ SetsAdv s t v

/-- The next step of `s` runs `i`. -/
def Runs (s : State) (i : Instr) : Prop :=
  s.loadFailed = false ∧ s.AdmitsFetch i.width ∧ decodeWord s.cfg.xlen s.fetchWord = some i

/-- Where an instruction stores: the address and the length. A store-conditional stores where the reservation matches. -/
def storeSpan (i : Instr) (s : State) : Option (Nat × Nat) :=
  match i.effective with
  | .sb rs1 _ imm => some ((s.ea rs1 imm).toNat, 1)
  | .sh rs1 _ imm => some ((s.ea rs1 imm).toNat, 2)
  | .sw rs1 _ imm => some ((s.ea rs1 imm).toNat, 4)
  | .sd rs1 _ imm => some ((s.ea rs1 imm).toNat, 8)
  | .scW _ rs1 _ _ _ => if s.resv = some (s.getX rs1) then some ((s.getX rs1).toNat, 4) else none
  | .scD _ rs1 _ _ _ => if s.resv = some (s.getX rs1) then some ((s.getX rs1).toNat, 8) else none
  | _ => none

/-- What a storing instruction stores the low bytes of: `x[rs2]`. -/
def storeValue (i : Instr) (s : State) : Nat :=
  match i.effective with
  | .sb _ rs2 _ | .sh _ rs2 _ | .sw _ rs2 _ | .sd _ rs2 _ | .scW _ _ rs2 _ _ | .scD _ _ rs2 _ _ => s.natX rs2
  | _ => 0

/-- The address and the length of a load or a load-reserved. -/
def loadSpan (i : Instr) (s : State) : Option (Nat × Nat) :=
  match i.effective with
  | .lb _ rs1 imm | .lbu _ rs1 imm => some ((s.ea rs1 imm).toNat, 1)
  | .lh _ rs1 imm | .lhu _ rs1 imm => some ((s.ea rs1 imm).toNat, 2)
  | .lw _ rs1 imm | .lwu _ rs1 imm => some ((s.ea rs1 imm).toNat, 4)
  | .ld _ rs1 imm => some ((s.ea rs1 imm).toNat, 8)
  | .lrW _ rs1 _ _ => some ((s.getX rs1).toNat, 4)
  | .lrD _ rs1 _ _ => some ((s.getX rs1).toNat, 8)
  | _ => none

/-! ### After reset and load -/

/-- The byte that the last of the writes that covers an address gives it (R415). -/
def lastWrite : List PortWrite → Nat → Option Byte
  | [], _ => none
  | w :: ws, a => (lastWrite ws a).or (if w.1 ≤ a then w.2[a - w.1]? else none)

/-- The byte that a draw of reset gives an address (R46, R412). -/
def filledByte (c : Params) (fill : ResetFill) (a : Nat) : Byte :=
  (lastWrite (fill.mem.map fun d => (d.1, [d.2])) a).getD (fillByte c.seed a)

/-- The writes of the data records of a stream, in order (R414). -/
def dataWrites (offset : Nat) (records : List LoadRecord) : List PortWrite :=
  records.filterMap fun r => if r.kind = .data then some (r.base + offset, r.payload) else none

/-- The state after a construction, a reset or a load with parameters `c`, a draw and the writes of an image (R410 to R412, R414,
R415). -/
structure ResetTo (t : State) (c : Params) (fill : ResetFill) (image : List PortWrite) : Prop where
  /-- The parameters. -/
  cfg : t.cfg = c
  /-- `pc = RESET_PC`. -/
  pc : t.pc.toNat = c.resetPc.toNat % 2 ^ c.xlen.bits
  /-- The pending advance. -/
  adv : t.adv = 0
  /-- No reservation. -/
  resv : t.resv = none
  /-- `x0`. -/
  zero : t.getX 0 = 0
  /-- The general registers as drawn. -/
  regs : ∀ i : Fin 31, t.natX (BitVec.ofNat 5 (i.val + 1)) = (fill.regs.xs[i]).toNat % 2 ^ c.xlen.bits
  /-- The float registers as drawn. -/
  floats : t.fs = fill.regs.fs
  /-- Every byte of the buffer: the image's where a write covers it, later writes over earlier ones, else the drawn one; and
  there is no byte past the end. -/
  bytes : ∀ a, observeMem t a = if a < c.memSize then some ((lastWrite image a).getD (filledByte c fill a)) else none
  /-- The remembered image. -/
  image : t.image = image
  /-- The state may be stepped. -/
  usable : t.loadFailed = false

end Machine

end Sys2Proof
end

