-- ==== Sys2Proof/Certificates/Slice0/Obligations.lean ====
section
/-! DEFINITION. The statements for the provers. Each docstring says which rule of spec/ it formalises. In a statement about an
instruction, `HazardFree`, `Admits` and `Divides` are the conditions under which no parameter of R7 or R59 stops it; with the
normative parameters they hold of every state. -/

open Sys2Proof Sys2Proof.Machine

/-! ### Encodings -/

/-- Decode of encode: every well-formed instruction's bytes, with any bytes after them, decode to it (R117, R81, R82). -/
def Obligations.DecodeOfEncode : Prop :=
  ∀ (xl : Xlen) (i : Instr) (rest : List Byte), i.wf xl = true → decode xl (encodeBytes i ++ rest) = .ok (i, rest)

/-- Encode of decode: an instruction read from a word is well formed and its word is the one it was read from, the low half-word
where the instruction is 16 bits long: no bit is lost and no word has two spellings. -/
def Obligations.EncodeOfDecode : Prop :=
  ∀ (xl : Xlen) (w : BitVec 32) (i : Instr), decodeWord xl w = some i →
    i.wf xl = true ∧ encode i = if w.extractLsb' 0 2 = 3#2 then w else (w.extractLsb' 0 16).setWidth 32

/-- Words of the spec's vectors, byte by byte, lowest address first, one for each family (95_test_vectors.md L1, L2). -/
def Obligations.WrittenOutWords : Prop :=
  decode .rv64 [0xb7#8, 0x50#8, 0x34#8, 0x12#8] = .ok (.lui 1 0x12345, []) ∧
  decode .rv64 [0x6f#8, 0xf0#8, 0xdf#8, 0xfe#8] = .ok (.jal 0 (-10), []) ∧
  decode .rv64 [0x63#8, 0x88#8, 0x20#8, 0x00#8] = .ok (.beq 1 2 8, []) ∧
  decode .rv64 [0x23#8, 0x9f#8, 0x20#8, 0xfe#8] = .ok (.sh 1 2 (-2), []) ∧
  decode .rv64 [0x13#8, 0x80#8, 0xe0#8, 0xff#8] = .ok (.addi 0 1 (-2), []) ∧
  decode .rv64 [0x93#8, 0x92#8, 0xf0#8, 0x03#8] = .ok (.slli 5 1 63, []) ∧
  decode .rv32 [0x93#8, 0x92#8, 0xf0#8, 0x03#8] = .error (.noEntry 0x03f09293#32) ∧
  decode .rv64 [0xb3#8, 0x92#8, 0x20#8, 0x02#8] = .ok (.mulh 5 1 2, []) ∧
  decode .rv64 [0x2f#8, 0x23#8, 0x75#8, 0x1e#8] = .ok (.scW 6 10 7 1 1, []) ∧
  decode .rv64 [0x0f#8, 0x00#8, 0x30#8, 0x0c#8] = .ok (.fence 0 12 3 0 0, []) ∧
  decode .rv64 [0xf3#8, 0xd2#8, 0x02#8, 0x30#8] = .ok (.csrrwi 5 0x300 5, []) ∧
  decode .rv64 [0x7d#8, 0x15#8] = .ok (.cAddi 10 (-1), []) ∧
  decode .rv64 [0x00#8, 0x60#8] = .ok (.cLd 0 0 0, []) ∧
  decode .rv32 [0x00#8, 0x60#8] = .ok (.cFlw 0 0 0, []) ∧
  decode .rv64 [0x00#8, 0x00#8] = .ok (.cInvalid, []) ∧
  decode .rv64 [0x01#8, 0xf1#8] = .ok (.cBnez 2 128, [])

/-- The bit matcher: a pair of numbers, `match(v) = (care_about & (v ^ want)) == 0`, and `want & ~care_about = 0` for every matcher
of the registry (R97). -/
def Obligations.BitMatcher : Prop :=
  (∀ (r : Row) (w : BitVec 32), r.accepts w = true ↔ r.mask &&& (w ^^^ r.want) = 0) ∧
  ∀ r ∈ rows, r.want &&& ~~~r.mask = 0

/-- `find` answers the first entry, in the order of the registry, whose matcher accepts the word, or none (R101). -/
def Obligations.FirstMatchLookup : Prop :=
  ∀ (xl : Xlen) (w : BitVec 32),
    (∀ r, findRow xl w = some r ↔
      ∃ before after, registry xl = before ++ r :: after ∧ r.accepts w = true ∧ ∀ r' ∈ before, r'.accepts w = false) ∧
    (findRow xl w = none ↔ ∀ r ∈ registry xl, r.accepts w = false)

/-- The low two bits give the length: both 1, four bytes; else two. A word that would mark an encoding longer than 32 bits
(`bits[4:2] = 111` above them) is a decode miss (R80). -/
def Obligations.WidthByLowBits : Prop :=
  ∀ (xl : Xlen) (w : BitVec 32),
    (∀ i, decodeWord xl w = some i → i.width = if w.extractLsb' 0 2 = 3#2 then 4 else 2) ∧
    (w.extractLsb' 0 5 = 31#5 → decodeWord xl w = none)

/-- The decode misses, all of them and no others: among words with both low bits 1 those whose opcode, funct3 and funct7 are not
in R104 or R105, and among half-words those of R362 (R108, R362). The masks behind them are the spec's decision D10. -/
def Obligations.WordsThatMiss : Prop :=
  ∀ (xl : Xlen) (w : BitVec 32),
    (w.extractLsb' 0 2 = 3#2 → (decodeWord xl w = none ↔ inTables xl w = false)) ∧
    (w.extractLsb' 0 2 ≠ 3#2 → (decodeWord xl w = none ↔ missingHalf xl (halfOf w) = true))

/-- The source's literal vectors V1 to V9, its format examples V10 and V12, and a miss: the disassembly of each word (R113, R114,
R116; 95_test_vectors.md L1). For V8 the source gives `c.ld` alone: the operands and the arrow after it are the form of R113 that
90_conflicts.md C3 settles, with the operand text of the spec's decision D30 and of this model (log 24). -/
def Obligations.FormatVectors : Prop :=
  format .rv64 0x00000037#32 false = "lui x0, 0" ∧ format .rv64 0xffffffb7#32 false = "lui x31, -1" ∧
  format .rv32 0x0000006f#32 false = "jal x0, 0" ∧ format .rv32 0x8000006f#32 false = "jal x0, -1048576" ∧
  format .rv64 0x00000073#32 false = "ecall" ∧ format .rv64 0x00100073#32 false = "ebreak" ∧
  format .rv32 0x0000#32 false = "c.invalid" ∧ format .rv64 0x6000#32 false = "c.ld x8, 0(x8) -> ld x8, 0(x8)" ∧
  format .rv32 0x6000#32 false = "c.flw" ∧ format .rv64 0xffe08013#32 false = "addi x0, x1, -2" ∧
  format .rv64 0x0c30000f#32 false = "fence io, rw" ∧ format .rv64 0xffffffff#32 false = "unknown"

/-! ### Registers and operands -/

/-- Register 0 reads as 0 in every state, after any writes to it and after every reset; a write to it changes nothing (R22). -/
def Obligations.RegisterZero : Prop :=
  ∀ (s : State), s.getX 0 = 0 ∧ (∀ v, s.setX 0 v = s) ∧ (∀ vs : List Word, (vs.foldl (fun t v => t.setX 0 v) s).getX 0 = 0) ∧
    ∀ fill, (hostReset s fill).getX 0 = 0

/-- The one addressing mode: base register plus sign-extended 12-bit displacement, modulo `2^XLEN` (R51, R243). -/
def Obligations.EffectiveAddress : Prop :=
  ∀ (s : State) (rs1 : RegIdx) (imm : BitVec 12), (s.ea rs1 imm).toNat = modNat s.bits (s.natX rs1 + imm.toInt)

/-! ### Integer arithmetic -/

/-- LUI and AUIPC: encoding, result, frame, completion (R157, R158). -/
def Obligations.UpperImmediates : Prop :=
  (∀ xl, EncodedU xl 0b0110111#7 .lui ∧ EncodedU xl 0b0010111#7 .auipc) ∧
  ∀ (s : State) (rd : RegIdx) (imm : BitVec 20),
    Yields s (.lui rd imm) rd (modNat s.bits (imm.toInt * 4096)) ∧
    Yields s (.auipc rd imm) rd (modNat s.bits (s.pc.toNat + imm.toInt * 4096))

/-- ADDI, SLTI, SLTIU, XORI, ORI, ANDI: encoding, result, frame, completion (R159 to R164). -/
def Obligations.ImmediateArithmetic : Prop :=
  (∀ xl, EncodedI xl 0b0010011#7 0b000#3 .addi ∧ EncodedI xl 0b0010011#7 0b010#3 .slti ∧
    EncodedI xl 0b0010011#7 0b011#3 .sltiu ∧ EncodedI xl 0b0010011#7 0b100#3 .xori ∧
    EncodedI xl 0b0010011#7 0b110#3 .ori ∧ EncodedI xl 0b0010011#7 0b111#3 .andi) ∧
  ∀ (s : State) (rd rs1 : RegIdx) (imm : BitVec 12),
    (s.HazardFree .addi rd [rs1] → Yields s (.addi rd rs1 imm) rd (modNat s.bits (s.natX rs1 + imm.toInt))) ∧
    (s.HazardFree .slti rd [rs1] → Yields s (.slti rd rs1 imm) rd (if s.intX rs1 < imm.toInt then 1 else 0)) ∧
    (s.HazardFree .sltiu rd [rs1] →
      Yields s (.sltiu rd rs1 imm) rd (if s.natX rs1 < modNat s.bits imm.toInt then 1 else 0)) ∧
    (s.HazardFree .xori rd [rs1] → Yields s (.xori rd rs1 imm) rd (s.natX rs1 ^^^ modNat s.bits imm.toInt)) ∧
    (s.HazardFree .ori rd [rs1] → Yields s (.ori rd rs1 imm) rd (s.natX rs1 ||| modNat s.bits imm.toInt)) ∧
    (s.HazardFree .andi rd [rs1] → Yields s (.andi rd rs1 imm) rd (s.natX rs1 &&& modNat s.bits imm.toInt))

/-- SLLI, SRLI, SRAI: encoding with the miss on XLEN = 32, result, frame, completion (R165, R166, R167). -/
def Obligations.ImmediateShifts : Prop :=
  (EncodedShift 0b001#3 0b000000#6 .slli ∧ EncodedShift 0b101#3 0b000000#6 .srli ∧
    EncodedShift 0b101#3 0b010000#6 .srai) ∧
  ∀ (s : State) (rd rs1 : RegIdx) (shamt : BitVec 6),
    (s.HazardFree .slli rd [rs1] →
      Yields s (.slli rd rs1 shamt) rd (s.natX rs1 * 2 ^ (shamt.toNat % s.bits) % 2 ^ s.bits)) ∧
    (s.HazardFree .srli rd [rs1] → Yields s (.srli rd rs1 shamt) rd (s.natX rs1 / 2 ^ (shamt.toNat % s.bits))) ∧
    (s.HazardFree .srai rd [rs1] →
      Yields s (.srai rd rs1 shamt) rd (modNat s.bits (s.intX rs1 / 2 ^ (shamt.toNat % s.bits))))

/-- ADD, SUB, SLL, SLT, SLTU, XOR, SRL, SRA, OR, AND: encoding, result, frame, completion (R168 to R177). -/
def Obligations.RegisterArithmetic : Prop :=
  (∀ xl, EncodedR xl 0b0110011#7 0b000#3 0b0000000#7 .add ∧ EncodedR xl 0b0110011#7 0b000#3 0b0100000#7 .sub ∧
    EncodedR xl 0b0110011#7 0b001#3 0b0000000#7 .sll ∧ EncodedR xl 0b0110011#7 0b010#3 0b0000000#7 .slt ∧
    EncodedR xl 0b0110011#7 0b011#3 0b0000000#7 .sltu ∧ EncodedR xl 0b0110011#7 0b100#3 0b0000000#7 .xor ∧
    EncodedR xl 0b0110011#7 0b101#3 0b0000000#7 .srl ∧ EncodedR xl 0b0110011#7 0b101#3 0b0100000#7 .sra ∧
    EncodedR xl 0b0110011#7 0b110#3 0b0000000#7 .or ∧ EncodedR xl 0b0110011#7 0b111#3 0b0000000#7 .and) ∧
  ∀ (s : State) (rd rs1 rs2 : RegIdx),
    (s.HazardFree .add rd [rs1, rs2] → Yields s (.add rd rs1 rs2) rd ((s.natX rs1 + s.natX rs2) % 2 ^ s.bits)) ∧
    (s.HazardFree .sub rd [rs1, rs2] → Yields s (.sub rd rs1 rs2) rd (modNat s.bits ((s.natX rs1 : Int) - s.natX rs2))) ∧
    (s.HazardFree .sll rd [rs1, rs2] →
      Yields s (.sll rd rs1 rs2) rd (s.natX rs1 * 2 ^ (s.natX rs2 % s.bits) % 2 ^ s.bits)) ∧
    (s.HazardFree .slt rd [rs1, rs2] → Yields s (.slt rd rs1 rs2) rd (if s.intX rs1 < s.intX rs2 then 1 else 0)) ∧
    (s.HazardFree .sltu rd [rs1, rs2] → Yields s (.sltu rd rs1 rs2) rd (if s.natX rs1 < s.natX rs2 then 1 else 0)) ∧
    (s.HazardFree .xor rd [rs1, rs2] → Yields s (.xor rd rs1 rs2) rd (s.natX rs1 ^^^ s.natX rs2)) ∧
    (s.HazardFree .srl rd [rs1, rs2] → Yields s (.srl rd rs1 rs2) rd (s.natX rs1 / 2 ^ (s.natX rs2 % s.bits))) ∧
    (s.HazardFree .sra rd [rs1, rs2] →
      Yields s (.sra rd rs1 rs2) rd (modNat s.bits (s.intX rs1 / 2 ^ (s.natX rs2 % s.bits)))) ∧
    (s.HazardFree .or rd [rs1, rs2] → Yields s (.or rd rs1 rs2) rd (s.natX rs1 ||| s.natX rs2)) ∧
    (s.HazardFree .and rd [rs1, rs2] → Yields s (.and rd rs1 rs2) rd (s.natX rs1 &&& s.natX rs2))

/-- ADDIW, SLLIW, SRLIW, SRAIW, ADDW, SUBW, SLLW, SRLW, SRAW on XLEN = 64 under `WORD_MODE = operands_first`: encoding, result,
frame, completion; on XLEN = 32 their words miss (R178 to R186). -/
def Obligations.WordVariants : Prop :=
  (EncodedI .rv64 0b0011011#7 0b000#3 .addiw ∧ EncodedR .rv64 0b0011011#7 0b001#3 0b0000000#7 .slliw ∧
    EncodedR .rv64 0b0011011#7 0b101#3 0b0000000#7 .srliw ∧ EncodedR .rv64 0b0011011#7 0b101#3 0b0100000#7 .sraiw ∧
    EncodedR .rv64 0b0111011#7 0b000#3 0b0000000#7 .addw ∧ EncodedR .rv64 0b0111011#7 0b000#3 0b0100000#7 .subw ∧
    EncodedR .rv64 0b0111011#7 0b001#3 0b0000000#7 .sllw ∧ EncodedR .rv64 0b0111011#7 0b101#3 0b0000000#7 .srlw ∧
    EncodedR .rv64 0b0111011#7 0b101#3 0b0100000#7 .sraw) ∧
  (∀ w : BitVec 32, opcodeOf w = 0b0011011#7 ∨ opcodeOf w = 0b0111011#7 → decodeWord .rv32 w = none) ∧
  (∀ w : BitVec 32, opcodeOf w = 0b0011011#7 → funct3Of w = 0b001#3 → w.extractLsb' 25 1 = 1#1 → decodeWord .rv64 w = none) ∧
  ∀ (s : State) (rd rs1 rs2 : RegIdx) (imm : BitVec 12) (shamt : BitVec 5), s.cfg.xlen = .rv64 → s.cfg.wordMode = .operandsFirst →
    (s.HazardFree .addiw rd [rs1] → Yields s (.addiw rd rs1 imm) rd (sextNat 64 32 (modNat 64 (s.natX rs1 + imm.toInt)))) ∧
    (s.HazardFree .slliw rd [rs1] →
      Yields s (.slliw rd rs1 shamt) rd (sextNat 64 32 (s.natX rs1 * 2 ^ shamt.toNat))) ∧
    (s.HazardFree .srliw rd [rs1] →
      Yields s (.srliw rd rs1 shamt) rd (sextNat 64 32 (s.natX rs1 % 2 ^ 32 / 2 ^ shamt.toNat))) ∧
    (s.HazardFree .sraiw rd [rs1] →
      Yields s (.sraiw rd rs1 shamt) rd (modNat 64 (s.lowX 32 rs1 / 2 ^ shamt.toNat))) ∧
    (s.HazardFree .addw rd [rs1, rs2] → Yields s (.addw rd rs1 rs2) rd (sextNat 64 32 (s.natX rs1 + s.natX rs2))) ∧
    (s.HazardFree .subw rd [rs1, rs2] →
      Yields s (.subw rd rs1 rs2) rd (sextNat 64 32 (modNat 64 ((s.natX rs1 : Int) - s.natX rs2)))) ∧
    (s.HazardFree .sllw rd [rs1, rs2] →
      Yields s (.sllw rd rs1 rs2) rd (sextNat 64 32 (s.natX rs1 * 2 ^ (s.natX rs2 % 32)))) ∧
    (s.HazardFree .srlw rd [rs1, rs2] →
      Yields s (.srlw rd rs1 rs2) rd (sextNat 64 32 (s.natX rs1 % 2 ^ 32 / 2 ^ (s.natX rs2 % 32)))) ∧
    (s.HazardFree .sraw rd [rs1, rs2] →
      Yields s (.sraw rd rs1 rs2) rd (modNat 64 (s.lowX 32 rs1 / 2 ^ (s.natX rs2 % 32))))

/-- The word variants under the other setting, `WORD_MODE = result_only` (R7, decision D11): the operation is done in 64 bits and
only its result is restricted to the low 32 bits and sign-extended. The model's reading of that setting (log 7). -/
def Obligations.WordVariantsResultOnly : Prop :=
  ∀ (s : State) (rd rs1 rs2 : RegIdx) (imm : BitVec 12) (shamt : BitVec 5), s.cfg.xlen = .rv64 → s.cfg.wordMode = .resultOnly →
    (s.HazardFree .addiw rd [rs1] → Yields s (.addiw rd rs1 imm) rd (sextNat 64 32 (modNat 64 (s.natX rs1 + imm.toInt)))) ∧
    (s.HazardFree .slliw rd [rs1] →
      Yields s (.slliw rd rs1 shamt) rd (sextNat 64 32 (s.natX rs1 * 2 ^ shamt.toNat))) ∧
    (s.HazardFree .srliw rd [rs1] → Yields s (.srliw rd rs1 shamt) rd (sextNat 64 32 (s.natX rs1 / 2 ^ shamt.toNat))) ∧
    (s.HazardFree .sraiw rd [rs1] →
      Yields s (.sraiw rd rs1 shamt) rd (sextNat 64 32 (modNat 64 (s.intX rs1 / 2 ^ shamt.toNat)))) ∧
    (s.HazardFree .addw rd [rs1, rs2] → Yields s (.addw rd rs1 rs2) rd (sextNat 64 32 (s.natX rs1 + s.natX rs2))) ∧
    (s.HazardFree .subw rd [rs1, rs2] →
      Yields s (.subw rd rs1 rs2) rd (sextNat 64 32 (modNat 64 ((s.natX rs1 : Int) - s.natX rs2)))) ∧
    (s.HazardFree .sllw rd [rs1, rs2] →
      Yields s (.sllw rd rs1 rs2) rd (sextNat 64 32 (s.natX rs1 * 2 ^ (s.natX rs2 % 32)))) ∧
    (s.HazardFree .srlw rd [rs1, rs2] →
      Yields s (.srlw rd rs1 rs2) rd (sextNat 64 32 (s.natX rs1 / 2 ^ (s.natX rs2 % 32)))) ∧
    (s.HazardFree .sraw rd [rs1, rs2] →
      Yields s (.sraw rd rs1 rs2) rd (sextNat 64 32 (modNat 64 (s.intX rs1 / 2 ^ (s.natX rs2 % 32))))) ∧
    (s.HazardFree .mulw rd [rs1, rs2] → Yields s (.mulw rd rs1 rs2) rd (sextNat 64 32 (s.natX rs1 * s.natX rs2))) ∧
    (s.HazardFree .divw rd [rs1, rs2] → s.Divides (CornerS 64 (s.intX rs1) (s.intX rs2)) →
      Yields s (.divw rd rs1 rs2) rd (sextNat 64 32 (quotS 64 (s.intX rs1) (s.intX rs2)))) ∧
    (s.HazardFree .divuw rd [rs1, rs2] → s.Divides (s.natX rs2 = 0) →
      Yields s (.divuw rd rs1 rs2) rd (sextNat 64 32 (quotU 64 (s.natX rs1) (s.natX rs2)))) ∧
    (s.HazardFree .remw rd [rs1, rs2] → s.Divides (CornerS 64 (s.intX rs1) (s.intX rs2)) →
      Yields s (.remw rd rs1 rs2) rd (sextNat 64 32 (remainS 64 (s.intX rs1) (s.intX rs2)))) ∧
    (s.HazardFree .remuw rd [rs1, rs2] → s.Divides (s.natX rs2 = 0) →
      Yields s (.remuw rd rs1 rs2) rd (sextNat 64 32 (remainU (s.natX rs1) (s.natX rs2))))

/-! ### Multiply and divide -/

/-- MUL, MULH, MULHSU, MULHU and MULW: encoding, result, frame, completion (R210, R212 to R215, R220). The signedness of the three
high halves is the spec's decision D12, and MULW is here under `operands_first`. -/
def Obligations.Multiplication : Prop :=
  (∀ xl, EncodedR xl 0b0110011#7 0b000#3 0b0000001#7 .mul ∧ EncodedR xl 0b0110011#7 0b001#3 0b0000001#7 .mulh ∧
    EncodedR xl 0b0110011#7 0b010#3 0b0000001#7 .mulhsu ∧ EncodedR xl 0b0110011#7 0b011#3 0b0000001#7 .mulhu) ∧
  EncodedR .rv64 0b0111011#7 0b000#3 0b0000001#7 .mulw ∧
  ∀ (s : State) (rd rs1 rs2 : RegIdx),
    (s.HazardFree .mul rd [rs1, rs2] → Yields s (.mul rd rs1 rs2) rd (s.natX rs1 * s.natX rs2 % 2 ^ s.bits)) ∧
    (s.HazardFree .mulh rd [rs1, rs2] →
      Yields s (.mulh rd rs1 rs2) rd (modNat s.bits (s.intX rs1 * s.intX rs2 / 2 ^ s.bits))) ∧
    (s.HazardFree .mulhsu rd [rs1, rs2] →
      Yields s (.mulhsu rd rs1 rs2) rd (modNat s.bits (s.intX rs1 * s.natX rs2 / 2 ^ s.bits))) ∧
    (s.HazardFree .mulhu rd [rs1, rs2] → Yields s (.mulhu rd rs1 rs2) rd (s.natX rs1 * s.natX rs2 / 2 ^ s.bits)) ∧
    (s.HazardFree .mulw rd [rs1, rs2] → s.cfg.xlen = .rv64 → s.cfg.wordMode = .operandsFirst →
      Yields s (.mulw rd rs1 rs2) rd (sextNat 64 32 (s.natX rs1 * s.natX rs2)))

/-- DIV, DIVU, REM, REMU: encoding, result with the corners of R211, frame, completion (R211, R216 to R219). The corner values are
the spec's decision D13. -/
def Obligations.Division : Prop :=
  (∀ xl, EncodedR xl 0b0110011#7 0b100#3 0b0000001#7 .div ∧ EncodedR xl 0b0110011#7 0b101#3 0b0000001#7 .divu ∧
    EncodedR xl 0b0110011#7 0b110#3 0b0000001#7 .rem ∧ EncodedR xl 0b0110011#7 0b111#3 0b0000001#7 .remu) ∧
  ∀ (s : State) (rd rs1 rs2 : RegIdx),
    (s.HazardFree .div rd [rs1, rs2] → s.Divides (CornerS s.bits (s.intX rs1) (s.intX rs2)) →
      Yields s (.div rd rs1 rs2) rd (quotS s.bits (s.intX rs1) (s.intX rs2))) ∧
    (s.HazardFree .divu rd [rs1, rs2] → s.Divides (s.natX rs2 = 0) →
      Yields s (.divu rd rs1 rs2) rd (quotU s.bits (s.natX rs1) (s.natX rs2))) ∧
    (s.HazardFree .rem rd [rs1, rs2] → s.Divides (CornerS s.bits (s.intX rs1) (s.intX rs2)) →
      Yields s (.rem rd rs1 rs2) rd (remainS s.bits (s.intX rs1) (s.intX rs2))) ∧
    (s.HazardFree .remu rd [rs1, rs2] → s.Divides (s.natX rs2 = 0) →
      Yields s (.remu rd rs1 rs2) rd (remainU (s.natX rs1) (s.natX rs2)))

/-- DIVW, DIVUW, REMW, REMUW on XLEN = 64 under `operands_first`: encoding, result, frame, completion (R221 to R224, R211 with
N = 32). -/
def Obligations.WordDivision : Prop :=
  (EncodedR .rv64 0b0111011#7 0b100#3 0b0000001#7 .divw ∧ EncodedR .rv64 0b0111011#7 0b101#3 0b0000001#7 .divuw ∧
    EncodedR .rv64 0b0111011#7 0b110#3 0b0000001#7 .remw ∧ EncodedR .rv64 0b0111011#7 0b111#3 0b0000001#7 .remuw) ∧
  ∀ (s : State) (rd rs1 rs2 : RegIdx), s.cfg.xlen = .rv64 → s.cfg.wordMode = .operandsFirst →
    (s.HazardFree .divw rd [rs1, rs2] → s.Divides (CornerS 32 (s.lowX 32 rs1) (s.lowX 32 rs2)) →
      Yields s (.divw rd rs1 rs2) rd (sextNat 64 32 (quotS 32 (s.lowX 32 rs1) (s.lowX 32 rs2)))) ∧
    (s.HazardFree .divuw rd [rs1, rs2] → s.Divides (s.natX rs2 % 2 ^ 32 = 0) →
      Yields s (.divuw rd rs1 rs2) rd (sextNat 64 32 (quotU 32 (s.natX rs1 % 2 ^ 32) (s.natX rs2 % 2 ^ 32)))) ∧
    (s.HazardFree .remw rd [rs1, rs2] → s.Divides (CornerS 32 (s.lowX 32 rs1) (s.lowX 32 rs2)) →
      Yields s (.remw rd rs1 rs2) rd (sextNat 64 32 (remainS 32 (s.lowX 32 rs1) (s.lowX 32 rs2)))) ∧
    (s.HazardFree .remuw rd [rs1, rs2] → s.Divides (s.natX rs2 % 2 ^ 32 = 0) →
      Yields s (.remuw rd rs1 rs2) rd (sextNat 64 32 (remainU (s.natX rs1 % 2 ^ 32) (s.natX rs2 % 2 ^ 32))))

/-- With `DIV_CORNERS = refuse` a corner of R211 is outside the model: the eight divisions are refused, by name (R7, D13). -/
def Obligations.DivisionCornersRefused : Prop :=
  ∀ (s : State) (rd rs1 rs2 : RegIdx), s.cfg.divCorners = .refuse →
    (CornerS s.bits (s.intX rs1) (s.intX rs2) →
      (s.HazardFree .div rd [rs1, rs2] → exec (.div rd rs1 rs2) s = .refused .divisionCorner) ∧
      (s.HazardFree .rem rd [rs1, rs2] → exec (.rem rd rs1 rs2) s = .refused .divisionCorner)) ∧
    (s.natX rs2 = 0 →
      (s.HazardFree .divu rd [rs1, rs2] → exec (.divu rd rs1 rs2) s = .refused .divisionCorner) ∧
      (s.HazardFree .remu rd [rs1, rs2] → exec (.remu rd rs1 rs2) s = .refused .divisionCorner)) ∧
    (s.cfg.wordMode = .operandsFirst → CornerS 32 (s.lowX 32 rs1) (s.lowX 32 rs2) →
      (s.HazardFree .divw rd [rs1, rs2] → exec (.divw rd rs1 rs2) s = .refused .divisionCorner) ∧
      (s.HazardFree .remw rd [rs1, rs2] → exec (.remw rd rs1 rs2) s = .refused .divisionCorner)) ∧
    (s.cfg.wordMode = .operandsFirst → s.natX rs2 % 2 ^ 32 = 0 →
      (s.HazardFree .divuw rd [rs1, rs2] → exec (.divuw rd rs1 rs2) s = .refused .divisionCorner) ∧
      (s.HazardFree .remuw rd [rs1, rs2] → exec (.remuw rd rs1 rs2) s = .refused .divisionCorner))

/-! ### Memory -/

/-- `MemRead`: the n bytes at `addr`, little-endian: each the buffer's byte, or past the end an unspecified one, which is a fresh
draw, or the fixed byte of a deterministic simulator; nothing changes but the draws used up (R52, R58). -/
def Obligations.MemoryRead : Prop :=
  ∀ (s : State) (a n : Nat), n ∈ [1, 2, 4, 8] →
    (s.memRead a n).toNat = s.readNat a n ∧
    (∀ k, k < n → a + k < s.cfg.memSize → s.readByte a k = s.byteOf (a + k)) ∧
    (∀ k, k < n → s.cfg.memSize ≤ a + k → s.cfg.oobFill = .draw → s.readByte a k = Config.oobDraw (s.draws + k)) ∧
    (∀ k b, k < n → s.cfg.memSize ≤ a + k → s.cfg.oobFill = .fixed b → s.readByte a k = b) ∧
    (s.noteDraws a n = { s with draws := (s.noteDraws a n).draws }) ∧
    (a + n ≤ s.cfg.memSize → s.noteDraws a n = s) ∧
    (s.cfg.memSize < a + n → s.cfg.oobFill = .draw → (s.noteDraws a n).draws = s.draws + n)

/-- `MemWrite`: the low n bytes of the value, little-endian, those past the end of the buffer dropped, and no other state changed,
in particular not the reservation (R53, R57). -/
def Obligations.MemoryWrite : Prop :=
  ∀ (s : State) (a n : Nat) (v : Word), n ∈ [1, 2, 4, 8] →
    StoredBytes s (s.memWrite a v n) a n v.toNat ∧ s.memWrite a v n = { s with mem := (s.memWrite a v n).mem }

/-- Round trip: what is written in bounds is read back, modulo `2^(8n)` (R55). -/
def Obligations.WriteThenRead : Prop :=
  ∀ (s : State) (a n : Nat) (v : Word), n ∈ [1, 2, 4, 8] → a + n ≤ s.cfg.memSize →
    ((s.memWrite a v n).memRead a n).toNat = v.toNat % 2 ^ (8 * n)

/-- Writes to disjoint spans commute, as states and not only as what they read: memory is one array of bytes (R34), in the model's one
canonical form (log 6). -/
def Obligations.DisjointWritesCommute : Prop :=
  ∀ (s : State) (a b n m : Nat) (v w : Word), s.MemWf → a + n ≤ b ∨ b + m ≤ a →
    (s.memWrite a v n).memWrite b w m = (s.memWrite b w m).memWrite a v n

/-- LB, LH, LW, LBU, LHU on both widths and LWU, LD on XLEN = 64 (where they miss on XLEN = 32): encoding, result, frame, completion
(R232 to R238). -/
def Obligations.LoadInstructions : Prop :=
  (∀ xl, EncodedI xl 0b0000011#7 0b000#3 .lb ∧ EncodedI xl 0b0000011#7 0b001#3 .lh ∧ EncodedI xl 0b0000011#7 0b010#3 .lw ∧
    EncodedI xl 0b0000011#7 0b100#3 .lbu ∧ EncodedI xl 0b0000011#7 0b101#3 .lhu) ∧
  (EncodedI .rv64 0b0000011#7 0b110#3 .lwu ∧ EncodedI .rv64 0b0000011#7 0b011#3 .ld) ∧
  (∀ w : BitVec 32, opcodeOf w = 0b0000011#7 → funct3Of w = 0b110#3 ∨ funct3Of w = 0b011#3 → decodeWord .rv32 w = none) ∧
  ∀ (s : State) (rd rs1 : RegIdx) (imm : BitVec 12),
    let a := (s.ea rs1 imm).toNat
    (s.HazardFree .lb rd [rs1] → s.Admits a 1 → Loads s (.lb rd rs1 imm) rd (sextNat s.bits 8 (s.readNat a 1)) a 1) ∧
    (s.HazardFree .lh rd [rs1] → s.Admits a 2 → Loads s (.lh rd rs1 imm) rd (sextNat s.bits 16 (s.readNat a 2)) a 2) ∧
    (s.HazardFree .lw rd [rs1] → s.Admits a 4 → Loads s (.lw rd rs1 imm) rd (sextNat s.bits 32 (s.readNat a 4)) a 4) ∧
    (s.HazardFree .lbu rd [rs1] → s.Admits a 1 → Loads s (.lbu rd rs1 imm) rd (s.readNat a 1) a 1) ∧
    (s.HazardFree .lhu rd [rs1] → s.Admits a 2 → Loads s (.lhu rd rs1 imm) rd (s.readNat a 2) a 2) ∧
    (s.HazardFree .lwu rd [rs1] → s.Admits a 4 → s.cfg.xlen = .rv64 → Loads s (.lwu rd rs1 imm) rd (s.readNat a 4) a 4) ∧
    (s.HazardFree .ld rd [rs1] → s.Admits a 8 → s.cfg.xlen = .rv64 → Loads s (.ld rd rs1 imm) rd (s.readNat a 8) a 8)

/-- SB, SH, SW on both widths and SD on XLEN = 64: encoding, the bytes stored, frame, completion (R239 to R242). -/
def Obligations.StoreInstructions : Prop :=
  (∀ xl, EncodedS xl 0b0100011#7 0b000#3 .sb ∧ EncodedS xl 0b0100011#7 0b001#3 .sh ∧ EncodedS xl 0b0100011#7 0b010#3 .sw) ∧
  EncodedS .rv64 0b0100011#7 0b011#3 .sd ∧
  (∀ w : BitVec 32, opcodeOf w = 0b0100011#7 → funct3Of w = 0b011#3 → decodeWord .rv32 w = none) ∧
  ∀ (s : State) (rs1 rs2 : RegIdx) (imm : BitVec 12),
    let a := (s.ea rs1 imm).toNat
    (s.Admits a 1 → Stores s (.sb rs1 rs2 imm) a 1 (s.natX rs2)) ∧
    (s.Admits a 2 → Stores s (.sh rs1 rs2 imm) a 2 (s.natX rs2)) ∧
    (s.Admits a 4 → Stores s (.sw rs1 rs2 imm) a 4 (s.natX rs2)) ∧
    (s.Admits a 8 → s.cfg.xlen = .rv64 → Stores s (.sd rs1 rs2 imm) a 8 (s.natX rs2))

/-- Under the `fault` setting of R59, which is not the normative one, an access whose span leaves the buffer stops by name, loads
and stores and the fetch alike, and a store-conditional only where it would store. The model's form of that setting (log 8). -/
def Obligations.FaultSettingStops : Prop :=
  ∀ (s : State), s.cfg.oobPolicy = .fault →
    (∀ (i : Instr) (a n : Nat), (∀ rd, i.dest = some rd → s.HazardFree i.effective.op rd i.sources) →
      loadSpan i s = some (a, n) ∨ storeSpan i s = some (a, n) → s.cfg.memSize < a + n →
      exec i s = .fault (.accessOutsideBuffer a n)) ∧
    (s.loadFailed = false → s.cfg.memSize < s.pc.toNat + widthOf s.fetchWord →
      step s = .fault (.fetchOutsideBuffer s.pc.toNat))

/-! ### Control transfer -/

/-- BEQ, BNE, BLT, BGE, BLTU, BGEU: encoding, the pending advance, frame, completion (R254 to R259). -/
def Obligations.Branches : Prop :=
  (∀ xl, EncodedB xl 0b1100011#7 0b000#3 .beq ∧ EncodedB xl 0b1100011#7 0b001#3 .bne ∧ EncodedB xl 0b1100011#7 0b100#3 .blt ∧
    EncodedB xl 0b1100011#7 0b101#3 .bge ∧ EncodedB xl 0b1100011#7 0b110#3 .bltu ∧ EncodedB xl 0b1100011#7 0b111#3 .bgeu) ∧
  ∀ (s : State) (rs1 rs2 : RegIdx) (off : BitVec 12),
    let taken := modNat s.bits (off.toInt * 2)
    Advances s (.beq rs1 rs2 off) (if s.natX rs1 = s.natX rs2 then taken else s.adv.toNat) ∧
    Advances s (.bne rs1 rs2 off) (if s.natX rs1 = s.natX rs2 then s.adv.toNat else taken) ∧
    Advances s (.blt rs1 rs2 off) (if s.intX rs1 < s.intX rs2 then taken else s.adv.toNat) ∧
    Advances s (.bge rs1 rs2 off) (if s.intX rs1 < s.intX rs2 then s.adv.toNat else taken) ∧
    Advances s (.bltu rs1 rs2 off) (if s.natX rs1 < s.natX rs2 then taken else s.adv.toNat) ∧
    Advances s (.bgeu rs1 rs2 off) (if s.natX rs1 < s.natX rs2 then s.adv.toNat else taken)

/-- JAL and JALR: encoding, link value, transfer, frame, completion (R252, R253, R251). That there is a link value and what JALR's
target is are the spec's decision D22, which links `pc + width`. The link clause says `pc + adv` at any state: it is the model's,
which reads the width of R133 from `adv` (log 11). TransferSteps says `pc + 4` and `pc + 2` of a whole step. -/
def Obligations.Jumps : Prop :=
  (∀ xl, EncodedJ xl 0b1101111#7 .jal ∧ EncodedI xl 0b1100111#7 0b000#3 .jalr) ∧
  ∀ (s : State) (rd rs1 : RegIdx) (off : BitVec 20) (imm : BitVec 12),
    (∃ t, exec (.jal rd off) s = .next t ∧ LinksX s t rd ∧ t.pc = s.pc ∧ t.adv.toNat = modNat s.bits (off.toInt * 2)) ∧
    (s.HazardFree .jalr rd [rs1] → ∃ t, exec (.jalr rd rs1 imm) s = .next t ∧ LinksX s t rd ∧
      t.pc.toNat = modNat s.bits (s.natX rs1 + imm.toInt) / 2 * 2 ∧ t.adv = 0)

/-- A whole step of a transfer, from the address of the instruction: the new `pc`, and the link value `pc + 4`, or `pc + 2` through
a compressed jump (R133, R136, R250, R252 to R259, R324, R341 to R343, R352, R355). -/
def Obligations.TransferSteps : Prop :=
  ∀ (s : State) (rd rs1 rs2 : RegIdx) (off : BitVec 20) (imm boff : BitVec 12) (coff : BitVec 11) (r : CRegIdx) (cboff : BitVec 8),
    (Runs s (.jal rd off) → ∃ t, step s = .next t ∧ t.pc.toNat = modNat s.bits (s.pc.toNat + off.toInt * 2) ∧
      t.natX rd = if rd = 0 then 0 else (s.pc.toNat + 4) % 2 ^ s.bits) ∧
    (Runs s (.jalr rd rs1 imm) → s.HazardFree .jalr rd [rs1] →
      ∃ t, step s = .next t ∧ t.pc.toNat = modNat s.bits (s.natX rs1 + imm.toInt) / 2 * 2 ∧
      t.natX rd = if rd = 0 then 0 else (s.pc.toNat + 4) % 2 ^ s.bits) ∧
    (Runs s (.beq rs1 rs2 boff) → ∃ t, step s = .next t ∧
      t.pc.toNat = modNat s.bits (s.pc.toNat + if s.natX rs1 = s.natX rs2 then boff.toInt * 2 else 4)) ∧
    (Runs s (.bne rs1 rs2 boff) → ∃ t, step s = .next t ∧
      t.pc.toNat = modNat s.bits (s.pc.toNat + if s.natX rs1 = s.natX rs2 then 4 else boff.toInt * 2)) ∧
    (Runs s (.blt rs1 rs2 boff) → ∃ t, step s = .next t ∧
      t.pc.toNat = modNat s.bits (s.pc.toNat + if s.intX rs1 < s.intX rs2 then boff.toInt * 2 else 4)) ∧
    (Runs s (.bge rs1 rs2 boff) → ∃ t, step s = .next t ∧
      t.pc.toNat = modNat s.bits (s.pc.toNat + if s.intX rs1 < s.intX rs2 then 4 else boff.toInt * 2)) ∧
    (Runs s (.bltu rs1 rs2 boff) → ∃ t, step s = .next t ∧
      t.pc.toNat = modNat s.bits (s.pc.toNat + if s.natX rs1 < s.natX rs2 then boff.toInt * 2 else 4)) ∧
    (Runs s (.bgeu rs1 rs2 boff) → ∃ t, step s = .next t ∧
      t.pc.toNat = modNat s.bits (s.pc.toNat + if s.natX rs1 < s.natX rs2 then 4 else boff.toInt * 2)) ∧
    (Runs s (.cJ coff) → ∃ t, step s = .next t ∧ t.pc.toNat = modNat s.bits (s.pc.toNat + coff.toInt * 2)) ∧
    (Runs s (.cJal coff) → ∃ t, step s = .next t ∧ t.pc.toNat = modNat s.bits (s.pc.toNat + coff.toInt * 2) ∧
      t.natX 1 = (s.pc.toNat + 2) % 2 ^ s.bits) ∧
    (Runs s (.cJr rs1) → ∃ t, step s = .next t ∧ t.pc.toNat = s.natX rs1 / 2 * 2) ∧
    (Runs s (.cJalr rs1) → s.HazardFree .jalr 1 [rs1] → ∃ t, step s = .next t ∧ t.pc.toNat = s.natX rs1 / 2 * 2 ∧
      t.natX 1 = (s.pc.toNat + 2) % 2 ^ s.bits) ∧
    (Runs s (.cBeqz r cboff) → ∃ t, step s = .next t ∧
      t.pc.toNat = modNat s.bits (s.pc.toNat + if s.natX r.full = 0 then cboff.toInt * 2 else 2)) ∧
    (Runs s (.cBnez r cboff) → ∃ t, step s = .next t ∧
      t.pc.toNat = modNat s.bits (s.pc.toNat + if s.natX r.full = 0 then 2 else cboff.toInt * 2))

/-! ### Load-reserved and store-conditional -/

/-- LR.W on both widths and LR.D on XLEN = 64: encoding with the misses, result, reservation, frame, completion (R271, R273). -/
def Obligations.LoadReservedInstructions : Prop :=
  (∀ xl, EncodedMask xl 0xf9f0707f#32 0x1000202f#32 fun w =>
    .lrW (w.extractLsb' 7 5) (w.extractLsb' 15 5) (w.extractLsb' 26 1) (w.extractLsb' 25 1)) ∧
  (EncodedMask .rv64 0xf9f0707f#32 0x1000302f#32 fun w =>
    .lrD (w.extractLsb' 7 5) (w.extractLsb' 15 5) (w.extractLsb' 26 1) (w.extractLsb' 25 1)) ∧
  (∀ w : BitVec 32, w &&& 0xf9f0707f#32 = 0x1000302f#32 → decodeWord .rv32 w = none) ∧
  (∀ (xl : Xlen) (w : BitVec 32), w &&& 0xf800607f#32 = 0x1000202f#32 → w.extractLsb' 20 5 ≠ 0#5 → decodeWord xl w = none) ∧
  ∀ (s : State) (rd rs1 : RegIdx) (aq rl : BitVec 1),
    (s.HazardFree .lrW rd [rs1] → s.Admits (s.natX rs1) 4 → ∃ t, exec (.lrW rd rs1 aq rl) s = .next t ∧
      ReservesX s t rd (sextNat s.bits 32 (s.readNat (s.natX rs1) 4)) (s.getX rs1) 4) ∧
    (s.HazardFree .lrD rd [rs1] → s.Admits (s.natX rs1) 8 → s.cfg.xlen = .rv64 → ∃ t, exec (.lrD rd rs1 aq rl) s = .next t ∧
      ReservesX s t rd (s.readNat (s.natX rs1) 8) (s.getX rs1) 8)

/-- SC.W on both widths and SC.D on XLEN = 64 (its words miss on XLEN = 32): encoding; on a match of the reservation the bytes are
stored, the reservation is cleared and `x[rd]` is 0, else `x[rd]` is 1 and nothing else changes (R61, R64, R272, R274). -/
def Obligations.StoreConditionalInstructions : Prop :=
  (∀ xl, EncodedMask xl 0xf800707f#32 0x1800202f#32 fun w =>
    .scW (w.extractLsb' 7 5) (w.extractLsb' 15 5) (w.extractLsb' 20 5) (w.extractLsb' 26 1) (w.extractLsb' 25 1)) ∧
  (EncodedMask .rv64 0xf800707f#32 0x1800302f#32 fun w =>
    .scD (w.extractLsb' 7 5) (w.extractLsb' 15 5) (w.extractLsb' 20 5) (w.extractLsb' 26 1) (w.extractLsb' 25 1)) ∧
  (∀ w : BitVec 32, w &&& 0xf800707f#32 = 0x1800302f#32 → decodeWord .rv32 w = none) ∧
  ∀ (s : State) (rd rs1 rs2 : RegIdx) (aq rl : BitVec 1),
    (s.HazardFree .scW rd [rs1, rs2] →
      (s.resv = some (s.getX rs1) → s.Admits (s.natX rs1) 4 →
        ∃ t, exec (.scW rd rs1 rs2 aq rl) s = .next t ∧ ConditionallyStores s t rd (s.natX rs1) 4 (s.natX rs2)) ∧
      (s.resv ≠ some (s.getX rs1) → Yields s (.scW rd rs1 rs2 aq rl) rd 1)) ∧
    (s.HazardFree .scD rd [rs1, rs2] → s.cfg.xlen = .rv64 →
      (s.resv = some (s.getX rs1) → s.Admits (s.natX rs1) 8 →
        ∃ t, exec (.scD rd rs1 rs2 aq rl) s = .next t ∧ ConditionallyStores s t rd (s.natX rs1) 8 (s.natX rs2)) ∧
      (s.resv ≠ some (s.getX rs1) → Yields s (.scD rd rs1 rs2 aq rl) rd 1))

/-- The laws of the reservation (R62): (a) a load-reserved replaces any prior reservation; (b) a store-conditional immediately after a
load-reserved to the same address succeeds, and a second immediate one fails, whatever their widths; (c) a failed store-conditional
leaves the reservation as it was. -/
def Obligations.ReservationLaws : Prop :=
  ∀ (s : State) (rd rd2 rd3 rs1 rs2 : RegIdx) (aq rl : BitVec 1),
    (∀ t, exec (.lrW rd rs1 aq rl) s = .next t ∨ exec (.lrD rd rs1 aq rl) s = .next t → t.resv = some (s.getX rs1)) ∧
    (∀ lr ∈ [Instr.lrW rd rs1 aq rl, .lrD rd rs1 aq rl], ∀ sc ∈ [Instr.scW rd2 rs1 rs2 aq rl, .scD rd2 rs1 rs2 aq rl],
      ∀ again ∈ [Instr.scW rd3 rs1 rs2 aq rl, .scD rd3 rs1 rs2 aq rl],
      s.HazardFree lr.op rd [rs1] → s.HazardFree sc.op rd2 [rs1, rs2] → s.HazardFree again.op rd3 [rs1, rs2] →
      s.Admits (s.natX rs1) 8 → rs1 ≠ rd → rs1 ≠ rd2 →
      ∃ t u v, exec lr s = .next t ∧ exec sc t = .next u ∧ exec again u = .next v ∧
        u.natX rd2 = 0 ∧ v.natX rd3 = (if rd3 = 0 then 0 else 1) ∧ ∀ k, v.byteOf k = u.byteOf k) ∧
    (∀ t, s.resv ≠ some (s.getX rs1) →
      exec (.scW rd rs1 rs2 aq rl) s = .next t ∨ exec (.scD rd rs1 rs2 aq rl) s = .next t → t.resv = s.resv)

/-- What sets, keeps and clears the reservation (R63): only a load-reserved sets it, only a successful store-conditional clears it,
and every other instruction keeps it, an ordinary store included, whatever its address. -/
def Obligations.ReservationKept : Prop :=
  ∀ (i : Instr) (s t : State), exec i s = .next t →
    (match i with
      | .lrW _ rs1 _ _ | .lrD _ rs1 _ _ => t.resv = some (s.getX rs1)
      | .scW _ rs1 _ _ _ | .scD _ rs1 _ _ _ => t.resv = if s.resv = some (s.getX rs1) then none else s.resv
      | _ => t.resv = s.resv)

/-- `aq` and `rl` have no effect (R76, R270). -/
def Obligations.OrderingBitsIgnored : Prop :=
  ∀ (s : State) (rd rs1 rs2 : RegIdx) (aq rl : BitVec 1),
    exec (.lrW rd rs1 aq rl) s = exec (.lrW rd rs1 0 0) s ∧ exec (.lrD rd rs1 aq rl) s = exec (.lrD rd rs1 0 0) s ∧
    exec (.scW rd rs1 rs2 aq rl) s = exec (.scW rd rs1 rs2 0 0) s ∧ exec (.scD rd rs1 rs2 aq rl) s = exec (.scD rd rs1 rs2 0 0) s

/-! ### Placeholders and reserved entries -/

/-- The no-op placeholders: fences, environment call, breakpoint, CSR access and the compressed floating-point accesses: encoding;
each completes and changes nothing, `rd` and the pending advance included (R280 to R290, R314, R316, R318, R320, R345, R348, R357,
R359). -/
def Obligations.Placeholders : Prop :=
  (∀ xl, (EncodedMask xl 0x0000707f#32 0x0000000f#32 fun w =>
      .fence (w.extractLsb' 28 4) (w.extractLsb' 24 4) (w.extractLsb' 20 4) (w.extractLsb' 15 5) (w.extractLsb' 7 5)) ∧
    (EncodedMask xl 0x0000707f#32 0x0000100f#32 fun w =>
      .fenceI (w.extractLsb' 20 12) (w.extractLsb' 15 5) (w.extractLsb' 7 5)) ∧
    decodeWord xl 0x00000073#32 = some .ecall ∧ decodeWord xl 0x00100073#32 = some .ebreak ∧
    EncodedCsr xl 0b001#3 .csrrw ∧ EncodedCsr xl 0b010#3 .csrrs ∧ EncodedCsr xl 0b011#3 .csrrc ∧
    EncodedCsr xl 0b101#3 .csrrwi ∧ EncodedCsr xl 0b110#3 .csrrsi ∧ EncodedCsr xl 0b111#3 .csrrci ∧
    (EncodedHalf xl 0xe003#16 0x2000#16 fun h => .cFld (halfLow h) (halfHigh h) (halfCLd h)) ∧
    (EncodedHalf xl 0xe003#16 0xa000#16 fun h => .cFsd (halfHigh h) (halfLow h) (halfCLd h)) ∧
    (EncodedHalf xl 0xe003#16 0x2002#16 fun h => .cFldsp (halfRd h) (halfLdsp h)) ∧
    (EncodedHalf xl 0xe003#16 0xa002#16 fun h => .cFsdsp (halfRs2 h) (halfCSSd h))) ∧
  ((EncodedHalf .rv32 0xe003#16 0x6000#16 fun h => .cFlw (halfLow h) (halfHigh h) (halfCLw h)) ∧
    (EncodedHalf .rv32 0xe003#16 0xe000#16 fun h => .cFsw (halfHigh h) (halfLow h) (halfCLw h)) ∧
    (EncodedHalf .rv32 0xe003#16 0x6002#16 fun h => .cFlwsp (halfRd h) (halfLwsp h)) ∧
    (EncodedHalf .rv32 0xe003#16 0xe002#16 fun h => .cFswsp (halfRs2 h) (halfCSSw h))) ∧
  ∀ (s : State) (fm pred succ : BitVec 4) (rs1 rd : RegIdx) (csr : BitVec 12) (uimm : BitVec 5) (r r' : CRegIdx) (u : BitVec 6),
    exec (.fence fm pred succ rs1 rd) s = .next s ∧ exec (.fenceI csr rs1 rd) s = .next s ∧
    exec .ecall s = .next s ∧ exec .ebreak s = .next s ∧
    exec (.csrrw rd csr rs1) s = .next s ∧ exec (.csrrs rd csr rs1) s = .next s ∧ exec (.csrrc rd csr rs1) s = .next s ∧
    exec (.csrrwi rd csr uimm) s = .next s ∧ exec (.csrrsi rd csr uimm) s = .next s ∧ exec (.csrrci rd csr uimm) s = .next s ∧
    exec (.cFld r r' uimm) s = .next s ∧ exec (.cFlw r r' uimm) s = .next s ∧ exec (.cFsd r r' uimm) s = .next s ∧
    exec (.cFsw r r' uimm) s = .next s ∧ exec (.cFldsp rd u) s = .next s ∧ exec (.cFlwsp rd u) s = .next s ∧
    exec (.cFsdsp rd u) s = .next s ∧ exec (.cFswsp rd u) s = .next s

/-- A step that runs a placeholder advances `pc` by the instruction's width and changes no register, no byte of memory and not the
reservation; a reserved entry and a decode miss stall instead (R280, R109, R142). -/
def Obligations.PlaceholderSteps : Prop :=
  ∀ (s : State) (i : Instr), Runs s i → s.Fits s.pc →
    (i.op.kind = .noop → ∃ t, step s = .next t ∧ t.pc.toNat = (s.pc.toNat + i.width) % 2 ^ s.bits ∧
      t = { s with pc := t.pc, adv := t.adv, draws := t.draws }) ∧
    (i.op.kind = .reserved → ∃ t, step s = .next t ∧ t = { s with adv := 0, draws := t.draws })

/-- The eight reserved compressed entries: encoding; each completes with the pending advance 0 and nothing else changed (R109, R311,
R312, R325, R328, R330, R346, R349, R351). -/
def Obligations.ReservedEntries : Prop :=
  (∀ xl, (EncodedHalf xl 0xffff#16 0x0000#16 fun _ => .cInvalid) ∧
    EncodedHalf xl 0xffe3#16 0x0000#16 (fun h => .cAddi4spnRes (halfLow h)) (fun h => halfLow h == 0) ∧
    (EncodedHalf xl 0xffff#16 0x6101#16 fun _ => .cAddi16spRes) ∧
    EncodedHalf xl 0xf07f#16 0x6001#16 (fun h => .cLuiRes (halfRd h)) (fun h => halfRd h == 2) ∧
    (EncodedHalf xl 0xef83#16 0x4002#16 fun h => .cLwspRes (halfLwsp h)) ∧
    (EncodedHalf xl 0xffff#16 0x8002#16 fun _ => .cJrRes)) ∧
  ((EncodedHalf .rv64 0xef83#16 0x2001#16 fun h => .cAddiwRes (halfCI h)) ∧
    (EncodedHalf .rv64 0xef83#16 0x6002#16 fun h => .cLdspRes (halfLdsp h))) ∧
  ∀ (s : State) (r : CRegIdx) (rd : RegIdx) (u : BitVec 6),
    Advances s .cInvalid 0 ∧ Advances s (.cAddi4spnRes r) 0 ∧ Advances s (.cAddiwRes u) 0 ∧ Advances s .cAddi16spRes 0 ∧
    Advances s (.cLuiRes rd) 0 ∧ Advances s (.cLwspRes u) 0 ∧ Advances s (.cLdspRes u) 0 ∧ Advances s .cJrRes 0

/-! ### Compressed instructions -/

/-- C.ADDI4SPN, C.NOP, C.ADDI, C.ADDIW, C.LI, C.ADDI16SP, C.LUI: encoding, result, frame, completion (R313, R322, R323, R326, R327,
R329, R331; immediates R93, R94, R96). -/
def Obligations.CompressedImmediates : Prop :=
  (∀ xl, EncodedHalf xl 0xe003#16 0x0000#16 (fun h => .cAddi4spn (halfLow h) (halfCIW h)) (fun h => halfCIW h == 0) ∧
    (EncodedHalf xl 0xffff#16 0x0001#16 fun _ => .cNop) ∧
    EncodedHalf xl 0xe003#16 0x0001#16 (fun h => .cAddi (halfRd h) (halfCI h)) (fun h => h == 0x0001#16) ∧
    (EncodedHalf xl 0xe003#16 0x4001#16 fun h => .cLi (halfRd h) (halfCI h)) ∧
    EncodedHalf xl 0xef83#16 0x6101#16 (fun h => .cAddi16sp (halfCI16 h)) (fun h => halfCI16 h == 0) ∧
    EncodedHalf xl 0xe003#16 0x6001#16 (fun h => .cLui (halfRd h) (halfCI h)) (fun h => halfRd h == 2 || halfCI h == 0)) ∧
  EncodedHalf .rv64 0xe003#16 0x2001#16 (fun h => .cAddiw (halfRd h) (halfCI h)) (fun h => halfRd h == 0) ∧
  ∀ (s : State) (r : CRegIdx) (rd : RegIdx) (imm8 : BitVec 8) (imm : BitVec 6),
    (s.HazardFree .addi r.full [2] → Yields s (.cAddi4spn r imm8) r.full ((s.natX 2 + imm8.toNat * 4) % 2 ^ s.bits)) ∧
    exec .cNop s = .next s ∧
    (s.HazardFree .addi rd [rd] → Yields s (.cAddi rd imm) rd (modNat s.bits (s.natX rd + imm.toInt))) ∧
    (s.HazardFree .addiw rd [rd] → s.cfg.xlen = .rv64 →
      Yields s (.cAddiw rd imm) rd (sextNat 64 32 (modNat 64 (s.natX rd + imm.toInt)))) ∧
    Yields s (.cLi rd imm) rd (modNat s.bits imm.toInt) ∧
    (s.HazardFree .addi 2 [2] → Yields s (.cAddi16sp imm) 2 (modNat s.bits (s.natX 2 + imm.toInt * 16))) ∧
    Yields s (.cLui rd imm) rd (modNat s.bits (imm.toInt * 4096))

/-- C.SRLI, C.SRAI, C.ANDI, C.SLLI: encoding, with bit 12 free on XLEN = 64 only, result, frame, completion (R332, R333, R334,
R344). -/
def Obligations.CompressedShifts : Prop :=
  ((EncodedHalf .rv32 0xfc03#16 0x8001#16 fun h => .cSrli (halfHigh h) (halfCI h)) ∧
    (EncodedHalf .rv64 0xec03#16 0x8001#16 fun h => .cSrli (halfHigh h) (halfCI h)) ∧
    (EncodedHalf .rv32 0xfc03#16 0x8401#16 fun h => .cSrai (halfHigh h) (halfCI h)) ∧
    (EncodedHalf .rv64 0xec03#16 0x8401#16 fun h => .cSrai (halfHigh h) (halfCI h)) ∧
    (∀ xl, EncodedHalf xl 0xec03#16 0x8801#16 fun h => .cAndi (halfHigh h) (halfCI h)) ∧
    (EncodedHalf .rv32 0xf003#16 0x0002#16 fun h => .cSlli (halfRd h) (halfCI h)) ∧
    (EncodedHalf .rv64 0xe003#16 0x0002#16 fun h => .cSlli (halfRd h) (halfCI h))) ∧
  ∀ (s : State) (r : CRegIdx) (rd : RegIdx) (shamt imm : BitVec 6),
    (s.HazardFree .srli r.full [r.full] →
      Yields s (.cSrli r shamt) r.full (s.natX r.full / 2 ^ (shamt.toNat % s.bits))) ∧
    (s.HazardFree .srai r.full [r.full] →
      Yields s (.cSrai r shamt) r.full (modNat s.bits (s.intX r.full / 2 ^ (shamt.toNat % s.bits)))) ∧
    (s.HazardFree .andi r.full [r.full] → Yields s (.cAndi r imm) r.full (s.natX r.full &&& modNat s.bits imm.toInt)) ∧
    (s.HazardFree .slli rd [rd] →
      Yields s (.cSlli rd shamt) rd (s.natX rd * 2 ^ (shamt.toNat % s.bits) % 2 ^ s.bits))

/-- C.SUB, C.XOR, C.OR, C.AND, C.SUBW, C.ADDW, C.MV, C.ADD: encoding, result, frame, completion (R335 to R340, R353, R356). -/
def Obligations.CompressedRegisters : Prop :=
  (∀ xl, (EncodedHalf xl 0xfc63#16 0x8c01#16 fun h => .cSub (halfHigh h) (halfLow h)) ∧
    (EncodedHalf xl 0xfc63#16 0x8c21#16 fun h => .cXor (halfHigh h) (halfLow h)) ∧
    (EncodedHalf xl 0xfc63#16 0x8c41#16 fun h => .cOr (halfHigh h) (halfLow h)) ∧
    (EncodedHalf xl 0xfc63#16 0x8c61#16 fun h => .cAnd (halfHigh h) (halfLow h)) ∧
    EncodedHalf xl 0xf003#16 0x8002#16 (fun h => .cMv (halfRd h) (halfRs2 h)) (fun h => halfRs2 h == 0) ∧
    EncodedHalf xl 0xf003#16 0x9002#16 (fun h => .cAdd (halfRd h) (halfRs2 h)) (fun h => halfRs2 h == 0)) ∧
  ((EncodedHalf .rv64 0xfc63#16 0x9c01#16 fun h => .cSubw (halfHigh h) (halfLow h)) ∧
    (EncodedHalf .rv64 0xfc63#16 0x9c21#16 fun h => .cAddw (halfHigh h) (halfLow h))) ∧
  ∀ (s : State) (r r2 : CRegIdx) (rd rs2 : RegIdx),
    let a := s.natX r.full
    let b := s.natX r2.full
    (s.HazardFree .sub r.full [r.full, r2.full] → Yields s (.cSub r r2) r.full (modNat s.bits ((a : Int) - b))) ∧
    (s.HazardFree .xor r.full [r.full, r2.full] → Yields s (.cXor r r2) r.full (a ^^^ b)) ∧
    (s.HazardFree .or r.full [r.full, r2.full] → Yields s (.cOr r r2) r.full (a ||| b)) ∧
    (s.HazardFree .and r.full [r.full, r2.full] → Yields s (.cAnd r r2) r.full (a &&& b)) ∧
    (s.HazardFree .subw r.full [r.full, r2.full] → s.cfg.xlen = .rv64 →
      Yields s (.cSubw r r2) r.full (sextNat 64 32 (modNat 64 ((a : Int) - b)))) ∧
    (s.HazardFree .addw r.full [r.full, r2.full] → s.cfg.xlen = .rv64 →
      Yields s (.cAddw r r2) r.full (sextNat 64 32 (a + b))) ∧
    (s.HazardFree .add rd [0, rs2] → Yields s (.cMv rd rs2) rd (s.natX rs2)) ∧
    (s.HazardFree .add rd [rd, rs2] → Yields s (.cAdd rd rs2) rd ((s.natX rd + s.natX rs2) % 2 ^ s.bits))

/-- C.LW, C.LD, C.LWSP, C.LDSP, C.SW, C.SD, C.SWSP, C.SDSP: encoding, address, result or bytes stored, frame, completion (R315, R317,
R319, R321, R347, R350, R358, R360; offsets R95, R96). -/
def Obligations.CompressedMemory : Prop :=
  (∀ xl, (EncodedHalf xl 0xe003#16 0x4000#16 fun h => .cLw (halfLow h) (halfHigh h) (halfCLw h)) ∧
    EncodedHalf xl 0xe003#16 0x4002#16 (fun h => .cLwsp (halfRd h) (halfLwsp h)) (fun h => halfRd h == 0) ∧
    (EncodedHalf xl 0xe003#16 0xc000#16 fun h => .cSw (halfHigh h) (halfLow h) (halfCLw h)) ∧
    (EncodedHalf xl 0xe003#16 0xc002#16 fun h => .cSwsp (halfRs2 h) (halfCSSw h))) ∧
  ((EncodedHalf .rv64 0xe003#16 0x6000#16 fun h => .cLd (halfLow h) (halfHigh h) (halfCLd h)) ∧
    EncodedHalf .rv64 0xe003#16 0x6002#16 (fun h => .cLdsp (halfRd h) (halfLdsp h)) (fun h => halfRd h == 0) ∧
    (EncodedHalf .rv64 0xe003#16 0xe000#16 fun h => .cSd (halfHigh h) (halfLow h) (halfCLd h)) ∧
    (EncodedHalf .rv64 0xe003#16 0xe002#16 fun h => .cSdsp (halfRs2 h) (halfCSSd h))) ∧
  ∀ (s : State) (r r1 : CRegIdx) (rd : RegIdx) (off : BitVec 5) (soff : BitVec 6),
    let word := (s.natX r1.full + off.toNat * 4) % 2 ^ s.bits
    let dword := (s.natX r1.full + off.toNat * 8) % 2 ^ s.bits
    let sword := (s.natX 2 + soff.toNat * 4) % 2 ^ s.bits
    let sdword := (s.natX 2 + soff.toNat * 8) % 2 ^ s.bits
    (s.HazardFree .lw r.full [r1.full] → s.Admits word 4 →
      Loads s (.cLw r r1 off) r.full (sextNat s.bits 32 (s.readNat word 4)) word 4) ∧
    (s.HazardFree .ld r.full [r1.full] → s.Admits dword 8 → s.cfg.xlen = .rv64 →
      Loads s (.cLd r r1 off) r.full (s.readNat dword 8) dword 8) ∧
    (s.HazardFree .lw rd [2] → s.Admits sword 4 →
      Loads s (.cLwsp rd soff) rd (sextNat s.bits 32 (s.readNat sword 4)) sword 4) ∧
    (s.HazardFree .ld rd [2] → s.Admits sdword 8 → s.cfg.xlen = .rv64 →
      Loads s (.cLdsp rd soff) rd (s.readNat sdword 8) sdword 8) ∧
    (s.Admits word 4 → Stores s (.cSw r1 r off) word 4 (s.natX r.full)) ∧
    (s.Admits dword 8 → s.cfg.xlen = .rv64 → Stores s (.cSd r1 r off) dword 8 (s.natX r.full)) ∧
    (s.Admits sword 4 → Stores s (.cSwsp rd soff) sword 4 (s.natX rd)) ∧
    (s.Admits sdword 8 → s.cfg.xlen = .rv64 → Stores s (.cSdsp rd soff) sdword 8 (s.natX rd))

/-- C.J, C.JAL, C.JR, C.JALR, C.BEQZ, C.BNEZ, C.EBREAK: encoding, the transfer, the link, frame, completion (R324, R341 to R343,
R352, R354, R355; offsets R96). The link clauses of C.JAL and C.JALR say `pc + adv` at any state: they are the model's, which reads
the width of R133 from `adv` (log 11). TransferSteps says `pc + 2` of a whole step. -/
def Obligations.CompressedTransfers : Prop :=
  (∀ xl, (EncodedHalf xl 0xe003#16 0xa001#16 fun h => .cJ (halfCJ h)) ∧
    (EncodedHalf xl 0xe003#16 0xc001#16 fun h => .cBeqz (halfHigh h) (halfCB h)) ∧
    (EncodedHalf xl 0xe003#16 0xe001#16 fun h => .cBnez (halfHigh h) (halfCB h)) ∧
    EncodedHalf xl 0xf07f#16 0x8002#16 (fun h => .cJr (halfRd h)) (fun h => halfRd h == 0) ∧
    EncodedHalf xl 0xf07f#16 0x9002#16 (fun h => .cJalr (halfRd h)) (fun h => halfRd h == 0) ∧
    (EncodedHalf xl 0xffff#16 0x9002#16 fun _ => .cEbreak)) ∧
  (EncodedHalf .rv32 0xe003#16 0x2001#16 fun h => .cJal (halfCJ h)) ∧
  ∀ (s : State) (r : CRegIdx) (rs1 : RegIdx) (off : BitVec 11) (boff : BitVec 8),
    (∃ t, exec (.cJ off) s = .next t ∧ SetsAdv s t (modNat s.bits (off.toInt * 2))) ∧
    (∃ t, exec (.cJal off) s = .next t ∧ LinksX s t 1 ∧ t.pc = s.pc ∧ t.adv.toNat = modNat s.bits (off.toInt * 2)) ∧
    (∃ t, exec (.cJr rs1) s = .next t ∧ t.pc.toNat = s.natX rs1 / 2 * 2 ∧ t.adv = 0 ∧
      t = { s with pc := t.pc, adv := t.adv }) ∧
    (s.HazardFree .jalr 1 [rs1] → ∃ t, exec (.cJalr rs1) s = .next t ∧ LinksX s t 1 ∧ t.pc.toNat = s.natX rs1 / 2 * 2 ∧
      t.adv = 0) ∧
    Advances s (.cBeqz r boff) (if s.natX r.full = 0 then modNat s.bits (boff.toInt * 2) else s.adv.toNat) ∧
    Advances s (.cBnez r boff) (if s.natX r.full = 0 then s.adv.toNat else modNat s.bits (boff.toInt * 2)) ∧
    exec .cEbreak s = .next s

/-- The effect of a compressed instruction is the effect of its expansion (R310). -/
def Obligations.ActsAsExpansion : Prop :=
  ∀ (i e : Instr) (s : State), i.expansion = some e → exec i s = exec e s

/-- Translation: an expansion's word is matched by a 32-bit entry of kind executor or no-op of the same registry, never by a
translator, so the lookup loop ends after at most one hop and never at a miss (R130, R134). -/
def Obligations.AtMostOneHop : Prop :=
  ∀ (xl : Xlen) (raw : BitVec 32) (i : Instr), decodeWord xl raw = some i →
    (i.expansion = none → resolve xl Config.maxHops raw = some i) ∧
    ∀ e, i.expansion = some e → decodeWord xl (encode e) = some e ∧ e.width = 4 ∧ e.expansion = none ∧
      (e.op.kind = .executor ∨ e.op.kind = .noop) ∧ resolve xl Config.maxHops raw = some e

/-! ### The data-hazard check -/

/-- The one fatal outcome: an executor of `HAZARD_SET` whose destination is not `x0` and is one of its sources, and only such a one
(R147, R421). A compressed instruction is judged by the executor it expands to. -/
def Obligations.DataHazard : Prop :=
  ∀ (i : Instr) (s : State) (rd : RegIdx),
    exec i s = .fault (.dataHazard rd) ↔
      (i.effective.op ∈ s.cfg.hazardSet ∧ i.dest = some rd ∧ rd ≠ 0 ∧ rd ∈ i.sources)

/-! ### The step -/

/-- A step runs the decoded instruction: when the bytes at `pc` decode to `i`, step is exec of `i` between the prologue, which sets
the pending advance to the width, and the epilogue, which adds it to `pc` (R130, R132, R135, R136). -/
def Obligations.StepRunsDecodedInstruction : Prop :=
  ∀ (s : State) (i : Instr) (rest : List Byte), s.loadFailed = false → s.AdmitsFetch i.width →
    decode s.cfg.xlen [s.readByte s.pc.toNat 0, s.readByte s.pc.toNat 1, s.readByte s.pc.toNat 2, s.readByte s.pc.toNat 3] =
      .ok (i, rest) →
    (step s = match exec i s.prologue with
      | .next t => .next t.epilogue
      | .fault f => .fault f
      | .refused r => .refused r) ∧
    s.prologue.adv.toNat = i.width ∧ s.prologue = { s with adv := s.prologue.adv, draws := s.prologue.draws } ∧
    (s.pc.toNat + 4 ≤ s.cfg.memSize → s.prologue.draws = s.draws) ∧
    ∀ t : State, t.epilogue = { t with pc := t.epilogue.pc } ∧ t.epilogue.pc.toNat = (t.pc.toNat + t.adv.toNat) % 2 ^ t.bits

/-- A decode miss stalls: no register, no byte of memory, not the reservation and not `pc` changes, and `adv` becomes 0 (R142). The
model's count of draws changes only where the fetch leaves the buffer. -/
def Obligations.DecodeMissStalls : Prop :=
  ∀ s : State, s.loadFailed = false → s.AdmitsFetch (widthOf s.fetchWord) → s.Fits s.pc →
    decodeWord s.cfg.xlen s.fetchWord = none →
    ∃ t, step s = .next t ∧ t = { s with adv := 0, draws := t.draws } ∧ (s.pc.toNat + 4 ≤ s.cfg.memSize → t.draws = s.draws)

/-- A stall repeats: after a decode miss or a reserved entry, fetched from inside the buffer, the next step answers the same state
again (R140). -/
def Obligations.StallRepeats : Prop :=
  ∀ s : State, s.loadFailed = false → s.pc.toNat + 4 ≤ s.cfg.memSize → s.Fits s.pc →
    (decodeWord s.cfg.xlen s.fetchWord = none ∨ ∃ i, decodeWord s.cfg.xlen s.fetchWord = some i ∧ i.op.kind = .reserved) →
    ∃ t, step s = .next t ∧ step t = .next t ∧ t.pc = s.pc

/-- Nothing stops the block but a fetch that leaves the buffer: with the normative parameters, and no failed load, a step answers a
next state in every state whose fetch is made (R56, R380, R381). A fetch with `pc + width > MEM_SIZE` leaves what is modelled (R67,
U3), or, with `oobFetch = execute`, the drawn word is executed (R381); that the two are settings of one parameter is the model's
choice (log 13). -/
def Obligations.EveryStepCompletes : Prop :=
  ∀ s : State, s.cfg.Normative → s.loadFailed = false →
    (s.cfg.oobFetch = .execute ∨ s.pc.toNat + widthOf s.fetchWord ≤ s.cfg.memSize → ∃ t, step s = .next t) ∧
    (s.cfg.oobFetch = .refuse → s.cfg.memSize < s.pc.toNat + widthOf s.fetchWord →
      step s = .refused (.fetchOutsideBuffer s.pc.toNat))

/-- The registers, `pc`, `adv` and the reservation keep their width and memory its canonical form, in every step (R10, R20, R30). -/
def Obligations.StepKeepsInvariant : Prop := ∀ s t : State, s.Inv → step s = .next t → t.Inv

/-- The invariant holds at reset. -/
def Obligations.ResetInvariant : Prop := State.reset.Inv

/-- The host's operations establish the invariant, from any state (R410, R411, R414). -/
def Obligations.HostOperationsInvariant : Prop :=
  (∀ (c : Params) (fill : ResetFill), (hostConstruct c fill).Inv) ∧
  (∀ (s : State) (fill : ResetFill), (hostReset s fill).Inv) ∧
  ∀ (s t : State) (fill : ResetFill) (src : LoadSource) (offset : Nat), hostLoad s fill src offset = .loaded t → t.Inv

/-- From an even `pc` every step leaves an even `pc` (R29, R260). -/
def Obligations.PcStaysEven : Prop := ∀ s t : State, s.PcEven → step s = .next t → t.PcEven

/-- The frame of every instruction: it writes no register but its destination, no byte of memory outside the span it stores to,
no float register, no parameter and nothing of the host's; `pc` only where it is a `jalr` (R25, R26, R28, R39). -/
def Obligations.InstructionFrame : Prop :=
  ∀ (i : Instr) (s t : State), exec i s = .next t →
    (∀ r, i.dest ≠ some r → t.getX r = s.getX r) ∧
    (∀ k, (∀ a n, storeSpan i s = some (a, n) → ¬ (a ≤ k ∧ k < a + n)) → t.byteOf k = s.byteOf k) ∧
    t.fs = s.fs ∧ t.cfg = s.cfg ∧ t.image = s.image ∧ t.loadFailed = s.loadFailed ∧
    ((∀ rd rs1 imm, i.effective ≠ .jalr rd rs1 imm) → t.pc = s.pc)

/-- No instruction reads a float register: a step from a state with other float registers differs in them alone (R26). -/
def Obligations.FloatRegistersUnread : Prop :=
  ∀ (s : State) (f : Vector FWord 32),
    step { s with fs := f } = match step s with
      | .next t => .next { t with fs := f }
      | .fault e => .fault e
      | .refused r => .refused r

/-- Instruction fetch is coherent: after a step that stores, by any store, store-conditional or compressed form, each byte the next step
fetches from the buffer is the stored byte where the store reached it, and what it was before elsewhere (R74). -/
def Obligations.StoreSeenByNextFetch : Prop :=
  ∀ (s t : State) (i : Instr) (a n : Nat), Runs s i → storeSpan i s = some (a, n) → step s = .next t →
    ∀ k, k < 4 → t.pc.toNat + k < t.cfg.memSize →
      t.fetchWord.extractLsb' (8 * k) 8 =
        if a ≤ t.pc.toNat + k ∧ t.pc.toNat + k < a + n then leByte (storeValue i s) (t.pc.toNat + k - a)
        else s.byteOf (t.pc.toNat + k)

/-! ### Reset and load -/

/-- What construction and reset leave, for every draw: `pc` is `RESET_PC`, `adv` 0, no reservation, `x0` reads 0, the other
registers and the float registers as drawn, the parameters as they were, and in memory the bytes of the image last loaded, none
after construction, over the drawn ones (R410, R411, R412). -/
def Obligations.ResetValues : Prop :=
  (∀ (c : Params) (fill : ResetFill), ResetTo (hostConstruct c fill) c fill []) ∧
  ∀ (s : State) (fill : ResetFill), ResetTo (hostReset s fill) s.cfg fill s.image

/-- Load leaves what reset leaves, with the image in memory: a raw image at the offset, and of a record stream the payload of each
data record at its base plus the offset, later records over earlier ones, bytes past the end dropped (R414, R415; the offset is the
spec's decision D32). A reset after a load, with some draw, leaves the state that the load with that draw would have left (R410). -/
def Obligations.ResetRestoresImage : Prop :=
  (∀ (s : State) (fill : ResetFill) (bytes : List Byte) (offset : Nat),
    ∃ t, hostLoad s fill (.raw bytes) offset = .loaded t ∧ ResetTo t s.cfg fill [(offset, bytes)]) ∧
  (∀ (s : State) (fill : ResetFill) (records : List LoadRecord) (offset : Nat), (∀ r ∈ records, r.countMismatch = false) →
    ∃ t, hostLoad s fill (.records (records.map .record)) offset = .loaded t ∧ ResetTo t s.cfg fill (dataWrites offset records)) ∧
  ∀ (s t u : State) (fill fill' : ResetFill) (src : LoadSource) (offset : Nat),
    hostLoad s fill src offset = .loaded t → hostLoad s fill' src offset = .loaded u → hostReset t fill' = u

/-- A load aborts at the first malformed record: the state is that of a reset with the writes of the records before it done and
nothing after; no step is modelled from there, until a reset (R416). The refusal is the model's form of "callers must treat partial
loads as unusable", and that the image stays the one loaded before is the model's choice (log 9). -/
def Obligations.FailedLoadIsUnusable : Prop :=
  ∀ (s : State) (fill fill' : ResetFill) (offset : Nat) (good : List LoadRecord) (bad : LoadItem) (later : List LoadItem),
    (∀ r ∈ good, r.countMismatch = false) →
    (∀ r, bad = .record r → r.countMismatch = true) →
    ∃ reason t, hostLoad s fill (.records (good.map .record ++ bad :: later)) offset = .failed reason t ∧
      ResetTo { t with image := dataWrites offset good, loadFailed := false } s.cfg fill (dataWrites offset good) ∧
      t.image = s.image ∧ step t = .refused .afterFailedLoad ∧ ResetTo (hostReset t fill') s.cfg fill' s.image
end

