-- ==== Sys2Proof/Laws/Arith.lean ====
section
/-! SUPPORT. What the arithmetic primitives give as numbers, for every operation width up to 64 bits. -/

namespace Sys2Proof.Machine

theorem pow_le_64 {n : Nat} (h : n ≤ 64) : 2 ^ n ≤ 2 ^ 64 := Nat.pow_le_pow_right (by omega) h

theorem xlen_le (xl : Xlen) : xl.bits ≤ 64 := by cases xl <;> decide

theorem State.bits_le (s : State) : s.bits ≤ 64 := xlen_le _

/-- The width is one of two. -/
theorem State.bits_cases (s : State) : s.bits = 32 ∨ s.bits = 64 := by
  unfold State.bits; cases s.cfg.xlen <;> simp [Xlen.bits]

/-! ### narrow and zext -/

theorem setWidth_64_toNat {n : Nat} (h : n ≤ 64) (x : BitVec n) : (x.setWidth 64).toNat = x.toNat := by
  rw [BitVec.toNat_setWidth, Nat.mod_eq_of_lt (Nat.lt_of_lt_of_le x.isLt (pow_le_64 h))]

theorem narrow_toNat {n : Nat} (h : n ≤ 64) (v : Word) : (narrow n v).toNat = v.toNat % 2 ^ n := by
  rw [narrow, setWidth_64_toNat h, BitVec.toNat_setWidth]

theorem zext_toNat {n : Nat} (h : n ≤ 64) (v : Word) : (zext n v).toNat = v.toNat % 2 ^ n := narrow_toNat h v

theorem narrow_lt {n : Nat} (h : n ≤ 64) (v : Word) : (narrow n v).toNat < 2 ^ n := by
  rw [narrow_toNat h]; exact Nat.mod_lt _ (Nat.two_pow_pos n)

theorem narrow_of_lt {n : Nat} (h : n ≤ 64) {v : Word} (hv : v.toNat < 2 ^ n) : narrow n v = v := by
  apply BitVec.eq_of_toNat_eq; rw [narrow_toNat h, Nat.mod_eq_of_lt hv]

theorem narrow_narrow (xl : Xlen) (v : Word) : narrow xl.bits (narrow xl.bits v) = narrow xl.bits v :=
  narrow_of_lt (xlen_le xl) (narrow_lt (xlen_le xl) v)

/-! ### Signed readings -/

theorem signedNat_lt {n a : Nat} (hn : 0 < n) (h : a < 2 ^ n) :
    -(2 ^ (n - 1) : Int) ≤ signedNat n a ∧ signedNat n a < 2 ^ (n - 1) := by
  obtain ⟨m, rfl⟩ : ∃ m, n = m + 1 := ⟨n - 1, by omega⟩
  simp only [signedNat, Nat.add_sub_cancel] at *
  have hp : (2 : Nat) ^ (m + 1) = 2 * 2 ^ m := by rw [Nat.pow_succ]; omega
  have hq : (2 : Int) ^ (m + 1) = 2 * 2 ^ m := by rw [Int.pow_succ]; omega
  have hc : ((2 ^ m : Nat) : Int) = 2 ^ m := by norm_cast
  rw [hp] at h
  split <;> omega

theorem toInt_eq_signedNat {n : Nat} (hn : 0 < n) (x : BitVec n) : x.toInt = signedNat n x.toNat := by
  obtain ⟨m, rfl⟩ : ∃ m, n = m + 1 := ⟨n - 1, by omega⟩
  rw [BitVec.toInt_eq_toNat_cond]
  simp only [signedNat, Nat.add_sub_cancel]
  have hp : (2 : Nat) ^ (m + 1) = 2 * 2 ^ m := by rw [Nat.pow_succ]; omega
  rw [hp]
  push_cast
  split <;> split <;> first | rfl | omega

theorem signedAt_eq {n : Nat} (hn : 0 < n) (v : Word) : signedAt n v = signedNat n (v.toNat % 2 ^ n) := by
  rw [signedAt, toInt_eq_signedNat hn, BitVec.toNat_setWidth]

theorem unsignedAt_eq (n : Nat) (v : Word) : unsignedAt n v = v.toNat % 2 ^ n := BitVec.toNat_setWidth ..

theorem ofIntAt_toNat {n : Nat} (h : n ≤ 64) (z : Int) : (ofIntAt n z).toNat = modNat n z := by
  rw [ofIntAt, setWidth_64_toNat h, BitVec.toNat_ofInt, modNat]; norm_cast

theorem ofNatAt_toNat {n : Nat} (h : n ≤ 64) (k : Nat) : (ofNatAt n k).toNat = k % 2 ^ n := by
  rw [ofNatAt, setWidth_64_toNat h, BitVec.toNat_ofNat]

/-- Signed operands of a full-width instruction. -/
theorem State.signedAt_getX (s : State) (r : RegIdx) : signedAt s.bits (s.getX r) = s.intX r := by
  have h : 0 < s.bits := by rcases s.bits_cases with h | h <;> omega
  have hl : s.natX r < 2 ^ s.bits := by
    unfold State.natX State.getX
    split
    · simp
    · exact narrow_lt s.bits_le _
  rw [signedAt_eq h]
  change signedNat _ (s.natX r % _) = _
  rw [Nat.mod_eq_of_lt hl, State.intX]

/-- A register holds an XLEN-bit value. -/
theorem State.natX_lt (s : State) (r : RegIdx) : s.natX r < 2 ^ s.bits := by
  unfold State.natX State.getX
  split
  · simp
  · exact narrow_lt s.bits_le _

theorem State.unsignedAt_getX (s : State) (r : RegIdx) : unsignedAt s.bits (s.getX r) = s.natX r := by
  rw [unsignedAt_eq]; exact Nat.mod_eq_of_lt (s.natX_lt r)

/-! ### Reductions modulo a power of two -/

theorem modNat_lt (n : Nat) (z : Int) : modNat n z < 2 ^ n := by
  have h : (0 : Int) < 2 ^ n := Int.pow_pos (by omega)
  have h1 := Int.emod_lt_of_pos z h
  have h2 := Int.emod_nonneg z (Int.ne_of_gt h)
  unfold modNat
  have hc : ((2 ^ n : Nat) : Int) = 2 ^ n := by norm_cast
  omega

theorem modNat_cast (n : Nat) (z : Int) : ((modNat n z : Nat) : Int) = z % 2 ^ n :=
  Int.toNat_of_nonneg (Int.emod_nonneg z (Int.ne_of_gt (Int.pow_pos (by omega))))

theorem modNat_ofNat (n k : Nat) : modNat n (k : Int) = k % 2 ^ n := by
  have := modNat_cast n k
  have hc : ((2 ^ n : Nat) : Int) = 2 ^ n := by norm_cast
  rw [← hc] at this
  exact_mod_cast this

/-- The sign extension of a narrower field, kept in 64 bits and then narrowed. -/
theorem modNat_mod {m n : Nat} (h : m ≤ n) (z : Int) : modNat n z % 2 ^ m = modNat m z := by
  have hd : ((2 : Int) ^ m) ∣ 2 ^ n := pow_dvd_pow 2 h
  have h1 : (((modNat n z % 2 ^ m : Nat)) : Int) = ((modNat m z : Nat) : Int) := by
    rw [Int.natCast_mod, modNat_cast, modNat_cast]
    push_cast
    exact Int.emod_emod_of_dvd z hd
  exact_mod_cast h1

theorem toNat_eq_modNat {n : Nat} (x : BitVec n) : x.toNat = modNat n x.toInt := by
  have hc : (2 : Int) ^ n = ((2 ^ n : Nat) : Int) := by norm_cast
  have h : ((x.toNat : Nat) : Int) = ((modNat n x.toInt : Nat) : Int) := by
    rw [modNat_cast, BitVec.toInt_eq_toNat_bmod, hc, Int.bmod_emod]
    exact (Int.emod_eq_of_lt (by omega) (by exact_mod_cast x.isLt)).symm
  exact_mod_cast h

theorem signExtend_toNat {n : Nat} (h : n ≤ 64) (x : BitVec n) : (x.signExtend 64).toNat = modNat 64 x.toInt := by
  rw [toNat_eq_modNat, BitVec.toInt_signExtend_of_le h]

theorem sext_toNat {n : Nat} (hn : 0 < n) (h : n ≤ 64) (v : Word) :
    (sext n v).toNat = modNat 64 (signedNat n (v.toNat % 2 ^ n)) := by
  rw [sext, signExtend_toNat h, ← signedAt_eq hn, signedAt]

theorem narrow_sext_toNat {N n : Nat} (hN : N ≤ 64) (hn : 0 < n) (h : n ≤ 64) (v : Word) :
    (narrow N (sext n v)).toNat = modNat N (signedNat n (v.toNat % 2 ^ n)) := by
  rw [narrow_toNat hN, sext_toNat hn h, modNat_mod hN]

/-! ### Shifts -/

theorem shlAt_toNat {n : Nat} (h : n ≤ 64) (a : Word) (k : Nat) :
    (shlAt n a k).toNat = a.toNat * 2 ^ k % 2 ^ n := by
  rw [shlAt, setWidth_64_toNat h, BitVec.toNat_shiftLeft, BitVec.toNat_setWidth, Nat.shiftLeft_eq, Nat.mod_mul_mod]

theorem shrAt_toNat {n : Nat} (h : n ≤ 64) (a : Word) (k : Nat) :
    (shrAt n a k).toNat = a.toNat % 2 ^ n / 2 ^ k := by
  rw [shrAt, setWidth_64_toNat h, BitVec.toNat_ushiftRight, BitVec.toNat_setWidth, Nat.shiftRight_eq_div_pow]

theorem sarAt_toNat {n : Nat} (hn : 0 < n) (h : n ≤ 64) (a : Word) (k : Nat) :
    (sarAt n a k).toNat = modNat n (signedNat n (a.toNat % 2 ^ n) / 2 ^ k) := by
  rw [sarAt, setWidth_64_toNat h, toNat_eq_modNat, BitVec.toInt_sshiftRight, toInt_eq_signedNat hn,
    BitVec.toNat_setWidth, Int.shiftRight_eq_div_pow]
  norm_cast

end Sys2Proof.Machine
end

