-- ==== Sys2Proof/Laws/Decode.lean ====
section
/-! SUPPORT. Fields placed in a word and read back, the matcher on such a word, and the lookup: two rows whose patterns differ on
a bit both care about never match one word, so a row that is matched is found unless an earlier row refines it. -/

namespace Sys2Proof

/-! ### Fields -/

theorem bits_or (x y : BitVec 32) (lo len : Nat) : bits (x ||| y) lo len = bits x lo len ||| bits y lo len := by
  apply BitVec.eq_of_getLsbD_eq
  intro i hi
  simp [bits, hi]

/-- A field reads back as it was placed. -/
theorem bits_place_same {n : Nat} (v : BitVec n) (lo : Nat) (h : lo + n ≤ 32) : bits (place v lo) lo n = v := by
  apply BitVec.eq_of_getLsbD_eq
  intro i hi
  have h1 : lo + i < 32 := by omega
  simp [bits, place, hi, h1]

/-- A field placed elsewhere does not show. -/
theorem bits_place_disjoint {n : Nat} (v : BitVec n) (lo lo' len : Nat) (h : lo' + n ≤ lo ∨ lo + len ≤ lo') :
    bits (place v lo') lo len = 0 := by
  apply BitVec.eq_of_getLsbD_eq
  intro i hi
  simp only [bits, place, BitVec.getLsbD_extractLsb', BitVec.getLsbD_shiftLeft, BitVec.getLsbD_setWidth]
  rcases h with h | h
  · have : n ≤ lo + i - lo' := by omega
    simp [BitVec.getLsbD_of_ge v _ this]
  · have : lo + i < lo' := by omega
    simp [this]

/-! ### The matcher -/

/-- A placed field outside the care mask does not change a match. -/
theorem mask_or {mask x p y : BitVec 32} (h : mask &&& p = 0) : mask &&& ((x ||| p) ^^^ y) = mask &&& (x ^^^ y) := by
  apply BitVec.eq_of_getLsbD_eq
  intro i hi
  have := congrArg (fun z => z.getLsbD i) h
  simp only [BitVec.getLsbD_and, BitVec.ofNat_eq_ofNat, BitVec.getLsbD_zero] at this
  simp only [BitVec.getLsbD_and, BitVec.getLsbD_or, BitVec.getLsbD_xor]
  cases hm : mask.getLsbD i <;> cases hp : p.getLsbD i <;> simp_all

theorem mask_place {n : Nat} {mask : BitVec 32} {lo : Nat} (h : bits mask lo n = 0) (v : BitVec n) :
    mask &&& place v lo = 0 := by
  apply BitVec.eq_of_getLsbD_eq
  intro i hi
  simp only [BitVec.getLsbD_and, place, BitVec.getLsbD_shiftLeft, BitVec.getLsbD_setWidth]
  by_cases hlo : i < lo
  · simp [hlo]
  · by_cases hn : i - lo < n
    · have := congrArg (fun z => z.getLsbD (i - lo)) h
      simp only [bits, BitVec.getLsbD_extractLsb', BitVec.ofNat_eq_ofNat, BitVec.getLsbD_zero, hn, decide_true, Bool.true_and] at this
      have e : lo + (i - lo) = i := by omega
      rw [e] at this
      simp [this]
    · simp [BitVec.getLsbD_of_ge v _ (by omega : n ≤ i - lo)]

theorem accepts_iff (r : Row) (w : BitVec 32) : r.accepts w = true ↔ r.mask &&& (w ^^^ r.want) = 0 := by
  simp [Row.accepts]

/-- The care mask of a list of fields `(lo, len)`. -/
def maskOf : List (Nat × Nat) → BitVec 32
  | [] => 0
  | p :: l => place (BitVec.allOnes p.2) p.1 ||| maskOf l

theorem exists_field_of_maskOf {l : List (Nat × Nat)} {i : Nat} (h : (maskOf l).getLsbD i = true) :
    ∃ p ∈ l, p.1 ≤ i ∧ i < p.1 + p.2 := by
  induction l with
  | nil => simp [maskOf] at h
  | cons p l ih =>
    rw [maskOf, BitVec.getLsbD_or, Bool.or_eq_true] at h
    rcases h with h | h
    · refine ⟨p, List.mem_cons_self, ?_⟩
      simp only [place, BitVec.getLsbD_shiftLeft, BitVec.getLsbD_setWidth, BitVec.getLsbD_allOnes, Bool.and_eq_true,
        decide_eq_true_eq, Bool.not_eq_true', decide_eq_false_iff_not] at h
      omega
    · obtain ⟨q, hq, hi⟩ := ih h
      exact ⟨q, List.mem_cons_of_mem _ hq, hi⟩

/-- A row whose care mask is made of whole fields matches a word that has the wanted value in each. -/
theorem accepts_of_fields {r : Row} {w : BitVec 32} (l : List (Nat × Nat)) (hm : r.mask = maskOf l)
    (h : ∀ p ∈ l, bits w p.1 p.2 = bits r.want p.1 p.2) : r.accepts w = true := by
  rw [accepts_iff]
  apply BitVec.eq_of_getLsbD_eq
  intro i hi
  rw [BitVec.getLsbD_and, BitVec.getLsbD_xor, BitVec.ofNat_eq_ofNat, BitVec.getLsbD_zero, hm]
  cases hb : (maskOf l).getLsbD i with
  | false => rfl
  | true =>
    obtain ⟨p, hp, hlo, hhi⟩ := exists_field_of_maskOf hb
    have := congrArg (fun z => z.getLsbD (i - p.1)) (h p hp)
    have hk : i - p.1 < p.2 := by omega
    have he : p.1 + (i - p.1) = i := by omega
    simp only [bits, BitVec.getLsbD_extractLsb', hk, decide_true, Bool.true_and, he] at this
    simp [this]

/-- A row cares about every bit of a field whose value it wants otherwise: then it does not match. -/
theorem not_accepts_of_field {r : Row} {w : BitVec 32} (lo len : Nat) (hm : bits r.mask lo len = BitVec.allOnes len)
    (h : bits w lo len ≠ bits r.want lo len) : r.accepts w = false := by
  by_contra ha
  rw [Bool.not_eq_false, accepts_iff] at ha
  apply h
  apply BitVec.eq_of_getLsbD_eq
  intro i hi
  have h1 := congrArg (fun z => z.getLsbD (lo + i)) ha
  have h2 := congrArg (fun z => z.getLsbD i) hm
  simp only [bits, BitVec.getLsbD_extractLsb', hi, decide_true, Bool.true_and, BitVec.getLsbD_allOnes] at h2 ⊢
  simp only [BitVec.getLsbD_and, BitVec.getLsbD_xor, BitVec.ofNat_eq_ofNat, BitVec.getLsbD_zero, h2, Bool.true_and] at h1
  cases hw : w.getLsbD (lo + i) <;> cases hv : r.want.getLsbD (lo + i) <;> simp_all

/-- The bits that two rows care about and want differently. -/
def Row.conflicts (r r' : Row) : Bool := (r.mask &&& r'.mask &&& (r.want ^^^ r'.want)) != 0

/-- Rows in conflict never match one word. -/
theorem not_accepts_of_conflicts {r r' : Row} (hc : r.conflicts r' = true) {w : BitVec 32} (h : r.accepts w = true) :
    r'.accepts w = false := by
  by_contra h'
  rw [Bool.not_eq_false] at h'
  rw [accepts_iff] at h h'
  have : (r.mask &&& r'.mask &&& (r.want ^^^ r'.want)) = 0 := by
    apply BitVec.eq_of_getLsbD_eq
    intro i hi
    have h1 := congrArg (fun z => z.getLsbD i) h
    have h2 := congrArg (fun z => z.getLsbD i) h'
    simp only [BitVec.getLsbD_and, BitVec.getLsbD_xor, BitVec.ofNat_eq_ofNat, BitVec.getLsbD_zero] at h1 h2 ⊢
    generalize r.mask.getLsbD i = m at *
    generalize r'.mask.getLsbD i = m' at *
    generalize r.want.getLsbD i = v at *
    generalize r'.want.getLsbD i = v' at *
    generalize w.getLsbD i = b at *
    revert m m' v v' b
    decide
  simp [Row.conflicts, this] at hc

theorem not_accepts_of_conflicts' {r r' : Row} (hc : r.conflicts r' = true) {w : BitVec 32} (h : r'.accepts w = true) :
    r.accepts w = false := by
  by_contra h'
  rw [Bool.not_eq_false] at h'
  rw [not_accepts_of_conflicts hc h'] at h
  exact Bool.false_ne_true h

/-! ### The lookup -/

/-- The earlier rows that overlap a row of this entry: each refines it (R363). -/
def refinements (later : Op) : List Op :=
  match later with
  | .cAddi4spnRes => [.cInvalid]
  | .cAddi4spn => [.cInvalid, .cAddi4spnRes]
  | .cAddi => [.cNop]
  | .cAddiw => [.cAddiwRes]
  | .cAddi16sp => [.cAddi16spRes]
  | .cLuiRes => [.cAddi16spRes, .cAddi16sp]
  | .cLui => [.cAddi16spRes, .cAddi16sp, .cLuiRes]
  | .cLwsp => [.cLwspRes]
  | .cLdsp => [.cLdspRes]
  | .cJr => [.cJrRes]
  | .cMv => [.cJrRes, .cJr]
  | .cJalr => [.cEbreak]
  | .cAdd => [.cEbreak, .cJalr]
  | _ => []

/-- Whether two rows, the first one earlier, are never both the match that counts: they conflict, no registry holds both, or the
first refines the second. -/
def Row.separate (r r' : Row) : Bool :=
  !(Nat.beq (Nat.land (Nat.land r.mask.toNat r'.mask.toNat) (Nat.xor r.want.toNat r'.want.toNat)) 0) ||
    !((r.on32 && r'.on32) || (r.on64 && r'.on64)) || decide (r.op ∈ refinements r'.op)

/-- Every pair of the list, an earlier row with a later one. -/
def separatePairs : List Row → Bool
  | [] => true
  | r :: l => l.all r.separate && separatePairs l

theorem rows_separate : separatePairs rows = true := by decide +kernel

theorem pairwise_of_separatePairs {l : List Row} (h : separatePairs l = true) :
    l.Pairwise fun r r' => r.separate r' = true := by
  induction l with
  | nil => exact List.Pairwise.nil
  | cons r l ih =>
    rw [separatePairs, Bool.and_eq_true, List.all_eq_true] at h
    exact List.pairwise_cons.mpr ⟨h.1, ih h.2⟩

theorem conflicts_of_land {r r' : Row}
    (h : Nat.beq (Nat.land (Nat.land r.mask.toNat r'.mask.toNat) (Nat.xor r.want.toNat r'.want.toNat)) 0 = false) :
    r.conflicts r' = true := by
  rw [Row.conflicts, bne_iff_ne]
  intro hc
  have := congrArg BitVec.toNat hc
  simp only [BitVec.toNat_and, BitVec.toNat_xor] at this
  exact Nat.ne_of_beq_eq_false h this

/-- Every other pair of one registry is in conflict: the lookup order matters for the refinements only. -/
theorem registry_conflicts (xl : Xlen) :
    (registry xl).Pairwise fun r r' => r.conflicts r' = true ∨ r.op ∈ refinements r'.op := by
  have hp := pairwise_of_separatePairs rows_separate
  unfold registry
  generalize rows = l at hp ⊢
  refine List.pairwise_filter.mpr (hp.imp fun {r r'} h hr hr' => ?_)
  rw [Row.separate, Bool.or_eq_true, Bool.or_eq_true] at h
  rcases h with (h | h) | h
  · exact .inl (conflicts_of_land (by simpa using h))
  · cases xl <;> simp_all [Row.appliesTo]
  · exact .inr (of_decide_eq_true h)

theorem find?_append_cons {α : Type} {p : α → Bool} {l l' : List α} {a : α} (hp : p a = true) (h : ∀ b ∈ l, p b = false) :
    (l ++ a :: l').find? p = some a := by
  induction l with
  | nil => simp [hp]
  | cons b l ih =>
    rw [List.cons_append, List.find?_cons, h b List.mem_cons_self]
    exact ih fun c hc => h c (List.mem_cons_of_mem _ hc)

/-- A row of the registry that matches is the one found, if no row that refines it matches. -/
theorem findRow_of_accepts {xl : Xlen} {r : Row} {w : BitVec 32} (hr : r ∈ registry xl) (ha : r.accepts w = true)
    (hn : ∀ r' ∈ registry xl, r'.op ∈ refinements r.op → r'.accepts w = false) : findRow xl w = some r := by
  obtain ⟨l, l', he⟩ := List.append_of_mem hr
  have hp := registry_conflicts xl
  rw [he, List.pairwise_append] at hp
  unfold findRow
  rw [he]
  refine find?_append_cons ha fun b hb => ?_
  rcases hp.2.2 b hb r List.mem_cons_self with h | h
  · exact not_accepts_of_conflicts' h ha
  · exact hn b (by rw [he]; exact List.mem_append_left _ hb) h

/-- A word whose two low bits are not both 1 and that has no bit above 15, or whose two low bits are both 1, is presented to
the registry as it is (R102, R131). -/
theorem instrWord_of_wide {w : BitVec 32} (h : bits w 0 2 = 3) : instrWord w = w := by
  simp [instrWord, isWide, h]

theorem instrWord_of_narrow {w : BitVec 32} (h : bits w 0 2 ≠ 3) (h16 : bits w 16 16 = 0) : instrWord w = w := by
  have : isWide w = false := by rw [isWide, beq_eq_false_iff_ne]; exact h
  rw [instrWord, this]
  apply BitVec.eq_of_getLsbD_eq
  intro i hi
  simp only [Bool.false_eq_true, if_false, BitVec.getLsbD_setWidth, hi, decide_true, Bool.true_and, bits,
    BitVec.getLsbD_extractLsb', Nat.zero_add]
  by_cases h15 : i < 16
  · simp [h15]
  · have := congrArg (fun z => z.getLsbD (i - 16)) h16
    have h3 : i - 16 < 16 := by omega
    simp only [bits, BitVec.getLsbD_extractLsb', BitVec.ofNat_eq_ofNat, BitVec.getLsbD_zero, h3, decide_true, Bool.true_and] at this
    have e : 16 + (i - 16) = i := by omega
    rw [e] at this
    simp [h15, this]

end Sys2Proof
end

