-- ==== Sys2Proof/Laws/Exec.lean ====
section
/-! SUPPORT. What exec is for each instruction: its meaning. A proof rewrites with one of these, unfolds that one meaning, and cites
what Laws/Ops.lean says of the shared operation. -/

namespace Sys2Proof.Machine

theorem exec_lui (s : State) (rd : RegIdx) (imm : BitVec 20) : exec (.lui rd imm) s = execLui rd imm s := rfl
theorem exec_auipc (s : State) (rd : RegIdx) (imm : BitVec 20) : exec (.auipc rd imm) s = execAuipc rd imm s := rfl
theorem exec_jal (s : State) (rd : RegIdx) (off : BitVec 20) : exec (.jal rd off) s = execJal rd off s := rfl
theorem exec_jalr (s : State) (rd rs1 : RegIdx) (imm : BitVec 12) : exec (.jalr rd rs1 imm) s = execJalr rd rs1 imm s := rfl
theorem exec_beq (s : State) (rs1 rs2 : RegIdx) (off : BitVec 12) : exec (.beq rs1 rs2 off) s = execBeq rs1 rs2 off s := rfl
theorem exec_bne (s : State) (rs1 rs2 : RegIdx) (off : BitVec 12) : exec (.bne rs1 rs2 off) s = execBne rs1 rs2 off s := rfl
theorem exec_blt (s : State) (rs1 rs2 : RegIdx) (off : BitVec 12) : exec (.blt rs1 rs2 off) s = execBlt rs1 rs2 off s := rfl
theorem exec_bge (s : State) (rs1 rs2 : RegIdx) (off : BitVec 12) : exec (.bge rs1 rs2 off) s = execBge rs1 rs2 off s := rfl
theorem exec_bltu (s : State) (rs1 rs2 : RegIdx) (off : BitVec 12) : exec (.bltu rs1 rs2 off) s = execBltu rs1 rs2 off s := rfl
theorem exec_bgeu (s : State) (rs1 rs2 : RegIdx) (off : BitVec 12) : exec (.bgeu rs1 rs2 off) s = execBgeu rs1 rs2 off s := rfl
theorem exec_lb (s : State) (rd rs1 : RegIdx) (imm : BitVec 12) : exec (.lb rd rs1 imm) s = execLb rd rs1 imm s := rfl
theorem exec_lh (s : State) (rd rs1 : RegIdx) (imm : BitVec 12) : exec (.lh rd rs1 imm) s = execLh rd rs1 imm s := rfl
theorem exec_lw (s : State) (rd rs1 : RegIdx) (imm : BitVec 12) : exec (.lw rd rs1 imm) s = execLw rd rs1 imm s := rfl
theorem exec_lbu (s : State) (rd rs1 : RegIdx) (imm : BitVec 12) : exec (.lbu rd rs1 imm) s = execLbu rd rs1 imm s := rfl
theorem exec_lhu (s : State) (rd rs1 : RegIdx) (imm : BitVec 12) : exec (.lhu rd rs1 imm) s = execLhu rd rs1 imm s := rfl
theorem exec_lwu (s : State) (rd rs1 : RegIdx) (imm : BitVec 12) : exec (.lwu rd rs1 imm) s = execLwu rd rs1 imm s := rfl
theorem exec_ld (s : State) (rd rs1 : RegIdx) (imm : BitVec 12) : exec (.ld rd rs1 imm) s = execLd rd rs1 imm s := rfl
theorem exec_sb (s : State) (rs1 rs2 : RegIdx) (imm : BitVec 12) : exec (.sb rs1 rs2 imm) s = execSb rs1 rs2 imm s := rfl
theorem exec_sh (s : State) (rs1 rs2 : RegIdx) (imm : BitVec 12) : exec (.sh rs1 rs2 imm) s = execSh rs1 rs2 imm s := rfl
theorem exec_sw (s : State) (rs1 rs2 : RegIdx) (imm : BitVec 12) : exec (.sw rs1 rs2 imm) s = execSw rs1 rs2 imm s := rfl
theorem exec_sd (s : State) (rs1 rs2 : RegIdx) (imm : BitVec 12) : exec (.sd rs1 rs2 imm) s = execSd rs1 rs2 imm s := rfl
theorem exec_addi (s : State) (rd rs1 : RegIdx) (imm : BitVec 12) : exec (.addi rd rs1 imm) s = execAddi rd rs1 imm s := rfl
theorem exec_slti (s : State) (rd rs1 : RegIdx) (imm : BitVec 12) : exec (.slti rd rs1 imm) s = execSlti rd rs1 imm s := rfl
theorem exec_sltiu (s : State) (rd rs1 : RegIdx) (imm : BitVec 12) : exec (.sltiu rd rs1 imm) s = execSltiu rd rs1 imm s := rfl
theorem exec_xori (s : State) (rd rs1 : RegIdx) (imm : BitVec 12) : exec (.xori rd rs1 imm) s = execXori rd rs1 imm s := rfl
theorem exec_ori (s : State) (rd rs1 : RegIdx) (imm : BitVec 12) : exec (.ori rd rs1 imm) s = execOri rd rs1 imm s := rfl
theorem exec_andi (s : State) (rd rs1 : RegIdx) (imm : BitVec 12) : exec (.andi rd rs1 imm) s = execAndi rd rs1 imm s := rfl
theorem exec_slli (s : State) (rd rs1 : RegIdx) (shamt : BitVec 6) :
    exec (.slli rd rs1 shamt) s = execSlli rd rs1 shamt s := rfl
theorem exec_srli (s : State) (rd rs1 : RegIdx) (shamt : BitVec 6) :
    exec (.srli rd rs1 shamt) s = execSrli rd rs1 shamt s := rfl
theorem exec_srai (s : State) (rd rs1 : RegIdx) (shamt : BitVec 6) :
    exec (.srai rd rs1 shamt) s = execSrai rd rs1 shamt s := rfl
theorem exec_add (s : State) (rd rs1 rs2 : RegIdx) : exec (.add rd rs1 rs2) s = execAdd rd rs1 rs2 s := rfl
theorem exec_sub (s : State) (rd rs1 rs2 : RegIdx) : exec (.sub rd rs1 rs2) s = execSub rd rs1 rs2 s := rfl
theorem exec_sll (s : State) (rd rs1 rs2 : RegIdx) : exec (.sll rd rs1 rs2) s = execSll rd rs1 rs2 s := rfl
theorem exec_slt (s : State) (rd rs1 rs2 : RegIdx) : exec (.slt rd rs1 rs2) s = execSlt rd rs1 rs2 s := rfl
theorem exec_sltu (s : State) (rd rs1 rs2 : RegIdx) : exec (.sltu rd rs1 rs2) s = execSltu rd rs1 rs2 s := rfl
theorem exec_xor (s : State) (rd rs1 rs2 : RegIdx) : exec (.xor rd rs1 rs2) s = execXor rd rs1 rs2 s := rfl
theorem exec_srl (s : State) (rd rs1 rs2 : RegIdx) : exec (.srl rd rs1 rs2) s = execSrl rd rs1 rs2 s := rfl
theorem exec_sra (s : State) (rd rs1 rs2 : RegIdx) : exec (.sra rd rs1 rs2) s = execSra rd rs1 rs2 s := rfl
theorem exec_or (s : State) (rd rs1 rs2 : RegIdx) : exec (.or rd rs1 rs2) s = execOr rd rs1 rs2 s := rfl
theorem exec_and (s : State) (rd rs1 rs2 : RegIdx) : exec (.and rd rs1 rs2) s = execAnd rd rs1 rs2 s := rfl
theorem exec_fence (s : State) (fm pred succ : BitVec 4) (rs1 rd : RegIdx) :
    exec (.fence fm pred succ rs1 rd) s = execFence fm pred succ rs1 rd s := rfl
theorem exec_ecall (s : State) : exec .ecall s = execEcall s := rfl
theorem exec_ebreak (s : State) : exec .ebreak s = execEbreak s := rfl
theorem exec_addiw (s : State) (rd rs1 : RegIdx) (imm : BitVec 12) : exec (.addiw rd rs1 imm) s = execAddiw rd rs1 imm s := rfl
theorem exec_slliw (s : State) (rd rs1 : RegIdx) (shamt : BitVec 5) :
    exec (.slliw rd rs1 shamt) s = execSlliw rd rs1 shamt s := rfl
theorem exec_srliw (s : State) (rd rs1 : RegIdx) (shamt : BitVec 5) :
    exec (.srliw rd rs1 shamt) s = execSrliw rd rs1 shamt s := rfl
theorem exec_sraiw (s : State) (rd rs1 : RegIdx) (shamt : BitVec 5) :
    exec (.sraiw rd rs1 shamt) s = execSraiw rd rs1 shamt s := rfl
theorem exec_addw (s : State) (rd rs1 rs2 : RegIdx) : exec (.addw rd rs1 rs2) s = execAddw rd rs1 rs2 s := rfl
theorem exec_subw (s : State) (rd rs1 rs2 : RegIdx) : exec (.subw rd rs1 rs2) s = execSubw rd rs1 rs2 s := rfl
theorem exec_sllw (s : State) (rd rs1 rs2 : RegIdx) : exec (.sllw rd rs1 rs2) s = execSllw rd rs1 rs2 s := rfl
theorem exec_srlw (s : State) (rd rs1 rs2 : RegIdx) : exec (.srlw rd rs1 rs2) s = execSrlw rd rs1 rs2 s := rfl
theorem exec_sraw (s : State) (rd rs1 rs2 : RegIdx) : exec (.sraw rd rs1 rs2) s = execSraw rd rs1 rs2 s := rfl
theorem exec_fenceI (s : State) (imm : BitVec 12) (rs1 rd : RegIdx) :
    exec (.fenceI imm rs1 rd) s = execFenceI imm rs1 rd s := rfl
theorem exec_csrrw (s : State) (rd : RegIdx) (csr : BitVec 12) (rs1 : RegIdx) :
    exec (.csrrw rd csr rs1) s = execCsrrw rd csr rs1 s := rfl
theorem exec_csrrs (s : State) (rd : RegIdx) (csr : BitVec 12) (rs1 : RegIdx) :
    exec (.csrrs rd csr rs1) s = execCsrrs rd csr rs1 s := rfl
theorem exec_csrrc (s : State) (rd : RegIdx) (csr : BitVec 12) (rs1 : RegIdx) :
    exec (.csrrc rd csr rs1) s = execCsrrc rd csr rs1 s := rfl
theorem exec_csrrwi (s : State) (rd : RegIdx) (csr : BitVec 12) (uimm : BitVec 5) :
    exec (.csrrwi rd csr uimm) s = execCsrrwi rd csr uimm s := rfl
theorem exec_csrrsi (s : State) (rd : RegIdx) (csr : BitVec 12) (uimm : BitVec 5) :
    exec (.csrrsi rd csr uimm) s = execCsrrsi rd csr uimm s := rfl
theorem exec_csrrci (s : State) (rd : RegIdx) (csr : BitVec 12) (uimm : BitVec 5) :
    exec (.csrrci rd csr uimm) s = execCsrrci rd csr uimm s := rfl
theorem exec_mul (s : State) (rd rs1 rs2 : RegIdx) : exec (.mul rd rs1 rs2) s = execMul rd rs1 rs2 s := rfl
theorem exec_mulh (s : State) (rd rs1 rs2 : RegIdx) : exec (.mulh rd rs1 rs2) s = execMulh rd rs1 rs2 s := rfl
theorem exec_mulhsu (s : State) (rd rs1 rs2 : RegIdx) : exec (.mulhsu rd rs1 rs2) s = execMulhsu rd rs1 rs2 s := rfl
theorem exec_mulhu (s : State) (rd rs1 rs2 : RegIdx) : exec (.mulhu rd rs1 rs2) s = execMulhu rd rs1 rs2 s := rfl
theorem exec_div (s : State) (rd rs1 rs2 : RegIdx) : exec (.div rd rs1 rs2) s = execDiv rd rs1 rs2 s := rfl
theorem exec_divu (s : State) (rd rs1 rs2 : RegIdx) : exec (.divu rd rs1 rs2) s = execDivu rd rs1 rs2 s := rfl
theorem exec_rem (s : State) (rd rs1 rs2 : RegIdx) : exec (.rem rd rs1 rs2) s = execRem rd rs1 rs2 s := rfl
theorem exec_remu (s : State) (rd rs1 rs2 : RegIdx) : exec (.remu rd rs1 rs2) s = execRemu rd rs1 rs2 s := rfl
theorem exec_mulw (s : State) (rd rs1 rs2 : RegIdx) : exec (.mulw rd rs1 rs2) s = execMulw rd rs1 rs2 s := rfl
theorem exec_divw (s : State) (rd rs1 rs2 : RegIdx) : exec (.divw rd rs1 rs2) s = execDivw rd rs1 rs2 s := rfl
theorem exec_divuw (s : State) (rd rs1 rs2 : RegIdx) : exec (.divuw rd rs1 rs2) s = execDivuw rd rs1 rs2 s := rfl
theorem exec_remw (s : State) (rd rs1 rs2 : RegIdx) : exec (.remw rd rs1 rs2) s = execRemw rd rs1 rs2 s := rfl
theorem exec_remuw (s : State) (rd rs1 rs2 : RegIdx) : exec (.remuw rd rs1 rs2) s = execRemuw rd rs1 rs2 s := rfl
theorem exec_lrW (s : State) (rd rs1 : RegIdx) (aq rl : BitVec 1) : exec (.lrW rd rs1 aq rl) s = execLrW rd rs1 aq rl s := rfl
theorem exec_scW (s : State) (rd rs1 rs2 : RegIdx) (aq rl : BitVec 1) :
    exec (.scW rd rs1 rs2 aq rl) s = execScW rd rs1 rs2 aq rl s := rfl
theorem exec_lrD (s : State) (rd rs1 : RegIdx) (aq rl : BitVec 1) : exec (.lrD rd rs1 aq rl) s = execLrD rd rs1 aq rl s := rfl
theorem exec_scD (s : State) (rd rs1 rs2 : RegIdx) (aq rl : BitVec 1) :
    exec (.scD rd rs1 rs2 aq rl) s = execScD rd rs1 rs2 aq rl s := rfl
theorem exec_cInvalid (s : State) : exec .cInvalid s = execCInvalid s := rfl
theorem exec_cAddi4spnRes (s : State) (rd : CRegIdx) : exec (.cAddi4spnRes rd) s = execCAddi4spnRes rd s := rfl
theorem exec_cAddi4spn (s : State) (rd : CRegIdx) (imm : BitVec 8) : exec (.cAddi4spn rd imm) s = execCAddi4spn rd imm s := rfl
theorem exec_cFld (s : State) (rd rs1 : CRegIdx) (uimm : BitVec 5) : exec (.cFld rd rs1 uimm) s = execCFld rd rs1 uimm s := rfl
theorem exec_cLw (s : State) (rd rs1 : CRegIdx) (uimm : BitVec 5) : exec (.cLw rd rs1 uimm) s = execCLw rd rs1 uimm s := rfl
theorem exec_cFlw (s : State) (rd rs1 : CRegIdx) (uimm : BitVec 5) : exec (.cFlw rd rs1 uimm) s = execCFlw rd rs1 uimm s := rfl
theorem exec_cLd (s : State) (rd rs1 : CRegIdx) (uimm : BitVec 5) : exec (.cLd rd rs1 uimm) s = execCLd rd rs1 uimm s := rfl
theorem exec_cFsd (s : State) (rs1 rs2 : CRegIdx) (uimm : BitVec 5) :
    exec (.cFsd rs1 rs2 uimm) s = execCFsd rs1 rs2 uimm s := rfl
theorem exec_cSw (s : State) (rs1 rs2 : CRegIdx) (uimm : BitVec 5) : exec (.cSw rs1 rs2 uimm) s = execCSw rs1 rs2 uimm s := rfl
theorem exec_cFsw (s : State) (rs1 rs2 : CRegIdx) (uimm : BitVec 5) :
    exec (.cFsw rs1 rs2 uimm) s = execCFsw rs1 rs2 uimm s := rfl
theorem exec_cSd (s : State) (rs1 rs2 : CRegIdx) (uimm : BitVec 5) : exec (.cSd rs1 rs2 uimm) s = execCSd rs1 rs2 uimm s := rfl
theorem exec_cNop (s : State) : exec .cNop s = execCNop s := rfl
theorem exec_cAddi (s : State) (rd : RegIdx) (imm : BitVec 6) : exec (.cAddi rd imm) s = execCAddi rd imm s := rfl
theorem exec_cJal (s : State) (off : BitVec 11) : exec (.cJal off) s = execCJal off s := rfl
theorem exec_cAddiwRes (s : State) (imm : BitVec 6) : exec (.cAddiwRes imm) s = execCAddiwRes imm s := rfl
theorem exec_cAddiw (s : State) (rd : RegIdx) (imm : BitVec 6) : exec (.cAddiw rd imm) s = execCAddiw rd imm s := rfl
theorem exec_cLi (s : State) (rd : RegIdx) (imm : BitVec 6) : exec (.cLi rd imm) s = execCLi rd imm s := rfl
theorem exec_cAddi16spRes (s : State) : exec .cAddi16spRes s = execCAddi16spRes s := rfl
theorem exec_cAddi16sp (s : State) (imm : BitVec 6) : exec (.cAddi16sp imm) s = execCAddi16sp imm s := rfl
theorem exec_cLuiRes (s : State) (rd : RegIdx) : exec (.cLuiRes rd) s = execCLuiRes rd s := rfl
theorem exec_cLui (s : State) (rd : RegIdx) (imm : BitVec 6) : exec (.cLui rd imm) s = execCLui rd imm s := rfl
theorem exec_cSrli (s : State) (rd : CRegIdx) (shamt : BitVec 6) : exec (.cSrli rd shamt) s = execCSrli rd shamt s := rfl
theorem exec_cSrai (s : State) (rd : CRegIdx) (shamt : BitVec 6) : exec (.cSrai rd shamt) s = execCSrai rd shamt s := rfl
theorem exec_cAndi (s : State) (rd : CRegIdx) (imm : BitVec 6) : exec (.cAndi rd imm) s = execCAndi rd imm s := rfl
theorem exec_cSub (s : State) (rd rs2 : CRegIdx) : exec (.cSub rd rs2) s = execCSub rd rs2 s := rfl
theorem exec_cXor (s : State) (rd rs2 : CRegIdx) : exec (.cXor rd rs2) s = execCXor rd rs2 s := rfl
theorem exec_cOr (s : State) (rd rs2 : CRegIdx) : exec (.cOr rd rs2) s = execCOr rd rs2 s := rfl
theorem exec_cAnd (s : State) (rd rs2 : CRegIdx) : exec (.cAnd rd rs2) s = execCAnd rd rs2 s := rfl
theorem exec_cSubw (s : State) (rd rs2 : CRegIdx) : exec (.cSubw rd rs2) s = execCSubw rd rs2 s := rfl
theorem exec_cAddw (s : State) (rd rs2 : CRegIdx) : exec (.cAddw rd rs2) s = execCAddw rd rs2 s := rfl
theorem exec_cJ (s : State) (off : BitVec 11) : exec (.cJ off) s = execCJ off s := rfl
theorem exec_cBeqz (s : State) (rs1 : CRegIdx) (off : BitVec 8) : exec (.cBeqz rs1 off) s = execCBeqz rs1 off s := rfl
theorem exec_cBnez (s : State) (rs1 : CRegIdx) (off : BitVec 8) : exec (.cBnez rs1 off) s = execCBnez rs1 off s := rfl
theorem exec_cSlli (s : State) (rd : RegIdx) (shamt : BitVec 6) : exec (.cSlli rd shamt) s = execCSlli rd shamt s := rfl
theorem exec_cFldsp (s : State) (rd : RegIdx) (uimm : BitVec 6) : exec (.cFldsp rd uimm) s = execCFldsp rd uimm s := rfl
theorem exec_cLwspRes (s : State) (uimm : BitVec 6) : exec (.cLwspRes uimm) s = execCLwspRes uimm s := rfl
theorem exec_cLwsp (s : State) (rd : RegIdx) (uimm : BitVec 6) : exec (.cLwsp rd uimm) s = execCLwsp rd uimm s := rfl
theorem exec_cFlwsp (s : State) (rd : RegIdx) (uimm : BitVec 6) : exec (.cFlwsp rd uimm) s = execCFlwsp rd uimm s := rfl
theorem exec_cLdspRes (s : State) (uimm : BitVec 6) : exec (.cLdspRes uimm) s = execCLdspRes uimm s := rfl
theorem exec_cLdsp (s : State) (rd : RegIdx) (uimm : BitVec 6) : exec (.cLdsp rd uimm) s = execCLdsp rd uimm s := rfl
theorem exec_cJrRes (s : State) : exec .cJrRes s = execCJrRes s := rfl
theorem exec_cJr (s : State) (rs1 : RegIdx) : exec (.cJr rs1) s = execCJr rs1 s := rfl
theorem exec_cMv (s : State) (rd rs2 : RegIdx) : exec (.cMv rd rs2) s = execCMv rd rs2 s := rfl
theorem exec_cEbreak (s : State) : exec .cEbreak s = execCEbreak s := rfl
theorem exec_cJalr (s : State) (rs1 : RegIdx) : exec (.cJalr rs1) s = execCJalr rs1 s := rfl
theorem exec_cAdd (s : State) (rd rs2 : RegIdx) : exec (.cAdd rd rs2) s = execCAdd rd rs2 s := rfl
theorem exec_cFsdsp (s : State) (rs2 : RegIdx) (uimm : BitVec 6) : exec (.cFsdsp rs2 uimm) s = execCFsdsp rs2 uimm s := rfl
theorem exec_cSwsp (s : State) (rs2 : RegIdx) (uimm : BitVec 6) : exec (.cSwsp rs2 uimm) s = execCSwsp rs2 uimm s := rfl
theorem exec_cFswsp (s : State) (rs2 : RegIdx) (uimm : BitVec 6) : exec (.cFswsp rs2 uimm) s = execCFswsp rs2 uimm s := rfl
theorem exec_cSdsp (s : State) (rs2 : RegIdx) (uimm : BitVec 6) : exec (.cSdsp rs2 uimm) s = execCSdsp rs2 uimm s := rfl

end Sys2Proof.Machine
end

