-- ==== Sys2Proof/Laws/State.lean ====
section
/-! SUPPORT. One lemma for each field of each update of the state, and what a register or a byte reads after it. -/

namespace Sys2Proof.Machine

/-! ### setX -/

@[simp] theorem State.setX_cfg (s : State) (i : RegIdx) (v : Word) : (s.setX i v).cfg = s.cfg := by
  unfold State.setX; split <;> rfl
@[simp] theorem State.setX_fs (s : State) (i : RegIdx) (v : Word) : (s.setX i v).fs = s.fs := by
  unfold State.setX; split <;> rfl
@[simp] theorem State.setX_pc (s : State) (i : RegIdx) (v : Word) : (s.setX i v).pc = s.pc := by
  unfold State.setX; split <;> rfl
@[simp] theorem State.setX_adv (s : State) (i : RegIdx) (v : Word) : (s.setX i v).adv = s.adv := by
  unfold State.setX; split <;> rfl
@[simp] theorem State.setX_mem (s : State) (i : RegIdx) (v : Word) : (s.setX i v).mem = s.mem := by
  unfold State.setX; split <;> rfl
@[simp] theorem State.setX_resv (s : State) (i : RegIdx) (v : Word) : (s.setX i v).resv = s.resv := by
  unfold State.setX; split <;> rfl
@[simp] theorem State.setX_image (s : State) (i : RegIdx) (v : Word) : (s.setX i v).image = s.image := by
  unfold State.setX; split <;> rfl
@[simp] theorem State.setX_loadFailed (s : State) (i : RegIdx) (v : Word) : (s.setX i v).loadFailed = s.loadFailed := by
  unfold State.setX; split <;> rfl
@[simp] theorem State.setX_draws (s : State) (i : RegIdx) (v : Word) : (s.setX i v).draws = s.draws := by
  unfold State.setX; split <;> rfl
@[simp] theorem State.setX_bits (s : State) (i : RegIdx) (v : Word) : (s.setX i v).bits = s.bits := by simp [State.bits]
@[simp] theorem State.setX_byteOf (s : State) (i : RegIdx) (v : Word) (k : Nat) : (s.setX i v).byteOf k = s.byteOf k := by
  simp [State.byteOf]

/-! ### setPc -/

@[simp] theorem State.setPc_cfg (s : State) (v : Word) : (s.setPc v).cfg = s.cfg := rfl
@[simp] theorem State.setPc_xs (s : State) (v : Word) : (s.setPc v).xs = s.xs := rfl
@[simp] theorem State.setPc_fs (s : State) (v : Word) : (s.setPc v).fs = s.fs := rfl
@[simp] theorem State.setPc_adv (s : State) (v : Word) : (s.setPc v).adv = s.adv := rfl
@[simp] theorem State.setPc_mem (s : State) (v : Word) : (s.setPc v).mem = s.mem := rfl
@[simp] theorem State.setPc_resv (s : State) (v : Word) : (s.setPc v).resv = s.resv := rfl
@[simp] theorem State.setPc_image (s : State) (v : Word) : (s.setPc v).image = s.image := rfl
@[simp] theorem State.setPc_loadFailed (s : State) (v : Word) : (s.setPc v).loadFailed = s.loadFailed := rfl
@[simp] theorem State.setPc_draws (s : State) (v : Word) : (s.setPc v).draws = s.draws := rfl
@[simp] theorem State.setPc_bits (s : State) (v : Word) : (s.setPc v).bits = s.bits := rfl
@[simp] theorem State.setPc_getX (s : State) (v : Word) (j : RegIdx) : (s.setPc v).getX j = s.getX j := rfl
@[simp] theorem State.setPc_byteOf (s : State) (v : Word) (k : Nat) : (s.setPc v).byteOf k = s.byteOf k := rfl

/-! ### setAdv -/

@[simp] theorem State.setAdv_cfg (s : State) (v : Word) : (s.setAdv v).cfg = s.cfg := rfl
@[simp] theorem State.setAdv_xs (s : State) (v : Word) : (s.setAdv v).xs = s.xs := rfl
@[simp] theorem State.setAdv_fs (s : State) (v : Word) : (s.setAdv v).fs = s.fs := rfl
@[simp] theorem State.setAdv_pc (s : State) (v : Word) : (s.setAdv v).pc = s.pc := rfl
@[simp] theorem State.setAdv_mem (s : State) (v : Word) : (s.setAdv v).mem = s.mem := rfl
@[simp] theorem State.setAdv_resv (s : State) (v : Word) : (s.setAdv v).resv = s.resv := rfl
@[simp] theorem State.setAdv_image (s : State) (v : Word) : (s.setAdv v).image = s.image := rfl
@[simp] theorem State.setAdv_loadFailed (s : State) (v : Word) : (s.setAdv v).loadFailed = s.loadFailed := rfl
@[simp] theorem State.setAdv_draws (s : State) (v : Word) : (s.setAdv v).draws = s.draws := rfl
@[simp] theorem State.setAdv_bits (s : State) (v : Word) : (s.setAdv v).bits = s.bits := rfl
@[simp] theorem State.setAdv_getX (s : State) (v : Word) (j : RegIdx) : (s.setAdv v).getX j = s.getX j := rfl
@[simp] theorem State.setAdv_byteOf (s : State) (v : Word) (k : Nat) : (s.setAdv v).byteOf k = s.byteOf k := rfl

/-! ### jumpTo -/

@[simp] theorem State.jumpTo_cfg (s : State) (t : Word) : (s.jumpTo t).cfg = s.cfg := rfl
@[simp] theorem State.jumpTo_xs (s : State) (t : Word) : (s.jumpTo t).xs = s.xs := rfl
@[simp] theorem State.jumpTo_fs (s : State) (t : Word) : (s.jumpTo t).fs = s.fs := rfl
@[simp] theorem State.jumpTo_mem (s : State) (t : Word) : (s.jumpTo t).mem = s.mem := rfl
@[simp] theorem State.jumpTo_resv (s : State) (t : Word) : (s.jumpTo t).resv = s.resv := rfl
@[simp] theorem State.jumpTo_image (s : State) (t : Word) : (s.jumpTo t).image = s.image := rfl
@[simp] theorem State.jumpTo_loadFailed (s : State) (t : Word) : (s.jumpTo t).loadFailed = s.loadFailed := rfl
@[simp] theorem State.jumpTo_draws (s : State) (t : Word) : (s.jumpTo t).draws = s.draws := rfl
@[simp] theorem State.jumpTo_bits (s : State) (t : Word) : (s.jumpTo t).bits = s.bits := rfl
@[simp] theorem State.jumpTo_getX (s : State) (t : Word) (j : RegIdx) : (s.jumpTo t).getX j = s.getX j := rfl
@[simp] theorem State.jumpTo_byteOf (s : State) (t : Word) (k : Nat) : (s.jumpTo t).byteOf k = s.byteOf k := rfl

/-! ### epilogue -/

@[simp] theorem State.epilogue_cfg (s : State) : (s.epilogue).cfg = s.cfg := rfl
@[simp] theorem State.epilogue_xs (s : State) : (s.epilogue).xs = s.xs := rfl
@[simp] theorem State.epilogue_fs (s : State) : (s.epilogue).fs = s.fs := rfl
@[simp] theorem State.epilogue_adv (s : State) : (s.epilogue).adv = s.adv := rfl
@[simp] theorem State.epilogue_mem (s : State) : (s.epilogue).mem = s.mem := rfl
@[simp] theorem State.epilogue_resv (s : State) : (s.epilogue).resv = s.resv := rfl
@[simp] theorem State.epilogue_image (s : State) : (s.epilogue).image = s.image := rfl
@[simp] theorem State.epilogue_loadFailed (s : State) : (s.epilogue).loadFailed = s.loadFailed := rfl
@[simp] theorem State.epilogue_draws (s : State) : (s.epilogue).draws = s.draws := rfl
@[simp] theorem State.epilogue_bits (s : State) : (s.epilogue).bits = s.bits := rfl
@[simp] theorem State.epilogue_getX (s : State) (j : RegIdx) : (s.epilogue).getX j = s.getX j := rfl
@[simp] theorem State.epilogue_byteOf (s : State) (k : Nat) : (s.epilogue).byteOf k = s.byteOf k := rfl

/-! ### setResv -/

@[simp] theorem State.setResv_cfg (s : State) (r : Option Word) : (s.setResv r).cfg = s.cfg := rfl
@[simp] theorem State.setResv_xs (s : State) (r : Option Word) : (s.setResv r).xs = s.xs := rfl
@[simp] theorem State.setResv_fs (s : State) (r : Option Word) : (s.setResv r).fs = s.fs := rfl
@[simp] theorem State.setResv_pc (s : State) (r : Option Word) : (s.setResv r).pc = s.pc := rfl
@[simp] theorem State.setResv_adv (s : State) (r : Option Word) : (s.setResv r).adv = s.adv := rfl
@[simp] theorem State.setResv_mem (s : State) (r : Option Word) : (s.setResv r).mem = s.mem := rfl
@[simp] theorem State.setResv_image (s : State) (r : Option Word) : (s.setResv r).image = s.image := rfl
@[simp] theorem State.setResv_loadFailed (s : State) (r : Option Word) : (s.setResv r).loadFailed = s.loadFailed := rfl
@[simp] theorem State.setResv_draws (s : State) (r : Option Word) : (s.setResv r).draws = s.draws := rfl
@[simp] theorem State.setResv_bits (s : State) (r : Option Word) : (s.setResv r).bits = s.bits := rfl
@[simp] theorem State.setResv_getX (s : State) (r : Option Word) (j : RegIdx) : (s.setResv r).getX j = s.getX j := rfl
@[simp] theorem State.setResv_byteOf (s : State) (r : Option Word) (k : Nat) : (s.setResv r).byteOf k = s.byteOf k := rfl

/-! ### noteDraws -/

@[simp] theorem State.noteDraws_cfg (s : State) (a n : Nat) : (s.noteDraws a n).cfg = s.cfg := by
  unfold State.noteDraws; split <;> [split <;> rfl; rfl]
@[simp] theorem State.noteDraws_xs (s : State) (a n : Nat) : (s.noteDraws a n).xs = s.xs := by
  unfold State.noteDraws; split <;> [split <;> rfl; rfl]
@[simp] theorem State.noteDraws_fs (s : State) (a n : Nat) : (s.noteDraws a n).fs = s.fs := by
  unfold State.noteDraws; split <;> [split <;> rfl; rfl]
@[simp] theorem State.noteDraws_pc (s : State) (a n : Nat) : (s.noteDraws a n).pc = s.pc := by
  unfold State.noteDraws; split <;> [split <;> rfl; rfl]
@[simp] theorem State.noteDraws_adv (s : State) (a n : Nat) : (s.noteDraws a n).adv = s.adv := by
  unfold State.noteDraws; split <;> [split <;> rfl; rfl]
@[simp] theorem State.noteDraws_mem (s : State) (a n : Nat) : (s.noteDraws a n).mem = s.mem := by
  unfold State.noteDraws; split <;> [split <;> rfl; rfl]
@[simp] theorem State.noteDraws_resv (s : State) (a n : Nat) : (s.noteDraws a n).resv = s.resv := by
  unfold State.noteDraws; split <;> [split <;> rfl; rfl]
@[simp] theorem State.noteDraws_image (s : State) (a n : Nat) : (s.noteDraws a n).image = s.image := by
  unfold State.noteDraws; split <;> [split <;> rfl; rfl]
@[simp] theorem State.noteDraws_loadFailed (s : State) (a n : Nat) : (s.noteDraws a n).loadFailed = s.loadFailed := by
  unfold State.noteDraws; split <;> [split <;> rfl; rfl]
@[simp] theorem State.noteDraws_bits (s : State) (a n : Nat) : (s.noteDraws a n).bits = s.bits := by simp [State.bits]
@[simp] theorem State.noteDraws_getX (s : State) (a n : Nat) (j : RegIdx) : (s.noteDraws a n).getX j = s.getX j := by
  simp [State.getX, State.bits]
@[simp] theorem State.noteDraws_byteOf (s : State) (a n : Nat) (k : Nat) : (s.noteDraws a n).byteOf k = s.byteOf k := by
  simp [State.byteOf]

/-! ### prologue -/

@[simp] theorem State.prologue_cfg (s : State) : (s.prologue).cfg = s.cfg := by simp [State.prologue]
@[simp] theorem State.prologue_xs (s : State) : (s.prologue).xs = s.xs := by simp [State.prologue]
@[simp] theorem State.prologue_fs (s : State) : (s.prologue).fs = s.fs := by simp [State.prologue]
@[simp] theorem State.prologue_pc (s : State) : (s.prologue).pc = s.pc := by simp [State.prologue]
@[simp] theorem State.prologue_mem (s : State) : (s.prologue).mem = s.mem := by simp [State.prologue]
@[simp] theorem State.prologue_resv (s : State) : (s.prologue).resv = s.resv := by simp [State.prologue]
@[simp] theorem State.prologue_image (s : State) : (s.prologue).image = s.image := by simp [State.prologue]
@[simp] theorem State.prologue_loadFailed (s : State) : (s.prologue).loadFailed = s.loadFailed := by simp [State.prologue]
@[simp] theorem State.prologue_bits (s : State) : (s.prologue).bits = s.bits := by simp [State.bits]
@[simp] theorem State.prologue_getX (s : State) (j : RegIdx) : (s.prologue).getX j = s.getX j := by
  simp [State.getX, State.bits]
@[simp] theorem State.prologue_byteOf (s : State) (k : Nat) : (s.prologue).byteOf k = s.byteOf k := by
  simp [State.byteOf]

/-! ### writeByte -/

@[simp] theorem State.writeByte_cfg (s : State) (a : Nat) (b : Byte) : (s.writeByte a b).cfg = s.cfg := by
  unfold State.writeByte; split <;> rfl
@[simp] theorem State.writeByte_xs (s : State) (a : Nat) (b : Byte) : (s.writeByte a b).xs = s.xs := by
  unfold State.writeByte; split <;> rfl
@[simp] theorem State.writeByte_fs (s : State) (a : Nat) (b : Byte) : (s.writeByte a b).fs = s.fs := by
  unfold State.writeByte; split <;> rfl
@[simp] theorem State.writeByte_pc (s : State) (a : Nat) (b : Byte) : (s.writeByte a b).pc = s.pc := by
  unfold State.writeByte; split <;> rfl
@[simp] theorem State.writeByte_adv (s : State) (a : Nat) (b : Byte) : (s.writeByte a b).adv = s.adv := by
  unfold State.writeByte; split <;> rfl
@[simp] theorem State.writeByte_resv (s : State) (a : Nat) (b : Byte) : (s.writeByte a b).resv = s.resv := by
  unfold State.writeByte; split <;> rfl
@[simp] theorem State.writeByte_image (s : State) (a : Nat) (b : Byte) : (s.writeByte a b).image = s.image := by
  unfold State.writeByte; split <;> rfl
@[simp] theorem State.writeByte_loadFailed (s : State) (a : Nat) (b : Byte) : (s.writeByte a b).loadFailed = s.loadFailed := by
  unfold State.writeByte; split <;> rfl
@[simp] theorem State.writeByte_draws (s : State) (a : Nat) (b : Byte) : (s.writeByte a b).draws = s.draws := by
  unfold State.writeByte; split <;> rfl
@[simp] theorem State.writeByte_bits (s : State) (a : Nat) (b : Byte) : (s.writeByte a b).bits = s.bits := by simp [State.bits]
@[simp] theorem State.writeByte_getX (s : State) (a : Nat) (b : Byte) (j : RegIdx) : (s.writeByte a b).getX j = s.getX j := by
  simp [State.getX, State.bits]

/-! ### The fields an update sets -/

@[simp] theorem State.setPc_pc (s : State) (v : Word) : (s.setPc v).pc = narrow s.bits v := rfl
@[simp] theorem State.setAdv_adv (s : State) (v : Word) : (s.setAdv v).adv = narrow s.bits v := rfl
@[simp] theorem State.jumpTo_pc (s : State) (t : Word) : (s.jumpTo t).pc = narrow s.bits t := rfl
@[simp] theorem State.jumpTo_adv (s : State) (t : Word) : (s.jumpTo t).adv = narrow s.bits 0 := rfl
@[simp] theorem State.epilogue_pc (s : State) : s.epilogue.pc = narrow s.bits (s.pc + s.adv) := rfl
@[simp] theorem State.setResv_resv (s : State) (r : Option Word) : (s.setResv r).resv = r := rfl
@[simp] theorem State.prologue_adv (s : State) :
    s.prologue.adv = narrow s.bits (BitVec.ofNat 64 (widthOf s.fetchWord)) := by
  simp [State.prologue]

/-- `x[0]` reads as zero (R22). -/
@[simp] theorem State.getX_zero (s : State) : s.getX 0 = 0 := rfl

/-- A write to `x[0]` is discarded (R22). -/
@[simp] theorem State.setX_zero (s : State) (v : Word) : s.setX 0 v = s := rfl

theorem State.getX_setX_self (s : State) {i : RegIdx} (h : i ≠ 0) (v : Word) :
    (s.setX i v).getX i = narrow s.bits v := by
  unfold State.setX State.getX
  simp only [if_neg h, State.bits, Vector.getElem_set, if_true, narrow_narrow]

theorem State.getX_setX_ne (s : State) {i j : RegIdx} (h : j ≠ i) (v : Word) :
    (s.setX i v).getX j = s.getX j := by
  unfold State.setX State.getX
  by_cases hj : j = 0
  · rw [if_pos hj, if_pos hj]
  by_cases hi : i = 0
  · rw [if_pos hi]
  have hne : j.toNat ≠ i.toNat := fun e => h (BitVec.eq_of_toNat_eq e)
  have hi0 : i.toNat ≠ 0 := fun e => hi (BitVec.eq_of_toNat_eq (by simpa using e))
  have hj0 : j.toNat ≠ 0 := fun e => hj (BitVec.eq_of_toNat_eq (by simpa using e))
  have hk : i.toNat - 1 ≠ j.toNat - 1 := by omega
  simp only [if_neg hi, if_neg hj, State.bits, Vector.getElem_set, if_neg hk]

end Sys2Proof.Machine
end

