-- ==== Sys2Proof/Laws/Memory.lean ====
section
/-! SUPPORT. The laws of the memory list (a byte reads as last written, the canonical form is kept and determines the list),
and what the memory primitives read and write. -/

namespace Sys2Proof.Machine

/-! ### The list -/

theorem Memory.lookup_insert_self (m : Memory) (a : Nat) (b : Byte) : Memory.lookup (Memory.insert m a b) a = some b := by
  induction m with
  | nil => simp [Memory.insert, Memory.lookup]
  | cons c m ih =>
    obtain ⟨k, c⟩ := c
    unfold Memory.insert
    split
    · simp [Memory.lookup]
    · split
      · simp [Memory.lookup]
      · simp [Memory.lookup, ih]; omega

theorem Memory.lookup_insert_ne {a k : Nat} (h : k ≠ a) (m : Memory) (b : Byte) :
    Memory.lookup (Memory.insert m a b) k = Memory.lookup m k := by
  induction m with
  | nil => simp [Memory.insert, Memory.lookup, h.symm]
  | cons c m ih =>
    obtain ⟨j, c⟩ := c
    unfold Memory.insert
    split
    · simp [Memory.lookup, h.symm]
    · split
      · subst_vars; simp [Memory.lookup, h.symm]
      · simp [Memory.lookup, ih]

theorem Memory.lookup_erase_self (m : Memory) (a : Nat) : Memory.lookup (Memory.erase m a) a = none := by
  induction m with
  | nil => rfl
  | cons c m ih =>
    obtain ⟨k, c⟩ := c
    unfold Memory.erase at *
    rw [List.filter_cons]
    split
    · rename_i hk; simp at hk; simp [Memory.lookup, hk, ih]
    · exact ih

theorem Memory.lookup_erase_ne {a k : Nat} (h : k ≠ a) (m : Memory) :
    Memory.lookup (Memory.erase m a) k = Memory.lookup m k := by
  induction m with
  | nil => rfl
  | cons c m ih =>
    obtain ⟨j, c⟩ := c
    unfold Memory.erase at *
    rw [List.filter_cons]
    split
    · simp [Memory.lookup, ih]
    · rename_i hk
      have : j = a := by simpa using hk
      subst this
      rw [ih]; simp [Memory.lookup, h.symm]

/-- A byte reads as it was last written. -/
theorem Memory.read_write_self (seed : Nat) (m : Memory) (a : Nat) (b : Byte) :
    Memory.read seed (Memory.write seed m a b) a = b := by
  unfold Memory.read Memory.write
  split
  · simp_all [Memory.lookup_erase_self]
  · simp [Memory.lookup_insert_self]

/-- A write leaves every other byte alone. -/
theorem Memory.read_write_ne {a k : Nat} (h : k ≠ a) (seed : Nat) (m : Memory) (b : Byte) :
    Memory.read seed (Memory.write seed m a b) k = Memory.read seed m k := by
  unfold Memory.read Memory.write
  split
  · rw [Memory.lookup_erase_ne h]
  · rw [Memory.lookup_insert_ne h]

theorem Memory.mem_insert {m : Memory} {a : Nat} {b : Byte} {c : Host.Cell} (h : c ∈ Memory.insert m a b) :
    c = (a, b) ∨ c ∈ m := by
  induction m with
  | nil => simpa [Memory.insert] using h
  | cons d m ih =>
    obtain ⟨k, d⟩ := d
    unfold Memory.insert at h
    split at h
    · simpa using h
    · split at h
      · rcases List.mem_cons.mp h with h | h
        · exact .inl h
        · exact .inr (List.mem_cons_of_mem _ h)
      · rcases List.mem_cons.mp h with h | h
        · exact .inr (h ▸ List.mem_cons_self)
        · exact (ih h).imp id (List.mem_cons_of_mem _)

theorem Memory.pairwise_insert {m : Memory} (h : m.Pairwise (fun p q => p.1 < q.1)) (a : Nat) (b : Byte) :
    (Memory.insert m a b).Pairwise (fun p q => p.1 < q.1) := by
  induction m with
  | nil => simp [Memory.insert]
  | cons d m ih =>
    obtain ⟨k, d⟩ := d
    obtain ⟨hd, hm⟩ := List.pairwise_cons.mp h
    unfold Memory.insert
    split
    · rename_i hlt
      refine List.pairwise_cons.mpr ⟨fun c hc => ?_, h⟩
      rcases List.mem_cons.mp hc with rfl | hc
      · exact hlt
      · exact Nat.lt_trans hlt (hd c hc)
    · split
      · rename_i heq
        refine List.pairwise_cons.mpr ⟨fun c hc => ?_, hm⟩
        exact heq ▸ hd c hc
      · refine List.pairwise_cons.mpr ⟨fun c hc => ?_, ih hm⟩
        rcases Memory.mem_insert hc with rfl | hc
        · show k < a; omega
        · exact hd c hc

/-- A write inside the buffer keeps the canonical form. -/
theorem Memory.wf_write {seed size : Nat} {m : Memory} (h : Memory.wf seed size m) {a : Nat} (ha : a < size) (b : Byte) :
    Memory.wf seed size (Memory.write seed m a b) := by
  unfold Memory.write
  split
  · exact ⟨List.Pairwise.filter _ h.1, fun c hc => h.2 c (List.mem_of_mem_filter hc)⟩
  · rename_i hb
    refine ⟨Memory.pairwise_insert h.1 a b, fun c hc => ?_⟩
    rcases Memory.mem_insert hc with rfl | hc
    · exact ⟨ha, hb⟩
    · exact h.2 c hc

theorem Memory.wf_nil (seed size : Nat) : Memory.wf seed size [] := by simp [Memory.wf]

theorem Memory.lookup_none_of_lt {m : Memory} {a : Nat} (h : ∀ c ∈ m, a < c.1) : Memory.lookup m a = none := by
  induction m with
  | nil => rfl
  | cons c m ih =>
    obtain ⟨k, c⟩ := c
    have hk : a < k := h _ List.mem_cons_self
    have : k ≠ a := by omega
    simp [Memory.lookup, this, ih (fun c hc => h c (List.mem_cons_of_mem _ hc))]

/-- A canonical list is determined by what its bytes read as. -/
theorem Memory.ext_of_read {seed size : Nat} {m m' : Memory} (h : Memory.wf seed size m) (h' : Memory.wf seed size m')
    (hr : ∀ a, Memory.read seed m a = Memory.read seed m' a) : m = m' := by
  have hl : ∀ a, Memory.lookup m a = Memory.lookup m' a := by
    have key : ∀ {n : Memory}, Memory.wf seed size n → ∀ a b, Memory.lookup n a = some b → b ≠ fillByte seed a := by
      intro n
      induction n with
      | nil => intro _ a b hb; simp [Memory.lookup] at hb
      | cons c n ih =>
        obtain ⟨k, c⟩ := c
        intro hn a b hb
        simp only [Memory.lookup] at hb
        split at hb
        · rename_i hk
          subst hk
          cases hb
          exact (hn.2 _ List.mem_cons_self).2
        · exact ih ⟨(List.pairwise_cons.mp hn.1).2, fun c hc => hn.2 c (List.mem_cons_of_mem _ hc)⟩ a b hb
    intro a
    have ha := hr a
    unfold Memory.read at ha
    cases e : Memory.lookup m a with
    | none =>
      cases e' : Memory.lookup m' a with
      | none => rfl
      | some b => simp only [e, e', Option.getD_none, Option.getD_some] at ha; exact absurd ha.symm (key h' a b e')
    | some b =>
      cases e' : Memory.lookup m' a with
      | none => simp only [e, e', Option.getD_none, Option.getD_some] at ha; exact absurd ha (key h a b e)
      | some b' => simp only [e, e', Option.getD_some] at ha; rw [ha]
  clear hr
  induction m generalizing m' with
  | nil =>
    cases m' with
    | nil => rfl
    | cons c m' => obtain ⟨k, c⟩ := c; have := hl k; simp [Memory.lookup] at this
  | cons c m ih =>
    obtain ⟨k, c⟩ := c
    cases m' with
    | nil => have := hl k; simp [Memory.lookup] at this
    | cons d m' =>
      obtain ⟨j, d⟩ := d
      obtain ⟨hk, hm⟩ := List.pairwise_cons.mp h.1
      obtain ⟨hj, hm'⟩ := List.pairwise_cons.mp h'.1
      have hkj : k = j := by
        rcases Nat.lt_trichotomy k j with hlt | heq | hgt
        · have h1 := hl k
          have : Memory.lookup ((j, d) :: m') k = none := Memory.lookup_none_of_lt (by
            intro c hc
            rcases List.mem_cons.mp hc with rfl | hc
            · exact hlt
            · exact Nat.lt_trans hlt (hj c hc))
          rw [this] at h1
          simp [Memory.lookup] at h1
        · exact heq
        · have h1 := hl j
          have : Memory.lookup ((k, c) :: m) j = none := Memory.lookup_none_of_lt (by
            intro e he
            rcases List.mem_cons.mp he with rfl | he
            · exact hgt
            · exact Nat.lt_trans hgt (hk e he))
          rw [this] at h1
          simp [Memory.lookup] at h1
      subst hkj
      have hcd : c = d := by have := hl k; simpa [Memory.lookup] using this
      subst hcd
      congr 1
      refine ih ⟨hm, fun c hc => h.2 c (List.mem_cons_of_mem _ hc)⟩
        ⟨hm', fun c hc => h'.2 c (List.mem_cons_of_mem _ hc)⟩ fun a => ?_
      by_cases hak : a = k
      · subst hak
        rw [Memory.lookup_none_of_lt hk, Memory.lookup_none_of_lt hj]
      · have := hl a
        simpa [Memory.lookup, Ne.symm hak] using this

/-! ### Bytes of the state -/

theorem State.byteOf_writeByte (s : State) (a : Nat) (b : Byte) (k : Nat) :
    (s.writeByte a b).byteOf k = if k = a ∧ a < s.cfg.memSize then b else s.byteOf k := by
  unfold State.byteOf State.writeByte
  by_cases ha : a < s.cfg.memSize
  · by_cases hk : k = a
    · subst hk; simp [ha, Memory.read_write_self]
    · simp [ha, hk, Memory.read_write_ne hk]
  · simp [ha]

theorem State.writeByte_memWf {s : State} (h : s.MemWf) (a : Nat) (b : Byte) : (s.writeByte a b).MemWf := by
  unfold State.MemWf State.writeByte
  split
  · rename_i ha; exact Memory.wf_write h ha b
  · exact h

/-! ### memWrite -/

theorem State.memWrite_eq (s : State) (a : Nat) (v : Word) (n : Nat) :
    s.memWrite a v n = { s with mem := (s.memWrite a v n).mem } := by
  induction n with
  | zero => rfl
  | succ n ih =>
    unfold State.memWrite State.writeByte
    split
    · rw [ih]
    · exact ih

@[simp] theorem State.memWrite_cfg (s : State) (a : Nat) (v : Word) (n : Nat) : (s.memWrite a v n).cfg = s.cfg := by
  rw [State.memWrite_eq]
@[simp] theorem State.memWrite_xs (s : State) (a : Nat) (v : Word) (n : Nat) : (s.memWrite a v n).xs = s.xs := by
  rw [State.memWrite_eq]
@[simp] theorem State.memWrite_fs (s : State) (a : Nat) (v : Word) (n : Nat) : (s.memWrite a v n).fs = s.fs := by
  rw [State.memWrite_eq]
@[simp] theorem State.memWrite_pc (s : State) (a : Nat) (v : Word) (n : Nat) : (s.memWrite a v n).pc = s.pc := by
  rw [State.memWrite_eq]
@[simp] theorem State.memWrite_adv (s : State) (a : Nat) (v : Word) (n : Nat) : (s.memWrite a v n).adv = s.adv := by
  rw [State.memWrite_eq]
@[simp] theorem State.memWrite_resv (s : State) (a : Nat) (v : Word) (n : Nat) : (s.memWrite a v n).resv = s.resv := by
  rw [State.memWrite_eq]
@[simp] theorem State.memWrite_image (s : State) (a : Nat) (v : Word) (n : Nat) : (s.memWrite a v n).image = s.image := by
  rw [State.memWrite_eq]
@[simp] theorem State.memWrite_loadFailed (s : State) (a : Nat) (v : Word) (n : Nat) : (s.memWrite a v n).loadFailed = s.loadFailed := by
  rw [State.memWrite_eq]
@[simp] theorem State.memWrite_draws (s : State) (a : Nat) (v : Word) (n : Nat) : (s.memWrite a v n).draws = s.draws := by
  rw [State.memWrite_eq]
@[simp] theorem State.memWrite_bits (s : State) (a : Nat) (v : Word) (n : Nat) : (s.memWrite a v n).bits = s.bits := by
  simp [State.bits]
@[simp] theorem State.memWrite_getX (s : State) (a : Nat) (v : Word) (n : Nat) (j : RegIdx) :
    (s.memWrite a v n).getX j = s.getX j := by
  simp [State.getX, State.bits]

theorem extractLsb'_eq_leByte (v : Word) (k : Nat) : v.extractLsb' (8 * k) 8 = leByte v.toNat k := by
  apply BitVec.eq_of_toNat_eq
  simp [leByte, BitVec.extractLsb'_toNat]

/-- `MemWrite` byte by byte: little-endian, clamped (R53, R54, R57). -/
theorem State.byteOf_memWrite (s : State) (a : Nat) (v : Word) (n k : Nat) :
    (s.memWrite a v n).byteOf k =
      if a ≤ k ∧ k < a + n ∧ k < s.cfg.memSize then leByte v.toNat (k - a) else s.byteOf k := by
  induction n with
  | zero => simp [State.memWrite]; omega
  | succ n ih =>
    rw [State.memWrite, State.byteOf_writeByte, ih, State.memWrite_cfg, extractLsb'_eq_leByte]
    by_cases hk : k = a + n
    · subst hk
      by_cases hm : a + n < s.cfg.memSize
      · simp [hm]
      · simp [hm]
    · have : (a ≤ k ∧ k < a + (n + 1) ∧ k < s.cfg.memSize) ↔ (a ≤ k ∧ k < a + n ∧ k < s.cfg.memSize) := by omega
      simp only [hk, false_and, if_false, this]

theorem State.memWrite_storedBytes (s : State) (a : Nat) (v : Word) (n : Nat) :
    StoredBytes s (s.memWrite a v n) a n v.toNat := s.byteOf_memWrite a v n

theorem State.memWrite_memWf {s : State} (h : s.MemWf) (a : Nat) (v : Word) (n : Nat) : (s.memWrite a v n).MemWf := by
  induction n with
  | zero => exact h
  | succ n ih => exact State.writeByte_memWf ih _ _

/-! ### storeBytes -/

theorem State.storeBytes_eq (s : State) (a : Nat) (bs : List Byte) :
    s.storeBytes a bs = { s with mem := (s.storeBytes a bs).mem } := by
  induction bs generalizing s a with
  | nil => rfl
  | cons b bs ih =>
    unfold State.storeBytes
    rw [ih]
    unfold State.writeByte
    split <;> rfl

@[simp] theorem State.storeBytes_cfg (s : State) (a : Nat) (bs : List Byte) : (s.storeBytes a bs).cfg = s.cfg := by
  rw [State.storeBytes_eq]
@[simp] theorem State.storeBytes_xs (s : State) (a : Nat) (bs : List Byte) : (s.storeBytes a bs).xs = s.xs := by
  rw [State.storeBytes_eq]
@[simp] theorem State.storeBytes_fs (s : State) (a : Nat) (bs : List Byte) : (s.storeBytes a bs).fs = s.fs := by
  rw [State.storeBytes_eq]
@[simp] theorem State.storeBytes_pc (s : State) (a : Nat) (bs : List Byte) : (s.storeBytes a bs).pc = s.pc := by
  rw [State.storeBytes_eq]
@[simp] theorem State.storeBytes_adv (s : State) (a : Nat) (bs : List Byte) : (s.storeBytes a bs).adv = s.adv := by
  rw [State.storeBytes_eq]
@[simp] theorem State.storeBytes_resv (s : State) (a : Nat) (bs : List Byte) : (s.storeBytes a bs).resv = s.resv := by
  rw [State.storeBytes_eq]
@[simp] theorem State.storeBytes_image (s : State) (a : Nat) (bs : List Byte) : (s.storeBytes a bs).image = s.image := by
  rw [State.storeBytes_eq]
@[simp] theorem State.storeBytes_loadFailed (s : State) (a : Nat) (bs : List Byte) : (s.storeBytes a bs).loadFailed = s.loadFailed := by
  rw [State.storeBytes_eq]
@[simp] theorem State.storeBytes_draws (s : State) (a : Nat) (bs : List Byte) : (s.storeBytes a bs).draws = s.draws := by
  rw [State.storeBytes_eq]
@[simp] theorem State.storeBytes_bits (s : State) (a : Nat) (bs : List Byte) : (s.storeBytes a bs).bits = s.bits := by
  simp [State.bits]
@[simp] theorem State.storeBytes_getX (s : State) (a : Nat) (bs : List Byte) (j : RegIdx) :
    (s.storeBytes a bs).getX j = s.getX j := by
  simp [State.getX, State.bits]

/-- The write port byte by byte (R415). -/
theorem State.byteOf_storeBytes (s : State) (a : Nat) (bs : List Byte) (k : Nat) :
    (s.storeBytes a bs).byteOf k =
      if a ≤ k ∧ k < a + bs.length ∧ k < s.cfg.memSize then bs.getD (k - a) 0 else s.byteOf k := by
  induction bs generalizing s a with
  | nil => simp [State.storeBytes]; omega
  | cons b bs ih =>
    rw [State.storeBytes, ih, State.byteOf_writeByte, State.writeByte_cfg]
    by_cases hk : k = a
    · subst hk
      by_cases hm : k < s.cfg.memSize <;> simp [hm]
    · by_cases hr : a + 1 ≤ k ∧ k < a + 1 + bs.length ∧ k < s.cfg.memSize
      · have h2 : a ≤ k ∧ k < a + (b :: bs).length ∧ k < s.cfg.memSize := by simp only [List.length_cons]; omega
        rw [if_pos hr, if_pos h2]
        obtain ⟨d, rfl⟩ : ∃ d, k = a + 1 + d := ⟨k - (a + 1), by omega⟩
        have e1 : a + 1 + d - (a + 1) = d := by omega
        have e2 : a + 1 + d - a = d + 1 := by omega
        rw [e1, e2]; rfl
      · have h2 : ¬ (a ≤ k ∧ k < a + (b :: bs).length ∧ k < s.cfg.memSize) := by simp only [List.length_cons]; omega
        rw [if_neg hr, if_neg h2, if_neg (fun h => hk h.1)]

theorem State.storeBytes_memWf {s : State} (h : s.MemWf) (a : Nat) (bs : List Byte) : (s.storeBytes a bs).MemWf := by
  induction bs generalizing s a with
  | nil => exact h
  | cons b bs ih => exact ih (State.writeByte_memWf h a b) (a + 1)

/-! ### memRead -/

theorem State.readNat_lt (s : State) (a n : Nat) : s.readNat a n < 2 ^ (8 * n) := by
  induction n with
  | zero => simp [State.readNat]
  | succ n ih =>
    have hb := (s.readByte a n).isLt
    have h8 : 2 ^ (8 * (n + 1)) = 2 ^ (8 * n) * 2 ^ 8 := by rw [← Nat.pow_add]; rfl
    have h256 : 256 ^ n = 2 ^ (8 * n) := by rw [Nat.pow_mul]
    rw [State.readNat, h8, h256]
    have hp : 0 < 2 ^ (8 * n) := Nat.two_pow_pos _
    nlinarith

/-- `MemRead` is the little-endian number of the bytes read (R52, R54). -/
theorem State.memRead_toNat (s : State) (a : Nat) {n : Nat} (hn : n ≤ 8) : (s.memRead a n).toNat = s.readNat a n := by
  induction n with
  | zero => rfl
  | succ n ih =>
    have ih := ih (by omega)
    have h1 := s.readNat_lt a n
    have hx : ((s.readByte a n).setWidth 64 <<< (8 * n) : Word).toNat = (s.readByte a n).toNat * 2 ^ (8 * n) := by
      rw [BitVec.toNat_shiftLeft, Nat.shiftLeft_eq, BitVec.toNat_setWidth]
      have hb := (s.readByte a n).isLt
      rw [Nat.mod_eq_of_lt (Nat.lt_of_lt_of_le hb (by decide))]
      apply Nat.mod_eq_of_lt
      have h8 : 2 ^ (8 * n) * 2 ^ 8 ≤ 2 ^ 64 := by
        rw [← Nat.pow_add]; exact Nat.pow_le_pow_right (by omega) (by omega)
      have hp : 0 < 2 ^ (8 * n) := Nat.two_pow_pos _
      nlinarith
    have h256 : 256 ^ n = 2 ^ (8 * n) := by rw [Nat.pow_mul]
    rw [State.memRead, BitVec.toNat_or, hx, ih, State.readNat, h256, Nat.mul_comm _ (2 ^ (8 * n)), Nat.or_comm,
      ← Nat.two_pow_add_eq_or_of_lt h1, Nat.add_comm]

theorem State.memRead_lt (s : State) (a : Nat) {n : Nat} (hn : n ≤ 8) : (s.memRead a n).toNat < 2 ^ (8 * n) := by
  rw [s.memRead_toNat a hn]; exact s.readNat_lt a n

theorem leByte_toNat (w k : Nat) : (leByte w k).toNat = w / 256 ^ k % 256 := by
  have h256 : 256 ^ k = 2 ^ (8 * k) := by rw [Nat.pow_mul]
  simp [leByte, Nat.shiftRight_eq_div_pow, h256]

/-- Byte `k` of the number read is the byte read at `a + k` (R52). -/
theorem State.leByte_readNat (s : State) (a : Nat) {n k : Nat} (hk : k < n) : leByte (s.readNat a n) k = s.readByte a k := by
  induction n with
  | zero => omega
  | succ n ih =>
    have h256 : ∀ m : Nat, 256 ^ m = 2 ^ (8 * m) := fun m => by rw [Nat.pow_mul]
    have h1 := s.readNat_lt a n
    rw [← h256] at h1
    apply BitVec.eq_of_toNat_eq
    rw [leByte_toNat, State.readNat]
    rcases Nat.lt_or_ge k n with hlt | hge
    · have hk2 := congrArg BitVec.toNat (ih hlt)
      rw [leByte_toNat] at hk2
      rw [← hk2]
      obtain ⟨d, rfl⟩ : ∃ d, n = k + 1 + d := ⟨n - (k + 1), by omega⟩
      have : (s.readByte a (k + 1 + d)).toNat * 256 ^ (k + 1 + d) =
          ((s.readByte a (k + 1 + d)).toNat * 256 ^ d * 256) * 256 ^ k := by
        rw [Nat.pow_add, Nat.pow_add]; ring
      rw [this, Nat.add_mul_div_right _ _ (Nat.pow_pos (by decide)), Nat.add_mul_mod_self_right]
    · have : k = n := by omega
      subst this
      rw [Nat.add_mul_div_right _ _ (Nat.pow_pos (by decide)), Nat.div_eq_of_lt h1, Nat.zero_add]
      exact Nat.mod_eq_of_lt (s.readByte a k).isLt

/-- The bytes read determine the number read. -/
theorem State.readNat_congr {s t : State} {a n : Nat} (h : ∀ k, k < n → s.readByte a k = t.readByte a k) :
    s.readNat a n = t.readNat a n := by
  induction n with
  | zero => rfl
  | succ n ih => rw [State.readNat, State.readNat, ih (fun k hk => h k (by omega)), h n (by omega)]

/-- A number whose bytes are those of `v` is `v` modulo `256^n`. -/
theorem State.readNat_of_leByte {s : State} {a v n : Nat} (h : ∀ k, k < n → s.readByte a k = leByte v k) :
    s.readNat a n = v % 256 ^ n := by
  induction n with
  | zero => simp [State.readNat, Nat.mod_one]
  | succ n ih =>
    rw [State.readNat, ih (fun k hk => h k (by omega)), h n (by omega), leByte_toNat, Nat.pow_succ, Nat.mod_mul]
    ring

end Sys2Proof.Machine
end

