-- ==== Sys2Proof/Laws/Ops.lean ====
section
/-! SUPPORT. For each shared operation, what it does: when it answers a next state, which one, and what else it can answer. Proofs
about an instruction cite these and unfold its meaning only. -/

namespace Sys2Proof.Machine

/-! ### The two conditions -/

theorem State.hazard_eq_true_iff (s : State) (d : Op) (rd : RegIdx) (reads : List RegIdx) :
    s.hazard d rd reads = true ↔ d ∈ s.cfg.hazardSet ∧ rd ≠ 0 ∧ rd ∈ reads := by
  simp [State.hazard, and_assoc]

theorem State.hazard_eq_false_iff (s : State) (d : Op) (rd : RegIdx) (reads : List RegIdx) :
    s.hazard d rd reads = false ↔ s.HazardFree d rd reads := by
  rw [← Bool.not_eq_true, State.hazard_eq_true_iff]

theorem State.accessStops_eq_false_iff (s : State) (a n : Nat) : s.accessStops a n = false ↔ s.Admits a n := by
  unfold State.accessStops State.Admits
  cases s.cfg.oobPolicy <;> simp

theorem State.accessStops_eq_true_iff (s : State) (a n : Nat) :
    s.accessStops a n = true ↔ s.cfg.oobPolicy = .fault ∧ s.cfg.memSize < a + n := by
  unfold State.accessStops
  cases s.cfg.oobPolicy <;> simp

/-! ### checked -/

theorem checked_of_free {s : State} {d : Op} {rd : RegIdx} {reads : List RegIdx} (h : s.HazardFree d rd reads) (r : Result) :
    checked d rd reads s r = r := by
  rw [checked, (s.hazard_eq_false_iff d rd reads).mpr h]; rfl

theorem checked_of_hazard {s : State} {d : Op} {rd : RegIdx} {reads : List RegIdx}
    (h : d ∈ s.cfg.hazardSet ∧ rd ≠ 0 ∧ rd ∈ reads) (r : Result) : checked d rd reads s r = .fault (.dataHazard rd) := by
  rw [checked, (s.hazard_eq_true_iff d rd reads).mpr h]; rfl

theorem checked_next {s t : State} {d : Op} {rd : RegIdx} {reads : List RegIdx} {r : Result}
    (h : checked d rd reads s r = .next t) : r = .next t := by
  unfold checked at h; split at h
  · cases h
  · exact h

/-! ### Arithmetic -/

theorem aluImm_next {s : State} {d : Op} {rd rs1 : RegIdx} (h : s.HazardFree d rd [rs1]) (f : Word → Word → Word) (b : Word) :
    aluImm d f rd rs1 b s = .next (s.setX rd (f (s.getX rs1) b)) := checked_of_free h _

theorem aluReg_next {s : State} {d : Op} {rd rs1 rs2 : RegIdx} (h : s.HazardFree d rd [rs1, rs2])
    (f : Word → Word → Word) : aluReg d f rd rs1 rs2 s = .next (s.setX rd (f (s.getX rs1) (s.getX rs2))) :=
  checked_of_free h _

theorem aluDiv_next {s : State} {d : Op} {rd rs1 rs2 : RegIdx} {corner : Word → Word → Bool}
    (h : s.HazardFree d rd [rs1, rs2]) (hc : s.Divides (corner (s.getX rs1) (s.getX rs2) = true))
    (f : Word → Word → Word) : aluDiv d corner f rd rs1 rs2 s = .next (s.setX rd (f (s.getX rs1) (s.getX rs2))) := by
  rw [aluDiv, checked_of_free h]
  split
  · rename_i hr
    rw [Bool.and_eq_true, beq_iff_eq] at hr
    exact absurd hr.2 (hc hr.1)
  · rfl

theorem aluDiv_refuses {s : State} {d : Op} {rd rs1 rs2 : RegIdx} {corner : Word → Word → Bool}
    (h : s.HazardFree d rd [rs1, rs2]) (hr : s.cfg.divCorners = .refuse)
    (hc : corner (s.getX rs1) (s.getX rs2) = true) (f : Word → Word → Word) :
    aluDiv d corner f rd rs1 rs2 s = .refused .divisionCorner := by
  rw [aluDiv, checked_of_free h, if_pos (by simp [hr, hc])]

theorem aluImm_inv {s t : State} {d : Op} {f : Word → Word → Word} {rd rs1 : RegIdx} {b : Word}
    (h : aluImm d f rd rs1 b s = .next t) : t = s.setX rd (f (s.getX rs1) b) := by
  have := checked_next h; cases this; rfl

theorem aluReg_inv {s t : State} {d : Op} {f : Word → Word → Word} {rd rs1 rs2 : RegIdx}
    (h : aluReg d f rd rs1 rs2 s = .next t) : t = s.setX rd (f (s.getX rs1) (s.getX rs2)) := by
  have := checked_next h; cases this; rfl

theorem aluDiv_inv {s t : State} {d : Op} {corner : Word → Word → Bool} {f : Word → Word → Word} {rd rs1 rs2 : RegIdx}
    (h : aluDiv d corner f rd rs1 rs2 s = .next t) : t = s.setX rd (f (s.getX rs1) (s.getX rs2)) := by
  have := checked_next h
  split at this
  · cases this
  · cases this; rfl

/-- Writing a register changes that register and nothing else. -/
theorem State.setX_writesX (s : State) (rd : RegIdx) (v : Word) : WritesX s (s.setX rd v) rd (v.toNat % 2 ^ s.bits) where
  dest := by
    split
    · rename_i h; subst h; rfl
    · rename_i h
      rw [State.natX, State.getX_setX_self s h, narrow_toNat s.bits_le]
  others := fun r h => s.getX_setX_ne h v
  bytes := fun a => by simp
  rest := by unfold State.setX; split <;> rfl

theorem writesX_of_eq {s t : State} {rd : RegIdx} {v : Word} {k : Nat} (h : t = s.setX rd v) (hk : v.toNat % 2 ^ s.bits = k) :
    WritesX s t rd k := by
  subst h hk; exact s.setX_writesX rd v

/-! ### Loads and stores -/

theorem loadInto_next {s : State} {d : Op} {rd : RegIdx} {reads : List RegIdx} {ea : Word} {n : Nat}
    (h : s.HazardFree d rd reads) (ha : s.Admits ea.toNat n) (ext : Word → Word) :
    loadInto d rd reads ea n ext s = .next ((s.noteDraws ea.toNat n).setX rd (ext (s.memRead ea.toNat n))) := by
  rw [loadInto, checked_of_free h, (s.accessStops_eq_false_iff _ _).mpr ha]; rfl

theorem loadInto_inv {s t : State} {d : Op} {rd : RegIdx} {reads : List RegIdx} {ea : Word} {n : Nat} {ext : Word → Word}
    (h : loadInto d rd reads ea n ext s = .next t) :
    t = (s.noteDraws ea.toNat n).setX rd (ext (s.memRead ea.toNat n)) := by
  have := checked_next h
  split at this <;> cases this
  rfl

theorem State.noteDraws_of_inside (s : State) {a n : Nat} (h : a + n ≤ s.cfg.memSize) : s.noteDraws a n = s := by
  unfold State.noteDraws
  split
  · rw [if_pos h]
  · rfl

theorem State.noteDraws_eq (s : State) (a n : Nat) : s.noteDraws a n = { s with draws := (s.noteDraws a n).draws } := by
  unfold State.noteDraws
  split
  · split <;> rfl
  · rfl

theorem State.load_loadsX (s : State) (rd : RegIdx) (v : Word) (a n : Nat) :
    LoadsX s ((s.noteDraws a n).setX rd v) rd (v.toNat % 2 ^ s.bits) a n where
  dest := by have := ((s.noteDraws a n).setX_writesX rd v).dest; simpa using this
  others := fun r h => by rw [State.getX_setX_ne _ h]; simp
  bytes := fun k => by simp
  rest := by
    unfold State.setX
    split
    · rw [s.noteDraws_xs a n]; exact s.noteDraws_eq a n
    · rw [s.noteDraws_eq a n]
  draws := fun h => by simp [s.noteDraws_of_inside h]

theorem storeFrom_next {s : State} {ea : Word} {n : Nat} (h : s.Admits ea.toNat n) (v : Word) :
    storeFrom ea n v s = .next (s.memWrite ea.toNat v n) := by
  rw [storeFrom, (s.accessStops_eq_false_iff _ _).mpr h]; rfl

theorem storeFrom_inv {s t : State} {ea : Word} {n : Nat} {v : Word} (h : storeFrom ea n v s = .next t) :
    t = s.memWrite ea.toNat v n := by
  unfold storeFrom at h
  split at h <;> cases h
  rfl

/-- A store changes its bytes and nothing else. -/
theorem State.memWrite_storesAt (s : State) (a : Nat) (v : Word) (n : Nat) : StoresAt s (s.memWrite a v n) a n v.toNat where
  bytes := s.memWrite_storedBytes a v n
  regs := fun r => by simp
  rest := s.memWrite_eq a v n

/-! ### Load-reserved and store-conditional -/

theorem loadReserved_next {s : State} {d : Op} {rd : RegIdx} {reads : List RegIdx} {ea : Word} {n : Nat}
    (h : s.HazardFree d rd reads) (ha : s.Admits ea.toNat n) (ext : Word → Word) :
    loadReserved d rd reads ea n ext s =
      .next (((s.noteDraws ea.toNat n).setResv (some ea)).setX rd (ext (s.memRead ea.toNat n))) := by
  rw [loadReserved, checked_of_free h, (s.accessStops_eq_false_iff _ _).mpr ha]; rfl

theorem loadReserved_inv {s t : State} {d : Op} {rd : RegIdx} {reads : List RegIdx} {ea : Word} {n : Nat}
    {ext : Word → Word} (h : loadReserved d rd reads ea n ext s = .next t) :
    t = ((s.noteDraws ea.toNat n).setResv (some ea)).setX rd (ext (s.memRead ea.toNat n)) := by
  have := checked_next h
  split at this <;> cases this
  rfl

theorem storeConditional_success {s : State} {d : Op} {rd : RegIdx} {reads : List RegIdx} {ea : Word} {n : Nat}
    (h : s.HazardFree d rd reads) (hm : s.resv = some ea) (ha : s.Admits ea.toNat n) (v : Word) :
    storeConditional d rd reads ea n v s = .next (((s.memWrite ea.toNat v n).setResv none).setX rd 0) := by
  rw [storeConditional, checked_of_free h, if_pos hm, (s.accessStops_eq_false_iff _ _).mpr ha]; rfl

theorem storeConditional_failure {s : State} {d : Op} {rd : RegIdx} {reads : List RegIdx} {ea : Word} {n : Nat}
    (h : s.HazardFree d rd reads) (hm : s.resv ≠ some ea) (v : Word) :
    storeConditional d rd reads ea n v s = .next (s.setX rd 1) := by
  rw [storeConditional, checked_of_free h, if_neg hm]

theorem storeConditional_inv {s t : State} {d : Op} {rd : RegIdx} {reads : List RegIdx} {ea : Word} {n : Nat} {v : Word}
    (h : storeConditional d rd reads ea n v s = .next t) :
    (s.resv = some ea ∧ t = ((s.memWrite ea.toNat v n).setResv none).setX rd 0) ∨ (s.resv ≠ some ea ∧ t = s.setX rd 1) := by
  have := checked_next h
  split at this
  · rename_i hm
    split at this <;> cases this
    exact .inl ⟨hm, rfl⟩
  · rename_i hm
    cases this
    exact .inr ⟨hm, rfl⟩

/-! ### Branches, no-ops and stalls -/

theorem branchIf_next (c : Bool) (offset : Word) (s : State) :
    branchIf c offset s = .next (if c then s.setAdv offset else s) := rfl

/-! ### The invariant, kept by every update -/

theorem State.inv_setX {s : State} (h : s.Inv) (rd : RegIdx) (v : Word) : (s.setX rd v).Inv := by
  obtain ⟨hx, hp, ha, hr, hm⟩ := h
  refine ⟨fun i => ?_, by simpa [State.Fits] using hp, by simpa [State.Fits] using ha, by simpa [State.Fits] using hr,
    by simpa [State.MemWf] using hm⟩
  have hb := s.setX_bits rd v
  unfold State.Fits
  rw [hb]
  unfold State.setX
  split
  · exact hx i
  · simp only [Fin.getElem_fin, Vector.getElem_set]
    split
    · exact narrow_lt s.bits_le v
    · exact hx i

theorem State.inv_setPc {s : State} (h : s.Inv) (v : Word) : (s.setPc v).Inv :=
  ⟨h.1, narrow_lt s.bits_le v, h.2.2⟩

theorem State.inv_setAdv {s : State} (h : s.Inv) (v : Word) : (s.setAdv v).Inv :=
  ⟨h.1, h.2.1, narrow_lt s.bits_le v, h.2.2.2⟩

theorem State.inv_epilogue {s : State} (h : s.Inv) : s.epilogue.Inv := State.inv_setPc h _

theorem State.inv_jumpTo {s : State} (h : s.Inv) (t : Word) : (s.jumpTo t).Inv := State.inv_setAdv (State.inv_setPc h t) 0

theorem State.inv_setResv {s : State} (h : s.Inv) {r : Option Word} (hr : ∀ a ∈ r, s.Fits a) : (s.setResv r).Inv :=
  ⟨h.1, h.2.1, h.2.2.1, hr, h.2.2.2.2⟩

theorem State.inv_noteDraws {s : State} (h : s.Inv) (a n : Nat) : (s.noteDraws a n).Inv := by
  rw [s.noteDraws_eq a n]; exact h

theorem State.inv_memWrite {s : State} (h : s.Inv) (a : Nat) (v : Word) (n : Nat) : (s.memWrite a v n).Inv := by
  have hm := State.memWrite_memWf h.2.2.2.2 a v n
  rw [s.memWrite_eq a v n] at hm ⊢
  exact ⟨h.1, h.2.1, h.2.2.1, h.2.2.2.1, hm⟩

theorem State.inv_prologue {s : State} (h : s.Inv) : s.prologue.Inv := State.inv_setAdv (State.inv_noteDraws h _ _) _

theorem State.fits_getX (s : State) (r : RegIdx) : s.Fits (s.getX r) := s.natX_lt r

/-! ### step -/

theorem widthOf_cases (w : BitVec 32) : widthOf w = 2 ∨ widthOf w = 4 := by
  unfold widthOf; split <;> simp

theorem State.fetchLeaves_eq_true_iff (s : State) :
    s.fetchLeaves = true ↔ s.cfg.memSize < s.pc.toNat + widthOf s.fetchWord := by simp [State.fetchLeaves]

theorem State.fetchStops_eq_true_iff (s : State) :
    s.fetchStops = true ↔ s.cfg.oobPolicy = .fault ∧ s.cfg.memSize < s.pc.toNat + widthOf s.fetchWord := by
  simp [State.fetchStops, State.fetchLeaves, and_comm]

theorem State.fetchRefused_eq_true_iff (s : State) :
    s.fetchRefused = true ↔ s.cfg.oobFetch = .refuse ∧ s.cfg.memSize < s.pc.toNat + widthOf s.fetchWord := by
  simp [State.fetchRefused, State.fetchLeaves, and_comm]

/-- A fetch is made exactly where neither parameter stops it. -/
theorem State.admitsFetch_iff (s : State) :
    s.AdmitsFetch (widthOf s.fetchWord) ↔ s.fetchStops = false ∧ s.fetchRefused = false := by
  rw [← Bool.not_eq_true, ← Bool.not_eq_true, s.fetchStops_eq_true_iff, s.fetchRefused_eq_true_iff]
  unfold State.AdmitsFetch
  constructor
  · exact fun h => ⟨fun e => by have := h (.inl e.1); omega, fun e => by have := h (.inr e.1); omega⟩
  · rintro ⟨h, h'⟩ (e | e)
    · exact Nat.le_of_not_lt fun hl => h ⟨e, hl⟩
    · exact Nat.le_of_not_lt fun hl => h' ⟨e, hl⟩

/-- What a step does, in the order in which it is decided. -/
theorem step_cases (s : State) :
    (s.loadFailed = true ∧ step s = .refused .afterFailedLoad) ∨
    (s.loadFailed = false ∧ s.fetchStops = true ∧ step s = .fault (.fetchOutsideBuffer s.pc.toNat)) ∨
    (s.loadFailed = false ∧ s.fetchStops = false ∧ s.fetchRefused = true ∧
      step s = .refused (.fetchOutsideBuffer s.pc.toNat)) ∨
    (s.loadFailed = false ∧ s.AdmitsFetch (widthOf s.fetchWord) ∧ decodeWord s.cfg.xlen s.fetchWord = none ∧
      step s = .next (s.prologue.setAdv 0).epilogue) ∨
    (s.loadFailed = false ∧ s.AdmitsFetch (widthOf s.fetchWord) ∧ ∃ i, decodeWord s.cfg.xlen s.fetchWord = some i ∧
      step s = finish (exec i s.prologue)) := by
  rw [s.admitsFetch_iff]
  unfold step
  cases hl : s.loadFailed
  · cases hf : s.fetchStops
    · cases hr : s.fetchRefused
      · cases hd : decodeWord s.cfg.xlen s.fetchWord with
        | none => exact .inr (.inr (.inr (.inl ⟨rfl, ⟨rfl, rfl⟩, rfl, by simp⟩)))
        | some i => exact .inr (.inr (.inr (.inr ⟨rfl, ⟨rfl, rfl⟩, i, rfl, by simp⟩)))
      · exact .inr (.inr (.inl ⟨rfl, rfl, rfl, by simp⟩))
    · exact .inr (.inl ⟨rfl, rfl, by simp⟩)
  · exact .inl ⟨rfl, by simp⟩

/-- A step whose fetch is made and misses. -/
theorem step_of_miss {s : State} (hl : s.loadFailed = false) (ha : s.AdmitsFetch (widthOf s.fetchWord))
    (hd : decodeWord s.cfg.xlen s.fetchWord = none) : step s = .next (s.prologue.setAdv 0).epilogue := by
  obtain ⟨hs, hr⟩ := s.admitsFetch_iff.mp ha
  simp [step, hl, hs, hr, hd]

/-- A step whose fetch is made runs the decoded instruction. -/
theorem step_of_decode {s : State} {i : Instr} (hl : s.loadFailed = false) (ha : s.AdmitsFetch (widthOf s.fetchWord))
    (hd : decodeWord s.cfg.xlen s.fetchWord = some i) : step s = finish (exec i s.prologue) := by
  obtain ⟨hs, hr⟩ := s.admitsFetch_iff.mp ha
  simp [step, hl, hs, hr, hd]

/-- A step that answers a next state missed, or ran the decoded instruction. -/
theorem step_next {s t : State} (h : step s = .next t) :
    (decodeWord s.cfg.xlen s.fetchWord = none ∧ t = (s.prologue.setAdv 0).epilogue) ∨
      ∃ i u, decodeWord s.cfg.xlen s.fetchWord = some i ∧ exec i s.prologue = .next u ∧ t = u.epilogue := by
  rcases step_cases s with ⟨_, e⟩ | ⟨_, _, e⟩ | ⟨_, _, _, e⟩ | ⟨_, _, hd, e⟩ | ⟨_, _, i, hd, e⟩
  · rw [e] at h; cases h
  · rw [e] at h; cases h
  · rw [e] at h; cases h
  · rw [e] at h; cases h; exact .inl ⟨hd, rfl⟩
  · right
    rw [e] at h
    cases hx : exec i s.prologue with
    | next u => rw [hx] at h; cases h; exact ⟨i, u, hd, hx, rfl⟩
    | fault f => rw [hx] at h; cases h
    | refused r => rw [hx] at h; cases h

end Sys2Proof.Machine
end

