-- ==== Sys2Proof/Laws/Results.lean ====
section
/-! SUPPORT. What the operand forms and the result functions of Operands.lean, Flags.lean and Arith.lean give as numbers, and the
four ways an executor completes, each as one lemma. -/

namespace Sys2Proof.Machine

/-! ### Registers and immediates as numbers -/

theorem State.getX_toNat (s : State) (r : RegIdx) : (s.getX r).toNat = s.natX r := rfl

theorem State.bits_pos (s : State) : 0 < s.bits := by rcases s.bits_cases with h | h <;> omega

theorem State.natX_zero (s : State) : s.natX 0 = 0 := rfl

theorem modNat_mod_self (n : Nat) (z : Int) : modNat n z % 2 ^ n = modNat n z := Nat.mod_eq_of_lt (modNat_lt n z)

theorem mod_64_mod {n : Nat} (h : n ≤ 64) (k : Nat) : k % 2 ^ 64 % 2 ^ n = k % 2 ^ n :=
  Nat.mod_mod_of_dvd k (Nat.pow_dvd_pow 2 h)

theorem add_modNat (n a : Nat) (z : Int) : (a + modNat n z) % 2 ^ n = modNat n (a + z) := by
  rw [← modNat_ofNat]
  unfold modNat
  congr 1
  push_cast
  rw [Int.toNat_of_nonneg (Int.emod_nonneg z (by positivity))]
  simp [Int.add_emod]

/-- A sum narrowed to n bits. -/
theorem add_toNat_mod {n : Nat} (h : n ≤ 64) (a b : Word) : (a + b).toNat % 2 ^ n = (a.toNat + b.toNat) % 2 ^ n := by
  rw [BitVec.toNat_add, mod_64_mod h]

/-- A difference narrowed to n bits. -/
theorem sub_toNat_mod {n : Nat} (h : n ≤ 64) (a b : Word) :
    (a - b).toNat % 2 ^ n = modNat n ((a.toNat : Int) - b.toNat) := by
  have : (a - b).toNat = modNat 64 ((a.toNat : Int) - b.toNat) := by
    have h1 := a.isLt
    have h2 := b.isLt
    rw [BitVec.toNat_sub]
    unfold modNat
    omega
  rw [this, modNat_mod h]

/-- A product narrowed to n bits. -/
theorem mul_toNat_mod {n : Nat} (h : n ≤ 64) (a b : Word) : (a * b).toNat % 2 ^ n = a.toNat * b.toNat % 2 ^ n := by
  rw [BitVec.toNat_mul, mod_64_mod h]

theorem append_zeros_toInt {n m : Nat} (hn : 0 < n) (x : BitVec n) : (x ++ 0#m).toInt = x.toInt * 2 ^ m := by
  have h := x.isLt
  rw [toInt_eq_signedNat hn, toInt_eq_signedNat (by omega), BitVec.toNat_append]
  simp only [BitVec.toNat_ofNat, Nat.zero_mod, Nat.or_zero, Nat.shiftLeft_eq, signedNat]
  have e : n + m - 1 = (n - 1) + m := by omega
  have hp : (2 : Nat) ^ m > 0 := by positivity
  rw [e, Nat.pow_add, pow_add]
  simp only [Nat.mul_lt_mul_right hp]
  split
  · push_cast; rfl
  · push_cast; ring

theorem State.imm12_toNat (s : State) (imm : BitVec 12) : (s.imm12 imm).toNat = modNat s.bits imm.toInt := by
  rw [State.imm12, narrow_toNat s.bits_le, signExtend_toNat (by omega), modNat_mod s.bits_le]

theorem State.immU_toNat (s : State) (imm : BitVec 20) : (s.immU imm).toNat = modNat s.bits (imm.toInt * 4096) := by
  rw [State.immU, narrow_toNat s.bits_le, signExtend_toNat (by omega), modNat_mod s.bits_le, append_zeros_toInt (by omega)]
  rfl

theorem State.immB_toNat (s : State) (off : BitVec 12) : (s.immB off).toNat = modNat s.bits (off.toInt * 2) := by
  rw [State.immB, narrow_toNat s.bits_le, signExtend_toNat (by omega), modNat_mod s.bits_le, append_zeros_toInt (by omega)]
  rfl

theorem State.immJ_toNat (s : State) (off : BitVec 20) : (s.immJ off).toNat = modNat s.bits (off.toInt * 2) := by
  rw [State.immJ, narrow_toNat s.bits_le, signExtend_toNat (by omega), modNat_mod s.bits_le, append_zeros_toInt (by omega)]
  rfl

theorem State.signedAt_imm12 (s : State) (imm : BitVec 12) : signedAt s.bits (s.imm12 imm) = imm.toInt := by
  have hb := s.bits_cases
  have e : (s.imm12 imm).setWidth s.bits = imm.signExtend s.bits := by
    unfold State.imm12 narrow
    apply BitVec.eq_of_getLsbD_eq
    intro i hi
    have h1 : i < 64 := by omega
    simp [BitVec.getElem_signExtend, hi, h1]
  rw [signedAt, e, BitVec.toInt_signExtend_of_le (by omega)]

/-- Bit 0 cleared (R253). -/
theorem and_not_one_toNat (v : Word) : (v &&& ~~~1).toNat = v.toNat / 2 * 2 := by
  have e : v &&& ~~~(1 : Word) = (v >>> 1) <<< 1 := by
    apply BitVec.eq_of_getLsbD_eq
    intro i hi
    rw [BitVec.getLsbD_and, BitVec.getLsbD_not, BitVec.getLsbD_shiftLeft, BitVec.getLsbD_ushiftRight]
    rcases i with _ | i
    · simp
    · simp [hi, Nat.add_comm 1 i]
  have := v.isLt
  rw [e, BitVec.toNat_shiftLeft, BitVec.toNat_ushiftRight, Nat.shiftLeft_eq, Nat.shiftRight_eq_div_pow]
  omega

theorem narrow_zero {n : Nat} (h : n ≤ 64) : narrow n 0 = 0 := narrow_of_lt h (Nat.two_pow_pos n)

/-! ### Results as numbers -/

theorem boolWord_toNat_mod (s : State) (c : Bool) : (boolWord c).toNat % 2 ^ s.bits = if c then 1 else 0 := by
  rcases s.bits_cases with h | h <;> rw [h] <;> cases c <;> rfl

theorem and_bits_sub_one (s : State) (k : Nat) : k &&& (s.bits - 1) = k % s.bits := by
  rcases s.bits_cases with h | h <;> rw [h]
  · exact Nat.and_two_pow_sub_one_eq_mod k 5
  · exact Nat.and_two_pow_sub_one_eq_mod k 6

theorem State.shamtImm_eq (s : State) (shamt : BitVec 6) : s.shamtImm shamt = shamt.toNat % s.bits := and_bits_sub_one s _

theorem State.shamtReg_eq (s : State) (r : RegIdx) : s.shamtReg (s.getX r) = s.natX r % s.bits := and_bits_sub_one s _

theorem shamtWord_eq (s : State) (r : RegIdx) : shamtWord (s.getX r) = s.natX r % 32 :=
  Nat.and_two_pow_sub_one_eq_mod _ 5

theorem shlAt_getX (s : State) (r : RegIdx) (k : Nat) :
    (shlAt s.bits (s.getX r) k).toNat % 2 ^ s.bits = s.natX r * 2 ^ k % 2 ^ s.bits := by
  rw [shlAt_toNat s.bits_le, Nat.mod_mod, s.getX_toNat]

theorem shrAt_getX (s : State) (r : RegIdx) (k : Nat) :
    (shrAt s.bits (s.getX r) k).toNat % 2 ^ s.bits = s.natX r / 2 ^ k := by
  have hx := s.natX_lt r
  rw [shrAt_toNat s.bits_le, s.getX_toNat, Nat.mod_eq_of_lt hx,
    Nat.mod_eq_of_lt (Nat.lt_of_le_of_lt (Nat.div_le_self _ _) hx)]

theorem sarAt_getX (s : State) (r : RegIdx) (k : Nat) :
    (sarAt s.bits (s.getX r) k).toNat % 2 ^ s.bits = modNat s.bits (s.intX r / 2 ^ k) := by
  rw [sarAt_toNat s.bits_pos s.bits_le, modNat_mod_self, s.getX_toNat, Nat.mod_eq_of_lt (s.natX_lt r), State.intX]

/-- A value sign-extended from its low n bits, in a register. -/
theorem State.sext_result (s : State) {n : Nat} (hn : 0 < n) (h : n ≤ 64) (v : Word) :
    (sext n v).toNat % 2 ^ s.bits = sextNat s.bits n v.toNat := by
  rw [sext_toNat hn h, modNat_mod s.bits_le, sextNat]

theorem sextNat_mod {N n : Nat} (a : Nat) : sextNat N n (a % 2 ^ n) = sextNat N n a := by
  rw [sextNat, sextNat, Nat.mod_mod]

theorem State.bits_of_rv64 {s : State} (h : s.cfg.xlen = .rv64) : s.bits = 64 := by rw [State.bits, h]; rfl

theorem State.signedAt_getX_low (s : State) {n : Nat} (hn : 0 < n) (r : RegIdx) : signedAt n (s.getX r) = s.lowX n r := by
  rw [signedAt_eq hn, s.getX_toNat, State.lowX]

theorem signedNat_modNat {n : Nat} (hn : 0 < n) {z : Int} (h1 : -2 ^ (n - 1) ≤ z) (h2 : z < 2 ^ (n - 1)) :
    signedNat n (modNat n z) = z := by
  obtain ⟨m, rfl⟩ : ∃ m, n = m + 1 := ⟨n - 1, by omega⟩
  rw [Nat.add_sub_cancel] at h1 h2
  have hp : (2 : Nat) ^ (m + 1) = 2 * 2 ^ m := by rw [Nat.pow_succ]; omega
  have hq : (2 : Int) ^ (m + 1) = 2 * 2 ^ m := by rw [Int.pow_succ]; omega
  have hc : ((2 ^ m : Nat) : Int) = 2 ^ m := by norm_cast
  have hm := modNat_cast (m + 1) z
  simp only [signedNat, Nat.add_sub_cancel]
  rcases Int.lt_or_le z 0 with h | h
  · rw [hq, ← Int.add_emod_right, Int.emod_eq_of_lt (by omega) (by omega)] at hm
    split <;> omega
  · rw [hq, Int.emod_eq_of_lt (by omega) (by omega)] at hm
    split <;> omega

/-- A signed value of n bits, narrowed and extended again, is itself. -/
theorem sextNat_modNat {N n : Nat} (hn : 0 < n) {z : Int} (h1 : -2 ^ (n - 1) ≤ z) (h2 : z < 2 ^ (n - 1)) :
    sextNat N n (modNat n z) = modNat N z := by
  rw [sextNat, modNat_mod_self, signedNat_modNat hn h1 h2]

/-- An arithmetic right shift stays in the range of its operand. -/
theorem ediv_two_pow_bounds {n k : Nat} {z : Int} (h1 : -2 ^ n ≤ z) (h2 : z < 2 ^ n) :
    -2 ^ n ≤ z / 2 ^ k ∧ z / 2 ^ k < 2 ^ n := by
  have hk : (1 : Int) ≤ 2 ^ k := by exact_mod_cast Nat.one_le_two_pow
  have hn : (0 : Int) < 2 ^ n := by positivity
  constructor
  · rw [Int.le_ediv_iff_mul_le (by omega)]; nlinarith
  · rw [Int.ediv_lt_iff_lt_mul (by omega)]; nlinarith

theorem State.lowX_bounds (s : State) {n : Nat} (hn : 0 < n) (r : RegIdx) :
    -2 ^ (n - 1) ≤ s.lowX n r ∧ s.lowX n r < 2 ^ (n - 1) := signedNat_lt hn (Nat.mod_lt _ (Nat.two_pow_pos n))

theorem sextNat_of_mod_eq {N n a b : Nat} (h : a % 2 ^ n = b % 2 ^ n) : sextNat N n a = sextNat N n b := by
  rw [sextNat, h, sextNat]

/-! ### Multiply and divide -/

theorem multiply_fst {n : Nat} (h : n ≤ 64) (a b : Word) (l r : Bool) :
    ((multiply n a b l r).1).toNat =
      modNat n ((if l then signedAt n a else unsignedAt n a) * (if r then signedAt n b else unsignedAt n b) / 2 ^ n) :=
  ofIntAt_toNat h _

theorem multiply_snd {n : Nat} (h : n ≤ 64) (a b : Word) (l r : Bool) :
    ((multiply n a b l r).2).toNat =
      modNat n ((if l then signedAt n a else unsignedAt n a) * (if r then signedAt n b else unsignedAt n b)) :=
  ofIntAt_toNat h _

theorem zeroDivisor_iff (n : Nat) (b : Word) : zeroDivisor n b = true ↔ b.toNat % 2 ^ n = 0 := by
  rw [zeroDivisor, beq_iff_eq, unsignedAt_eq]

theorem signedAt_eq_zero_iff {n : Nat} (b : Word) : signedAt n b = 0 ↔ b.toNat % 2 ^ n = 0 := by
  rw [signedAt, ← BitVec.toNat_setWidth, ← BitVec.toInt_zero (w := n), BitVec.toInt_inj, ← BitVec.toNat_inj, BitVec.toNat_zero]

theorem zeroDivisor_iff_signed (n : Nat) (b : Word) : zeroDivisor n b = true ↔ signedAt n b = 0 := by
  rw [zeroDivisor_iff, signedAt_eq_zero_iff]

theorem overflowPair_iff (n : Nat) (a b : Word) :
    overflowPair n a b = true ↔ signedAt n a = -2 ^ (n - 1) ∧ signedAt n b = -1 := by
  simp [overflowPair, minSigned]

theorem cornerS_iff (n : Nat) (a b : Word) : cornerS n a b = true ↔ CornerS n (signedAt n a) (signedAt n b) := by
  rw [cornerS, Bool.or_eq_true, zeroDivisor_iff_signed, overflowPair_iff, CornerS]

theorem cornerU_iff (n : Nat) (a b : Word) : cornerU n a b = true ↔ b.toNat % 2 ^ n = 0 := zeroDivisor_iff n b

theorem modNat_neg_one (n : Nat) : modNat n (-1) = 2 ^ n - 1 := by
  have h : ((modNat n (-1) : Nat) : Int) = 2 ^ n - 1 := by
    rw [modNat_cast]
    have : (0 : Int) < 2 ^ n := by positivity
    rw [show (-1 : Int) = 2 ^ n - 1 + 2 ^ n * (-1) by ring, Int.add_mul_emod_self_left,
      Int.emod_eq_of_lt (by omega) (by omega)]
  have hp : 0 < 2 ^ n := Nat.two_pow_pos n
  have hc : ((2 ^ n : Nat) : Int) = 2 ^ n := by norm_cast
  omega

theorem modNat_minSigned {n : Nat} (hn : 0 < n) : modNat n (-2 ^ (n - 1)) = 2 ^ (n - 1) := by
  obtain ⟨m, rfl⟩ : ∃ m, n = m + 1 := ⟨n - 1, by omega⟩
  rw [Nat.add_sub_cancel]
  have h : ((modNat (m + 1) (-2 ^ m) : Nat) : Int) = 2 ^ m := by
    rw [modNat_cast]
    have : (0 : Int) < 2 ^ m := by positivity
    have hq : (2 : Int) ^ (m + 1) = 2 * 2 ^ m := by rw [Int.pow_succ]; omega
    rw [hq, show (-2 ^ m : Int) = 2 ^ m + 2 * 2 ^ m * (-1) by ring, Int.add_mul_emod_self_left,
      Int.emod_eq_of_lt (by omega) (by omega)]
  exact_mod_cast h

theorem modNat_signedAt {n : Nat} (a : Word) : modNat n (signedAt n a) = a.toNat % 2 ^ n := by
  rw [signedAt, ← toNat_eq_modNat, BitVec.toNat_setWidth]

theorem divS_toNat {n : Nat} (hn : 0 < n) (h : n ≤ 64) (a b : Word) :
    (divS n a b).toNat = quotS n (signedAt n a) (signedAt n b) := by
  rw [divS, quotS]
  simp only [zeroDivisor_iff_signed, overflowPair_iff]
  split
  · rw [ofIntAt_toNat h, modNat_neg_one]
  · split
    · rw [ofIntAt_toNat h, minSigned, modNat_minSigned hn]
    · exact ofIntAt_toNat h _

theorem remS_toNat {n : Nat} (h : n ≤ 64) (a b : Word) :
    (remS n a b).toNat = remainS n (signedAt n a) (signedAt n b) := by
  rw [remS, remainS]
  simp only [zeroDivisor_iff_signed, overflowPair_iff]
  split
  · rw [narrow_toNat h, modNat_signedAt]
  · split
    · rfl
    · exact ofIntAt_toNat h _

theorem divU_toNat {n : Nat} (h : n ≤ 64) (a b : Word) :
    (divU n a b).toNat = quotU n (a.toNat % 2 ^ n) (b.toNat % 2 ^ n) := by
  have hp : 0 < 2 ^ n := Nat.two_pow_pos n
  rw [divU, quotU]
  simp only [zeroDivisor_iff, unsignedAt_eq]
  split
  · rw [ofNatAt_toNat h, Nat.mod_eq_of_lt (by omega)]
  · rw [ofNatAt_toNat h, Nat.mod_eq_of_lt (Nat.lt_of_le_of_lt (Nat.div_le_self _ _) (Nat.mod_lt _ hp))]

theorem remU_toNat {n : Nat} (h : n ≤ 64) (a b : Word) :
    (remU n a b).toNat = remainU (a.toNat % 2 ^ n) (b.toNat % 2 ^ n) := by
  have hp : 0 < 2 ^ n := Nat.two_pow_pos n
  rw [remU, remainU]
  simp only [zeroDivisor_iff, unsignedAt_eq]
  split
  · exact narrow_toNat h a
  · rw [ofNatAt_toNat h, Nat.mod_eq_of_lt (Nat.lt_of_le_of_lt (Nat.mod_le _ _) (Nat.mod_lt _ hp))]

theorem quotS_lt {n : Nat} (hn : 0 < n) (a b : Int) : quotS n a b < 2 ^ n := by
  have hp : 0 < 2 ^ n := Nat.two_pow_pos n
  unfold quotS
  split
  · omega
  · split
    · exact Nat.pow_lt_pow_right (by omega) (by omega)
    · exact modNat_lt n _

theorem remainS_lt (n : Nat) (a b : Int) : remainS n a b < 2 ^ n := by
  unfold remainS
  split
  · exact modNat_lt n a
  · split
    · exact Nat.two_pow_pos n
    · exact modNat_lt n _

theorem quotU_lt {n a b : Nat} (ha : a < 2 ^ n) : quotU n a b < 2 ^ n := by
  unfold quotU
  split
  · omega
  · exact Nat.lt_of_le_of_lt (Nat.div_le_self _ _) ha

theorem remainU_lt {n a b : Nat} (ha : a < 2 ^ n) : remainU a b < 2 ^ n := by
  unfold remainU
  split
  · exact ha
  · exact Nat.lt_of_le_of_lt (Nat.mod_le _ _) ha

/-! ### The immediates of the compressed instructions as numbers -/

theorem zeroExtended_toInt {n : Nat} (m : Nat) (x : BitVec n) (h : n + m < 12) :
    ((x ++ 0#m).setWidth 12).toInt = x.toNat * 2 ^ m := by
  have hx := x.isLt
  have hp : 2 ^ (n + m) ≤ 2 ^ 11 := Nat.pow_le_pow_right (by omega) (by omega)
  have hm : x.toNat * 2 ^ m < 2 ^ 11 := by
    have := Nat.mul_lt_mul_of_pos_right hx (Nat.two_pow_pos m)
    rw [← Nat.pow_add] at this
    omega
  have e : (x ++ 0#m).toNat = x.toNat * 2 ^ m := by
    rw [BitVec.toNat_append]
    simp [Nat.shiftLeft_eq]
  rw [BitVec.toInt_eq_toNat_cond, BitVec.toNat_setWidth, e, Nat.mod_eq_of_lt (by omega), if_pos (by omega)]
  push_cast
  rfl

theorem ciImm_toInt (imm : BitVec 6) : (ciImm imm).toInt = imm.toInt := BitVec.toInt_signExtend_of_le (by omega)

theorem ciwImm_toInt (imm : BitVec 8) : (ciwImm imm).toInt = imm.toNat * 4 := zeroExtended_toInt 2 imm (by omega)

theorem ci16Imm_toInt (imm : BitVec 6) : (ci16Imm imm).toInt = imm.toInt * 16 := by
  rw [ci16Imm, BitVec.toInt_signExtend_of_le (by omega), append_zeros_toInt (by omega)]
  rfl

theorem clwImm_toInt (uimm : BitVec 5) : (clwImm uimm).toInt = uimm.toNat * 4 := zeroExtended_toInt 2 uimm (by omega)

theorem cldImm_toInt (uimm : BitVec 5) : (cldImm uimm).toInt = uimm.toNat * 8 := zeroExtended_toInt 3 uimm (by omega)

theorem lwspImm_toInt (uimm : BitVec 6) : (lwspImm uimm).toInt = uimm.toNat * 4 := zeroExtended_toInt 2 uimm (by omega)

theorem ldspImm_toInt (uimm : BitVec 6) : (ldspImm uimm).toInt = uimm.toNat * 8 := zeroExtended_toInt 3 uimm (by omega)

/-! ### How an executor completes -/

theorem yields_aluImm {s : State} {i : Instr} {d : Op} {f : Word → Word → Word} {rd rs1 : RegIdx} {b : Word} {k : Nat}
    (he : exec i s = aluImm d f rd rs1 b s) (h : s.HazardFree d rd [rs1])
    (hk : (f (s.getX rs1) b).toNat % 2 ^ s.bits = k) : Yields s i rd k :=
  ⟨_, he.trans (aluImm_next h f b), writesX_of_eq rfl hk⟩

theorem yields_aluReg {s : State} {i : Instr} {d : Op} {f : Word → Word → Word} {rd rs1 rs2 : RegIdx} {k : Nat}
    (he : exec i s = aluReg d f rd rs1 rs2 s) (h : s.HazardFree d rd [rs1, rs2])
    (hk : (f (s.getX rs1) (s.getX rs2)).toNat % 2 ^ s.bits = k) : Yields s i rd k :=
  ⟨_, he.trans (aluReg_next h f), writesX_of_eq rfl hk⟩

theorem yields_aluDiv {s : State} {i : Instr} {d : Op} {corner : Word → Word → Bool} {f : Word → Word → Word}
    {rd rs1 rs2 : RegIdx} {k : Nat} (he : exec i s = aluDiv d corner f rd rs1 rs2 s) (h : s.HazardFree d rd [rs1, rs2])
    (hc : s.Divides (corner (s.getX rs1) (s.getX rs2) = true))
    (hk : (f (s.getX rs1) (s.getX rs2)).toNat % 2 ^ s.bits = k) : Yields s i rd k :=
  ⟨_, he.trans (aluDiv_next h hc f), writesX_of_eq rfl hk⟩

theorem loads_loadInto {s : State} {i : Instr} {d : Op} {rd : RegIdx} {reads : List RegIdx} {ea : Word} {n k : Nat}
    {ext : Word → Word} (he : exec i s = loadInto d rd reads ea n ext s) (h : s.HazardFree d rd reads)
    (ha : s.Admits ea.toNat n) (hk : (ext (s.memRead ea.toNat n)).toNat % 2 ^ s.bits = k) : Loads s i rd k ea.toNat n := by
  subst hk
  exact ⟨_, he.trans (loadInto_next h ha ext), s.load_loadsX rd _ _ n⟩

theorem stores_storeFrom {s : State} {i : Instr} {ea v : Word} {n : Nat} (he : exec i s = storeFrom ea n v s)
    (ha : s.Admits ea.toNat n) : Stores s i ea.toNat n v.toNat :=
  ⟨_, he.trans (storeFrom_next ha v), s.memWrite_storesAt _ v n⟩

theorem advances_branchIf {s : State} {i : Instr} {c : Bool} {off : Word} {k : Nat} (he : exec i s = branchIf c off s)
    (hk : (if c then off.toNat % 2 ^ s.bits else s.adv.toNat) = k) : Advances s i k := by
  subst hk
  refine ⟨_, he.trans (branchIf_next c off s), ?_⟩
  cases c
  · exact ⟨rfl, rfl⟩
  · exact ⟨narrow_toNat s.bits_le off, rfl⟩

end Sys2Proof.Machine
end

