-- ==== Sys2Proof/Laws/Effect.lean ====
section
/-! SUPPORT. What an instruction can do: the nine forms of a next state, each with what is known where it is taken. A claim about every
instruction is proved of the nine forms. -/

namespace Sys2Proof.Machine

/-- The four load-reserved and store-conditional instructions. -/
def atomicOp : Op → Bool
  | .lrW | .lrD | .scW | .scD => true
  | _ => false

/-- The next states of an instruction. -/
inductive ExecEffect (i : Instr) (s : State) : State → Prop where
  /-- Nothing changed: a no-op, or a branch not taken. -/
  | same (plain : atomicOp i.op = false) : ExecEffect i s s
  /-- The pending advance set to an even value: a branch taken, or a stall. -/
  | advance (plain : atomicOp i.op = false) (v : Word) (even : v.toNat % 2 = 0) : ExecEffect i s (s.setAdv v)
  /-- The destination written with a result. -/
  | result (plain : atomicOp i.op = false) (rd : RegIdx) (v : Word) (dest : i.dest = some rd) : ExecEffect i s (s.setX rd v)
  /-- The destination written from memory. -/
  | load (plain : atomicOp i.op = false) (rd : RegIdx) (a n : Nat) (v : Word) (dest : i.dest = some rd)
      (span : loadSpan i s = some (a, n)) : ExecEffect i s ((s.noteDraws a n).setX rd v)
  /-- Memory written. -/
  | store (plain : atomicOp i.op = false) (a n : Nat) (v : Word) (span : storeSpan i s = some (a, n))
      (value : v.toNat = storeValue i s) : ExecEffect i s (s.memWrite a v n)
  /-- A jump by a pending advance. -/
  | jal (plain : atomicOp i.op = false) (rd : RegIdx) (v : Word) (dest : i.dest = some rd) (even : v.toNat % 2 = 0) :
      ExecEffect i s ((s.setX rd s.linkValue).setAdv v)
  /-- A jump to an even address. -/
  | jalr (plain : atomicOp i.op = false) (rd rs1 : RegIdx) (imm : BitVec 12) (eff : i.effective = .jalr rd rs1 imm) :
      ExecEffect i s ((s.setX rd s.linkValue).jumpTo ((s.getX rs1 + s.imm12 imm) &&& ~~~1))
  /-- A load-reserved. -/
  | reserve (rd rs1 : RegIdx) (aq rl : BitVec 1) (n : Nat) (v : Word) (lr : i = .lrW rd rs1 aq rl ∨ i = .lrD rd rs1 aq rl) :
      ExecEffect i s (((s.noteDraws (s.getX rs1).toNat n).setResv (some (s.getX rs1))).setX rd v)
  /-- A store-conditional that succeeded. -/
  | conditional (rd rs1 rs2 : RegIdx) (aq rl : BitVec 1) (n : Nat) (v : Word)
      (sc : i = .scW rd rs1 rs2 aq rl ∨ i = .scD rd rs1 rs2 aq rl) (matched : s.resv = some (s.getX rs1))
      (span : storeSpan i s = some ((s.getX rs1).toNat, n)) (value : v.toNat = storeValue i s) :
      ExecEffect i s (((s.memWrite (s.getX rs1).toNat v n).setResv none).setX rd 0)
  /-- A store-conditional that failed. -/
  | failed (rd rs1 rs2 : RegIdx) (aq rl : BitVec 1) (sc : i = .scW rd rs1 rs2 aq rl ∨ i = .scD rd rs1 rs2 aq rl)
      (unmatched : s.resv ≠ some (s.getX rs1)) : ExecEffect i s (s.setX rd 1)

theorem modNat_even {n : Nat} (h : 0 < n) (z : Int) : modNat n (z * 2) % 2 = 0 := by
  have := modNat_mod (m := 1) (n := n) h (z * 2)
  rw [Nat.pow_one] at this
  rw [this, modNat, pow_one, Int.mul_emod_left]
  rfl

theorem State.immB_even (s : State) (off : BitVec 12) : (s.immB off).toNat % 2 = 0 := by
  rw [s.immB_toNat]; exact modNat_even s.bits_pos _

theorem State.immJ_even (s : State) (off : BitVec 20) : (s.immJ off).toNat % 2 = 0 := by
  rw [s.immJ_toNat]; exact modNat_even s.bits_pos _

theorem branchIf_effect {i : Instr} {s t : State} {c : Bool} {off : Word} (h : branchIf c off s = .next t)
    (hp : atomicOp i.op = false) (he : off.toNat % 2 = 0) : ExecEffect i s t := by
  cases h
  cases c
  · exact .same hp
  · exact .advance hp off he

theorem noop_effect {i : Instr} {s t : State} (h : noop s = .next t) (hp : atomicOp i.op = false) : ExecEffect i s t := by
  cases h; exact .same hp

theorem stall_effect {i : Instr} {s t : State} (h : stall s = .next t) (hp : atomicOp i.op = false) : ExecEffect i s t := by
  cases h; exact .advance hp 0 rfl

theorem storeConditional_effect {i : Instr} {s t : State} {d : Op} {rd rs1 rs2 : RegIdx} {aq rl : BitVec 1}
    {reads : List RegIdx} {n : Nat} {v : Word} (h : storeConditional d rd reads (s.getX rs1) n v s = .next t)
    (hi : i = .scW rd rs1 rs2 aq rl ∨ i = .scD rd rs1 rs2 aq rl)
    (hs : storeSpan i s = if s.resv = some (s.getX rs1) then some ((s.getX rs1).toNat, n) else none)
    (hv : v.toNat = storeValue i s) :
    ExecEffect i s t := by
  rcases storeConditional_inv h with ⟨hm, rfl⟩ | ⟨hm, rfl⟩
  · exact .conditional rd rs1 rs2 aq rl n v hi hm (by rw [hs, if_pos hm]) hv
  · exact .failed rd rs1 rs2 aq rl hi hm

/-- What a next state is. -/
theorem exec_effect {i : Instr} {s t : State} (h : exec i s = .next t) : ExecEffect i s t := by
  cases i
  case lui => rw [exec_lui, execLui] at h; cases checked_next h; exact .result rfl _ _ rfl
  case auipc => rw [exec_auipc, execAuipc] at h; cases checked_next h; exact .result rfl _ _ rfl
  case jal => rw [exec_jal, execJal] at h; cases checked_next h; exact .jal rfl _ _ rfl (s.immJ_even _)
  case jalr => rw [exec_jalr, execJalr] at h; cases checked_next h; exact .jalr rfl _ _ _ rfl
  case beq => rw [exec_beq, execBeq] at h; exact branchIf_effect h rfl (s.immB_even _)
  case bne => rw [exec_bne, execBne] at h; exact branchIf_effect h rfl (s.immB_even _)
  case blt => rw [exec_blt, execBlt] at h; exact branchIf_effect h rfl (s.immB_even _)
  case bge => rw [exec_bge, execBge] at h; exact branchIf_effect h rfl (s.immB_even _)
  case bltu => rw [exec_bltu, execBltu] at h; exact branchIf_effect h rfl (s.immB_even _)
  case bgeu => rw [exec_bgeu, execBgeu] at h; exact branchIf_effect h rfl (s.immB_even _)
  case lb => rw [exec_lb, execLb] at h; rw [loadInto_inv h]; exact .load rfl _ _ _ _ rfl rfl
  case lh => rw [exec_lh, execLh] at h; rw [loadInto_inv h]; exact .load rfl _ _ _ _ rfl rfl
  case lw => rw [exec_lw, execLw] at h; rw [loadInto_inv h]; exact .load rfl _ _ _ _ rfl rfl
  case lbu => rw [exec_lbu, execLbu] at h; rw [loadInto_inv h]; exact .load rfl _ _ _ _ rfl rfl
  case lhu => rw [exec_lhu, execLhu] at h; rw [loadInto_inv h]; exact .load rfl _ _ _ _ rfl rfl
  case lwu => rw [exec_lwu, execLwu] at h; rw [loadInto_inv h]; exact .load rfl _ _ _ _ rfl rfl
  case ld => rw [exec_ld, execLd] at h; rw [loadInto_inv h]; exact .load rfl _ _ _ _ rfl rfl
  case sb => rw [exec_sb, execSb] at h; rw [storeFrom_inv h]; exact .store rfl _ _ _ rfl rfl
  case sh => rw [exec_sh, execSh] at h; rw [storeFrom_inv h]; exact .store rfl _ _ _ rfl rfl
  case sw => rw [exec_sw, execSw] at h; rw [storeFrom_inv h]; exact .store rfl _ _ _ rfl rfl
  case sd => rw [exec_sd, execSd] at h; rw [storeFrom_inv h]; exact .store rfl _ _ _ rfl rfl
  case addi => rw [exec_addi, execAddi] at h; rw [aluImm_inv h]; exact .result rfl _ _ rfl
  case slti => rw [exec_slti, execSlti] at h; rw [aluImm_inv h]; exact .result rfl _ _ rfl
  case sltiu => rw [exec_sltiu, execSltiu] at h; rw [aluImm_inv h]; exact .result rfl _ _ rfl
  case xori => rw [exec_xori, execXori] at h; rw [aluImm_inv h]; exact .result rfl _ _ rfl
  case ori => rw [exec_ori, execOri] at h; rw [aluImm_inv h]; exact .result rfl _ _ rfl
  case andi => rw [exec_andi, execAndi] at h; rw [aluImm_inv h]; exact .result rfl _ _ rfl
  case slli => rw [exec_slli, execSlli] at h; rw [aluImm_inv h]; exact .result rfl _ _ rfl
  case srli => rw [exec_srli, execSrli] at h; rw [aluImm_inv h]; exact .result rfl _ _ rfl
  case srai => rw [exec_srai, execSrai] at h; rw [aluImm_inv h]; exact .result rfl _ _ rfl
  case add => rw [exec_add, execAdd] at h; rw [aluReg_inv h]; exact .result rfl _ _ rfl
  case sub => rw [exec_sub, execSub] at h; rw [aluReg_inv h]; exact .result rfl _ _ rfl
  case sll => rw [exec_sll, execSll] at h; rw [aluReg_inv h]; exact .result rfl _ _ rfl
  case slt => rw [exec_slt, execSlt] at h; rw [aluReg_inv h]; exact .result rfl _ _ rfl
  case sltu => rw [exec_sltu, execSltu] at h; rw [aluReg_inv h]; exact .result rfl _ _ rfl
  case xor => rw [exec_xor, execXor] at h; rw [aluReg_inv h]; exact .result rfl _ _ rfl
  case srl => rw [exec_srl, execSrl] at h; rw [aluReg_inv h]; exact .result rfl _ _ rfl
  case sra => rw [exec_sra, execSra] at h; rw [aluReg_inv h]; exact .result rfl _ _ rfl
  case or => rw [exec_or, execOr] at h; rw [aluReg_inv h]; exact .result rfl _ _ rfl
  case and => rw [exec_and, execAnd] at h; rw [aluReg_inv h]; exact .result rfl _ _ rfl
  case fence => rw [exec_fence, execFence] at h; exact noop_effect h rfl
  case ecall => rw [exec_ecall, execEcall] at h; exact noop_effect h rfl
  case ebreak => rw [exec_ebreak, execEbreak] at h; exact noop_effect h rfl
  case addiw => rw [exec_addiw, execAddiw] at h; rw [aluImm_inv h]; exact .result rfl _ _ rfl
  case slliw => rw [exec_slliw, execSlliw] at h; rw [aluImm_inv h]; exact .result rfl _ _ rfl
  case srliw => rw [exec_srliw, execSrliw] at h; rw [aluImm_inv h]; exact .result rfl _ _ rfl
  case sraiw => rw [exec_sraiw, execSraiw] at h; rw [aluImm_inv h]; exact .result rfl _ _ rfl
  case addw => rw [exec_addw, execAddw] at h; rw [aluReg_inv h]; exact .result rfl _ _ rfl
  case subw => rw [exec_subw, execSubw] at h; rw [aluReg_inv h]; exact .result rfl _ _ rfl
  case sllw => rw [exec_sllw, execSllw] at h; rw [aluReg_inv h]; exact .result rfl _ _ rfl
  case srlw => rw [exec_srlw, execSrlw] at h; rw [aluReg_inv h]; exact .result rfl _ _ rfl
  case sraw => rw [exec_sraw, execSraw] at h; rw [aluReg_inv h]; exact .result rfl _ _ rfl
  case fenceI => rw [exec_fenceI, execFenceI] at h; exact noop_effect h rfl
  case csrrw => rw [exec_csrrw, execCsrrw] at h; exact noop_effect h rfl
  case csrrs => rw [exec_csrrs, execCsrrs] at h; exact noop_effect h rfl
  case csrrc => rw [exec_csrrc, execCsrrc] at h; exact noop_effect h rfl
  case csrrwi => rw [exec_csrrwi, execCsrrwi] at h; exact noop_effect h rfl
  case csrrsi => rw [exec_csrrsi, execCsrrsi] at h; exact noop_effect h rfl
  case csrrci => rw [exec_csrrci, execCsrrci] at h; exact noop_effect h rfl
  case mul => rw [exec_mul, execMul] at h; rw [aluReg_inv h]; exact .result rfl _ _ rfl
  case mulh => rw [exec_mulh, execMulh] at h; rw [aluReg_inv h]; exact .result rfl _ _ rfl
  case mulhsu => rw [exec_mulhsu, execMulhsu] at h; rw [aluReg_inv h]; exact .result rfl _ _ rfl
  case mulhu => rw [exec_mulhu, execMulhu] at h; rw [aluReg_inv h]; exact .result rfl _ _ rfl
  case div => rw [exec_div, execDiv] at h; rw [aluDiv_inv h]; exact .result rfl _ _ rfl
  case divu => rw [exec_divu, execDivu] at h; rw [aluDiv_inv h]; exact .result rfl _ _ rfl
  case rem => rw [exec_rem, execRem] at h; rw [aluDiv_inv h]; exact .result rfl _ _ rfl
  case remu => rw [exec_remu, execRemu] at h; rw [aluDiv_inv h]; exact .result rfl _ _ rfl
  case mulw => rw [exec_mulw, execMulw] at h; rw [aluReg_inv h]; exact .result rfl _ _ rfl
  case divw => rw [exec_divw, execDivw] at h; rw [aluDiv_inv h]; exact .result rfl _ _ rfl
  case divuw => rw [exec_divuw, execDivuw] at h; rw [aluDiv_inv h]; exact .result rfl _ _ rfl
  case remw => rw [exec_remw, execRemw] at h; rw [aluDiv_inv h]; exact .result rfl _ _ rfl
  case remuw => rw [exec_remuw, execRemuw] at h; rw [aluDiv_inv h]; exact .result rfl _ _ rfl
  case lrW => rw [exec_lrW, execLrW] at h; rw [loadReserved_inv h]; exact .reserve _ _ _ _ _ _ (.inl rfl)
  case scW => rw [exec_scW, execScW] at h; exact storeConditional_effect h (.inl rfl) rfl rfl
  case lrD => rw [exec_lrD, execLrD] at h; rw [loadReserved_inv h]; exact .reserve _ _ _ _ _ _ (.inr rfl)
  case scD => rw [exec_scD, execScD] at h; exact storeConditional_effect h (.inr rfl) rfl rfl
  case cInvalid => rw [exec_cInvalid, execCInvalid] at h; exact stall_effect h rfl
  case cAddi4spnRes => rw [exec_cAddi4spnRes, execCAddi4spnRes] at h; exact stall_effect h rfl
  case cAddi4spn => rw [exec_cAddi4spn, execCAddi4spn, execAddi] at h; rw [aluImm_inv h]; exact .result rfl _ _ rfl
  case cFld => rw [exec_cFld, execCFld] at h; exact noop_effect h rfl
  case cLw => rw [exec_cLw, execCLw, execLw] at h; rw [loadInto_inv h]; exact .load rfl _ _ _ _ rfl rfl
  case cFlw => rw [exec_cFlw, execCFlw] at h; exact noop_effect h rfl
  case cLd => rw [exec_cLd, execCLd, execLd] at h; rw [loadInto_inv h]; exact .load rfl _ _ _ _ rfl rfl
  case cFsd => rw [exec_cFsd, execCFsd] at h; exact noop_effect h rfl
  case cSw => rw [exec_cSw, execCSw, execSw] at h; rw [storeFrom_inv h]; exact .store rfl _ _ _ rfl rfl
  case cFsw => rw [exec_cFsw, execCFsw] at h; exact noop_effect h rfl
  case cSd => rw [exec_cSd, execCSd, execSd] at h; rw [storeFrom_inv h]; exact .store rfl _ _ _ rfl rfl
  case cNop => rw [exec_cNop, execCNop, execAddi] at h; rw [aluImm_inv h]; exact .result rfl _ _ rfl
  case cAddi => rw [exec_cAddi, execCAddi, execAddi] at h; rw [aluImm_inv h]; exact .result rfl _ _ rfl
  case cJal => rw [exec_cJal, execCJal, execJal] at h; cases checked_next h; exact .jal rfl _ _ rfl (s.immJ_even _)
  case cAddiwRes => rw [exec_cAddiwRes, execCAddiwRes] at h; exact stall_effect h rfl
  case cAddiw => rw [exec_cAddiw, execCAddiw, execAddiw] at h; rw [aluImm_inv h]; exact .result rfl _ _ rfl
  case cLi => rw [exec_cLi, execCLi, execAddi] at h; rw [aluImm_inv h]; exact .result rfl _ _ rfl
  case cAddi16spRes => rw [exec_cAddi16spRes, execCAddi16spRes] at h; exact stall_effect h rfl
  case cAddi16sp => rw [exec_cAddi16sp, execCAddi16sp, execAddi] at h; rw [aluImm_inv h]; exact .result rfl _ _ rfl
  case cLuiRes => rw [exec_cLuiRes, execCLuiRes] at h; exact stall_effect h rfl
  case cLui => rw [exec_cLui, execCLui, execLui] at h; cases checked_next h; exact .result rfl _ _ rfl
  case cSrli => rw [exec_cSrli, execCSrli, execSrli] at h; rw [aluImm_inv h]; exact .result rfl _ _ rfl
  case cSrai => rw [exec_cSrai, execCSrai, execSrai] at h; rw [aluImm_inv h]; exact .result rfl _ _ rfl
  case cAndi => rw [exec_cAndi, execCAndi, execAndi] at h; rw [aluImm_inv h]; exact .result rfl _ _ rfl
  case cSub => rw [exec_cSub, execCSub, execSub] at h; rw [aluReg_inv h]; exact .result rfl _ _ rfl
  case cXor => rw [exec_cXor, execCXor, execXor] at h; rw [aluReg_inv h]; exact .result rfl _ _ rfl
  case cOr => rw [exec_cOr, execCOr, execOr] at h; rw [aluReg_inv h]; exact .result rfl _ _ rfl
  case cAnd => rw [exec_cAnd, execCAnd, execAnd] at h; rw [aluReg_inv h]; exact .result rfl _ _ rfl
  case cSubw => rw [exec_cSubw, execCSubw, execSubw] at h; rw [aluReg_inv h]; exact .result rfl _ _ rfl
  case cAddw => rw [exec_cAddw, execCAddw, execAddw] at h; rw [aluReg_inv h]; exact .result rfl _ _ rfl
  case cJ => rw [exec_cJ, execCJ, execJal] at h; cases checked_next h; exact .jal rfl _ _ rfl (s.immJ_even _)
  case cBeqz => rw [exec_cBeqz, execCBeqz, execBeq] at h; exact branchIf_effect h rfl (s.immB_even _)
  case cBnez => rw [exec_cBnez, execCBnez, execBne] at h; exact branchIf_effect h rfl (s.immB_even _)
  case cSlli => rw [exec_cSlli, execCSlli, execSlli] at h; rw [aluImm_inv h]; exact .result rfl _ _ rfl
  case cFldsp => rw [exec_cFldsp, execCFldsp] at h; exact noop_effect h rfl
  case cLwspRes => rw [exec_cLwspRes, execCLwspRes] at h; exact stall_effect h rfl
  case cLwsp => rw [exec_cLwsp, execCLwsp, execLw] at h; rw [loadInto_inv h]; exact .load rfl _ _ _ _ rfl rfl
  case cFlwsp => rw [exec_cFlwsp, execCFlwsp] at h; exact noop_effect h rfl
  case cLdspRes => rw [exec_cLdspRes, execCLdspRes] at h; exact stall_effect h rfl
  case cLdsp => rw [exec_cLdsp, execCLdsp, execLd] at h; rw [loadInto_inv h]; exact .load rfl _ _ _ _ rfl rfl
  case cJrRes => rw [exec_cJrRes, execCJrRes] at h; exact stall_effect h rfl
  case cJr => rw [exec_cJr, execCJr, execJalr] at h; cases checked_next h; exact .jalr rfl _ _ _ rfl
  case cMv => rw [exec_cMv, execCMv, execAdd] at h; rw [aluReg_inv h]; exact .result rfl _ _ rfl
  case cEbreak => rw [exec_cEbreak, execCEbreak, execEbreak] at h; exact noop_effect h rfl
  case cJalr => rw [exec_cJalr, execCJalr, execJalr] at h; cases checked_next h; exact .jalr rfl _ _ _ rfl
  case cAdd => rw [exec_cAdd, execCAdd, execAdd] at h; rw [aluReg_inv h]; exact .result rfl _ _ rfl
  case cFsdsp => rw [exec_cFsdsp, execCFsdsp] at h; exact noop_effect h rfl
  case cSwsp => rw [exec_cSwsp, execCSwsp, execSw] at h; rw [storeFrom_inv h]; exact .store rfl _ _ _ rfl rfl
  case cFswsp => rw [exec_cFswsp, execCFswsp] at h; exact noop_effect h rfl
  case cSdsp => rw [exec_cSdsp, execCSdsp, execSd] at h; rw [storeFrom_inv h]; exact .store rfl _ _ _ rfl rfl

/-- What an instruction that stores does: the bytes of its span are those of its value, and `pc` and the pending advance are kept. -/
theorem exec_stores {i : Instr} {s t : State} {a n : Nat} (hs : storeSpan i s = some (a, n)) (h : exec i s = .next t) :
    StoredBytes s t a n (storeValue i s) ∧ t.pc = s.pc ∧ t.adv = s.adv ∧ t.cfg = s.cfg := by
  have store : ∀ (ea v : Word) (m : Nat), exec i s = storeFrom ea m v s → storeSpan i s = some (ea.toNat, m) →
      v.toNat = storeValue i s → StoredBytes s t a n (storeValue i s) ∧ t.pc = s.pc ∧ t.adv = s.adv ∧ t.cfg = s.cfg := by
    intro ea v m he hsp hv
    obtain ⟨rfl, rfl⟩ : ea.toNat = a ∧ m = n := by simpa using hsp.symm.trans hs
    rw [storeFrom_inv (he.symm.trans h), ← hv]
    exact ⟨s.memWrite_storedBytes _ v _, by simp⟩
  have conditional : ∀ (d : Op) (rd : RegIdx) (reads : List RegIdx) (ea v : Word) (m : Nat),
      exec i s = storeConditional d rd reads ea m v s → storeSpan i s = (if s.resv = some ea then some (ea.toNat, m) else none) →
      v.toNat = storeValue i s → StoredBytes s t a n (storeValue i s) ∧ t.pc = s.pc ∧ t.adv = s.adv ∧ t.cfg = s.cfg := by
    intro d rd reads ea v m he hsp hv
    rcases storeConditional_inv (he.symm.trans h) with ⟨hm, rfl⟩ | ⟨hm, rfl⟩
    · obtain ⟨rfl, rfl⟩ : ea.toNat = a ∧ m = n := by simpa [hm] using hsp.symm.trans hs
      rw [← hv]
      exact ⟨fun k => by simpa using s.memWrite_storedBytes _ v _ k, by simp⟩
    · rw [hsp, if_neg hm] at hs; cases hs
  cases i
  case sb => exact store _ _ _ (exec_sb ..) rfl rfl
  case sh => exact store _ _ _ (exec_sh ..) rfl rfl
  case sw => exact store _ _ _ (exec_sw ..) rfl rfl
  case sd => exact store _ _ _ (exec_sd ..) rfl rfl
  case cSw => exact store _ _ _ (exec_cSw ..) rfl rfl
  case cSd => exact store _ _ _ (exec_cSd ..) rfl rfl
  case cSwsp => exact store _ _ _ (exec_cSwsp ..) rfl rfl
  case cSdsp => exact store _ _ _ (exec_cSdsp ..) rfl rfl
  case scW => exact conditional _ _ _ _ _ _ (exec_scW ..) rfl rfl
  case scD => exact conditional _ _ _ _ _ _ (exec_scD ..) rfl rfl
  all_goals exact nomatch hs

end Sys2Proof.Machine
end

