-- ==== Sys2Proof/Laws/Encode.lean ====
section
/-! SUPPORT. One group of lemmas for each format of the encoder: the fields read back, the matcher sees the base word
    only, and the
bits that give the width are the base word's. -/

namespace Sys2Proof

/-- A row of the registry that matches a word gives its instruction, if no row that refines it matches. -/
theorem decodeWord_of_row {xl : Xlen} {i : Instr} {w : BitVec 32} (r : Row) (hw : instrWord w = w) (hr : r ∈ rows)
    (hx : r.appliesTo xl = true) (ha : r.accepts w = true) (hf : fieldsOf r.op w = i)
    (hn : ∀ r' ∈ registry xl, r'.op ∈ refinements r.op → r'.accepts w = false) : decodeWord xl w = some i := by
  rw [decodeWord, describe, hw, findRow_of_accepts (List.mem_filter.mpr ⟨hr, hx⟩) ha hn, Option.map_some, Option.map_some]
  exact congrArg some hf

theorem or_zero_word {n : Nat} (x : BitVec n) : x ||| 0 = x := by simp

theorem zero_or_word {n : Nat} (x : BitVec n) : 0 ||| x = x := by simp

/-! ### encU -/

theorem encU_fields {base : BitVec 32} (h7 : bits base 7 5 = 0) (h12 : bits base 12 20 = 0) (rd : RegIdx) (imm : BitVec
    20) :
    fRd (encU base rd imm) = rd ∧ fImmU (encU base rd imm) = imm := by
  refine ⟨?_, ?_⟩ <;>
    simp (disch := omega) only [encU, fImmU, fRd, bits_or, bits_place_same, bits_place_disjoint, or_zero_word,
      zero_or_word, h7, h12]

theorem encU_mask {base mask want : BitVec 32} (h7 : bits mask 7 5 = 0) (h12 : bits mask 12 20 = 0) (rd : RegIdx) (imm
    : BitVec 20) :
    mask &&& (encU base rd imm ^^^ want) = mask &&& (base ^^^ want) := by
  simp only [encU, mask_or (mask_place h7 _), mask_or (mask_place h12 _)]

theorem encU_low (base : BitVec 32) (rd : RegIdx) (imm : BitVec 20) : bits (encU base rd imm) 0 2 = bits base 0 2 := by
  simp (disch := omega) only [encU, bits_or, bits_place_disjoint, or_zero_word]

/-! ### encJ -/

theorem encJ_fields {base : BitVec 32} (h7 : bits base 7 5 = 0) (h12 : bits base 12 8 = 0) (h20 : bits base 20 1 = 0)
    (h21 : bits base 21 10 = 0) (h31 : bits base 31 1 = 0) (rd : RegIdx) (off : BitVec 20) :
    fRd (encJ base rd off) = rd ∧ fImmJ (encJ base rd off) = off := by
  refine ⟨?_, ?_⟩ <;>
    simp (disch := omega) only [encJ, fImmJ, fRd, bits_or, bits_place_same, bits_place_disjoint, or_zero_word,
      zero_or_word, h7, h12, h20, h21, h31]
  all_goals
    repeat rw [BitVec.extractLsb'_append_extractLsb'_eq_extractLsb' (by omega)]
    exact BitVec.extractLsb'_eq_self

theorem encJ_mask {base mask want : BitVec 32} (h7 : bits mask 7 5 = 0) (h12 : bits mask 12 8 = 0) (h20 : bits mask 20
    1 = 0) (h21 : bits mask 21 10 = 0) (h31 : bits mask 31 1 = 0) (rd : RegIdx) (off : BitVec 20) :
    mask &&& (encJ base rd off ^^^ want) = mask &&& (base ^^^ want) := by
  simp only [encJ, mask_or (mask_place h7 _), mask_or (mask_place h12 _), mask_or (mask_place h20 _), mask_or
      (mask_place h21 _), mask_or (mask_place h31 _)]

theorem encJ_low (base : BitVec 32) (rd : RegIdx) (off : BitVec 20) : bits (encJ base rd off) 0 2 = bits base 0 2 := by
  simp (disch := omega) only [encJ, bits_or, bits_place_disjoint, or_zero_word]

/-! ### encI -/

theorem encI_fields {base : BitVec 32} (h7 : bits base 7 5 = 0) (h15 : bits base 15 5 = 0) (h20 : bits base 20 12 = 0)
    (rd : RegIdx) (rs1 : RegIdx) (imm : BitVec 12) :
    fRd (encI base rd rs1 imm) = rd ∧ fRs1 (encI base rd rs1 imm) = rs1 ∧ fImmI (encI base rd rs1 imm) = imm := by
  refine ⟨?_, ?_, ?_⟩ <;>
    simp (disch := omega) only [encI, fImmI, fRd, fRs1, bits_or, bits_place_same, bits_place_disjoint, or_zero_word,
      zero_or_word, h7, h15, h20]

theorem encI_mask {base mask want : BitVec 32} (h7 : bits mask 7 5 = 0) (h15 : bits mask 15 5 = 0) (h20 : bits mask 20
    12 = 0) (rd : RegIdx) (rs1 : RegIdx) (imm : BitVec 12) :
    mask &&& (encI base rd rs1 imm ^^^ want) = mask &&& (base ^^^ want) := by
  simp only [encI, mask_or (mask_place h7 _), mask_or (mask_place h15 _), mask_or (mask_place h20 _)]

theorem encI_low (base : BitVec 32) (rd : RegIdx) (rs1 : RegIdx) (imm : BitVec 12) : bits (encI base rd rs1 imm) 0 2 =
    bits base 0 2 := by
  simp (disch := omega) only [encI, bits_or, bits_place_disjoint, or_zero_word]

/-! ### encS -/

theorem encS_fields {base : BitVec 32} (h7 : bits base 7 5 = 0) (h15 : bits base 15 5 = 0) (h20 : bits base 20 5 = 0)
    (h25 : bits base 25 7 = 0) (rs1 : RegIdx) (rs2 : RegIdx) (imm : BitVec 12) :
    fRs1 (encS base rs1 rs2 imm) = rs1 ∧ fRs2 (encS base rs1 rs2 imm) = rs2 ∧ fImmS (encS base rs1 rs2 imm) = imm := by
  refine ⟨?_, ?_, ?_⟩ <;>
    simp (disch := omega) only [encS, fImmS, fRs1, fRs2, bits_or, bits_place_same, bits_place_disjoint, or_zero_word,
      zero_or_word, h7, h15, h20, h25]
  all_goals
    repeat rw [BitVec.extractLsb'_append_extractLsb'_eq_extractLsb' (by omega)]
    exact BitVec.extractLsb'_eq_self

theorem encS_mask {base mask want : BitVec 32} (h7 : bits mask 7 5 = 0) (h15 : bits mask 15 5 = 0) (h20 : bits mask 20
    5 = 0) (h25 : bits mask 25 7 = 0) (rs1 : RegIdx) (rs2 : RegIdx) (imm : BitVec 12) :
    mask &&& (encS base rs1 rs2 imm ^^^ want) = mask &&& (base ^^^ want) := by
  simp only [encS, mask_or (mask_place h7 _), mask_or (mask_place h15 _), mask_or (mask_place h20 _), mask_or
      (mask_place h25 _)]

theorem encS_low (base : BitVec 32) (rs1 : RegIdx) (rs2 : RegIdx) (imm : BitVec 12) : bits (encS base rs1 rs2 imm) 0 2
    = bits base 0 2 := by
  simp (disch := omega) only [encS, bits_or, bits_place_disjoint, or_zero_word]

/-! ### encB -/

theorem encB_fields {base : BitVec 32} (h7 : bits base 7 1 = 0) (h8 : bits base 8 4 = 0) (h15 : bits base 15 5 = 0)
    (h20 : bits base 20 5 = 0) (h25 : bits base 25 6 = 0) (h31 : bits base 31 1 = 0) (rs1 : RegIdx) (rs2 : RegIdx) (off
        : BitVec 12) :
    fRs1 (encB base rs1 rs2 off) = rs1 ∧ fRs2 (encB base rs1 rs2 off) = rs2 ∧ fImmB (encB base rs1 rs2 off) = off := by
  refine ⟨?_, ?_, ?_⟩ <;>
    simp (disch := omega) only [encB, fImmB, fRs1, fRs2, bits_or, bits_place_same, bits_place_disjoint, or_zero_word,
      zero_or_word, h7, h8, h15, h20, h25, h31]
  all_goals
    repeat rw [BitVec.extractLsb'_append_extractLsb'_eq_extractLsb' (by omega)]
    exact BitVec.extractLsb'_eq_self

theorem encB_mask {base mask want : BitVec 32} (h7 : bits mask 7 1 = 0) (h8 : bits mask 8 4 = 0) (h15 : bits mask 15 5
    = 0) (h20 : bits mask 20 5 = 0) (h25 : bits mask 25 6 = 0) (h31 : bits mask 31 1 = 0) (rs1 : RegIdx) (rs2 : RegIdx)
        (off : BitVec 12) :
    mask &&& (encB base rs1 rs2 off ^^^ want) = mask &&& (base ^^^ want) := by
  simp only [encB, mask_or (mask_place h7 _), mask_or (mask_place h8 _), mask_or (mask_place h15 _), mask_or
      (mask_place h20 _), mask_or (mask_place h25 _), mask_or (mask_place h31 _)]

theorem encB_low (base : BitVec 32) (rs1 : RegIdx) (rs2 : RegIdx) (off : BitVec 12) : bits (encB base rs1 rs2 off) 0 2
    = bits base 0 2 := by
  simp (disch := omega) only [encB, bits_or, bits_place_disjoint, or_zero_word]

/-! ### encShift -/

theorem encShift_fields {base : BitVec 32} (h7 : bits base 7 5 = 0) (h15 : bits base 15 5 = 0) (h20 : bits base 20 6 =
    0) (rd : RegIdx) (rs1 : RegIdx) (shamt : BitVec 6) :
    fRd (encShift base rd rs1 shamt) = rd ∧ fRs1 (encShift base rd rs1 shamt) = rs1 ∧ fShamt (encShift base rd rs1
        shamt) = shamt := by
  refine ⟨?_, ?_, ?_⟩ <;>
    simp (disch := omega) only [encShift, fRd, fRs1, fShamt, bits_or, bits_place_same, bits_place_disjoint, or_zero_word,
      zero_or_word, h7, h15, h20]

theorem encShift_mask {base mask want : BitVec 32} (h7 : bits mask 7 5 = 0) (h15 : bits mask 15 5 = 0) (h20 : bits mask
    20 6 = 0) (rd : RegIdx) (rs1 : RegIdx) (shamt : BitVec 6) :
    mask &&& (encShift base rd rs1 shamt ^^^ want) = mask &&& (base ^^^ want) := by
  simp only [encShift, mask_or (mask_place h7 _), mask_or (mask_place h15 _), mask_or (mask_place h20 _)]

theorem encShift_low (base : BitVec 32) (rd : RegIdx) (rs1 : RegIdx) (shamt : BitVec 6) : bits (encShift base rd rs1
    shamt) 0 2 = bits base 0 2 := by
  simp (disch := omega) only [encShift, bits_or, bits_place_disjoint, or_zero_word]

/-! ### encShiftW -/

theorem encShiftW_fields {base : BitVec 32} (h7 : bits base 7 5 = 0) (h15 : bits base 15 5 = 0) (h20 : bits base 20 5 =
    0) (rd : RegIdx) (rs1 : RegIdx) (shamt : BitVec 5) :
    fRd (encShiftW base rd rs1 shamt) = rd ∧ fRs1 (encShiftW base rd rs1 shamt) = rs1 ∧ fShamtW (encShiftW base rd rs1
        shamt) = shamt := by
  refine ⟨?_, ?_, ?_⟩ <;>
    simp (disch := omega) only [encShiftW, fRd, fRs1, fShamtW, bits_or, bits_place_same, bits_place_disjoint,
        or_zero_word,
      zero_or_word, h7, h15, h20]

theorem encShiftW_mask {base mask want : BitVec 32} (h7 : bits mask 7 5 = 0) (h15 : bits mask 15 5 = 0) (h20 : bits
    mask 20 5 = 0) (rd : RegIdx) (rs1 : RegIdx) (shamt : BitVec 5) :
    mask &&& (encShiftW base rd rs1 shamt ^^^ want) = mask &&& (base ^^^ want) := by
  simp only [encShiftW, mask_or (mask_place h7 _), mask_or (mask_place h15 _), mask_or (mask_place h20 _)]

theorem encShiftW_low (base : BitVec 32) (rd : RegIdx) (rs1 : RegIdx) (shamt : BitVec 5) : bits (encShiftW base rd rs1
    shamt) 0 2 = bits base 0 2 := by
  simp (disch := omega) only [encShiftW, bits_or, bits_place_disjoint, or_zero_word]

/-! ### encR -/

theorem encR_fields {base : BitVec 32} (h7 : bits base 7 5 = 0) (h15 : bits base 15 5 = 0) (h20 : bits base 20 5 = 0)
    (rd : RegIdx) (rs1 : RegIdx) (rs2 : RegIdx) :
    fRd (encR base rd rs1 rs2) = rd ∧ fRs1 (encR base rd rs1 rs2) = rs1 ∧ fRs2 (encR base rd rs1 rs2) = rs2 := by
  refine ⟨?_, ?_, ?_⟩ <;>
    simp (disch := omega) only [encR, fRd, fRs1, fRs2, bits_or, bits_place_same, bits_place_disjoint, or_zero_word,
      zero_or_word, h7, h15, h20]

theorem encR_mask {base mask want : BitVec 32} (h7 : bits mask 7 5 = 0) (h15 : bits mask 15 5 = 0) (h20 : bits mask 20
    5 = 0) (rd : RegIdx) (rs1 : RegIdx) (rs2 : RegIdx) :
    mask &&& (encR base rd rs1 rs2 ^^^ want) = mask &&& (base ^^^ want) := by
  simp only [encR, mask_or (mask_place h7 _), mask_or (mask_place h15 _), mask_or (mask_place h20 _)]

theorem encR_low (base : BitVec 32) (rd : RegIdx) (rs1 : RegIdx) (rs2 : RegIdx) : bits (encR base rd rs1 rs2) 0 2 =
    bits base 0 2 := by
  simp (disch := omega) only [encR, bits_or, bits_place_disjoint, or_zero_word]

/-! ### encFence -/

theorem encFence_fields {base : BitVec 32} (h7 : bits base 7 5 = 0) (h15 : bits base 15 5 = 0) (h20 : bits base 20 4 =
    0) (h24 : bits base 24 4 = 0) (h28 : bits base 28 4 = 0) (fm : BitVec 4) (pred : BitVec 4) (succ : BitVec 4) (rs1 :
        RegIdx) (rd : RegIdx) :
    fFm (encFence base fm pred succ rs1 rd) = fm ∧ fPred (encFence base fm pred succ rs1 rd) = pred ∧ fSucc (encFence
        base fm pred succ rs1 rd) = succ ∧ fRs1 (encFence base fm pred succ rs1 rd) = rs1 ∧ fRd (encFence base fm pred
            succ rs1 rd) = rd := by
  refine ⟨?_, ?_, ?_, ?_, ?_⟩ <;>
    simp (disch := omega) only [encFence, fFm, fPred, fRd, fRs1, fSucc, bits_or, bits_place_same, bits_place_disjoint,
        or_zero_word,
      zero_or_word, h7, h15, h20, h24, h28]

theorem encFence_mask {base mask want : BitVec 32} (h7 : bits mask 7 5 = 0) (h15 : bits mask 15 5 = 0) (h20 : bits mask
    20 4 = 0) (h24 : bits mask 24 4 = 0) (h28 : bits mask 28 4 = 0) (fm : BitVec 4) (pred : BitVec 4) (succ : BitVec 4)
        (rs1 : RegIdx) (rd : RegIdx) :
    mask &&& (encFence base fm pred succ rs1 rd ^^^ want) = mask &&& (base ^^^ want) := by
  simp only [encFence, mask_or (mask_place h7 _), mask_or (mask_place h15 _), mask_or (mask_place h20 _), mask_or
      (mask_place h24 _), mask_or (mask_place h28 _)]

theorem encFence_low (base : BitVec 32) (fm : BitVec 4) (pred : BitVec 4) (succ : BitVec 4) (rs1 : RegIdx) (rd :
    RegIdx) : bits (encFence base fm pred succ rs1 rd) 0 2 = bits base 0 2 := by
  simp (disch := omega) only [encFence, bits_or, bits_place_disjoint, or_zero_word]

/-! ### encFenceI -/

theorem encFenceI_fields {base : BitVec 32} (h7 : bits base 7 5 = 0) (h15 : bits base 15 5 = 0) (h20 : bits base 20 12
    = 0) (imm : BitVec 12) (rs1 : RegIdx) (rd : RegIdx) :
    fImmI (encFenceI base imm rs1 rd) = imm ∧ fRs1 (encFenceI base imm rs1 rd) = rs1 ∧ fRd (encFenceI base imm rs1 rd)
        = rd := by
  refine ⟨?_, ?_, ?_⟩ <;>
    simp (disch := omega) only [encFenceI, fImmI, fRd, fRs1, bits_or, bits_place_same, bits_place_disjoint, or_zero_word,
      zero_or_word, h7, h15, h20]

theorem encFenceI_mask {base mask want : BitVec 32} (h7 : bits mask 7 5 = 0) (h15 : bits mask 15 5 = 0) (h20 : bits
    mask 20 12 = 0) (imm : BitVec 12) (rs1 : RegIdx) (rd : RegIdx) :
    mask &&& (encFenceI base imm rs1 rd ^^^ want) = mask &&& (base ^^^ want) := by
  simp only [encFenceI, mask_or (mask_place h7 _), mask_or (mask_place h15 _), mask_or (mask_place h20 _)]

theorem encFenceI_low (base : BitVec 32) (imm : BitVec 12) (rs1 : RegIdx) (rd : RegIdx) : bits (encFenceI base imm rs1
    rd) 0 2 = bits base 0 2 := by
  simp (disch := omega) only [encFenceI, bits_or, bits_place_disjoint, or_zero_word]

/-! ### encCsr -/

theorem encCsr_fields {base : BitVec 32} (h7 : bits base 7 5 = 0) (h15 : bits base 15 5 = 0) (h20 : bits base 20 12 =
    0) (rd : RegIdx) (csr : BitVec 12) (rs1 : BitVec 5) :
    fRd (encCsr base rd csr rs1) = rd ∧ fCsr (encCsr base rd csr rs1) = csr ∧ fRs1 (encCsr base rd csr rs1) = rs1 := by
  refine ⟨?_, ?_, ?_⟩ <;>
    simp (disch := omega) only [encCsr, fCsr, fRd, fRs1, bits_or, bits_place_same, bits_place_disjoint, or_zero_word,
      zero_or_word, h7, h15, h20]

theorem encCsr_mask {base mask want : BitVec 32} (h7 : bits mask 7 5 = 0) (h15 : bits mask 15 5 = 0) (h20 : bits mask
    20 12 = 0) (rd : RegIdx) (csr : BitVec 12) (rs1 : BitVec 5) :
    mask &&& (encCsr base rd csr rs1 ^^^ want) = mask &&& (base ^^^ want) := by
  simp only [encCsr, mask_or (mask_place h7 _), mask_or (mask_place h15 _), mask_or (mask_place h20 _)]

theorem encCsr_low (base : BitVec 32) (rd : RegIdx) (csr : BitVec 12) (rs1 : BitVec 5) : bits (encCsr base rd csr rs1)
    0 2 = bits base 0 2 := by
  simp (disch := omega) only [encCsr, bits_or, bits_place_disjoint, or_zero_word]

/-! ### encLr -/

theorem encLr_fields {base : BitVec 32} (h7 : bits base 7 5 = 0) (h15 : bits base 15 5 = 0) (h25 : bits base 25 1 = 0)
    (h26 : bits base 26 1 = 0) (rd : RegIdx) (rs1 : RegIdx) (aq : BitVec 1) (rl : BitVec 1) :
    fRd (encLr base rd rs1 aq rl) = rd ∧ fRs1 (encLr base rd rs1 aq rl) = rs1 ∧ fAq (encLr base rd rs1 aq rl) = aq ∧
        fRl (encLr base rd rs1 aq rl) = rl := by
  refine ⟨?_, ?_, ?_, ?_⟩ <;>
    simp (disch := omega) only [encLr, fAq, fRd, fRl, fRs1, bits_or, bits_place_same, bits_place_disjoint, or_zero_word,
      zero_or_word, h7, h15, h25, h26]

theorem encLr_mask {base mask want : BitVec 32} (h7 : bits mask 7 5 = 0) (h15 : bits mask 15 5 = 0) (h25 : bits mask 25
    1 = 0) (h26 : bits mask 26 1 = 0) (rd : RegIdx) (rs1 : RegIdx) (aq : BitVec 1) (rl : BitVec 1) :
    mask &&& (encLr base rd rs1 aq rl ^^^ want) = mask &&& (base ^^^ want) := by
  simp only [encLr, mask_or (mask_place h7 _), mask_or (mask_place h15 _), mask_or (mask_place h25 _), mask_or
      (mask_place h26 _)]

theorem encLr_low (base : BitVec 32) (rd : RegIdx) (rs1 : RegIdx) (aq : BitVec 1) (rl : BitVec 1) : bits (encLr base rd
    rs1 aq rl) 0 2 = bits base 0 2 := by
  simp (disch := omega) only [encLr, bits_or, bits_place_disjoint, or_zero_word]

/-! ### encSc -/

theorem encSc_fields {base : BitVec 32} (h7 : bits base 7 5 = 0) (h15 : bits base 15 5 = 0) (h20 : bits base 20 5 = 0)
    (h25 : bits base 25 1 = 0) (h26 : bits base 26 1 = 0) (rd : RegIdx) (rs1 : RegIdx) (rs2 : RegIdx) (aq : BitVec 1)
        (rl : BitVec 1) :
    fRd (encSc base rd rs1 rs2 aq rl) = rd ∧ fRs1 (encSc base rd rs1 rs2 aq rl) = rs1 ∧ fRs2 (encSc base rd rs1 rs2 aq
        rl) = rs2 ∧ fAq (encSc base rd rs1 rs2 aq rl) = aq ∧ fRl (encSc base rd rs1 rs2 aq rl) = rl := by
  refine ⟨?_, ?_, ?_, ?_, ?_⟩ <;>
    simp (disch := omega) only [encSc, fAq, fRd, fRl, fRs1, fRs2, bits_or, bits_place_same, bits_place_disjoint,
        or_zero_word,
      zero_or_word, h7, h15, h20, h25, h26]

theorem encSc_mask {base mask want : BitVec 32} (h7 : bits mask 7 5 = 0) (h15 : bits mask 15 5 = 0) (h20 : bits mask 20
    5 = 0) (h25 : bits mask 25 1 = 0) (h26 : bits mask 26 1 = 0) (rd : RegIdx) (rs1 : RegIdx) (rs2 : RegIdx) (aq :
        BitVec 1) (rl : BitVec 1) :
    mask &&& (encSc base rd rs1 rs2 aq rl ^^^ want) = mask &&& (base ^^^ want) := by
  simp only [encSc, mask_or (mask_place h7 _), mask_or (mask_place h15 _), mask_or (mask_place h20 _), mask_or
      (mask_place h25 _), mask_or (mask_place h26 _)]

theorem encSc_low (base : BitVec 32) (rd : RegIdx) (rs1 : RegIdx) (rs2 : RegIdx) (aq : BitVec 1) (rl : BitVec 1) : bits
    (encSc base rd rs1 rs2 aq rl) 0 2 = bits base 0 2 := by
  simp (disch := omega) only [encSc, bits_or, bits_place_disjoint, or_zero_word]

/-! ### encCRdP -/

theorem encCRdP_fields {base : BitVec 32} (h2 : bits base 2 3 = 0) (rd : CRegIdx) :
    fCRdLo (encCRdP base rd) = rd := by
  simp (disch := omega) only [encCRdP, fCRdLo, bits_or, bits_place_same, bits_place_disjoint, or_zero_word,
    zero_or_word, h2]

theorem encCRdP_mask {base mask want : BitVec 32} (h2 : bits mask 2 3 = 0) (rd : CRegIdx) :
    mask &&& (encCRdP base rd ^^^ want) = mask &&& (base ^^^ want) := by
  simp only [encCRdP, mask_or (mask_place h2 _)]

theorem encCRdP_low (base : BitVec 32) (rd : CRegIdx) : bits (encCRdP base rd) 0 2 = bits base 0 2 := by
  simp (disch := omega) only [encCRdP, bits_or, bits_place_disjoint, or_zero_word]

theorem encCRdP_high (base : BitVec 32) (rd : CRegIdx) : bits (encCRdP base rd) 16 16 = bits base 16 16 := by
  simp (disch := omega) only [encCRdP, bits_or, bits_place_disjoint, or_zero_word]

/-! ### encCIW -/

theorem encCIW_fields {base : BitVec 32} (h2 : bits base 2 3 = 0) (h5 : bits base 5 1 = 0) (h6 : bits base 6 1 = 0) (h7
    : bits base 7 4 = 0) (h11 : bits base 11 2 = 0) (rd : CRegIdx) (imm : BitVec 8) :
    fCRdLo (encCIW base rd imm) = rd ∧ fImmCIW (encCIW base rd imm) = imm := by
  refine ⟨?_, ?_⟩ <;>
    simp (disch := omega) only [encCIW, fCRdLo, fImmCIW, bits_or, bits_place_same, bits_place_disjoint, or_zero_word,
      zero_or_word, h2, h5, h6, h7, h11]
  all_goals
    repeat rw [BitVec.extractLsb'_append_extractLsb'_eq_extractLsb' (by omega)]
    exact BitVec.extractLsb'_eq_self

theorem encCIW_mask {base mask want : BitVec 32} (h2 : bits mask 2 3 = 0) (h5 : bits mask 5 1 = 0) (h6 : bits mask 6 1
    = 0) (h7 : bits mask 7 4 = 0) (h11 : bits mask 11 2 = 0) (rd : CRegIdx) (imm : BitVec 8) :
    mask &&& (encCIW base rd imm ^^^ want) = mask &&& (base ^^^ want) := by
  simp only [encCIW, mask_or (mask_place h2 _), mask_or (mask_place h5 _), mask_or (mask_place h6 _), mask_or
      (mask_place h7 _), mask_or (mask_place h11 _)]

theorem encCIW_low (base : BitVec 32) (rd : CRegIdx) (imm : BitVec 8) : bits (encCIW base rd imm) 0 2 = bits base 0 2
    := by
  simp (disch := omega) only [encCIW, bits_or, bits_place_disjoint, or_zero_word]

theorem encCIW_high (base : BitVec 32) (rd : CRegIdx) (imm : BitVec 8) : bits (encCIW base rd imm) 16 16 = bits base 16
    16 := by
  simp (disch := omega) only [encCIW, bits_or, bits_place_disjoint, or_zero_word]

/-! ### encCLw -/

theorem encCLw_fields {base : BitVec 32} (h2 : bits base 2 3 = 0) (h5 : bits base 5 1 = 0) (h6 : bits base 6 1 = 0) (h7
    : bits base 7 3 = 0) (h10 : bits base 10 3 = 0) (rd : CRegIdx) (rs1 : CRegIdx) (uimm : BitVec 5) :
    fCRdLo (encCLw base rd rs1 uimm) = rd ∧ fCRs1 (encCLw base rd rs1 uimm) = rs1 ∧ fImmCLw (encCLw base rd rs1 uimm) =
        uimm := by
  refine ⟨?_, ?_, ?_⟩ <;>
    simp (disch := omega) only [encCLw, fCRdLo, fCRs1, fImmCLw, bits_or, bits_place_same, bits_place_disjoint,
        or_zero_word,
      zero_or_word, h2, h5, h6, h7, h10]
  all_goals
    repeat rw [BitVec.extractLsb'_append_extractLsb'_eq_extractLsb' (by omega)]
    exact BitVec.extractLsb'_eq_self

theorem encCLw_mask {base mask want : BitVec 32} (h2 : bits mask 2 3 = 0) (h5 : bits mask 5 1 = 0) (h6 : bits mask 6 1
    = 0) (h7 : bits mask 7 3 = 0) (h10 : bits mask 10 3 = 0) (rd : CRegIdx) (rs1 : CRegIdx) (uimm : BitVec 5) :
    mask &&& (encCLw base rd rs1 uimm ^^^ want) = mask &&& (base ^^^ want) := by
  simp only [encCLw, mask_or (mask_place h2 _), mask_or (mask_place h5 _), mask_or (mask_place h6 _), mask_or
      (mask_place h7 _), mask_or (mask_place h10 _)]

theorem encCLw_low (base : BitVec 32) (rd : CRegIdx) (rs1 : CRegIdx) (uimm : BitVec 5) : bits (encCLw base rd rs1 uimm)
    0 2 = bits base 0 2 := by
  simp (disch := omega) only [encCLw, bits_or, bits_place_disjoint, or_zero_word]

theorem encCLw_high (base : BitVec 32) (rd : CRegIdx) (rs1 : CRegIdx) (uimm : BitVec 5) : bits (encCLw base rd rs1
    uimm) 16 16 = bits base 16 16 := by
  simp (disch := omega) only [encCLw, bits_or, bits_place_disjoint, or_zero_word]

/-! ### encCLd -/

theorem encCLd_fields {base : BitVec 32} (h2 : bits base 2 3 = 0) (h5 : bits base 5 2 = 0) (h7 : bits base 7 3 = 0)
    (h10 : bits base 10 3 = 0) (rd : CRegIdx) (rs1 : CRegIdx) (uimm : BitVec 5) :
    fCRdLo (encCLd base rd rs1 uimm) = rd ∧ fCRs1 (encCLd base rd rs1 uimm) = rs1 ∧ fImmCLd (encCLd base rd rs1 uimm) =
        uimm := by
  refine ⟨?_, ?_, ?_⟩ <;>
    simp (disch := omega) only [encCLd, fCRdLo, fCRs1, fImmCLd, bits_or, bits_place_same, bits_place_disjoint,
        or_zero_word,
      zero_or_word, h2, h5, h7, h10]
  all_goals
    repeat rw [BitVec.extractLsb'_append_extractLsb'_eq_extractLsb' (by omega)]
    exact BitVec.extractLsb'_eq_self

theorem encCLd_mask {base mask want : BitVec 32} (h2 : bits mask 2 3 = 0) (h5 : bits mask 5 2 = 0) (h7 : bits mask 7 3
    = 0) (h10 : bits mask 10 3 = 0) (rd : CRegIdx) (rs1 : CRegIdx) (uimm : BitVec 5) :
    mask &&& (encCLd base rd rs1 uimm ^^^ want) = mask &&& (base ^^^ want) := by
  simp only [encCLd, mask_or (mask_place h2 _), mask_or (mask_place h5 _), mask_or (mask_place h7 _), mask_or
      (mask_place h10 _)]

theorem encCLd_low (base : BitVec 32) (rd : CRegIdx) (rs1 : CRegIdx) (uimm : BitVec 5) : bits (encCLd base rd rs1 uimm)
    0 2 = bits base 0 2 := by
  simp (disch := omega) only [encCLd, bits_or, bits_place_disjoint, or_zero_word]

theorem encCLd_high (base : BitVec 32) (rd : CRegIdx) (rs1 : CRegIdx) (uimm : BitVec 5) : bits (encCLd base rd rs1
    uimm) 16 16 = bits base 16 16 := by
  simp (disch := omega) only [encCLd, bits_or, bits_place_disjoint, or_zero_word]

/-! ### encCSw -/

theorem encCSw_fields {base : BitVec 32} (h2 : bits base 2 3 = 0) (h5 : bits base 5 1 = 0) (h6 : bits base 6 1 = 0) (h7
    : bits base 7 3 = 0) (h10 : bits base 10 3 = 0) (rs1 : CRegIdx) (rs2 : CRegIdx) (uimm : BitVec 5) :
    fCRs1 (encCSw base rs1 rs2 uimm) = rs1 ∧ fCRdLo (encCSw base rs1 rs2 uimm) = rs2 ∧ fImmCLw (encCSw base rs1 rs2
        uimm) = uimm := by
  refine ⟨?_, ?_, ?_⟩ <;>
    simp (disch := omega) only [encCSw, encCLw, fCRdLo, fCRs1, fImmCLw, bits_or, bits_place_same, bits_place_disjoint,
        or_zero_word,
      zero_or_word, h2, h5, h6, h7, h10]
  all_goals
    repeat rw [BitVec.extractLsb'_append_extractLsb'_eq_extractLsb' (by omega)]
    exact BitVec.extractLsb'_eq_self

theorem encCSw_mask {base mask want : BitVec 32} (h2 : bits mask 2 3 = 0) (h5 : bits mask 5 1 = 0) (h6 : bits mask 6 1
    = 0) (h7 : bits mask 7 3 = 0) (h10 : bits mask 10 3 = 0) (rs1 : CRegIdx) (rs2 : CRegIdx) (uimm : BitVec 5) :
    mask &&& (encCSw base rs1 rs2 uimm ^^^ want) = mask &&& (base ^^^ want) := by
  simp only [encCSw, encCLw, mask_or (mask_place h2 _), mask_or (mask_place h5 _), mask_or (mask_place h6 _), mask_or
      (mask_place h7 _), mask_or (mask_place h10 _)]

theorem encCSw_low (base : BitVec 32) (rs1 : CRegIdx) (rs2 : CRegIdx) (uimm : BitVec 5) : bits (encCSw base rs1 rs2
    uimm) 0 2 = bits base 0 2 := by
  simp (disch := omega) only [encCSw, encCLw, bits_or, bits_place_disjoint, or_zero_word]

theorem encCSw_high (base : BitVec 32) (rs1 : CRegIdx) (rs2 : CRegIdx) (uimm : BitVec 5) : bits (encCSw base rs1 rs2
    uimm) 16 16 = bits base 16 16 := by
  simp (disch := omega) only [encCSw, encCLw, bits_or, bits_place_disjoint, or_zero_word]

/-! ### encCSd -/

theorem encCSd_fields {base : BitVec 32} (h2 : bits base 2 3 = 0) (h5 : bits base 5 2 = 0) (h7 : bits base 7 3 = 0)
    (h10 : bits base 10 3 = 0) (rs1 : CRegIdx) (rs2 : CRegIdx) (uimm : BitVec 5) :
    fCRs1 (encCSd base rs1 rs2 uimm) = rs1 ∧ fCRdLo (encCSd base rs1 rs2 uimm) = rs2 ∧ fImmCLd (encCSd base rs1 rs2
        uimm) = uimm := by
  refine ⟨?_, ?_, ?_⟩ <;>
    simp (disch := omega) only [encCSd, encCLd, fCRdLo, fCRs1, fImmCLd, bits_or, bits_place_same, bits_place_disjoint,
        or_zero_word,
      zero_or_word, h2, h5, h7, h10]
  all_goals
    repeat rw [BitVec.extractLsb'_append_extractLsb'_eq_extractLsb' (by omega)]
    exact BitVec.extractLsb'_eq_self

theorem encCSd_mask {base mask want : BitVec 32} (h2 : bits mask 2 3 = 0) (h5 : bits mask 5 2 = 0) (h7 : bits mask 7 3
    = 0) (h10 : bits mask 10 3 = 0) (rs1 : CRegIdx) (rs2 : CRegIdx) (uimm : BitVec 5) :
    mask &&& (encCSd base rs1 rs2 uimm ^^^ want) = mask &&& (base ^^^ want) := by
  simp only [encCSd, encCLd, mask_or (mask_place h2 _), mask_or (mask_place h5 _), mask_or (mask_place h7 _), mask_or
      (mask_place h10 _)]

theorem encCSd_low (base : BitVec 32) (rs1 : CRegIdx) (rs2 : CRegIdx) (uimm : BitVec 5) : bits (encCSd base rs1 rs2
    uimm) 0 2 = bits base 0 2 := by
  simp (disch := omega) only [encCSd, encCLd, bits_or, bits_place_disjoint, or_zero_word]

theorem encCSd_high (base : BitVec 32) (rs1 : CRegIdx) (rs2 : CRegIdx) (uimm : BitVec 5) : bits (encCSd base rs1 rs2
    uimm) 16 16 = bits base 16 16 := by
  simp (disch := omega) only [encCSd, encCLd, bits_or, bits_place_disjoint, or_zero_word]

/-! ### encCI -/

theorem encCI_fields {base : BitVec 32} (h2 : bits base 2 5 = 0) (h7 : bits base 7 5 = 0) (h12 : bits base 12 1 = 0)
    (rd : RegIdx) (imm : BitVec 6) :
    fRd (encCI base rd imm) = rd ∧ fImmCI (encCI base rd imm) = imm := by
  refine ⟨?_, ?_⟩ <;>
    simp (disch := omega) only [encCI, fImmCI, fRd, bits_or, bits_place_same, bits_place_disjoint, or_zero_word,
      zero_or_word, h2, h7, h12]
  all_goals
    repeat rw [BitVec.extractLsb'_append_extractLsb'_eq_extractLsb' (by omega)]
    exact BitVec.extractLsb'_eq_self

theorem encCI_mask {base mask want : BitVec 32} (h2 : bits mask 2 5 = 0) (h7 : bits mask 7 5 = 0) (h12 : bits mask 12 1
    = 0) (rd : RegIdx) (imm : BitVec 6) :
    mask &&& (encCI base rd imm ^^^ want) = mask &&& (base ^^^ want) := by
  simp only [encCI, mask_or (mask_place h2 _), mask_or (mask_place h7 _), mask_or (mask_place h12 _)]

theorem encCI_low (base : BitVec 32) (rd : RegIdx) (imm : BitVec 6) : bits (encCI base rd imm) 0 2 = bits base 0 2 := by
  simp (disch := omega) only [encCI, bits_or, bits_place_disjoint, or_zero_word]

theorem encCI_high (base : BitVec 32) (rd : RegIdx) (imm : BitVec 6) : bits (encCI base rd imm) 16 16 = bits base 16 16
    := by
  simp (disch := omega) only [encCI, bits_or, bits_place_disjoint, or_zero_word]

/-! ### encCI0 -/

theorem encCI0_fields {base : BitVec 32} (h2 : bits base 2 5 = 0) (h7 : bits base 7 5 = 0) (h12 : bits base 12 1 = 0)
    (imm : BitVec 6) :
    fImmCI (encCI0 base imm) = imm := by
  simp (disch := omega) only [encCI0, encCI, fImmCI, bits_or, bits_place_same, bits_place_disjoint, or_zero_word,
    zero_or_word, h2, h7, h12]
  all_goals
    repeat rw [BitVec.extractLsb'_append_extractLsb'_eq_extractLsb' (by omega)]
    exact BitVec.extractLsb'_eq_self

theorem encCI0_mask {base mask want : BitVec 32} (h2 : bits mask 2 5 = 0) (h7 : bits mask 7 5 = 0) (h12 : bits mask 12
    1 = 0) (imm : BitVec 6) :
    mask &&& (encCI0 base imm ^^^ want) = mask &&& (base ^^^ want) := by
  simp only [encCI0, encCI, mask_or (mask_place h2 _), mask_or (mask_place h7 _), mask_or (mask_place h12 _)]

theorem encCI0_low (base : BitVec 32) (imm : BitVec 6) : bits (encCI0 base imm) 0 2 = bits base 0 2 := by
  simp (disch := omega) only [encCI0, encCI, bits_or, bits_place_disjoint, or_zero_word]

theorem encCI0_high (base : BitVec 32) (imm : BitVec 6) : bits (encCI0 base imm) 16 16 = bits base 16 16 := by
  simp (disch := omega) only [encCI0, encCI, bits_or, bits_place_disjoint, or_zero_word]

/-! ### encCI16 -/

theorem encCI16_fields {base : BitVec 32} (h2 : bits base 2 1 = 0) (h3 : bits base 3 2 = 0) (h5 : bits base 5 1 = 0)
    (h6 : bits base 6 1 = 0) (h12 : bits base 12 1 = 0) (imm : BitVec 6) :
    fImmCI16 (encCI16 base imm) = imm := by
  simp (disch := omega) only [encCI16, fImmCI16, bits_or, bits_place_same, bits_place_disjoint, or_zero_word,
    zero_or_word, h2, h3, h5, h6, h12]
  all_goals
    repeat rw [BitVec.extractLsb'_append_extractLsb'_eq_extractLsb' (by omega)]
    exact BitVec.extractLsb'_eq_self

theorem encCI16_mask {base mask want : BitVec 32} (h2 : bits mask 2 1 = 0) (h3 : bits mask 3 2 = 0) (h5 : bits mask 5 1
    = 0) (h6 : bits mask 6 1 = 0) (h12 : bits mask 12 1 = 0) (imm : BitVec 6) :
    mask &&& (encCI16 base imm ^^^ want) = mask &&& (base ^^^ want) := by
  simp only [encCI16, mask_or (mask_place h2 _), mask_or (mask_place h3 _), mask_or (mask_place h5 _), mask_or
      (mask_place h6 _), mask_or (mask_place h12 _)]

theorem encCI16_low (base : BitVec 32) (imm : BitVec 6) : bits (encCI16 base imm) 0 2 = bits base 0 2 := by
  simp (disch := omega) only [encCI16, bits_or, bits_place_disjoint, or_zero_word]

theorem encCI16_high (base : BitVec 32) (imm : BitVec 6) : bits (encCI16 base imm) 16 16 = bits base 16 16 := by
  simp (disch := omega) only [encCI16, bits_or, bits_place_disjoint, or_zero_word]

/-! ### encCRd -/

theorem encCRd_fields {base : BitVec 32} (h7 : bits base 7 5 = 0) (rd : RegIdx) :
    fRd (encCRd base rd) = rd := by
  simp (disch := omega) only [encCRd, fRd, bits_or, bits_place_same, bits_place_disjoint, or_zero_word,
    zero_or_word, h7]

theorem encCRd_mask {base mask want : BitVec 32} (h7 : bits mask 7 5 = 0) (rd : RegIdx) :
    mask &&& (encCRd base rd ^^^ want) = mask &&& (base ^^^ want) := by
  simp only [encCRd, mask_or (mask_place h7 _)]

theorem encCRd_low (base : BitVec 32) (rd : RegIdx) : bits (encCRd base rd) 0 2 = bits base 0 2 := by
  simp (disch := omega) only [encCRd, bits_or, bits_place_disjoint, or_zero_word]

theorem encCRd_high (base : BitVec 32) (rd : RegIdx) : bits (encCRd base rd) 16 16 = bits base 16 16 := by
  simp (disch := omega) only [encCRd, bits_or, bits_place_disjoint, or_zero_word]

/-! ### encCJ -/

theorem encCJ_fields {base : BitVec 32} (h2 : bits base 2 1 = 0) (h3 : bits base 3 3 = 0) (h6 : bits base 6 1 = 0) (h7
    : bits base 7 1 = 0) (h8 : bits base 8 1 = 0) (h9 : bits base 9 2 = 0) (h11 : bits base 11 1 = 0) (h12 : bits base
        12 1 = 0) (off : BitVec 11) :
    fImmCJ (encCJ base off) = off := by
  simp (disch := omega) only [encCJ, fImmCJ, bits_or, bits_place_same, bits_place_disjoint, or_zero_word,
    zero_or_word, h2, h3, h6, h7, h8, h9, h11, h12]
  all_goals
    repeat rw [BitVec.extractLsb'_append_extractLsb'_eq_extractLsb' (by omega)]
    exact BitVec.extractLsb'_eq_self

theorem encCJ_mask {base mask want : BitVec 32} (h2 : bits mask 2 1 = 0) (h3 : bits mask 3 3 = 0) (h6 : bits mask 6 1 =
    0) (h7 : bits mask 7 1 = 0) (h8 : bits mask 8 1 = 0) (h9 : bits mask 9 2 = 0) (h11 : bits mask 11 1 = 0) (h12 :
        bits mask 12 1 = 0) (off : BitVec 11) :
    mask &&& (encCJ base off ^^^ want) = mask &&& (base ^^^ want) := by
  simp only [encCJ, mask_or (mask_place h2 _), mask_or (mask_place h3 _), mask_or (mask_place h6 _), mask_or
      (mask_place h7 _), mask_or (mask_place h8 _), mask_or (mask_place h9 _), mask_or (mask_place h11 _), mask_or
          (mask_place h12 _)]

theorem encCJ_low (base : BitVec 32) (off : BitVec 11) : bits (encCJ base off) 0 2 = bits base 0 2 := by
  simp (disch := omega) only [encCJ, bits_or, bits_place_disjoint, or_zero_word]

theorem encCJ_high (base : BitVec 32) (off : BitVec 11) : bits (encCJ base off) 16 16 = bits base 16 16 := by
  simp (disch := omega) only [encCJ, bits_or, bits_place_disjoint, or_zero_word]

/-! ### encCBImm -/

theorem encCBImm_fields {base : BitVec 32} (h2 : bits base 2 5 = 0) (h7 : bits base 7 3 = 0) (h12 : bits base 12 1 = 0)
    (rd : CRegIdx) (imm : BitVec 6) :
    fCRs1 (encCBImm base rd imm) = rd ∧ fImmCI (encCBImm base rd imm) = imm := by
  refine ⟨?_, ?_⟩ <;>
    simp (disch := omega) only [encCBImm, fCRs1, fImmCI, bits_or, bits_place_same, bits_place_disjoint, or_zero_word,
      zero_or_word, h2, h7, h12]
  all_goals
    repeat rw [BitVec.extractLsb'_append_extractLsb'_eq_extractLsb' (by omega)]
    exact BitVec.extractLsb'_eq_self

theorem encCBImm_mask {base mask want : BitVec 32} (h2 : bits mask 2 5 = 0) (h7 : bits mask 7 3 = 0) (h12 : bits mask
    12 1 = 0) (rd : CRegIdx) (imm : BitVec 6) :
    mask &&& (encCBImm base rd imm ^^^ want) = mask &&& (base ^^^ want) := by
  simp only [encCBImm, mask_or (mask_place h2 _), mask_or (mask_place h7 _), mask_or (mask_place h12 _)]

theorem encCBImm_low (base : BitVec 32) (rd : CRegIdx) (imm : BitVec 6) : bits (encCBImm base rd imm) 0 2 = bits base 0
    2 := by
  simp (disch := omega) only [encCBImm, bits_or, bits_place_disjoint, or_zero_word]

theorem encCBImm_high (base : BitVec 32) (rd : CRegIdx) (imm : BitVec 6) : bits (encCBImm base rd imm) 16 16 = bits
    base 16 16 := by
  simp (disch := omega) only [encCBImm, bits_or, bits_place_disjoint, or_zero_word]

/-! ### encCA -/

theorem encCA_fields {base : BitVec 32} (h2 : bits base 2 3 = 0) (h7 : bits base 7 3 = 0) (rd : CRegIdx) (rs2 : CRegIdx) :
    fCRs1 (encCA base rd rs2) = rd ∧ fCRdLo (encCA base rd rs2) = rs2 := by
  refine ⟨?_, ?_⟩ <;>
    simp (disch := omega) only [encCA, fCRdLo, fCRs1, bits_or, bits_place_same, bits_place_disjoint, or_zero_word,
      zero_or_word, h2, h7]

theorem encCA_mask {base mask want : BitVec 32} (h2 : bits mask 2 3 = 0) (h7 : bits mask 7 3 = 0) (rd : CRegIdx) (rs2 :
    CRegIdx) :
    mask &&& (encCA base rd rs2 ^^^ want) = mask &&& (base ^^^ want) := by
  simp only [encCA, mask_or (mask_place h2 _), mask_or (mask_place h7 _)]

theorem encCA_low (base : BitVec 32) (rd : CRegIdx) (rs2 : CRegIdx) : bits (encCA base rd rs2) 0 2 = bits base 0 2 := by
  simp (disch := omega) only [encCA, bits_or, bits_place_disjoint, or_zero_word]

theorem encCA_high (base : BitVec 32) (rd : CRegIdx) (rs2 : CRegIdx) : bits (encCA base rd rs2) 16 16 = bits base 16 16
    := by
  simp (disch := omega) only [encCA, bits_or, bits_place_disjoint, or_zero_word]

/-! ### encCB -/

theorem encCB_fields {base : BitVec 32} (h2 : bits base 2 1 = 0) (h3 : bits base 3 2 = 0) (h5 : bits base 5 2 = 0) (h7
    : bits base 7 3 = 0) (h10 : bits base 10 2 = 0) (h12 : bits base 12 1 = 0) (rs1 : CRegIdx) (off : BitVec 8) :
    fCRs1 (encCB base rs1 off) = rs1 ∧ fImmCB (encCB base rs1 off) = off := by
  refine ⟨?_, ?_⟩ <;>
    simp (disch := omega) only [encCB, fCRs1, fImmCB, bits_or, bits_place_same, bits_place_disjoint, or_zero_word,
      zero_or_word, h2, h3, h5, h7, h10, h12]
  all_goals
    repeat rw [BitVec.extractLsb'_append_extractLsb'_eq_extractLsb' (by omega)]
    exact BitVec.extractLsb'_eq_self

theorem encCB_mask {base mask want : BitVec 32} (h2 : bits mask 2 1 = 0) (h3 : bits mask 3 2 = 0) (h5 : bits mask 5 2 =
    0) (h7 : bits mask 7 3 = 0) (h10 : bits mask 10 2 = 0) (h12 : bits mask 12 1 = 0) (rs1 : CRegIdx) (off : BitVec 8) :
    mask &&& (encCB base rs1 off ^^^ want) = mask &&& (base ^^^ want) := by
  simp only [encCB, mask_or (mask_place h2 _), mask_or (mask_place h3 _), mask_or (mask_place h5 _), mask_or
      (mask_place h7 _), mask_or (mask_place h10 _), mask_or (mask_place h12 _)]

theorem encCB_low (base : BitVec 32) (rs1 : CRegIdx) (off : BitVec 8) : bits (encCB base rs1 off) 0 2 = bits base 0 2
    := by
  simp (disch := omega) only [encCB, bits_or, bits_place_disjoint, or_zero_word]

theorem encCB_high (base : BitVec 32) (rs1 : CRegIdx) (off : BitVec 8) : bits (encCB base rs1 off) 16 16 = bits base 16
    16 := by
  simp (disch := omega) only [encCB, bits_or, bits_place_disjoint, or_zero_word]

/-! ### encCILw -/

theorem encCILw_fields {base : BitVec 32} (h2 : bits base 2 2 = 0) (h4 : bits base 4 3 = 0) (h7 : bits base 7 5 = 0)
    (h12 : bits base 12 1 = 0) (rd : RegIdx) (uimm : BitVec 6) :
    fRd (encCILw rd base uimm) = rd ∧ fImmCILw (encCILw rd base uimm) = uimm := by
  refine ⟨?_, ?_⟩ <;>
    simp (disch := omega) only [encCILw, fImmCILw, fRd, bits_or, bits_place_same, bits_place_disjoint, or_zero_word,
      zero_or_word, h2, h4, h7, h12]
  all_goals
    repeat rw [BitVec.extractLsb'_append_extractLsb'_eq_extractLsb' (by omega)]
    exact BitVec.extractLsb'_eq_self

theorem encCILw_mask {base mask want : BitVec 32} (h2 : bits mask 2 2 = 0) (h4 : bits mask 4 3 = 0) (h7 : bits mask 7 5
    = 0) (h12 : bits mask 12 1 = 0) (rd : RegIdx) (uimm : BitVec 6) :
    mask &&& (encCILw rd base uimm ^^^ want) = mask &&& (base ^^^ want) := by
  simp only [encCILw, mask_or (mask_place h2 _), mask_or (mask_place h4 _), mask_or (mask_place h7 _), mask_or
      (mask_place h12 _)]

theorem encCILw_low (base : BitVec 32) (rd : RegIdx) (uimm : BitVec 6) : bits (encCILw rd base uimm) 0 2 = bits base 0
    2 := by
  simp (disch := omega) only [encCILw, bits_or, bits_place_disjoint, or_zero_word]

theorem encCILw_high (base : BitVec 32) (rd : RegIdx) (uimm : BitVec 6) : bits (encCILw rd base uimm) 16 16 = bits base
    16 16 := by
  simp (disch := omega) only [encCILw, bits_or, bits_place_disjoint, or_zero_word]

/-! ### encCILd -/

theorem encCILd_fields {base : BitVec 32} (h2 : bits base 2 3 = 0) (h5 : bits base 5 2 = 0) (h7 : bits base 7 5 = 0)
    (h12 : bits base 12 1 = 0) (rd : RegIdx) (uimm : BitVec 6) :
    fRd (encCILd rd base uimm) = rd ∧ fImmCILd (encCILd rd base uimm) = uimm := by
  refine ⟨?_, ?_⟩ <;>
    simp (disch := omega) only [encCILd, fImmCILd, fRd, bits_or, bits_place_same, bits_place_disjoint, or_zero_word,
      zero_or_word, h2, h5, h7, h12]
  all_goals
    repeat rw [BitVec.extractLsb'_append_extractLsb'_eq_extractLsb' (by omega)]
    exact BitVec.extractLsb'_eq_self

theorem encCILd_mask {base mask want : BitVec 32} (h2 : bits mask 2 3 = 0) (h5 : bits mask 5 2 = 0) (h7 : bits mask 7 5
    = 0) (h12 : bits mask 12 1 = 0) (rd : RegIdx) (uimm : BitVec 6) :
    mask &&& (encCILd rd base uimm ^^^ want) = mask &&& (base ^^^ want) := by
  simp only [encCILd, mask_or (mask_place h2 _), mask_or (mask_place h5 _), mask_or (mask_place h7 _), mask_or
      (mask_place h12 _)]

theorem encCILd_low (base : BitVec 32) (rd : RegIdx) (uimm : BitVec 6) : bits (encCILd rd base uimm) 0 2 = bits base 0
    2 := by
  simp (disch := omega) only [encCILd, bits_or, bits_place_disjoint, or_zero_word]

theorem encCILd_high (base : BitVec 32) (rd : RegIdx) (uimm : BitVec 6) : bits (encCILd rd base uimm) 16 16 = bits base
    16 16 := by
  simp (disch := omega) only [encCILd, bits_or, bits_place_disjoint, or_zero_word]

/-! ### encCR -/

theorem encCR_fields {base : BitVec 32} (h2 : bits base 2 5 = 0) (h7 : bits base 7 5 = 0) (rd : RegIdx) (rs2 : RegIdx) :
    fRd (encCR base rd rs2) = rd ∧ fCRs2 (encCR base rd rs2) = rs2 := by
  refine ⟨?_, ?_⟩ <;>
    simp (disch := omega) only [encCR, fCRs2, fRd, bits_or, bits_place_same, bits_place_disjoint, or_zero_word,
      zero_or_word, h2, h7]

theorem encCR_mask {base mask want : BitVec 32} (h2 : bits mask 2 5 = 0) (h7 : bits mask 7 5 = 0) (rd : RegIdx) (rs2 :
    RegIdx) :
    mask &&& (encCR base rd rs2 ^^^ want) = mask &&& (base ^^^ want) := by
  simp only [encCR, mask_or (mask_place h2 _), mask_or (mask_place h7 _)]

theorem encCR_low (base : BitVec 32) (rd : RegIdx) (rs2 : RegIdx) : bits (encCR base rd rs2) 0 2 = bits base 0 2 := by
  simp (disch := omega) only [encCR, bits_or, bits_place_disjoint, or_zero_word]

theorem encCR_high (base : BitVec 32) (rd : RegIdx) (rs2 : RegIdx) : bits (encCR base rd rs2) 16 16 = bits base 16 16
    := by
  simp (disch := omega) only [encCR, bits_or, bits_place_disjoint, or_zero_word]

/-! ### encCSSw -/

theorem encCSSw_fields {base : BitVec 32} (h2 : bits base 2 5 = 0) (h7 : bits base 7 2 = 0) (h9 : bits base 9 4 = 0)
    (rs2 : RegIdx) (uimm : BitVec 6) :
    fCRs2 (encCSSw base rs2 uimm) = rs2 ∧ fImmCSSw (encCSSw base rs2 uimm) = uimm := by
  refine ⟨?_, ?_⟩ <;>
    simp (disch := omega) only [encCSSw, fCRs2, fImmCSSw, bits_or, bits_place_same, bits_place_disjoint, or_zero_word,
      zero_or_word, h2, h7, h9]
  all_goals
    repeat rw [BitVec.extractLsb'_append_extractLsb'_eq_extractLsb' (by omega)]
    exact BitVec.extractLsb'_eq_self

theorem encCSSw_mask {base mask want : BitVec 32} (h2 : bits mask 2 5 = 0) (h7 : bits mask 7 2 = 0) (h9 : bits mask 9 4
    = 0) (rs2 : RegIdx) (uimm : BitVec 6) :
    mask &&& (encCSSw base rs2 uimm ^^^ want) = mask &&& (base ^^^ want) := by
  simp only [encCSSw, mask_or (mask_place h2 _), mask_or (mask_place h7 _), mask_or (mask_place h9 _)]

theorem encCSSw_low (base : BitVec 32) (rs2 : RegIdx) (uimm : BitVec 6) : bits (encCSSw base rs2 uimm) 0 2 = bits base
    0 2 := by
  simp (disch := omega) only [encCSSw, bits_or, bits_place_disjoint, or_zero_word]

theorem encCSSw_high (base : BitVec 32) (rs2 : RegIdx) (uimm : BitVec 6) : bits (encCSSw base rs2 uimm) 16 16 = bits
    base 16 16 := by
  simp (disch := omega) only [encCSSw, bits_or, bits_place_disjoint, or_zero_word]

/-! ### encCSSd -/

theorem encCSSd_fields {base : BitVec 32} (h2 : bits base 2 5 = 0) (h7 : bits base 7 3 = 0) (h10 : bits base 10 3 = 0)
    (rs2 : RegIdx) (uimm : BitVec 6) :
    fCRs2 (encCSSd base rs2 uimm) = rs2 ∧ fImmCSSd (encCSSd base rs2 uimm) = uimm := by
  refine ⟨?_, ?_⟩ <;>
    simp (disch := omega) only [encCSSd, fCRs2, fImmCSSd, bits_or, bits_place_same, bits_place_disjoint, or_zero_word,
      zero_or_word, h2, h7, h10]
  all_goals
    repeat rw [BitVec.extractLsb'_append_extractLsb'_eq_extractLsb' (by omega)]
    exact BitVec.extractLsb'_eq_self

theorem encCSSd_mask {base mask want : BitVec 32} (h2 : bits mask 2 5 = 0) (h7 : bits mask 7 3 = 0) (h10 : bits mask 10
    3 = 0) (rs2 : RegIdx) (uimm : BitVec 6) :
    mask &&& (encCSSd base rs2 uimm ^^^ want) = mask &&& (base ^^^ want) := by
  simp only [encCSSd, mask_or (mask_place h2 _), mask_or (mask_place h7 _), mask_or (mask_place h10 _)]

theorem encCSSd_low (base : BitVec 32) (rs2 : RegIdx) (uimm : BitVec 6) : bits (encCSSd base rs2 uimm) 0 2 = bits base
    0 2 := by
  simp (disch := omega) only [encCSSd, bits_or, bits_place_disjoint, or_zero_word]

theorem encCSSd_high (base : BitVec 32) (rs2 : RegIdx) (uimm : BitVec 6) : bits (encCSSd base rs2 uimm) 16 16 = bits
    base 16 16 := by
  simp (disch := omega) only [encCSSd, bits_or, bits_place_disjoint, or_zero_word]

end Sys2Proof
end

