-- ==== Sys2Proof/Laws/HostPort.lean ====
section
/-! SUPPORT. What the host's writes do: a sequence of port writes byte by byte, the drawn memory as one, and the writes of a record
stream. -/

namespace Sys2Proof.Machine

/-! ### portWrites -/

/-- Port writes change memory alone. -/
theorem State.portWrites_eq (s : State) (ws : List PortWrite) :
    s.portWrites ws = { s with mem := (s.portWrites ws).mem } := by
  unfold State.portWrites
  induction ws generalizing s with
  | nil => rfl
  | cons w ws ih => rw [List.foldl_cons, ih, s.storeBytes_eq w.1 w.2]

@[simp] theorem State.portWrites_cfg (s : State) (ws : List PortWrite) : (s.portWrites ws).cfg = s.cfg := by
  rw [State.portWrites_eq]
@[simp] theorem State.portWrites_xs (s : State) (ws : List PortWrite) : (s.portWrites ws).xs = s.xs := by
  rw [State.portWrites_eq]
@[simp] theorem State.portWrites_fs (s : State) (ws : List PortWrite) : (s.portWrites ws).fs = s.fs := by
  rw [State.portWrites_eq]
@[simp] theorem State.portWrites_pc (s : State) (ws : List PortWrite) : (s.portWrites ws).pc = s.pc := by
  rw [State.portWrites_eq]
@[simp] theorem State.portWrites_adv (s : State) (ws : List PortWrite) : (s.portWrites ws).adv = s.adv := by
  rw [State.portWrites_eq]
@[simp] theorem State.portWrites_resv (s : State) (ws : List PortWrite) : (s.portWrites ws).resv = s.resv := by
  rw [State.portWrites_eq]
@[simp] theorem State.portWrites_image (s : State) (ws : List PortWrite) : (s.portWrites ws).image = s.image := by
  rw [State.portWrites_eq]
@[simp] theorem State.portWrites_loadFailed (s : State) (ws : List PortWrite) :
    (s.portWrites ws).loadFailed = s.loadFailed := by rw [State.portWrites_eq]
@[simp] theorem State.portWrites_draws (s : State) (ws : List PortWrite) : (s.portWrites ws).draws = s.draws := by
  rw [State.portWrites_eq]
@[simp] theorem State.portWrites_getX (s : State) (ws : List PortWrite) (j : RegIdx) : (s.portWrites ws).getX j = s.getX j := by
  simp [State.getX, State.bits]

/-- Port writes to states that differ neither in parameters nor in memory leave the same memory. -/
theorem State.portWrites_mem_congr {s t : State} (hc : s.cfg = t.cfg) (hm : s.mem = t.mem) (ws : List PortWrite) :
    (s.portWrites ws).mem = (t.portWrites ws).mem := by
  have bytes : ∀ {s t : State} (_ : s.cfg = t.cfg) (_ : s.mem = t.mem) (a : Nat) (bs : List Byte),
      (s.storeBytes a bs).mem = (t.storeBytes a bs).mem := by
    intro s t hc hm a bs
    induction bs generalizing s t a with
    | nil => exact hm
    | cons b bs ih =>
      refine ih (by simpa using hc) ?_ _
      unfold State.writeByte
      rw [hc, hm]; split
      · rfl
      · exact hm
  induction ws generalizing s t with
  | nil => exact hm
  | cons w ws ih => exact ih (by simpa using hc) (bytes hc hm _ _)

/-- A port write inside the buffer, in the form of `lastWrite`. -/
theorem State.byteOf_storeBytes_getD (s : State) (a : Nat) (bs : List Byte) {k : Nat} (hk : k < s.cfg.memSize) :
    (s.storeBytes a bs).byteOf k = (if a ≤ k then bs[k - a]? else none).getD (s.byteOf k) := by
  rw [State.byteOf_storeBytes]
  by_cases ha : a ≤ k
  · by_cases hl : k < a + bs.length
    · rw [if_pos ⟨ha, hl, hk⟩, if_pos ha, List.getElem?_eq_getElem (by omega), Option.getD_some, List.getD_eq_getElem _ _ (by omega)]
    · rw [if_neg (fun h => hl h.2.1), if_pos ha, List.getElem?_eq_none (by omega), Option.getD_none]
  · rw [if_neg (fun h => ha h.1), if_neg ha, Option.getD_none]

/-- Port writes byte by byte: the last write that covers an address decides (R415). -/
theorem State.byteOf_portWrites (s : State) (ws : List PortWrite) {k : Nat} (hk : k < s.cfg.memSize) :
    (s.portWrites ws).byteOf k = (lastWrite ws k).getD (s.byteOf k) := by
  induction ws generalizing s with
  | nil => rw [lastWrite, Option.getD_none]; exact congrArg (fun t => State.byteOf t k) (List.foldl_nil)
  | cons w ws ih =>
    have e : s.portWrites (w :: ws) = (s.storeBytes w.1 w.2).portWrites ws := List.foldl_cons ..
    rw [e, ih _ (by rw [State.storeBytes_cfg]; exact hk), State.byteOf_storeBytes_getD _ _ _ hk, lastWrite]
    cases lastWrite ws k with
    | some b => rw [Option.some_or, Option.getD_some, Option.getD_some]
    | none => rw [Option.none_or, Option.getD_none]

theorem State.portWrites_memWf {s : State} (h : s.MemWf) (ws : List PortWrite) : (s.portWrites ws).MemWf := by
  unfold State.portWrites
  induction ws generalizing s with
  | nil => exact h
  | cons w ws ih => exact ih (State.storeBytes_memWf h w.1 w.2)

/-! ### The drawn memory -/

/-- Drawn bytes are one-byte port writes. -/
theorem State.drawMemory_eq (s : State) (cells : List Host.Cell) :
    s.drawMemory cells = s.portWrites (cells.map fun c => (c.1, [c.2])) := by
  rw [State.portWrites, List.foldl_map]; rfl

/-- Every byte of a fresh state is the drawn one. -/
theorem State.byteOf_fresh (c : Params) (fill : ResetFill) {k : Nat} (hk : k < c.memSize) :
    (State.fresh c fill).byteOf k = filledByte c fill k := by
  rw [State.fresh, State.drawMemory_eq, State.byteOf_portWrites _ _ hk]; rfl

@[simp] theorem State.fresh_cfg (c : Params) (fill : ResetFill) : (State.fresh c fill).cfg = c := by
  rw [State.fresh, State.drawMemory_eq, State.portWrites_cfg]; rfl

theorem State.fresh_memWf (c : Params) (fill : ResetFill) : (State.fresh c fill).MemWf := by
  rw [State.fresh, State.drawMemory_eq]; exact State.portWrites_memWf (Memory.wf_nil _ _) _

/-! ### Record streams -/

/-- The writes of a stream of well-formed records. -/
theorem streamWrites_records (offset : Nat) {records : List LoadRecord} (h : ∀ r ∈ records, r.countMismatch = false) :
    streamWrites offset (records.map .record) = (dataWrites offset records, none) := by
  induction records with
  | nil => rfl
  | cons r rs ih =>
    have hr := h r List.mem_cons_self
    rw [List.map_cons, streamWrites, ih (fun r' h' => h r' (List.mem_cons_of_mem _ h')), if_neg (by simp [hr])]
    cases hk : r.kind <;> simp [dataWrites, LoadRecord.write, hk]

/-- The writes of a stream up to its first malformed record. -/
theorem streamWrites_malformed (offset : Nat) {good : List LoadRecord} (h : ∀ r ∈ good, r.countMismatch = false)
    {bad : LoadItem} (hb : ∀ r, bad = .record r → r.countMismatch = true) (later : List LoadItem) :
    ∃ reason, streamWrites offset (good.map .record ++ bad :: later) = (dataWrites offset good, some reason) := by
  induction good with
  | nil =>
    cases bad with
    | malformed reason => exact ⟨reason, rfl⟩
    | record r => exact ⟨_, by rw [List.map_nil, List.nil_append, streamWrites, if_pos (hb r rfl)]; rfl⟩
  | cons r rs ih =>
    obtain ⟨reason, e⟩ := ih (fun r' h' => h r' (List.mem_cons_of_mem _ h'))
    have hr := h r List.mem_cons_self
    refine ⟨reason, ?_⟩
    rw [List.map_cons, List.cons_append, streamWrites, e, if_neg (by simp [hr])]
    cases hk : r.kind <;> simp [dataWrites, LoadRecord.write, hk]

end Sys2Proof.Machine
end

