-- ==== Sys2Proof/Laws/Outcome.lean ====
section
/-! SUPPORT. The four outcomes of an instruction, each with what is known where it is taken: the hazard check, an access stopped by the
`fault` setting, a division corner refused, or a next state. -/

namespace Sys2Proof.Machine

/-- The hazard check stops the instruction, at this destination (R421). -/
abbrev Hazards (i : Instr) (s : State) (rd : RegIdx) : Prop :=
  i.effective.op ∈ s.cfg.hazardSet ∧ i.dest = some rd ∧ rd ≠ 0 ∧ rd ∈ i.sources

/-- The outcomes of an instruction. -/
inductive ExecOutcome (i : Instr) (s : State) : Result → Prop where
  /-- Stopped by the hazard check. -/
  | hazard (rd : RegIdx) (h : Hazards i s rd) : ExecOutcome i s (.fault (.dataHazard rd))
  /-- Stopped at the end of the buffer. -/
  | outside (free : ∀ rd, ¬ Hazards i s rd) (a n : Nat) (span : loadSpan i s = some (a, n) ∨ storeSpan i s = some (a, n))
      (stops : s.accessStops a n = true) : ExecOutcome i s (.fault (.accessOutsideBuffer a n))
  /-- Refused at a division corner. -/
  | corner (free : ∀ rd, ¬ Hazards i s rd) (noLoad : loadSpan i s = none) (noStore : storeSpan i s = none)
      (refuse : s.cfg.divCorners = .refuse) : ExecOutcome i s (.refused .divisionCorner)
  /-- Completed. -/
  | completes (free : ∀ rd, ¬ Hazards i s rd)
      (inside : ∀ a n, loadSpan i s = some (a, n) ∨ storeSpan i s = some (a, n) → s.accessStops a n = false) (t : State) :
      ExecOutcome i s (.next t)

theorem completes_of_no_span {i : Instr} {s : State} (hf : ∀ rd, ¬ Hazards i s rd) (hl : loadSpan i s = none)
    (hs : storeSpan i s = none) (t : State) : ExecOutcome i s (.next t) :=
  .completes hf (by rw [hl, hs]; rintro a n (h | h) <;> cases h) t

theorem checked_outcome {i : Instr} {s : State} {d : Op} {rd : RegIdx} {reads : List RegIdx} {r : Result}
    (ho : i.effective.op = d) (hd : i.dest = some rd) (hr : i.sources = reads)
    (h : (∀ rd, ¬ Hazards i s rd) → ExecOutcome i s r) : ExecOutcome i s (checked d rd reads s r) := by
  by_cases hz : d ∈ s.cfg.hazardSet ∧ rd ≠ 0 ∧ rd ∈ reads
  · rw [checked_of_hazard hz]
    exact .hazard rd ⟨by rw [ho]; exact hz.1, hd, hz.2.1, by rw [hr]; exact hz.2.2⟩
  · rw [checked_of_free hz]
    refine h ?_
    rintro rd' ⟨h1, h2, h3, h4⟩
    rw [hd] at h2
    cases h2
    exact hz ⟨by rw [← ho]; exact h1, h3, by rw [← hr]; exact h4⟩

theorem aluImm_outcome {i : Instr} {s : State} {d : Op} {f : Word → Word → Word} {rd rs1 : RegIdx} {b : Word}
    (ho : i.effective.op = d) (hd : i.dest = some rd) (hr : i.sources = [rs1]) (hl : loadSpan i s = none)
    (hs : storeSpan i s = none) : ExecOutcome i s (aluImm d f rd rs1 b s) :=
  checked_outcome ho hd hr fun hf => completes_of_no_span hf hl hs _

theorem aluReg_outcome {i : Instr} {s : State} {d : Op} {f : Word → Word → Word} {rd rs1 rs2 : RegIdx}
    (ho : i.effective.op = d) (hd : i.dest = some rd) (hr : i.sources = [rs1, rs2]) (hl : loadSpan i s = none)
    (hs : storeSpan i s = none) : ExecOutcome i s (aluReg d f rd rs1 rs2 s) :=
  checked_outcome ho hd hr fun hf => completes_of_no_span hf hl hs _

theorem aluDiv_outcome {i : Instr} {s : State} {d : Op} {corner : Word → Word → Bool} {f : Word → Word → Word}
    {rd rs1 rs2 : RegIdx} (ho : i.effective.op = d) (hd : i.dest = some rd) (hr : i.sources = [rs1, rs2])
    (hl : loadSpan i s = none) (hs : storeSpan i s = none) : ExecOutcome i s (aluDiv d corner f rd rs1 rs2 s) :=
  checked_outcome ho hd hr fun hf => by
    split
    · rename_i h
      rw [Bool.and_eq_true, beq_iff_eq] at h
      exact .corner hf hl hs h.1
    · exact completes_of_no_span hf hl hs _

theorem loadInto_outcome {i : Instr} {s : State} {d : Op} {rd : RegIdx} {reads : List RegIdx} {ea : Word} {n : Nat}
    {ext : Word → Word} (ho : i.effective.op = d) (hd : i.dest = some rd) (hr : i.sources = reads)
    (hl : loadSpan i s = some (ea.toNat, n)) (hs : storeSpan i s = none) :
    ExecOutcome i s (loadInto d rd reads ea n ext s) :=
  checked_outcome ho hd hr fun hf => by
    split
    · rename_i h; exact .outside hf _ _ (.inl hl) h
    · rename_i h
      refine .completes hf ?_ _
      rw [hl, hs]
      rintro a m (e | e) <;> cases e
      exact Bool.eq_false_iff.mpr h

theorem loadReserved_outcome {i : Instr} {s : State} {d : Op} {rd : RegIdx} {reads : List RegIdx} {ea : Word} {n : Nat}
    {ext : Word → Word} (ho : i.effective.op = d) (hd : i.dest = some rd) (hr : i.sources = reads)
    (hl : loadSpan i s = some (ea.toNat, n)) (hs : storeSpan i s = none) :
    ExecOutcome i s (loadReserved d rd reads ea n ext s) :=
  checked_outcome ho hd hr fun hf => by
    split
    · rename_i h; exact .outside hf _ _ (.inl hl) h
    · rename_i h
      refine .completes hf ?_ _
      rw [hl, hs]
      rintro a m (e | e) <;> cases e
      exact Bool.eq_false_iff.mpr h

theorem next_outcome {i : Instr} {s : State} (hd : i.dest = none) (hl : loadSpan i s = none) (hs : storeSpan i s = none)
    (t : State) : ExecOutcome i s (.next t) :=
  completes_of_no_span (fun rd h => by rw [Hazards, hd] at h; cases h.2.1) hl hs t

theorem storeFrom_outcome {i : Instr} {s : State} {ea v : Word} {n : Nat} (hd : i.dest = none) (hl : loadSpan i s = none)
    (hs : storeSpan i s = some (ea.toNat, n)) : ExecOutcome i s (storeFrom ea n v s) := by
  have hf : ∀ rd, ¬ Hazards i s rd := fun rd h => by rw [Hazards, hd] at h; cases h.2.1
  unfold storeFrom
  split
  · rename_i h; exact .outside hf _ _ (.inr hs) h
  · rename_i h
    refine .completes hf ?_ _
    rw [hl, hs]
    rintro a m (e | e) <;> cases e
    exact Bool.eq_false_iff.mpr h

theorem storeConditional_outcome {i : Instr} {s : State} {d : Op} {rd : RegIdx} {reads : List RegIdx} {ea v : Word}
    {n : Nat} (ho : i.effective.op = d) (hd : i.dest = some rd) (hr : i.sources = reads) (hl : loadSpan i s = none)
    (hs : storeSpan i s = if s.resv = some ea then some (ea.toNat, n) else none) :
    ExecOutcome i s (storeConditional d rd reads ea n v s) :=
  checked_outcome ho hd hr fun hf => by
    split
    · rename_i hm
      rw [if_pos hm] at hs
      split
      · rename_i h; exact .outside hf _ _ (.inr hs) h
      · rename_i h
        refine .completes hf ?_ _
        rw [hl, hs]
        rintro a m (e | e) <;> cases e
        exact Bool.eq_false_iff.mpr h
    · rename_i hm
      rw [if_neg hm] at hs
      exact completes_of_no_span hf hl hs _

/-- What an instruction answers. -/
theorem exec_outcome (i : Instr) (s : State) : ExecOutcome i s (exec i s) := by
  cases i
  case lui => rw [exec_lui, execLui]; exact checked_outcome rfl rfl rfl fun hf => completes_of_no_span hf rfl rfl _
  case auipc => rw [exec_auipc, execAuipc]; exact checked_outcome rfl rfl rfl fun hf => completes_of_no_span hf rfl rfl _
  case jal => rw [exec_jal, execJal]; exact checked_outcome rfl rfl rfl fun hf => completes_of_no_span hf rfl rfl _
  case jalr => rw [exec_jalr, execJalr]; exact checked_outcome rfl rfl rfl fun hf => completes_of_no_span hf rfl rfl _
  case beq => rw [exec_beq, execBeq]; exact next_outcome rfl rfl rfl _
  case bne => rw [exec_bne, execBne]; exact next_outcome rfl rfl rfl _
  case blt => rw [exec_blt, execBlt]; exact next_outcome rfl rfl rfl _
  case bge => rw [exec_bge, execBge]; exact next_outcome rfl rfl rfl _
  case bltu => rw [exec_bltu, execBltu]; exact next_outcome rfl rfl rfl _
  case bgeu => rw [exec_bgeu, execBgeu]; exact next_outcome rfl rfl rfl _
  case lb => rw [exec_lb, execLb]; exact loadInto_outcome rfl rfl rfl rfl rfl
  case lh => rw [exec_lh, execLh]; exact loadInto_outcome rfl rfl rfl rfl rfl
  case lw => rw [exec_lw, execLw]; exact loadInto_outcome rfl rfl rfl rfl rfl
  case lbu => rw [exec_lbu, execLbu]; exact loadInto_outcome rfl rfl rfl rfl rfl
  case lhu => rw [exec_lhu, execLhu]; exact loadInto_outcome rfl rfl rfl rfl rfl
  case lwu => rw [exec_lwu, execLwu]; exact loadInto_outcome rfl rfl rfl rfl rfl
  case ld => rw [exec_ld, execLd]; exact loadInto_outcome rfl rfl rfl rfl rfl
  case sb => rw [exec_sb, execSb]; exact storeFrom_outcome rfl rfl rfl
  case sh => rw [exec_sh, execSh]; exact storeFrom_outcome rfl rfl rfl
  case sw => rw [exec_sw, execSw]; exact storeFrom_outcome rfl rfl rfl
  case sd => rw [exec_sd, execSd]; exact storeFrom_outcome rfl rfl rfl
  case addi => rw [exec_addi, execAddi]; exact aluImm_outcome rfl rfl rfl rfl rfl
  case slti => rw [exec_slti, execSlti]; exact aluImm_outcome rfl rfl rfl rfl rfl
  case sltiu => rw [exec_sltiu, execSltiu]; exact aluImm_outcome rfl rfl rfl rfl rfl
  case xori => rw [exec_xori, execXori]; exact aluImm_outcome rfl rfl rfl rfl rfl
  case ori => rw [exec_ori, execOri]; exact aluImm_outcome rfl rfl rfl rfl rfl
  case andi => rw [exec_andi, execAndi]; exact aluImm_outcome rfl rfl rfl rfl rfl
  case slli => rw [exec_slli, execSlli]; exact aluImm_outcome rfl rfl rfl rfl rfl
  case srli => rw [exec_srli, execSrli]; exact aluImm_outcome rfl rfl rfl rfl rfl
  case srai => rw [exec_srai, execSrai]; exact aluImm_outcome rfl rfl rfl rfl rfl
  case add => rw [exec_add, execAdd]; exact aluReg_outcome rfl rfl rfl rfl rfl
  case sub => rw [exec_sub, execSub]; exact aluReg_outcome rfl rfl rfl rfl rfl
  case sll => rw [exec_sll, execSll]; exact aluReg_outcome rfl rfl rfl rfl rfl
  case slt => rw [exec_slt, execSlt]; exact aluReg_outcome rfl rfl rfl rfl rfl
  case sltu => rw [exec_sltu, execSltu]; exact aluReg_outcome rfl rfl rfl rfl rfl
  case xor => rw [exec_xor, execXor]; exact aluReg_outcome rfl rfl rfl rfl rfl
  case srl => rw [exec_srl, execSrl]; exact aluReg_outcome rfl rfl rfl rfl rfl
  case sra => rw [exec_sra, execSra]; exact aluReg_outcome rfl rfl rfl rfl rfl
  case or => rw [exec_or, execOr]; exact aluReg_outcome rfl rfl rfl rfl rfl
  case and => rw [exec_and, execAnd]; exact aluReg_outcome rfl rfl rfl rfl rfl
  case fence => rw [exec_fence, execFence]; exact next_outcome rfl rfl rfl _
  case ecall => rw [exec_ecall, execEcall]; exact next_outcome rfl rfl rfl _
  case ebreak => rw [exec_ebreak, execEbreak]; exact next_outcome rfl rfl rfl _
  case addiw => rw [exec_addiw, execAddiw]; exact aluImm_outcome rfl rfl rfl rfl rfl
  case slliw => rw [exec_slliw, execSlliw]; exact aluImm_outcome rfl rfl rfl rfl rfl
  case srliw => rw [exec_srliw, execSrliw]; exact aluImm_outcome rfl rfl rfl rfl rfl
  case sraiw => rw [exec_sraiw, execSraiw]; exact aluImm_outcome rfl rfl rfl rfl rfl
  case addw => rw [exec_addw, execAddw]; exact aluReg_outcome rfl rfl rfl rfl rfl
  case subw => rw [exec_subw, execSubw]; exact aluReg_outcome rfl rfl rfl rfl rfl
  case sllw => rw [exec_sllw, execSllw]; exact aluReg_outcome rfl rfl rfl rfl rfl
  case srlw => rw [exec_srlw, execSrlw]; exact aluReg_outcome rfl rfl rfl rfl rfl
  case sraw => rw [exec_sraw, execSraw]; exact aluReg_outcome rfl rfl rfl rfl rfl
  case fenceI => rw [exec_fenceI, execFenceI]; exact next_outcome rfl rfl rfl _
  case csrrw => rw [exec_csrrw, execCsrrw]; exact next_outcome rfl rfl rfl _
  case csrrs => rw [exec_csrrs, execCsrrs]; exact next_outcome rfl rfl rfl _
  case csrrc => rw [exec_csrrc, execCsrrc]; exact next_outcome rfl rfl rfl _
  case csrrwi => rw [exec_csrrwi, execCsrrwi]; exact next_outcome rfl rfl rfl _
  case csrrsi => rw [exec_csrrsi, execCsrrsi]; exact next_outcome rfl rfl rfl _
  case csrrci => rw [exec_csrrci, execCsrrci]; exact next_outcome rfl rfl rfl _
  case mul => rw [exec_mul, execMul]; exact aluReg_outcome rfl rfl rfl rfl rfl
  case mulh => rw [exec_mulh, execMulh]; exact aluReg_outcome rfl rfl rfl rfl rfl
  case mulhsu => rw [exec_mulhsu, execMulhsu]; exact aluReg_outcome rfl rfl rfl rfl rfl
  case mulhu => rw [exec_mulhu, execMulhu]; exact aluReg_outcome rfl rfl rfl rfl rfl
  case div => rw [exec_div, execDiv]; exact aluDiv_outcome rfl rfl rfl rfl rfl
  case divu => rw [exec_divu, execDivu]; exact aluDiv_outcome rfl rfl rfl rfl rfl
  case rem => rw [exec_rem, execRem]; exact aluDiv_outcome rfl rfl rfl rfl rfl
  case remu => rw [exec_remu, execRemu]; exact aluDiv_outcome rfl rfl rfl rfl rfl
  case mulw => rw [exec_mulw, execMulw]; exact aluReg_outcome rfl rfl rfl rfl rfl
  case divw => rw [exec_divw, execDivw]; exact aluDiv_outcome rfl rfl rfl rfl rfl
  case divuw => rw [exec_divuw, execDivuw]; exact aluDiv_outcome rfl rfl rfl rfl rfl
  case remw => rw [exec_remw, execRemw]; exact aluDiv_outcome rfl rfl rfl rfl rfl
  case remuw => rw [exec_remuw, execRemuw]; exact aluDiv_outcome rfl rfl rfl rfl rfl
  case lrW => rw [exec_lrW, execLrW]; exact loadReserved_outcome rfl rfl rfl rfl rfl
  case scW => rw [exec_scW, execScW]; exact storeConditional_outcome rfl rfl rfl rfl rfl
  case lrD => rw [exec_lrD, execLrD]; exact loadReserved_outcome rfl rfl rfl rfl rfl
  case scD => rw [exec_scD, execScD]; exact storeConditional_outcome rfl rfl rfl rfl rfl
  case cInvalid => rw [exec_cInvalid, execCInvalid]; exact next_outcome rfl rfl rfl _
  case cAddi4spnRes => rw [exec_cAddi4spnRes, execCAddi4spnRes]; exact next_outcome rfl rfl rfl _
  case cAddi4spn => rw [exec_cAddi4spn, execCAddi4spn, execAddi]; exact aluImm_outcome rfl rfl rfl rfl rfl
  case cFld => rw [exec_cFld, execCFld]; exact next_outcome rfl rfl rfl _
  case cLw => rw [exec_cLw, execCLw, execLw]; exact loadInto_outcome rfl rfl rfl rfl rfl
  case cFlw => rw [exec_cFlw, execCFlw]; exact next_outcome rfl rfl rfl _
  case cLd => rw [exec_cLd, execCLd, execLd]; exact loadInto_outcome rfl rfl rfl rfl rfl
  case cFsd => rw [exec_cFsd, execCFsd]; exact next_outcome rfl rfl rfl _
  case cSw => rw [exec_cSw, execCSw, execSw]; exact storeFrom_outcome rfl rfl rfl
  case cFsw => rw [exec_cFsw, execCFsw]; exact next_outcome rfl rfl rfl _
  case cSd => rw [exec_cSd, execCSd, execSd]; exact storeFrom_outcome rfl rfl rfl
  case cNop => rw [exec_cNop, execCNop, execAddi]; exact aluImm_outcome rfl rfl rfl rfl rfl
  case cAddi => rw [exec_cAddi, execCAddi, execAddi]; exact aluImm_outcome rfl rfl rfl rfl rfl
  case cJal => rw [exec_cJal, execCJal, execJal]; exact checked_outcome rfl rfl rfl fun hf => completes_of_no_span hf rfl rfl _
  case cAddiwRes => rw [exec_cAddiwRes, execCAddiwRes]; exact next_outcome rfl rfl rfl _
  case cAddiw => rw [exec_cAddiw, execCAddiw, execAddiw]; exact aluImm_outcome rfl rfl rfl rfl rfl
  case cLi => rw [exec_cLi, execCLi, execAddi]; exact aluImm_outcome rfl rfl rfl rfl rfl
  case cAddi16spRes => rw [exec_cAddi16spRes, execCAddi16spRes]; exact next_outcome rfl rfl rfl _
  case cAddi16sp => rw [exec_cAddi16sp, execCAddi16sp, execAddi]; exact aluImm_outcome rfl rfl rfl rfl rfl
  case cLuiRes => rw [exec_cLuiRes, execCLuiRes]; exact next_outcome rfl rfl rfl _
  case cLui => rw [exec_cLui, execCLui, execLui]; exact checked_outcome rfl rfl rfl fun hf => completes_of_no_span hf rfl rfl _
  case cSrli => rw [exec_cSrli, execCSrli, execSrli]; exact aluImm_outcome rfl rfl rfl rfl rfl
  case cSrai => rw [exec_cSrai, execCSrai, execSrai]; exact aluImm_outcome rfl rfl rfl rfl rfl
  case cAndi => rw [exec_cAndi, execCAndi, execAndi]; exact aluImm_outcome rfl rfl rfl rfl rfl
  case cSub => rw [exec_cSub, execCSub, execSub]; exact aluReg_outcome rfl rfl rfl rfl rfl
  case cXor => rw [exec_cXor, execCXor, execXor]; exact aluReg_outcome rfl rfl rfl rfl rfl
  case cOr => rw [exec_cOr, execCOr, execOr]; exact aluReg_outcome rfl rfl rfl rfl rfl
  case cAnd => rw [exec_cAnd, execCAnd, execAnd]; exact aluReg_outcome rfl rfl rfl rfl rfl
  case cSubw => rw [exec_cSubw, execCSubw, execSubw]; exact aluReg_outcome rfl rfl rfl rfl rfl
  case cAddw => rw [exec_cAddw, execCAddw, execAddw]; exact aluReg_outcome rfl rfl rfl rfl rfl
  case cJ => rw [exec_cJ, execCJ, execJal]; exact checked_outcome rfl rfl rfl fun hf => completes_of_no_span hf rfl rfl _
  case cBeqz => rw [exec_cBeqz, execCBeqz, execBeq]; exact next_outcome rfl rfl rfl _
  case cBnez => rw [exec_cBnez, execCBnez, execBne]; exact next_outcome rfl rfl rfl _
  case cSlli => rw [exec_cSlli, execCSlli, execSlli]; exact aluImm_outcome rfl rfl rfl rfl rfl
  case cFldsp => rw [exec_cFldsp, execCFldsp]; exact next_outcome rfl rfl rfl _
  case cLwspRes => rw [exec_cLwspRes, execCLwspRes]; exact next_outcome rfl rfl rfl _
  case cLwsp => rw [exec_cLwsp, execCLwsp, execLw]; exact loadInto_outcome rfl rfl rfl rfl rfl
  case cFlwsp => rw [exec_cFlwsp, execCFlwsp]; exact next_outcome rfl rfl rfl _
  case cLdspRes => rw [exec_cLdspRes, execCLdspRes]; exact next_outcome rfl rfl rfl _
  case cLdsp => rw [exec_cLdsp, execCLdsp, execLd]; exact loadInto_outcome rfl rfl rfl rfl rfl
  case cJrRes => rw [exec_cJrRes, execCJrRes]; exact next_outcome rfl rfl rfl _
  case cJr => rw [exec_cJr, execCJr, execJalr]; exact checked_outcome rfl rfl rfl fun hf => completes_of_no_span hf rfl rfl _
  case cMv => rw [exec_cMv, execCMv, execAdd]; exact aluReg_outcome rfl rfl rfl rfl rfl
  case cEbreak => rw [exec_cEbreak, execCEbreak, execEbreak]; exact next_outcome rfl rfl rfl _
  case cJalr => rw [exec_cJalr, execCJalr, execJalr]; exact checked_outcome rfl rfl rfl fun hf => completes_of_no_span hf rfl rfl _
  case cAdd => rw [exec_cAdd, execCAdd, execAdd]; exact aluReg_outcome rfl rfl rfl rfl rfl
  case cFsdsp => rw [exec_cFsdsp, execCFsdsp]; exact next_outcome rfl rfl rfl _
  case cSwsp => rw [exec_cSwsp, execCSwsp, execSw]; exact storeFrom_outcome rfl rfl rfl
  case cFswsp => rw [exec_cFswsp, execCFswsp]; exact next_outcome rfl rfl rfl _
  case cSdsp => rw [exec_cSdsp, execCSdsp, execSd]; exact storeFrom_outcome rfl rfl rfl

end Sys2Proof.Machine
end

