-- ==== Sys2Proof/Tests/Slice0.lean ====
section
/-! SUPPORT. The model's own tests. Expected results are the spec's: the words and results of the "Example" of each rule, the vectors of
95_test_vectors.md, and words written out field by field from R81 and R82. Then, for each obligation with hypotheses, a named
theorem that shows a state and operands that meet them. -/

namespace Sys2Proof.Tests

open Sys2Proof.Machine

/- One theorem at a time: many kernel evaluations side by side need more threads than the check's memory limit allows. -/
set_option Elab.async false

/-! ### Well-formedness refuses each ill-formed term -/

/-- What the check answers for each term of a list. -/
def wfAll (xl : Xlen) (l : List Instr) : List Bool := l.map (·.wf xl)

theorem test_wf_refuses_rv64_only_on_rv32 : wfAll .rv32 [.lwu 1 2 0, .ld 1 2 0, .sd 1 2 0, .addiw 1 2 0, .slliw 1 2 0, .srliw 1 2 0,
    .sraiw 1 2 0, .addw 1 2 3, .subw 1 2 3, .sllw 1 2 3, .srlw 1 2 3, .sraw 1 2 3, .mulw 1 2 3, .divw 1 2 3, .divuw 1 2 3,
    .remw 1 2 3, .remuw 1 2 3, .lrD 1 2 0 0, .scD 1 2 3 0 0, .cLd 0 0 0, .cSd 0 0 0, .cAddiwRes 0, .cAddiw 1 0, .cSubw 0 1,
    .cAddw 0 1, .cLdspRes 0, .cLdsp 1 0, .cSdsp 1 0] = List.replicate 28 false := by decide

theorem test_wf_refuses_rv32_only_on_rv64 : wfAll .rv64 [.cFlw 0 0 0, .cFsw 0 0 0, .cJal 0, .cFlwsp 1 0, .cFswsp 1 0] =
    List.replicate 5 false := by decide

theorem test_wf_refuses_wide_shift_on_rv32 : wfAll .rv32 [.slli 1 2 32, .srli 1 2 32, .srai 1 2 63, .cSrli 0 32, .cSrai 0 63,
    .cSlli 1 32] = List.replicate 6 false := by decide

theorem test_wf_refuses_fields_of_other_rows : wfAll .rv64 [.cAddi4spnRes 0, .cAddi4spn 0 0, .cAddi 0 0, .cAddiw 0 1, .cAddi16sp 0,
    .cLuiRes 2, .cLui 2 1, .cLui 1 0, .cLwsp 0 1, .cLdsp 0 1, .cJr 0, .cMv 1 0, .cJalr 0, .cAdd 1 0] =
    List.replicate 14 false := by decide

theorem test_wf_accepts : wfAll .rv64 [.slli 1 2 63, .cAddi 0 1, .cAddi 1 0, .cLui 0 1, .cMv 0 1, .cAddiw 1 0, .ecall, .cInvalid] =
    List.replicate 8 true := by decide

/-! ### Decoding: a word of the spec for every constructor -/

/-- Every word decodes to the instruction beside it. -/
def decodesAll (xl : Xlen) (l : List (BitVec 32 × Instr)) : Bool := l.all fun p => decide (decodeWord xl p.1 = some p.2)

theorem test_decode_upper_and_jumps : decodesAll .rv64 [(0xffffffb7, .lui 31 (-1)), (0x123452b7, .lui 5 0x12345),
    (0x00001317, .auipc 6 1), (0x010000ef, .jal 1 8), (0xf01ff0ef, .jal 1 (-128)), (0x8000006f, .jal 0 (-524288)),
    (0x008280e7, .jalr 1 5 8), (0xffd282e7, .jalr 5 5 (-3))] := by decide +kernel

theorem test_decode_branches : decodesAll .rv64 [(0x00208863, .beq 1 2 8), (0x7e000fe3, .beq 0 0 2047), (0x80000063, .beq 0 0 (-2048)),
    (0x00000163, .beq 0 0 1), (0x00209863, .bne 1 2 8), (0x0020c863, .blt 1 2 8), (0x0020d863, .bge 1 2 8),
    (0x0020e863, .bltu 1 2 8), (0x0020f863, .bgeu 1 2 8)] := by decide +kernel

theorem test_decode_loads : decodesAll .rv64 [(0xffc08283, .lb 5 1 (-4)), (0x00709283, .lh 5 1 7), (0x0070a283, .lw 5 1 7),
    (0x0070c283, .lbu 5 1 7), (0xffc0d283, .lhu 5 1 (-4)), (0x0070e283, .lwu 5 1 7), (0x0010b283, .ld 5 1 1)] := by decide +kernel

theorem test_decode_stores : decodesAll .rv64 [(0xfe208fa3, .sb 1 2 (-1)), (0x00209423, .sh 1 2 8), (0x0020a423, .sw 1 2 8),
    (0xfe20bfa3, .sd 1 2 (-1))] := by decide +kernel

theorem test_decode_immediates : decodesAll .rv64 [(0xffe08293, .addi 5 1 (-2)), (0xfff0a293, .slti 5 1 (-1)),
    (0x0010b293, .sltiu 5 1 1), (0xfff0c293, .xori 5 1 (-1)), (0x0f00e293, .ori 5 1 240), (0x0ff0f293, .andi 5 1 255),
    (0x03f09293, .slli 5 1 63), (0x0040d293, .srli 5 1 4), (0x4040d293, .srai 5 1 4)] := by decide +kernel

theorem test_decode_registers : decodesAll .rv64 [(0x002082b3, .add 5 1 2), (0x402082b3, .sub 5 1 2), (0x002092b3, .sll 5 1 2),
    (0x0020a2b3, .slt 5 1 2), (0x002032b3, .sltu 5 0 2), (0x0020c2b3, .xor 5 1 2), (0x0020d2b3, .srl 5 1 2),
    (0x4020d2b3, .sra 5 1 2), (0x0020e2b3, .or 5 1 2), (0x0020f2b3, .and 5 1 2)] := by decide +kernel

theorem test_decode_word_variants : decodesAll .rv64 [(0x0010829b, .addiw 5 1 1), (0x01f0929b, .slliw 5 1 31),
    (0x0010d29b, .srliw 5 1 1), (0x4010d29b, .sraiw 5 1 1), (0x002082bb, .addw 5 1 2), (0x402082bb, .subw 5 1 2),
    (0x002092bb, .sllw 5 1 2), (0x0020d2bb, .srlw 5 1 2), (0x4020d2bb, .sraw 5 1 2)] := by decide +kernel

theorem test_decode_multiply_divide : decodesAll .rv64 [(0x022082b3, .mul 5 1 2), (0x022092b3, .mulh 5 1 2), (0x0220a2b3, .mulhsu 5 1 2),
    (0x0220b2b3, .mulhu 5 1 2), (0x0220c2b3, .div 5 1 2), (0x0220d2b3, .divu 5 1 2), (0x0220e2b3, .rem 5 1 2),
    (0x0220f2b3, .remu 5 1 2), (0x022082bb, .mulw 5 1 2), (0x0220c2bb, .divw 5 1 2), (0x0220d2bb, .divuw 5 1 2),
    (0x0220e2bb, .remw 5 1 2), (0x0220f2bb, .remuw 5 1 2)] := by decide +kernel

theorem test_decode_system : decodesAll .rv64 [(0x0c30000f, .fence 0 12 3 0 0), (0x0000100f, .fenceI 0 0 0), (0x00000073, .ecall),
    (0x00100073, .ebreak), (0x34011073, .csrrw 0 0x340 2), (0xc0002573, .csrrs 10 0xc00 0), (0x3000b073, .csrrc 0 0x300 1),
    (0x30045073, .csrrwi 0 0x300 8), (0x30046073, .csrrsi 0 0x300 8), (0x30047073, .csrrci 0 0x300 8)] := by decide +kernel

theorem test_decode_atomic : decodesAll .rv64 [(0x1000a2af, .lrW 5 1 0 0), (0x1600a2af, .lrW 5 1 1 1), (0x1820a32f, .scW 6 1 2 0 0),
    (0x1000b2af, .lrD 5 1 0 0), (0x1820b32f, .scD 6 1 2 0 0)] := by decide +kernel

theorem test_decode_compressed_quadrant_0 : decodesAll .rv64 [(0x0000, .cInvalid), (0x0004, .cAddi4spnRes 1), (0x0040, .cAddi4spn 0 1),
    (0x1ffc, .cAddi4spn 7 255), (0x0028, .cAddi4spn 2 2), (0x2000, .cFld 0 0 0), (0x4044, .cLw 1 0 1), (0x5c7c, .cLw 7 0 31),
    (0x6404, .cLd 1 0 1), (0x7c64, .cLd 1 0 31), (0xa000, .cFsd 0 0 0), (0xc404, .cSw 0 1 2), (0xe404, .cSd 0 1 1)] := by
  decide +kernel

theorem test_decode_compressed_quadrant_1 : decodesAll .rv64 [(0x0001, .cNop), (0x157d, .cAddi 10 (-1)), (0x057d, .cAddi 10 31),
    (0x000d, .cAddi 0 3), (0x2005, .cAddiwRes 1), (0x2505, .cAddiw 10 1), (0x5501, .cLi 10 (-32)), (0x6101, .cAddi16spRes),
    (0x7101, .cAddi16sp (-32)), (0x617d, .cAddi16sp 31), (0x6501, .cLuiRes 10), (0x757d, .cLui 10 (-1)), (0x8011, .cSrli 0 4),
    (0x947d, .cSrai 0 63), (0x9841, .cAndi 0 (-16)), (0x8c05, .cSub 0 1), (0x8c25, .cXor 0 1), (0x8c45, .cOr 0 1),
    (0x8c65, .cAnd 0 1), (0x9c05, .cSubw 0 1), (0x9c25, .cAddw 0 1)] := by decide +kernel

theorem test_decode_compressed_transfers : decodesAll .rv64 [(0xbffd, .cJ (-1)), (0xaffd, .cJ 1023), (0xb001, .cJ (-1024)),
    (0xc801, .cBeqz 0 8), (0xd001, .cBeqz 0 (-128)), (0xec7d, .cBnez 0 127), (0xfc75, .cBnez 0 (-2))] := by decide +kernel

theorem test_decode_compressed_quadrant_2 : decodesAll .rv64 [(0x157e, .cSlli 10 63), (0x2002, .cFldsp 0 0), (0x4012, .cLwspRes 1),
    (0x4512, .cLwsp 10 1), (0x557e, .cLwsp 10 63), (0x6022, .cLdspRes 1), (0x6522, .cLdsp 10 1), (0x757e, .cLdsp 10 63),
    (0x8002, .cJrRes), (0x8082, .cJr 1), (0x852e, .cMv 10 11), (0x9002, .cEbreak), (0x9282, .cJalr 5), (0x952e, .cAdd 10 11),
    (0xa002, .cFsdsp 0 0), (0xc426, .cSwsp 9 2), (0xdfa6, .cSwsp 9 63), (0xe426, .cSdsp 9 1), (0xffa6, .cSdsp 9 63)] := by
  decide +kernel

theorem test_decode_compressed_rv32 : decodesAll .rv32 [(0x6000, .cFlw 0 0 0), (0xe404, .cFsw 0 1 2), (0x2801, .cJal 8),
    (0x2005, .cJal 16), (0x6522, .cFlwsp 10 2), (0x6022, .cFlwsp 0 2), (0xe426, .cFswsp 9 2)] := by decide +kernel

/-- One word of each family, written out field by field from R81, most significant field first. -/
theorem test_decode_written_out_32 : decodesAll .rv64 [(0b10000000000000000001#20 ++ 7#5 ++ 0b0110111#7, .lui 7 0x80001),
    (0b1#1 ++ 0b0000000011#10 ++ 0b1#1 ++ 0b10000001#8 ++ 3#5 ++ 0b1101111#7, .jal 3 0b1_10000001_1_0000000011#20),
    (0b1#1 ++ 0b000011#6 ++ 9#5 ++ 8#5 ++ 0b101#3 ++ 0b0101#4 ++ 0b1#1 ++ 0b1100011#7, .bge 8 9 0b1_1_000011_0101#12),
    (0b1000001#7 ++ 9#5 ++ 8#5 ++ 0b001#3 ++ 0b00011#5 ++ 0b0100011#7, .sh 8 9 0b1000001_00011#12),
    (0b100000000011#12 ++ 8#5 ++ 0b100#3 ++ 3#5 ++ 0b0000011#7, .lbu 3 8 0b100000000011#12),
    (0b010000#6 ++ 0b100001#6 ++ 8#5 ++ 0b101#3 ++ 3#5 ++ 0b0010011#7, .srai 3 8 33),
    (0b0100000#7 ++ 9#5 ++ 8#5 ++ 0b000#3 ++ 3#5 ++ 0b0111011#7, .subw 3 8 9),
    (0b0000001#7 ++ 9#5 ++ 8#5 ++ 0b110#3 ++ 3#5 ++ 0b0110011#7, .rem 3 8 9),
    (0b00011#5 ++ 1#1 ++ 0#1 ++ 9#5 ++ 8#5 ++ 0b010#3 ++ 3#5 ++ 0b0101111#7, .scW 3 8 9 1 0),
    (0x305#12 ++ 8#5 ++ 0b011#3 ++ 3#5 ++ 0b1110011#7, .csrrc 3 0x305 8),
    (0b0001#4 ++ 0b0010#4 ++ 0b0100#4 ++ 8#5 ++ 0b000#3 ++ 3#5 ++ 0b0001111#7, .fence 1 2 4 8 3)] := by decide +kernel

/-- The same for the 16-bit formats (R82, R93 to R96). -/
theorem test_decode_written_out_16 : decodesAll .rv64 [
    (0#16 ++ 0b000#3 ++ 0b01#2 ++ 0b0011#4 ++ 0b1#1 ++ 0b0#1 ++ 5#3 ++ 0b00#2, .cAddi4spn 5 0b0011_01_0_1#8),
    (0#16 ++ 0b010#3 ++ 0b101#3 ++ 3#3 ++ 0b0#1 ++ 0b1#1 ++ 5#3 ++ 0b00#2, .cLw 5 3 0b1_101_0#5),
    (0#16 ++ 0b111#3 ++ 0b101#3 ++ 3#3 ++ 0b01#2 ++ 5#3 ++ 0b00#2, .cSd 3 5 0b01_101#5),
    (0#16 ++ 0b011#3 ++ 0b1#1 ++ 2#5 ++ 0b0#1 ++ 0b1#1 ++ 0b01#2 ++ 0b0#1 ++ 0b01#2, .cAddi16sp 0b1_01_1_0_0#6),
    (0#16 ++ 0b101#3 ++ 0b1#1 ++ 0b0#1 ++ 0b01#2 ++ 0b1#1 ++ 0b0#1 ++ 0b1#1 ++ 0b001#3 ++ 0b0#1 ++ 0b01#2,
      .cJ 0b1_1_01_1_0_0_0_001#11),
    (0#16 ++ 0b110#3 ++ 0b1#1 ++ 0b01#2 ++ 3#3 ++ 0b01#2 ++ 0b10#2 ++ 0b1#1 ++ 0b01#2, .cBeqz 3 0b1_01_1_01_10#8),
    (0#16 ++ 0b010#3 ++ 0b1#1 ++ 9#5 ++ 0b011#3 ++ 0b01#2 ++ 0b10#2, .cLwsp 9 0b01_1_011#6),
    (0#16 ++ 0b011#3 ++ 0b1#1 ++ 9#5 ++ 0b01#2 ++ 0b101#3 ++ 0b10#2, .cLdsp 9 0b101_1_01#6),
    (0#16 ++ 0b110#3 ++ 0b0101#4 ++ 0b10#2 ++ 9#5 ++ 0b10#2, .cSwsp 9 0b10_0101#6),
    (0#16 ++ 0b111#3 ++ 0b011#3 ++ 0b101#3 ++ 9#5 ++ 0b10#2, .cSdsp 9 0b101_011#6),
    (0#16 ++ 0b1001#4 ++ 9#5 ++ 8#5 ++ 0b10#2, .cAdd 9 8)] := by decide +kernel

/-- Decode misses of the spec's rules: R91, R108, R271, R333, R340. -/
theorem test_decode_misses : ((decodeWord .rv32 0x03f09293, decodeWord .rv32 0x0010829b, decodeWord .rv64 0x1010a2af,
    decodeWord .rv32 0x947d), (decodeWord .rv64 0x9c45, decodeWord .rv64 0x0000200f, decodeWord .rv64 0xffffffff,
    decodeWord .rv64 0x30200073)) = ((none, none, none, none), (none, none, none, none)) := by decide +kernel

/-- Translation words of the rules' examples (R310). -/
theorem test_expansion_words : ([(0x1ffc, 0x3fc10793), (0x5c7c, 0x07c42783), (0xe404, 0x00943423), (0x757d, 0xfffff537),
    (0x947d, 0x43f45413), (0xb001, 0x801ff06f), (0xd001, 0xf00400e3), (0x557e, 0x0fc12503), (0xffa6, 0x1e913c23),
    (0x9282, 0x000280e7), (0x852e, 0x00b00533), (0x9002, 0x00100073)] : List (BitVec 32 × BitVec 32)).all (fun p =>
      decide (((decodeWord .rv64 p.1).bind (·.expansion)).map encode = some p.2)) := by decide +kernel

theorem test_table_word : decodeTableWord 16 0x157d = some (.cAddi 10 (-1)) ∧ decodeTableWord 32 0x022082b3 = some (.mul 5 1 2) ∧
    decodeTableWordFor .rv32 16 0x2801 = some (.cJal 8) := by decide +kernel

/-! ### One step, results of the rules' examples -/

/-- A machine at `pc` with zeroed registers but those listed, and these numbers stored: `(address, bytes, value)`. -/
def machine (c : Params) (pc : Word) (regs : List (RegIdx × Word)) (cells : List (Nat × Nat × Word)) : State :=
  let s0 : State :=
    ⟨c, Vector.replicate 31 0, Vector.replicate 32 0, pc, 0, [], none, [], false, 0⟩
  let s1 := regs.foldl (fun s p => s.setX p.1 p.2) s0
  cells.foldl (fun s p => s.memWrite p.1 p.2.2 p.2.1) s1

/-- The memory pattern of the rules' examples at 0x200. -/
def pattern : List (Nat × Nat × Word) := [(0x200, 8, 0x8877665544332211), (0x208, 8, 0xfff1f2f3f4f5f6f7)]

/-- What is seen of the state after one step at 0x100 of the word. -/
def after (c : Params) (w : Word) (regs : List (RegIdx × Word)) (cells : List (Nat × Nat × Word)) (see : State → Nat) : Option Nat :=
  match step (machine c 0x100 regs ((0x100, 4, w) :: cells)) with
  | .next t => some (see t)
  | _ => none

/-- Rows `(word, x1, x2, expected x5)` of a register computation. -/
def resultsAre (c : Params) (l : List (Word × Word × Word × Nat)) : Bool :=
  l.all fun p => after c p.1 [(1, p.2.1), (2, p.2.2.1)] [] (·.natX 5) == some p.2.2.2

theorem test_result_immediates : resultsAre primaryParams [(0xffe08293, 5, 0, 3), (0xfff0a293, -2, 0, 1), (0xfff0b293, 5, 0, 1),
    (0xfff0c293, 0x0f0f, 0, 0xfffffffffffff0f0), (0xf000e293, 0xf, 0, 0xffffffffffffff0f), (0xff00f293, 0x12345678, 0, 0x12345670),
    (0x01f09293, 3, 0, 0x180000000), (0x0040d293, -256, 0, 0x0ffffffffffffff0), (0x4040d293, -256, 0, 0xfffffffffffffff0),
    (0x800002b7, 0, 0, 0xffffffff80000000), (0xfffff297, 0, 0, 0xfffffffffffff100)] := by decide +kernel

theorem test_result_immediates_rv32 : resultsAre primaryParams32 [(0xfff0c293, 0x0f0f, 0, 0xfffff0f0), (0x01f09293, 3, 0, 0x80000000),
    (0x0040d293, -256, 0, 0x0ffffff0), (0x4040d293, -256, 0, 0xfffffff0), (0x800002b7, 0, 0, 0x80000000)] := by decide +kernel

theorem test_result_registers : resultsAre primaryParams [(0x002082b3, -1, 1, 0), (0x402082b3, 0, 1, 2 ^ 64 - 1), (0x002092b3, 3, 65, 6),
    (0x0020a2b3, -1, 1, 1), (0x0020b2b3, -1, 1, 0), (0x0020c2b3, 0xff00, 0x0ff0, 0xf0f0), (0x0020d2b3, -1, -1, 1),
    (0x4020d2b3, -256, 4, 2 ^ 64 - 16), (0x0020e2b3, 0xff00, 0x0ff0, 0xfff0), (0x0020f2b3, 0xff00, 0x0ff0, 0x0f00)] := by
  decide +kernel

theorem test_result_registers_rv32 : resultsAre primaryParams32 [(0x002082b3, -1, 1, 0), (0x402082b3, 0, 1, 2 ^ 32 - 1),
    (0x002092b3, 3, 33, 6), (0x0020a2b3, -1, 1, 1), (0x0020d2b3, -1, -1, 1), (0x4020d2b3, -256, -1, 2 ^ 32 - 1)] := by
  decide +kernel

theorem test_result_word_variants : resultsAre primaryParams [(0x0000829b, 0x1234567880000000, 0, 0xffffffff80000000),
    (0x0040929b, 0xf12345678, 0, 0x23456780), (0x0000d29b, 0x80000000, 0, 0xffffffff80000000),
    (0x4010d29b, 0x180000000, 0, 0xffffffffc0000000), (0x002082bb, 0x7fffffff, 1, 0xffffffff80000000),
    (0x402082bb, 0x100000000, 1, 2 ^ 64 - 1), (0x002092bb, 0x40000000, 33, 0xffffffff80000000),
    (0x0020d2bb, 0xffffffff80000000, 4, 0x08000000), (0x4020d2bb, 0x80000000, 4, 0xfffffffff8000000)] := by decide +kernel

theorem test_result_multiply : resultsAre primaryParams [(0x022082b3, 7, 6, 42), (0x022092b3, 3, 0x7fffffffffffffff, 1),
    (0x0220a2b3, -1, -1, 2 ^ 64 - 1), (0x0220b2b3, -1, -1, 2 ^ 64 - 2), (0x022082bb, 0x10000, 0x8000, 0xffffffff80000000)] := by
  decide +kernel

theorem test_result_divide : resultsAre primaryParams [(0x0220c2b3, -7, 2, 2 ^ 64 - 3), (0x0220c2b3, 7, 0, 2 ^ 64 - 1),
    (0x0220c2b3, 0x8000000000000000, -1, 0x8000000000000000), (0x0220d2b3, -7, 2, 0x7ffffffffffffffc), (0x0220e2b3, 7, -2, 1),
    (0x0220e2b3, -7, 0, 2 ^ 64 - 7), (0x0220f2b3, -7, 2, 1), (0x0220f2b3, 7, 0, 7)] := by decide +kernel

theorem test_result_divide_word : resultsAre primaryParams [(0x0220c2bb, 0x1fffffff9, 2, 2 ^ 64 - 3),
    (0x0220c2bb, 0x80000000, -1, 0xffffffff80000000), (0x0220d2bb, 0x80000000, 1, 0xffffffff80000000),
    (0x0220e2bb, 0x80000000, 0, 0xffffffff80000000), (0x0220f2bb, 0x80000007, 0, 0xffffffff80000007)] := by decide +kernel

theorem test_result_loads : ([(0x00708283, 0x200, 0xffffffffffffff88), (0x00709283, 0x200, 0xfffffffffffff788),
    (0x0070a283, 0x200, 0xfffffffff5f6f788), (0x0070c283, 0x200, 0x88), (0x0070d283, 0x200, 0xf788), (0x0070e283, 0x200, 0xf5f6f788),
    (0x0010b283, 0x200, 0xf788776655443322)] : List (Word × Word × Nat)).all (fun p =>
      after primaryParams p.1 [(1, p.2.1)] pattern (·.natX 5) == some p.2.2) := by decide +kernel

/-- At the end of the buffer, with the zero fill of the vectors (R233, R238). -/
theorem test_result_load_past_end : ([(0x00009283, 0xffe, 0xffffffffffff8877), (0x0000b283, 0xffe, 0x8877),
    (0x00009283, 0x1000, 0)] : List (Word × Word × Nat)).all (fun p =>
      after { primaryParams with oobFill := .fixed 0 } p.1 [(1, p.2.1)] [(0xffe, 2, 0x8877)] (·.natX 5) == some p.2.2) := by
  decide +kernel

theorem test_result_stores : ([(0x00208423, 0x1f8, 0x0000000000000088), (0x00209423, 0x1f8, 0x7788), (0x0020a423, 0x1f8, 0x55667788),
    (0x0020b423, 0x1f8, 0x1122334455667788)] : List (Word × Word × Nat)).all (fun p =>
      after primaryParams p.1 [(1, p.2.1), (2, 0x1122334455667788)] [(0x200, 8, 0)] (·.readNat 0x200 8) == some p.2.2) := by
  decide +kernel

/-- Rows `(word, registers, expected pc)` of a transfer from 0x100. -/
def landsAt (c : Params) (l : List (Word × List (RegIdx × Word) × Nat)) : Bool :=
  l.all fun p => after c p.1 p.2.1 [] (·.pc.toNat) == some p.2.2

theorem test_transfer_pc : landsAt primaryParams [(0x010000ef, [], 0x110), (0xf01ff0ef, [], 0), (0x8000006f, [], 0xfffffffffff00100),
    (0xffd282e7, [(5, 0x204)], 0x200), (0x00208863, [(1, 5), (2, 5)], 0x110), (0x00209863, [(1, 5), (2, 5)], 0x104),
    (0x0020c863, [(1, -1), (2, 1)], 0x110), (0x0020d863, [(1, 3), (2, 3)], 0x110), (0x0020e863, [(1, -1), (2, 1)], 0x104),
    (0x0020f863, [(1, -1), (2, 1)], 0x110), (0xbffd, [], 0xfe), (0xc801, [], 0x110), (0xc801, [(8, 1)], 0x102),
    (0xec7d, [(8, 1)], 0x1fe), (0x8082, [(1, 0x401)], 0x400), (0x9082, [(1, 0x400)], 0x400)] := by decide +kernel

theorem test_transfer_link : after primaryParams 0x010000ef [] [] (·.natX 1) = some 0x104 ∧
    after primaryParams 0xffd282e7 [(5, 0x204)] [] (·.natX 5) = some 0x104 ∧
    after primaryParams 0x9282 [(5, 0x401)] [] (·.natX 1) = some 0x102 ∧
    after primaryParams32 0x2801 [] [] (·.natX 1) = some 0x102 ∧ after primaryParams32 0x2801 [] [] (·.pc.toNat) = some 0x110 := by
  decide +kernel

theorem test_placeholders_only_advance : landsAt primaryParams [(0x0c30000f, [], 0x104), (0x0000100f, [], 0x104), (0x00000073, [], 0x104),
    (0x00100073, [], 0x104), (0x34011073, [], 0x104), (0xc0002573, [], 0x104), (0x30047073, [], 0x104), (0x2000, [], 0x102),
    (0xa000, [], 0x102), (0x2002, [], 0x102), (0xa002, [], 0x102), (0x9002, [], 0x102), (0x0001, [], 0x102)] := by decide +kernel

theorem test_placeholders_only_advance_rv32 : landsAt primaryParams32 [(0x6000, [], 0x102), (0xe404, [], 0x102), (0x6522, [], 0x102),
    (0xe426, [], 0x102)] := by decide +kernel

theorem test_reserved_and_misses_stall : landsAt primaryParams [(0x0000, [], 0x100), (0x0004, [], 0x100), (0x2005, [], 0x100),
    (0x6101, [], 0x100), (0x6501, [], 0x100), (0x4012, [], 0x100), (0x6022, [], 0x100), (0x8002, [], 0x100), (0x9c45, [], 0x100),
    (0x0000200f, [], 0x100)] := by decide +kernel

/-- Rows `(word, registers, register, expected value)` of the compressed instructions, the pattern of the rules at 0x200. -/
def compressedAre (c : Params) (l : List (Word × List (RegIdx × Word) × RegIdx × Nat)) : Bool :=
  l.all fun p => after c p.1 p.2.1 pattern (·.natX p.2.2.1) == some p.2.2.2

theorem test_compressed_results : compressedAre primaryParams [(0x1ffc, [(2, 0x1000)], 15, 0x13fc), (0x157d, [(10, 5)], 10, 4),
    (0x2505, [(10, 0x7fffffff)], 10, 0xffffffff80000000), (0x5501, [], 10, 0xffffffffffffffe0), (0x7101, [(2, 0x1000)], 2, 0xe00),
    (0x757d, [], 10, 0xfffffffffffff000), (0x9001, [(8, -256)], 8, 0xffffffff), (0x947d, [(8, -256)], 8, 2 ^ 64 - 1),
    (0x9841, [(8, 0x12345678)], 8, 0x12345670), (0x8c05, [(8, 5), (9, 7)], 8, 2 ^ 64 - 2), (0x8c25, [(8, 0xff00), (9, 0xff0)], 8, 0xf0f0),
    (0x8c45, [(8, 0xff00), (9, 0xff0)], 8, 0xfff0), (0x8c65, [(8, 0xff00), (9, 0xff0)], 8, 0xf00),
    (0x9c05, [(8, 0x100000000), (9, 1)], 8, 2 ^ 64 - 1), (0x9c25, [(8, 0x7fffffff), (9, 1)], 8, 0xffffffff80000000)] := by
  decide +kernel

theorem test_compressed_results_2 : compressedAre primaryParams [(0x157e, [(10, 3)], 10, 0x8000000000000000), (0x852e, [(11, 77)], 10, 77),
    (0x952e, [(10, 1), (11, 77)], 10, 78), (0x4044, [(8, 0x200)], 9, 0xffffffff88776655), (0x6404, [(8, 0x200)], 9, 0xfff1f2f3f4f5f6f7),
    (0x4512, [(2, 0x200)], 10, 0xffffffff88776655), (0x6522, [(2, 0x200)], 10, 0xfff1f2f3f4f5f6f7)] := by decide +kernel

theorem test_compressed_stores : ([(0xc404, 0xfff1f2f355667788), (0xe404, 0x1122334455667788), (0xc426, 0xfff1f2f355667788),
    (0xe426, 0x1122334455667788)] : List (Word × Nat)).all (fun p =>
      after primaryParams p.1 [(8, 0x200), (2, 0x200), (9, 0x1122334455667788)] pattern (·.readNat 0x208 8) == some p.2) := by
  decide +kernel

theorem test_load_reserved : after primaryParams 0x1000a2af [(1, 0x204)] pattern (·.natX 5) = some 0xffffffff88776655 ∧
    after primaryParams 0x1000b2af [(1, 0x200)] pattern (·.natX 5) = some 0x8877665544332211 ∧
    after primaryParams 0x1000b2af [(1, 0x200)] pattern (fun t => (t.resv.getD 0).toNat) = some 0x200 := by decide +kernel

/-- The store-conditional of the rules' examples, with and without the reservation. -/
theorem test_store_conditional : ([(some 0x200, 0x1820b32f, 0), (none, 0x1820b32f, 1), (some 0x204, 0x1820a32f, 1)] :
    List (Option Word × Word × Nat)).all (fun p =>
      match step { machine primaryParams 0x100 [(1, 0x200), (2, 7)] [(0x100, 4, p.2.1)] with resv := p.1 } with
      | .next t => t.natX 6 == p.2.2 && t.resv == (if p.2.2 = 0 then none else p.1)
      | _ => false) := by decide +kernel

/-! ### Reset -/

theorem test_reset_values : State.reset.pc = 0 ∧ State.reset.adv = 0 ∧ State.reset.resv = none ∧ State.reset.getX 0 = 0 ∧
    State.reset.mem = [] ∧ State.reset.getX 1 ≠ 0 ∧ State.reset.byteOf 0 ≠ 0 := by decide +kernel

theorem test_reset_memory_canonical : Memory.wf State.reset.cfg.seed State.reset.cfg.memSize State.reset.mem := by decide

theorem test_fetch_word_runs : (match step (State.reset.withFetchWord 32 0x00700513) with
    | .next t => t.natX 10 == 7 && t.pc == 4
    | _ => false) = true := by decide +kernel

/-! ### Witnesses: for each obligation with hypotheses, values that meet them together -/

/-- An outcome that is a next state. -/
def isNext : Result → Bool
  | .next _ => true
  | _ => false

theorem exists_next_of_isNext {r : Result} (h : isNext r = true) : ∃ t, r = .next t := by
  cases r with
  | next t => exact ⟨t, rfl⟩
  | fault f => cases h
  | refused f => cases h

/-- The parameters with the `fault` setting of R59. -/
def faulting : Params := { primaryParams with oobPolicy := .fault }

/-- The parameters with every division corner refused. -/
def refusing : Params := { primaryParams with divCorners := .refuse }

/-- The parameters with a hazard check on `addi` and `add`. -/
def hazardous : Params := { primaryParams with hazardSet := [.addi, .add] }

/-- The zero fill of the vectors. -/
def zeroFilling : Params := { primaryParams with oobFill := .fixed 0 }

/-- The same with a fetch past the end of the buffer executed. -/
def drawing : Params := { zeroFilling with oobFetch := .execute }

/-- The parameters under the other reading of the word variants. -/
def narrowing : Params := { primaryParams with wordMode := .resultOnly }

theorem witness_DecodeOfEncode : (Instr.slli 1 2 63).wf .rv64 = true ∧ (Instr.slli 1 2 31).wf .rv32 = true ∧
    (Instr.cFlw 7 7 31).wf .rv32 = true := by decide

theorem witness_EncodeOfDecode : decodeWord .rv64 0x03f09293 = some (.slli 5 1 63) ∧
    decodeWord .rv64 0xabcd157d = some (.cAddi 10 (-1)) := by decide +kernel

theorem witness_BitMatcher : ∃ r ∈ rows, r.op = .lui := by decide +kernel

theorem witness_WidthByLowBits : decodeWord .rv32 0x00000073 = some .ecall ∧ decodeWord .rv32 0x0001 = some .cNop ∧
    (0xffffffff#32).extractLsb' 0 5 = 31#5 := by decide +kernel

/-- Words on each side of each clause: `rem`, `mul` with bit 26 set, `lwu` on XLEN = 32, an RV64 shift amount; half-words of R362 and
beside them. -/
theorem witness_WordsThatMiss : ([0x0220e2b3#32, 0x042082b3#32, 0x0000e283#32, 0x03f09293#32].all (fun w => w.extractLsb' 0 2 == 3#2)) ∧
    inTables .rv32 0x0220e2b3 = true ∧ inTables .rv64 0x042082b3 = false ∧ inTables .rv32 0x0000e283 = false ∧
    inTables .rv64 0x0000e283 = true ∧ inTables .rv32 0x03f09293 = false ∧ inTables .rv64 0x03f09293 = true ∧
    ([0x8000#32, 0x9c41#32, 0x9001#32, 0x0001#32].all (fun w => w.extractLsb' 0 2 != 3#2)) ∧
    missingHalf .rv64 0x8000 = true ∧ missingHalf .rv64 0x9c41 = true ∧ missingHalf .rv64 0x9c21 = false ∧
    missingHalf .rv32 0x9c21 = true ∧ missingHalf .rv32 0x9001 = true ∧ missingHalf .rv64 0x9001 = false ∧
    missingHalf .rv32 0x0001 = false := by decide +kernel

/-- Words of each format of the encoding clauses, with the top bit of every field set. -/
theorem witness_Encoded : opcodeOf 0x800000b7#32 = 0b0110111#7 ∧ opcodeOf 0x8000086f#32 = 0b1101111#7 ∧
    (opcodeOf 0x80080813#32 = 0b0010011#7 ∧ funct3Of 0x80080813#32 = 0#3) ∧
    (opcodeOf 0x81080823#32 = 0b0100011#7 ∧ funct3Of 0x81080823#32 = 0#3) ∧
    (opcodeOf 0x81080863#32 = 0b1100011#7 ∧ funct3Of 0x81080863#32 = 0#3) ∧
    (opcodeOf 0x01080833#32 = 0b0110011#7 ∧ funct3Of 0x01080833#32 = 0#3 ∧ funct7Of 0x01080833#32 = 0#7) ∧
    (opcodeOf 0x02081813#32 = 0b0010011#7 ∧ funct3Of 0x02081813#32 = 1#3 ∧ (0x02081813#32).extractLsb' 26 6 = 0#6) ∧
    0x1608282f#32 &&& 0xf9f0707f#32 = 0x1000202f#32 ∧ 0x1f08382f#32 &&& 0xf800707f#32 = 0x1800302f#32 ∧
    (opcodeOf 0x80085873#32 = 0b1110011#7 ∧ funct3Of 0x80085873#32 = 0b101#3) ∧
    0x8ff0880f#32 &&& 0x0000707f#32 = 0x0000000f#32 := by decide

/-- Half-words of each shape of the 16-bit encoding clauses, with the top bit of every field set; where a row before it takes some
words, one that it does not take. -/
theorem witness_EncodedHalf : 0x1c7c#16 &&& 0xe003#16 = 0x0000#16 ∧ halfCIW 0x1c7c ≠ 0 ∧ 0x0010#16 &&& 0xffe3#16 = 0x0000#16 ∧
    halfLow 0x0010 ≠ 0 ∧ 0x7c70#16 &&& 0xe003#16 = 0x6000#16 ∧ 0x1879#16 &&& 0xe003#16 = 0x0001#16 ∧ 0x1879#16 ≠ 0x0001#16 ∧
    0x7101#16 &&& 0xef83#16 = 0x6101#16 ∧ halfCI16 0x7101 ≠ 0 ∧ 0x6841#16 &&& 0xe003#16 = 0x6001#16 ∧ halfRd 0x6841 ≠ 2 ∧
    halfCI 0x6841 ≠ 0 ∧ 0x6801#16 &&& 0xf07f#16 = 0x6001#16 ∧ 0x3879#16 &&& 0xe003#16 = 0x2001#16 ∧ halfRd 0x3879 ≠ 0 ∧
    0x9b41#16 &&& 0xec03#16 = 0x8801#16 ∧ 0x8e75#16 &&& 0xfc63#16 = 0x8c61#16 ∧ 0xbffd#16 &&& 0xe003#16 = 0xa001#16 ∧
    0xde61#16 &&& 0xe003#16 = 0xc001#16 ∧ 0x8802#16 &&& 0xf07f#16 = 0x8002#16 ∧ halfRd 0x8802 ≠ 0 ∧
    0x8842#16 &&& 0xf003#16 = 0x8002#16 ∧ halfRs2 0x8842 ≠ 0 ∧ 0x5842#16 &&& 0xe003#16 = 0x4002#16 ∧ halfRd 0x5842 ≠ 0 ∧
    0x5042#16 &&& 0xef83#16 = 0x4002#16 ∧ 0xf042#16 &&& 0xe003#16 = 0xe002#16 := by decide
/-- The hazard check lets the executor run: with the default empty set, and in a set that names it, with distinct registers. -/
theorem witness_HazardFree : State.reset.HazardFree .addi 5 [5] ∧ (machine hazardous 0 [] []).HazardFree .addi 5 [6] ∧
    (machine hazardous 0 [] []).HazardFree .addi 0 [0] ∧ (machine hazardous 0 [] []).HazardFree .sub 5 [5, 5] := by decide +kernel

theorem witness_WordVariants : State.reset.cfg.xlen = .rv64 ∧ State.reset.cfg.wordMode = .operandsFirst ∧
    opcodeOf 0x0210929b#32 = 0b0011011#7 ∧ funct3Of 0x0210929b#32 = 1#3 ∧ (0x0210929b#32).extractLsb' 25 1 = 1#1 := by decide +kernel

theorem witness_WordVariantsResultOnly : narrowing.xlen = .rv64 ∧ narrowing.wordMode = .resultOnly := by decide

/-- `DIV_CORNERS` lets the division run: the default with a zero divisor, and `refuse` with none. -/
theorem witness_Divides : (machine primaryParams 0 [(1, 7)] []).Divides ((machine primaryParams 0 [(1, 7)] []).natX 2 = 0) ∧
    (machine refusing 0 [(1, 7), (2, 2)] []).Divides ((machine refusing 0 [(1, 7), (2, 2)] []).natX 2 = 0) := by decide +kernel

/-- Each corner: a zero divisor, the signed overflow in 64 bits, and both in the low words. -/
theorem witness_DivisionCornersRefused : refusing.divCorners = .refuse ∧
    CornerS 64 ((machine refusing 0 [(1, 7)] []).intX 1) ((machine refusing 0 [(1, 7)] []).intX 2) ∧
    (machine refusing 0 [(1, 7)] []).natX 2 = 0 ∧
    (machine refusing 0 [(1, 7), (2, 0x100000000)] []).natX 2 % 2 ^ 32 = 0 ∧
    CornerS 32 ((machine refusing 0 [(1, 0x80000000), (2, 0xffffffff)] []).lowX 32 1)
      ((machine refusing 0 [(1, 0x80000000), (2, 0xffffffff)] []).lowX 32 2) := by
  unfold CornerS; decide +kernel

theorem witness_DivisionOverflow :
    CornerS 64 ((machine refusing 0 [(1, 0x8000000000000000), (2, -1)] []).intX 1)
      ((machine refusing 0 [(1, 0x8000000000000000), (2, -1)] []).intX 2) := by
  unfold CornerS; decide +kernel

/-- A read across the end of the buffer: byte 1 is the last one inside, byte 2 the first one outside. -/
theorem witness_MemoryRead : 4 ∈ [1, 2, 4, 8] ∧ 0xffe + 1 < State.reset.cfg.memSize ∧ State.reset.cfg.memSize ≤ 0xffe + 2 ∧
    State.reset.cfg.memSize < 0xffe + 4 ∧ State.reset.cfg.oobFill = .draw ∧ 0xffc + 4 ≤ State.reset.cfg.memSize ∧
    ({ primaryParams with oobFill := .fixed 7 } : Params).oobFill = .fixed 7 := by decide +kernel

theorem witness_MemoryWrite : 8 ∈ [1, 2, 4, 8] := by decide

theorem witness_WriteThenRead : 8 ∈ [1, 2, 4, 8] ∧ 0xff8 + 8 ≤ State.reset.cfg.memSize := by decide +kernel

theorem witness_DisjointWritesCommute : State.reset.MemWf ∧ (0x100 + 4 ≤ 0x104 ∨ 0x104 + 8 ≤ 0x100) ∧
    (0x108 + 4 ≤ 0x100 ∨ 0x100 + 8 ≤ 0x108) := by decide

/-- The policy admits an access: any with the normative setting; one that ends with the buffer under the other. -/
theorem witness_Admits : State.reset.Admits 0xfff 8 ∧ (machine faulting 0 [] []).Admits 0xff8 8 := by decide +kernel

/-- The decode-miss clauses of the loads and of the stores. -/
theorem witness_LoadStoreMisses : (opcodeOf 0x0070e283#32 = 0b0000011#7 ∧ funct3Of 0x0070e283#32 = 0b110#3) ∧
    (opcodeOf 0x0010b283#32 = 0b0000011#7 ∧ funct3Of 0x0010b283#32 = 0b011#3) ∧
    (opcodeOf 0x0020b423#32 = 0b0100011#7 ∧ funct3Of 0x0020b423#32 = 0b011#3) ∧
    0x1600b2af#32 &&& 0xf9f0707f#32 = 0x1000302f#32 ∧
    (0x1010a2af#32 &&& 0xf800607f#32 = 0x1000202f#32 ∧ (0x1010a2af#32).extractLsb' 20 5 = 1#5) := by decide

/-- A load, a store and a matching store-conditional over the end, and a fetch. -/
theorem witness_FaultSettingStops : faulting.oobPolicy = .fault ∧
    loadSpan (.ld 5 1 0) (machine faulting 0 [(1, 0xff9)] []) = some (0xff9, 8) ∧
    storeSpan (.sw 1 2 0) (machine faulting 0 [(1, 0xffd)] []) = some (0xffd, 4) ∧
    storeSpan (.scW 6 1 2 0 0) { machine faulting 0 [(1, 0xffd)] [] with resv := some 0xffd } = some (0xffd, 4) ∧
    faulting.memSize < 0xff9 + 8 ∧ (machine faulting 0x1000 [] []).loadFailed = false ∧
    faulting.memSize < (machine faulting 0x1000 [] []).pc.toNat + 2 := by decide +kernel

/-- The hazard premise of that statement, on the same load. -/
theorem witness_FaultSettingStops_hazard : ∀ rd, (Instr.ld 5 1 0).dest = some rd →
    (machine faulting 0 [] []).HazardFree (Instr.ld 5 1 0).effective.op rd (Instr.ld 5 1 0).sources := by
  intro rd _ h; cases h.1

/-- The state at 0x100 whose next word is `w` runs what it decodes to. -/
def runs (c : Params) (w : Word) (i : Instr) : Prop := Runs (machine c 0x100 [] [(0x100, 4, w)]) i

theorem witness_TransferSteps : runs primaryParams 0x010000ef (.jal 1 8) ∧ runs primaryParams 0x008280e7 (.jalr 1 5 8) ∧
    runs primaryParams 0x00208863 (.beq 1 2 8) ∧ runs primaryParams 0x00209863 (.bne 1 2 8) ∧
    runs primaryParams 0x0020c863 (.blt 1 2 8) ∧ runs primaryParams 0x0020d863 (.bge 1 2 8) ∧
    runs primaryParams 0x0020e863 (.bltu 1 2 8) ∧ runs primaryParams 0x0020f863 (.bgeu 1 2 8) := by unfold runs Runs; decide +kernel

theorem witness_TransferSteps_compressed : runs primaryParams 0xbffd (.cJ (-1)) ∧ runs primaryParams32 0x2801 (.cJal 8) ∧
    runs primaryParams 0x8082 (.cJr 1) ∧ runs primaryParams 0x9282 (.cJalr 5) ∧ runs primaryParams 0xc801 (.cBeqz 0 8) ∧
    runs primaryParams 0xec7d (.cBnez 0 127) := by unfold runs Runs; decide +kernel

theorem witness_TransferSteps_hazard : State.reset.HazardFree .jalr 5 [5] ∧ State.reset.HazardFree .jalr 1 [1] := by decide +kernel

/-- A matching and a differing reservation. -/
theorem witness_StoreConditionalInstructions :
    ({ machine primaryParams 0 [(1, 0x200)] [] with resv := some 0x200 } : State).resv =
      some (({ machine primaryParams 0 [(1, 0x200)] [] with resv := some 0x200 } : State).getX 1) ∧
    State.reset.resv ≠ some (State.reset.getX 1) ∧ State.reset.Admits (State.reset.natX 1) 8 := by decide +kernel

theorem witness_ReservationLaws : State.reset.HazardFree (Instr.lrW 5 1 0 0).op 5 [1] ∧
    State.reset.HazardFree (Instr.scD 6 1 2 0 0).op 6 [1, 2] ∧ State.reset.HazardFree (Instr.scW 7 1 2 0 0).op 7 [1, 2] ∧
    State.reset.Admits (State.reset.natX 1) 8 ∧ (1 : RegIdx) ≠ 5 ∧ (1 : RegIdx) ≠ 6 ∧
    State.reset.resv ≠ some (State.reset.getX 1) := by decide +kernel

theorem witness_ReservationLaws_next : (∃ t, exec (.lrW 5 1 0 0) State.reset = .next t) ∧
    (∃ t, exec (.lrD 5 1 0 0) State.reset = .next t) ∧ (∃ t, exec (.scW 5 1 2 0 0) State.reset = .next t) ∧
    (∃ t, exec (.scD 5 1 2 0 0) State.reset = .next t) :=
  ⟨exists_next_of_isNext (by decide +kernel), exists_next_of_isNext (by decide +kernel),
    exists_next_of_isNext (by decide +kernel), exists_next_of_isNext (by decide +kernel)⟩

theorem witness_ReservationKept : ∃ t, exec (.sd 1 2 0) (machine primaryParams 0 [(1, 0x200)] []) = .next t :=
  exists_next_of_isNext (by decide +kernel)

theorem witness_PlaceholderSteps : runs primaryParams 0x0c30000f (.fence 0 12 3 0 0) ∧ (Instr.fence 0 12 3 0 0).op.kind = .noop ∧
    runs primaryParams 0x0000 .cInvalid ∧ Instr.cInvalid.op.kind = .reserved ∧
    State.Fits (machine primaryParams 0x100 [] []) (machine primaryParams 0x100 [] []).pc := by
  unfold runs Runs; decide +kernel

theorem witness_CompressedMemory : State.reset.cfg.xlen = .rv64 ∧ State.reset.HazardFree .ld 2 [2] ∧
    State.reset.Admits ((State.reset.natX 2 + (63#6).toNat * 8) % 2 ^ State.reset.bits) 8 := by decide +kernel

theorem witness_ActsAsExpansion : (Instr.cSwsp 9 63).expansion = some (.sw 2 9 252) := by decide

theorem witness_AtMostOneHop : decodeWord .rv64 0xdfa6 = some (.cSwsp 9 63) ∧ decodeWord .rv64 0x00000073 = some .ecall ∧
    Instr.ecall.expansion = none := by decide +kernel

/-- Both directions of the check: a hazard, and none. -/
theorem witness_DataHazard : exec (.cAddi 5 1) (machine hazardous 0 [] []) = .fault (.dataHazard 5) := rfl

theorem witness_StepRunsDecodedInstruction :
    (machine primaryParams 0x100 [] [(0x100, 4, 0x157d)]).loadFailed = false ∧
    (machine primaryParams 0x100 [] [(0x100, 4, 0x157d)]).AdmitsFetch 2 ∧ 0x100 + 4 ≤ primaryParams.memSize ∧
    decode .rv64 ((List.range 4).map fun k => (machine primaryParams 0x100 [] [(0x100, 4, 0x157d)]).readByte 0x100 k) =
      .ok (.cAddi 10 (-1), [0, 0]) := by decide +kernel

/-- A decode miss at 0x100, fetched from inside the buffer, and one that a fetch past its end draws. -/
theorem witness_DecodeMissStalls : decodeWord .rv64 (machine primaryParams 0x100 [] [(0x100, 4, 0xffffffff)]).fetchWord = none ∧
    (machine primaryParams 0x100 [] [(0x100, 4, 0xffffffff)]).loadFailed = false ∧
    (machine primaryParams 0x100 [] [(0x100, 4, 0xffffffff)]).AdmitsFetch 4 ∧
    State.Fits (machine primaryParams 0x100 [] []) 0x100 ∧ 0x100 + 4 ≤ primaryParams.memSize ∧
    decodeWord .rv64 (machine drawing 0xffe [] [(0xffe, 2, 0xffff)]).fetchWord = none ∧
    (machine drawing 0xffe [] [(0xffe, 2, 0xffff)]).AdmitsFetch 4 := by decide +kernel

theorem witness_StallRepeats : decodeWord .rv64 (machine primaryParams 0xffc [] [(0xffc, 4, 0)]).fetchWord = some .cInvalid ∧
    Instr.cInvalid.op.kind = .reserved ∧ (machine primaryParams 0xffc [] [(0xffc, 4, 0)]).pc.toNat + 4 ≤ primaryParams.memSize := by
  decide +kernel

/-- A fetch inside the buffer, one that ends with it and is refused half a word later, and one that is executed there. -/
theorem witness_EveryStepCompletes : State.reset.cfg.Normative ∧ State.reset.loadFailed = false ∧
    State.reset.pc.toNat + widthOf State.reset.fetchWord ≤ State.reset.cfg.memSize ∧ zeroFilling.Normative ∧
    widthOf (machine zeroFilling 0xffe [] [(0xffe, 2, 0x157d)]).fetchWord = 2 ∧ 0xffe + 2 ≤ zeroFilling.memSize ∧
    widthOf (machine zeroFilling 0xffe [] [(0xffe, 2, 0x0513)]).fetchWord = 4 ∧ zeroFilling.memSize < 0xffe + 4 ∧
    zeroFilling.oobFetch = .refuse ∧
    drawing.Normative ∧ drawing.oobFetch = .execute := by decide +kernel

/-- The end of the buffer: by default the fetch is refused (R67, U3); executed over the zero fill of the vectors it is `c.invalid`,
which stalls (R67). -/
theorem test_fetch_past_end : (match step (machine zeroFilling 0x1000 [] []) with
      | .refused (.fetchOutsideBuffer a) => a == 0x1000
      | _ => false) = true ∧
    (match step (machine drawing 0x1000 [] []) with
      | .next t => t.pc == 0x1000 && t.adv == 0
      | _ => false) = true := by decide +kernel

/-- `StepKeepsInvariant` and `PcStaysEven`: a state of the invariant, with an even `pc`, from which a step answers a next state. -/
theorem witness_StepKeepsInvariant : (machine primaryParams 0x100 [] []).Inv ∧ (machine primaryParams 0x100 [] []).PcEven ∧
    ∃ t, step (machine primaryParams 0x100 [] []) = .next t :=
  ⟨⟨by decide +kernel, by decide +kernel, by decide +kernel, (fun _ h => by cases h), by decide +kernel⟩, by decide +kernel,
    exists_next_of_isNext (by decide +kernel)⟩

theorem witness_HostOperationsInvariant (s : State) (fill : ResetFill) :
    ∃ t, hostLoad s fill (.records [.record ⟨0x100, .data, 2, [1, 2]⟩, .record ⟨0, .endOfFile, 0, []⟩]) 0 = .loaded t := ⟨_, rfl⟩

/-- `InstructionFrame`: an instruction that stores, and one that writes a register. -/
theorem witness_InstructionFrame : (∃ t, exec (.sd 1 2 0) (machine primaryParams 0 [(1, 0x200)] []) = .next t) ∧
    ∃ t, exec (.jalr 5 5 4) State.reset = .next t :=
  ⟨exists_next_of_isNext (by decide +kernel), exists_next_of_isNext (by decide +kernel)⟩

/-- A store whose span ends inside the next fetch, one that begins there, a store-conditional, and a compressed store: each runs, stores,
and answers a next state. -/
def storesNext (w : Word) (i : Instr) (resv : Option Word) (span : Nat × Nat) : Bool :=
  let s : State := { machine primaryParams 0x100 [(1, 0x102), (2, 0x0010_0013)] [(0x100, 4, w)] with resv := resv }
  decide (decodeWord .rv64 s.fetchWord = some i) && decide (s.AdmitsFetch i.width) && decide (storeSpan i s = some span) &&
    isNext (step s) && span.1 + span.2 > 0x100 + i.width && !s.loadFailed

theorem witness_StoreSeenByNextFetch : storesNext 0x0020a023 (.sw 1 2 0) none (0x102, 4) = true ∧
    storesNext 0x002082a3 (.sb 1 2 5) none (0x107, 1) = true ∧ storesNext 0x0020b0a3 (.sd 1 2 1) none (0x103, 8) = true ∧
    storesNext 0x1820a32f (.scW 6 1 2 0 0) (some 0x102) (0x102, 4) = true := by decide +kernel

theorem witness_StoreSeenByNextFetch_compressed : decodeWord .rv64 0xc00a = some (.cSwsp 2 0) ∧
    storeSpan (.cSwsp 2 0) (machine primaryParams 0x100 [(2, 0x102)] []) = some (0x102, 4) := by decide +kernel

/-- A raw image that the last byte of the buffer cuts, and a stream of data records that overlap, for any state and draw. -/
theorem witness_ResetRestoresImage (s : State) (fill fill' : ResetFill) :
    (∃ t, hostLoad s fill (.raw [1, 2, 3]) 0xfff = .loaded t) ∧ (∃ u, hostLoad s fill' (.raw [1, 2, 3]) 0xfff = .loaded u) ∧
    (∀ r ∈ [(⟨0x100, .data, 2, [1, 2]⟩ : LoadRecord), ⟨0x101, .data, 2, [3, 4]⟩, ⟨0, .endOfFile, 0, []⟩],
      r.countMismatch = false) :=
  ⟨⟨_, rfl⟩, ⟨_, rfl⟩, by decide⟩

/-- One good record, then a record whose count is not its type's. -/
theorem witness_FailedLoadIsUnusable : (∀ r ∈ [(⟨0x100, .data, 2, [1, 2]⟩ : LoadRecord)], r.countMismatch = false) ∧
    ∀ r, LoadItem.record ⟨0, .startAddress, 2, [1, 2]⟩ = .record r → r.countMismatch = true :=
  ⟨by decide, by rintro r h; cases h; rfl⟩

/-! ### The image in memory (R46, R412, R414, R415) and the descriptors (R99, R117) -/

/-- Construction, then a load of two records that overlap and of one cut by the end of the buffer, with the draw of seed 0. -/
theorem test_load_records : (match hostLoad (hostConstruct primaryParams ⟨⟨Vector.replicate 31 0, Vector.replicate 32 0⟩, [(0x103, 9)]⟩)
      ⟨⟨Vector.replicate 31 0, Vector.replicate 32 0⟩, [(0x103, 9)]⟩
      (.records [.record ⟨0x100, .data, 2, [1, 2]⟩, .record ⟨0x101, .data, 2, [3, 4]⟩, .record ⟨0xfff, .data, 2, [5, 6]⟩]) 0 with
    | .loaded t => [0x100, 0x101, 0x102, 0x103, 0xfff, 0x1000].map (observeMem t) == [some 1, some 3, some 4, some 9, some 5, none]
    | _ => false) = true := by decide +kernel

/-- Standard and format of a word of six groups (R104 to R107), and the descriptor of a half-word. -/
theorem test_standards : ((describe .rv64 0x1e75232f).map fun d => (d.standard, d.format)) = some (.aLrsc, .rAtomic) ∧
    ((describe .rv64 0x022082bb).map fun d => (d.standard, d.format)) = some (.m64, .r) ∧
    ((describe .rv32 0x2801).map fun d => (d.standard, d.format)) = some (.c, .cj) ∧
    ((describe .rv64 0x03f09293).map fun d => (d.standard, d.format)) = some (.i, .iShift) ∧
    ((describe .rv64 0x3002d2f3).map fun d => (d.standard, d.format)) = some (.zicsr, .csr) ∧
    ((describe .rv64 0x6000).map fun d => (d.word, d.mnemonic)) = some (0x6000, "c.ld") := by decide +kernel

end Sys2Proof.Tests
end

namespace Sys2Proof.Machine

/-- Settles O9: index 0 reads as 0 in every state, so also in those that writes to it and a reset lead to (R22). -/
theorem registerZero : Obligations.RegisterZero := by
  unfold Obligations.RegisterZero
  intro s
  refine ⟨s.getX_zero, s.setX_zero, fun vs => ?_, fun fill => (hostReset s fill).getX_zero⟩
  have hwrites : vs.foldl (fun t v => t.setX 0 v) s = s := List.foldl_fixed' s.setX_zero vs
  rw [hwrites, s.getX_zero]

end Sys2Proof.Machine

/-! What is written in bounds is read back, and what load-reserved and store-conditional do to the reservation. -/

namespace Sys2Proof.Machine

/-! ### A write read back -/

theorem State.readByte_of_inside (s : State) {a k : Nat} (h : a + k < s.cfg.memSize) : s.readByte a k = s.byteOf (a + k) := if_pos h

/-- Inside the buffer, byte `k` of a read of what was just written is byte `k` of the value (R52, R53). -/
theorem State.readByte_memWrite_same (s : State) (v : Word) {a n k : Nat} (hin : a + n ≤ s.cfg.memSize) (hk : k < n) :
    (s.memWrite a v n).readByte a k = leByte v.toNat k := by
  have hs : a + k < s.cfg.memSize := by omega
  rw [State.readByte_of_inside _ (by simpa using hs), s.byteOf_memWrite, if_pos ⟨by omega, by omega, hs⟩, Nat.add_sub_cancel_left]

/-- Settles O22: each byte by `State.byteOf_memWrite`, every other field by `State.memWrite_eq`; for any length. -/
theorem memoryWrite : Obligations.MemoryWrite := by
  unfold Obligations.MemoryWrite
  intro s a n v _
  exact ⟨s.memWrite_storedBytes a v n, s.memWrite_eq a v n⟩

/-- Settles O23: the bytes read are the low bytes of the value, and so is the number they make. -/
theorem writeThenRead : Obligations.WriteThenRead := by
  unfold Obligations.WriteThenRead
  intro s a n v hn hin
  have hn8 : n ≤ 8 := by simp only [List.mem_cons, List.not_mem_nil, or_false] at hn; omega
  have hbytes : ∀ k, k < n → (s.memWrite a v n).readByte a k = leByte v.toNat k := fun k => s.readByte_memWrite_same v hin
  rw [State.memRead_toNat _ a hn8, State.readNat_of_leByte hbytes, Nat.pow_mul]

/-! ### The parameters decide what stops -/

theorem State.HazardFree.of_cfg_eq {s t : State} {d : Op} {rd : RegIdx} {reads : List RegIdx} (hc : t.cfg = s.cfg)
    (h : s.HazardFree d rd reads) : t.HazardFree d rd reads := by
  unfold State.HazardFree; rwa [hc]

theorem State.Admits.of_cfg_eq {s t : State} {a n : Nat} (hc : t.cfg = s.cfg) (h : s.Admits a n) : t.Admits a n := by
  unfold State.Admits; rwa [hc]

theorem State.Admits.of_le {s : State} {a n m : Nat} (h : s.Admits a n) (hle : m ≤ n) : s.Admits a m := by
  intro hf; have := h hf; omega

/-! ### Load-reserved -/

/-- A load-reserved that completes leaves its own address as the reservation (R60). -/
theorem loadReserved_resv {s t : State} {d : Op} {rd : RegIdx} {reads : List RegIdx} {ea : Word} {n : Nat} {ext : Word → Word}
    (h : loadReserved d rd reads ea n ext s = .next t) : t.resv = some ea := by
  rw [loadReserved_inv h]; simp

theorem State.reserve_reservesX (s : State) (rd : RegIdx) (v ea : Word) (n : Nat) :
    ReservesX s (((s.noteDraws ea.toNat n).setResv (some ea)).setX rd v) rd (v.toNat % 2 ^ s.bits) ea n where
  dest := by simpa using (((s.noteDraws ea.toNat n).setResv (some ea)).setX_writesX rd v).dest
  others := fun r h => by rw [State.getX_setX_ne _ h]; simp
  bytes := fun k => by simp
  resv := by simp
  rest := by rw [(State.setX_writesX _ rd v).rest, s.noteDraws_eq]; rfl
  draws := fun h => by simp [s.noteDraws_of_inside h]

theorem ReservesX.cfg_eq {s t : State} {rd : RegIdx} {v n : Nat} {a : Word} (h : ReservesX s t rd v a n) : t.cfg = s.cfg := by
  rw [h.rest]

theorem reserves_loadReserved {s : State} {i : Instr} {d : Op} {rd : RegIdx} {reads : List RegIdx} {ea : Word} {n : Nat}
    {ext : Word → Word} (he : exec i s = loadReserved d rd reads ea n ext s) (h : s.HazardFree d rd reads)
    (ha : s.Admits ea.toNat n) :
    ∃ t, exec i s = .next t ∧ ReservesX s t rd ((ext (s.memRead ea.toNat n)).toNat % 2 ^ s.bits) ea n :=
  ⟨_, he.trans (loadReserved_next h ha ext), s.reserve_reservesX rd _ ea n⟩

/-- The two load-reserved instructions differ in width and extension only (R271, R273). -/
theorem exec_loadReserved_of_mem {i : Instr} {rd rs1 : RegIdx} {aq rl : BitVec 1}
    (hi : i ∈ [Instr.lrW rd rs1 aq rl, .lrD rd rs1 aq rl]) :
    ∃ n ≤ 8, ∃ ext, ∀ s, exec i s = loadReserved i.op rd [rs1] (s.getX rs1) n ext s := by
  rw [List.mem_pair] at hi
  rcases hi with rfl | rfl
  · exact ⟨4, by decide, sext 32, fun s => exec_lrW s ..⟩
  · exact ⟨8, by decide, sext 64, fun s => exec_lrD s ..⟩

/-! ### Store-conditional -/

/-- A store-conditional that completes clears the reservation on a match and else keeps it (R61). -/
theorem storeConditional_resv {s t : State} {d : Op} {rd : RegIdx} {reads : List RegIdx} {ea v : Word} {n : Nat}
    (h : storeConditional d rd reads ea n v s = .next t) : t.resv = if s.resv = some ea then none else s.resv := by
  rcases storeConditional_inv h with ⟨hm, rfl⟩ | ⟨hm, rfl⟩
  · simp [hm]
  · simp [hm]

theorem State.conditional_conditionallyStores (s : State) (rd : RegIdx) (a n : Nat) (v : Word) :
    ConditionallyStores s (((s.memWrite a v n).setResv none).setX rd 0) rd a n v.toNat where
  dest := by simpa using (((s.memWrite a v n).setResv none).setX_writesX rd 0).dest
  others := fun r h => by rw [State.getX_setX_ne _ h]; simp
  bytes := fun k => by simpa using s.memWrite_storedBytes a v n k
  resv := by simp
  rest := by rw [(State.setX_writesX _ rd 0).rest, s.memWrite_eq]; rfl

theorem ConditionallyStores.cfg_eq {s t : State} {rd : RegIdx} {a n v : Nat} (h : ConditionallyStores s t rd a n v) :
    t.cfg = s.cfg := by
  rw [h.rest]

theorem conditionallyStores_storeConditional {s : State} {i : Instr} {d : Op} {rd : RegIdx} {reads : List RegIdx} {ea v : Word}
    {n : Nat} (he : exec i s = storeConditional d rd reads ea n v s) (h : s.HazardFree d rd reads) (hm : s.resv = some ea)
    (ha : s.Admits ea.toNat n) : ∃ t, exec i s = .next t ∧ ConditionallyStores s t rd ea.toNat n v.toNat :=
  ⟨_, he.trans (storeConditional_success h hm ha v), s.conditional_conditionallyStores rd _ n v⟩

theorem yields_storeConditional {s : State} {i : Instr} {d : Op} {rd : RegIdx} {reads : List RegIdx} {ea v : Word} {n : Nat}
    (he : exec i s = storeConditional d rd reads ea n v s) (h : s.HazardFree d rd reads) (hm : s.resv ≠ some ea) :
    Yields s i rd 1 :=
  ⟨_, he.trans (storeConditional_failure h hm v), writesX_of_eq rfl (boolWord_toNat_mod s true)⟩

/-- The two store-conditional instructions differ in width only (R272, R274). -/
theorem exec_storeConditional_of_mem {i : Instr} {rd rs1 rs2 : RegIdx} {aq rl : BitVec 1}
    (hi : i ∈ [Instr.scW rd rs1 rs2 aq rl, .scD rd rs1 rs2 aq rl]) :
    ∃ n ≤ 8, ∀ s, exec i s = storeConditional i.op rd [rs1, rs2] (s.getX rs1) n (s.getX rs2) s := by
  rw [List.mem_pair] at hi
  rcases hi with rfl | rfl
  · exact ⟨4, by decide, fun s => exec_scW s ..⟩
  · exact ⟨8, by decide, fun s => exec_scD s ..⟩

/-! ### The laws of the reservation -/

/-- Settles O33. (a) and (c) are what a completed load-reserved and store-conditional leave as the reservation. For (b) the
load-reserved leaves `x[rs1]` both as the address and as the reservation, so the first store-conditional matches and clears it, and
the second fails; none of them changes the parameters that could stop the next. -/
theorem reservationLaws : Obligations.ReservationLaws := by
  unfold Obligations.ReservationLaws
  intro s rd rd2 rd3 rs1 rs2 aq rl
  refine ⟨?reserves, ?succeedsOnce, ?failureKeeps⟩
  case reserves =>
    rintro t (h | h)
    · exact loadReserved_resv ((exec_lrW ..).symm.trans h)
    · exact loadReserved_resv ((exec_lrD ..).symm.trans h)
  case succeedsOnce =>
    intro lr hlr sc hsc again hagain hfree hfree2 hfree3 ha hrd _
    obtain ⟨n, hn, ext, hexecLr⟩ := exec_loadReserved_of_mem hlr
    obtain ⟨m, hm, hexecSc⟩ := exec_storeConditional_of_mem hsc
    obtain ⟨_, _, hexecAgain⟩ := exec_storeConditional_of_mem hagain
    obtain ⟨t, hst, ht⟩ := reserves_loadReserved (hexecLr s) hfree (ha.of_le hn)
    have haddr : t.getX rs1 = s.getX rs1 := ht.others rs1 hrd
    have hmatch : t.resv = some (t.getX rs1) := by rw [ht.resv, haddr]
    have hadmits : t.Admits (t.getX rs1).toNat m := by rw [haddr]; exact (ha.of_le hm).of_cfg_eq ht.cfg_eq
    obtain ⟨u, htu, hu⟩ := conditionallyStores_storeConditional (hexecSc t) (hfree2.of_cfg_eq ht.cfg_eq) hmatch hadmits
    have hcleared : u.resv ≠ some (u.getX rs1) := by simp [hu.resv]
    obtain ⟨v, huv, hv⟩ := yields_storeConditional (hexecAgain u) (hfree3.of_cfg_eq (hu.cfg_eq.trans ht.cfg_eq)) hcleared
    exact ⟨t, u, v, hst, htu, huv, hu.dest, hv.dest, hv.bytes⟩
  case failureKeeps =>
    rintro t hm (h | h)
    · exact (storeConditional_resv ((exec_scW ..).symm.trans h)).trans (if_neg hm)
    · exact (storeConditional_resv ((exec_scD ..).symm.trans h)).trans (if_neg hm)

end Sys2Proof.Machine

/-! What a lookup answers, and what an instruction that was read from a word owes to the row it matched. -/

namespace Sys2Proof

/-! ### The lookup as a search -/

theorem findRow_eq_some_iff {xl : Xlen} {w : BitVec 32} {r : Row} : findRow xl w = some r ↔
    ∃ before after, registry xl = before ++ r :: after ∧ r.accepts w = true ∧ ∀ r' ∈ before, r'.accepts w = false := by
  rw [findRow, List.find?_eq_some_iff_append]
  constructor
  · rintro ⟨ha, before, after, he, hn⟩
    exact ⟨before, after, he, ha, by simpa using hn⟩
  · rintro ⟨before, after, he, ha, hn⟩
    exact ⟨ha, before, after, he, by simpa using hn⟩

theorem findRow_eq_none_iff {xl : Xlen} {w : BitVec 32} :
    findRow xl w = none ↔ ∀ r ∈ registry xl, r.accepts w = false := by
  simp [findRow]

theorem mem_rows_of_mem_registry {xl : Xlen} {r : Row} (h : r ∈ registry xl) : r ∈ rows := List.mem_of_mem_filter h

/-! ### The decoder by its row -/

@[simp] theorem fieldsOf_op (op : Op) (w : BitVec 32) : (fieldsOf op w).op = op := by
  cases op <;> rfl

/-- What is read from a word are the fields of a row of the registry that accepts the word presented to it. -/
theorem exists_row_of_decodeWord {xl : Xlen} {w : BitVec 32} {i : Instr} (h : decodeWord xl w = some i) :
    ∃ r ∈ registry xl, r.accepts (instrWord w) = true ∧ i = fieldsOf r.op (instrWord w) := by
  rw [decodeWord, describe, Option.map_map, Option.map_eq_some_iff] at h
  obtain ⟨r, hr, rfl⟩ := h
  obtain ⟨before, after, he, ha, -⟩ := findRow_eq_some_iff.mp hr
  exact ⟨r, by simp [he], ha, rfl⟩

theorem decodeWord_eq_none_iff {xl : Xlen} {w : BitVec 32} :
    decodeWord xl w = none ↔ ∀ r ∈ registry xl, r.accepts (instrWord w) = false := by
  rw [decodeWord, describe, Option.map_map, Option.map_eq_none_iff, findRow_eq_none_iff]

/-! ### The bits that give the length -/

theorem bits_eq_of_accepts {r : Row} {w : BitVec 32} {lo len : Nat} (hm : bits r.mask lo len = BitVec.allOnes len)
    (ha : r.accepts w = true) : bits w lo len = bits r.want lo len := by
  by_contra hne
  simp [not_accepts_of_field lo len hm hne] at ha

/-- The two low bits of the word presented to the registry are those of the fetched word. -/
theorem instrWord_low (w : BitVec 32) : bits (instrWord w) 0 2 = bits w 0 2 := by
  unfold instrWord
  split
  · rfl
  · apply BitVec.eq_of_getLsbD_eq
    intro i hi
    have h16 : i < 16 := by omega
    have h32 : i < 32 := by omega
    simp [bits, hi, h16, h32]

theorem widthOf_eq_of_low {w v : BitVec 32} (h : bits w 0 2 = bits v 0 2) : widthOf w = widthOf v := by
  simp [widthOf, isWide, h]

/-- Every row cares about the two low bits, and they give the length of its instruction (R80). -/
theorem rows_low : ∀ r ∈ rows, bits r.mask 0 2 = 3 ∧ r.op.width = widthOf r.want := by decide +kernel

/-- Every row of a 32-bit instruction cares about the five low bits and wants them not all 1 (R80). -/
theorem rows_low_of_wide : ∀ r ∈ rows, bits r.want 0 2 = 3 → bits r.mask 0 5 = 31 ∧ bits r.want 0 5 ≠ 31 := by
  decide +kernel

/-- An instruction is as long as the fetched word says (R131). -/
theorem width_of_decodeWord {xl : Xlen} {w : BitVec 32} {i : Instr} (h : decodeWord xl w = some i) : i.width = widthOf w := by
  obtain ⟨r, hr, ha, rfl⟩ := exists_row_of_decodeWord h
  obtain ⟨hmask, hwidth⟩ := rows_low r (mem_rows_of_mem_registry hr)
  calc (fieldsOf r.op (instrWord w)).width
      = r.op.width := by rw [Instr.width, fieldsOf_op]
    _ = widthOf r.want := hwidth
    _ = widthOf w := widthOf_eq_of_low ((bits_eq_of_accepts hmask ha).symm.trans (instrWord_low w))

theorem low_of_low_five {w : BitVec 32} (h : bits w 0 5 = 31) : bits w 0 2 = 3 := by
  have := congrArg (fun x : BitVec 5 => x.extractLsb' 0 2) h
  simpa [bits, BitVec.extractLsb'_extractLsb'_of_le] using this

/-- No row accepts a word that would mark an encoding longer than 32 bits. -/
theorem not_accepts_of_long {r : Row} (hr : r ∈ rows) {w : BitVec 32} (h : bits w 0 5 = 31) : r.accepts w = false := by
  by_cases hwide : bits r.want 0 2 = 3
  · obtain ⟨hmask, hwant⟩ := rows_low_of_wide r hr hwide
    exact not_accepts_of_field 0 5 hmask (by rw [h]; exact hwant.symm)
  · exact not_accepts_of_field 0 2 (rows_low r hr).1 (by rw [low_of_low_five h]; exact Ne.symm hwide)

/-- Settles O6: the length is that of the row matched, whose low bits are the word's; a word that marks a longer encoding differs from
each row in the low five bits, or in the low two where the row is 16 bits long. -/
theorem widthByLowBits : Obligations.WidthByLowBits := by
  unfold Obligations.WidthByLowBits
  intro xl w
  refine ⟨fun i h => ?length, fun h => ?miss⟩
  case length =>
    rw [width_of_decodeWord h]
    simp [widthOf, isWide, bits]
  case miss =>
    rw [decodeWord_eq_none_iff, instrWord_of_wide (low_of_low_five h)]
    exact fun r hr => not_accepts_of_long (mem_rows_of_mem_registry hr) h

/-! ### The matcher and the order of the registry -/

/-- No matcher of the registry wants a bit it does not care about (R97). -/
theorem rows_want_within_mask : ∀ r ∈ rows, r.want &&& ~~~r.mask = 0 := by decide +kernel

/-- Settles O4: the matcher by `accepts_iff`, the wanted patterns row by row. -/
theorem bitMatcher : Obligations.BitMatcher := by
  unfold Obligations.BitMatcher
  exact ⟨accepts_iff, rows_want_within_mask⟩

/-- Settles O5: the lookup is a search of the registry from its front. -/
theorem firstMatchLookup : Obligations.FirstMatchLookup := by
  unfold Obligations.FirstMatchLookup
  exact fun _ _ => ⟨fun _ => findRow_eq_some_iff, findRow_eq_none_iff⟩

end Sys2Proof

/-! What the prologue and the epilogue of a step change, and a step that misses. -/

namespace Sys2Proof.Machine

/-! ### Prologue and epilogue -/

/-- The prologue sets the pending advance and may count draws (R132). -/
theorem State.prologue_eq (s : State) : s.prologue = { s with adv := s.prologue.adv, draws := s.prologue.draws } := by
  unfold State.prologue
  rw [s.noteDraws_eq]
  rfl

/-- A fetch inside the buffer draws nothing. -/
theorem State.prologue_draws_of_inside {s : State} (h : s.pc.toNat + 4 ≤ s.cfg.memSize) : s.prologue.draws = s.draws := by
  rw [State.prologue, State.setAdv_draws, s.noteDraws_of_inside h]

theorem State.setAdv_zero (s : State) : s.setAdv 0 = { s with adv := 0 } := by
  rw [State.setAdv, narrow_zero s.bits_le]

/-- With no pending advance the epilogue leaves `pc`, and so the state, as it was (R136). -/
theorem State.epilogue_of_adv_zero {s : State} (ha : s.adv = 0) (hp : s.Fits s.pc) : s.epilogue = s := by
  have hsum : s.pc + s.adv = s.pc := by simp [ha]
  rw [State.epilogue, State.setPc, hsum, narrow_of_lt s.bits_le hp]

/-! ### A decode miss -/

/-- The epilogue after a miss changes nothing: what is left of the step is the prologue with the advance taken back (R142). -/
theorem State.epilogue_of_miss {s : State} (hp : s.Fits s.pc) :
    (s.prologue.setAdv 0).epilogue = { s with adv := 0, draws := s.prologue.draws } := by
  have hstall : (s.prologue.setAdv 0).epilogue = s.prologue.setAdv 0 :=
    State.epilogue_of_adv_zero (narrow_zero s.prologue.bits_le) (by simpa [State.Fits] using hp)
  rw [hstall, State.setAdv_zero, s.prologue_eq]

/-- Settles O48: a miss skips the executor, and the epilogue adds 0 to `pc`. -/
theorem decodeMissStalls : Obligations.DecodeMissStalls := by
  unfold Obligations.DecodeMissStalls
  intro s hl ha hp hd
  refine ⟨{ s with adv := 0, draws := s.prologue.draws }, ?step, rfl, State.prologue_draws_of_inside⟩
  case step => rw [step_of_miss hl ha hd, State.epilogue_of_miss hp]

end Sys2Proof.Machine

/-! How a word decodes, from the fields of it that the matchers care about, and the integer computational instructions: encodings,
results, frames and completion. -/

namespace Sys2Proof

/-! ### Words by their fields -/

/-- The bits `lo+len-1 : lo` of a word and the value they are to have. -/
structure WordField where
  /-- The lowest bit. -/
  lo : Nat
  /-- The number of bits. -/
  len : Nat
  /-- The value. -/
  val : BitVec len

/-- The word has the value of each field. -/
abbrev HasFields (w : BitVec 32) (l : List WordField) : Prop := ∀ f ∈ l, bits w f.lo f.len = f.val

/-- The registry holds a row of entry `o` for 32-bit words that cares about these fields alone and wants these values in them, and
no earlier row refines it. -/
abbrev RowOfFields (xl : Xlen) (o : Op) (l : List WordField) : Prop :=
  ∃ r ∈ rows, r.op = o ∧ r.appliesTo xl = true ∧ r.mask = maskOf (l.map fun f => (f.lo, f.len)) ∧ HasFields r.want l ∧
    bits r.want 0 2 = 3 ∧ refinements o = []

/-- Every row of the registry cares about a bit of one of these fields and wants it otherwise. -/
abbrev NoRowOfFields (xl : Xlen) (l : List WordField) : Prop :=
  ∀ r ∈ registry xl, ∃ f ∈ l, bits r.mask f.lo f.len &&& (f.val ^^^ bits r.want f.lo f.len) ≠ 0

/-- A word with the values a row wants decodes to that row's entry, with the word's fields. -/
theorem decodeWord_of_rowOfFields {xl : Xlen} {o : Op} {l : List WordField} {w : BitVec 32} (h : RowOfFields xl o l)
    (hw : HasFields w l) : decodeWord xl w = some (fieldsOf o w) := by
  obtain ⟨r, hr, rfl, hx, hmask, hwant, hwide, hrefine⟩ := h
  have ha : r.accepts w = true := by
    refine accepts_of_fields _ hmask (List.forall_mem_map.mpr fun f hf => ?_)
    rw [hw f hf, hwant f hf]
  have hlow : bits w 0 2 = 3 := (bits_eq_of_accepts (rows_low r hr).1 ha).trans hwide
  exact decodeWord_of_row r (instrWord_of_wide hlow) hr hx ha rfl (by simp [hrefine])

theorem bits_and_xor_eq_zero_of_accepts {r : Row} {w : BitVec 32} (ha : r.accepts w = true) (lo len : Nat) :
    bits r.mask lo len &&& (bits w lo len ^^^ bits r.want lo len) = 0 := by
  have h := congrArg (fun x => bits x lo len) ((accepts_iff r w).mp ha)
  simpa [bits, BitVec.extractLsb'_and, BitVec.extractLsb'_xor] using h

/-- A 32-bit word that differs from what every row wants is a decode miss (R108). -/
theorem decodeWord_eq_none_of_noRowOfFields {xl : Xlen} {l : List WordField} {w : BitVec 32} (h : NoRowOfFields xl l)
    (hlow : bits w 0 2 = 3) (hw : HasFields w l) : decodeWord xl w = none := by
  rw [decodeWord_eq_none_iff, instrWord_of_wide hlow]
  intro r hr
  obtain ⟨f, hf, hne⟩ := h r hr
  rw [← Bool.not_eq_true]
  intro ha
  exact hne (hw f hf ▸ bits_and_xor_eq_zero_of_accepts ha f.lo f.len)

/-- The two low bits of a word are those of its opcode. -/
theorem bits_low_of_opcodeOf {w : BitVec 32} {op : BitVec 7} (h : opcodeOf w = op) : bits w 0 2 = op.extractLsb' 0 2 := by
  rw [← h, opcodeOf, BitVec.extractLsb'_extractLsb'_of_le (by omega)]
  rfl

/-- A word whose opcode no row wants is a decode miss. -/
theorem decodeWord_eq_none_of_opcodeOf {xl : Xlen} {w : BitVec 32} {op : BitVec 7} (h : NoRowOfFields xl [⟨0, 7, op⟩])
    (hlow : op.extractLsb' 0 2 = 3) (hop : opcodeOf w = op) : decodeWord xl w = none :=
  decodeWord_eq_none_of_noRowOfFields h ((bits_low_of_opcodeOf hop).trans hlow) (by simp [HasFields, bits, hop])

/-! ### The formats with a destination (R81) -/

theorem encodedI_of_row {xl : Xlen} {op : BitVec 7} {f3 : BitVec 3} {mk : RegIdx → RegIdx → BitVec 12 → Instr} (o : Op)
    (h : RowOfFields xl o [⟨0, 7, op⟩, ⟨12, 3, f3⟩]) (hf : ∀ w, fieldsOf o w = mk (fRd w) (fRs1 w) (fImmI w)) :
    EncodedI xl op f3 mk := by
  intro w hop hf3
  rw [decodeWord_of_rowOfFields h (by simp [HasFields, bits, hop, hf3]), hf]
  rfl

theorem encodedR_of_row {xl : Xlen} {op : BitVec 7} {f3 : BitVec 3} {f7 : BitVec 7} {mk : RegIdx → RegIdx → BitVec 5 → Instr}
    (o : Op) (h : RowOfFields xl o [⟨0, 7, op⟩, ⟨12, 3, f3⟩, ⟨25, 7, f7⟩])
    (hf : ∀ w, fieldsOf o w = mk (fRd w) (fRs1 w) (fRs2 w)) : EncodedR xl op f3 f7 mk := by
  intro w hop hf3 hf7
  rw [decodeWord_of_rowOfFields h (by simp [HasFields, bits, hop, hf3, hf7]), hf]
  rfl

/-- The row of XLEN = 64 does not care about bit 25, the row of XLEN = 32 wants it 0 and no other row takes its place (R91). -/
theorem encodedShift_of_rows {f3 : BitVec 3} {top : BitVec 6} {mk : RegIdx → RegIdx → BitVec 6 → Instr} (o : Op)
    (h64 : RowOfFields .rv64 o [⟨0, 7, 0b0010011#7⟩, ⟨12, 3, f3⟩, ⟨26, 6, top⟩])
    (h32 : RowOfFields .rv32 o [⟨0, 7, 0b0010011#7⟩, ⟨12, 3, f3⟩, ⟨26, 6, top⟩, ⟨25, 1, 0#1⟩])
    (hmiss : NoRowOfFields .rv32 [⟨0, 7, 0b0010011#7⟩, ⟨12, 3, f3⟩, ⟨26, 6, top⟩, ⟨25, 1, 1#1⟩])
    (hf : ∀ w, fieldsOf o w = mk (fRd w) (fRs1 w) (fShamt w)) : EncodedShift f3 top mk := by
  intro w hop hf3 htop
  have hfields : fieldsOf o w = mk (w.extractLsb' 7 5) (w.extractLsb' 15 5) (w.extractLsb' 20 6) := hf w
  refine ⟨?rv64, ?rv32⟩
  case rv64 => rw [decodeWord_of_rowOfFields h64 (by simp [HasFields, bits, hop, hf3, htop]), hfields]
  case rv32 =>
    rcases BitVec.eq_zero_or_eq_one (w.extractLsb' 25 1) with h25 | h25
    · rw [if_pos h25, decodeWord_of_rowOfFields h32 (by simp [HasFields, bits, hop, hf3, htop, h25]), hfields]
    · rw [if_neg (by simp [h25])]
      exact decodeWord_eq_none_of_noRowOfFields hmiss (bits_low_of_opcodeOf hop) (by simp [HasFields, bits, hop, hf3, htop, h25])

end Sys2Proof

namespace Sys2Proof.Machine

/-! ### Results as numbers -/

theorem add_imm12_toNat_mod (s : State) {n : Nat} (hn : n ≤ s.bits) (r : RegIdx) (imm : BitVec 12) :
    (s.getX r + s.imm12 imm).toNat % 2 ^ n = modNat n (s.natX r + imm.toInt) := by
  rw [add_toNat_mod (hn.trans s.bits_le), s.getX_toNat, ← Nat.add_mod_mod, s.imm12_toNat, modNat_mod hn, add_modNat]

theorem State.imm12_lt (s : State) (imm : BitVec 12) : (s.imm12 imm).toNat < 2 ^ s.bits := by
  rw [s.imm12_toNat]; exact modNat_lt ..

theorem State.unsignedAt_imm12 (s : State) (imm : BitVec 12) : unsignedAt s.bits (s.imm12 imm) = modNat s.bits imm.toInt := by
  rw [unsignedAt_eq, Nat.mod_eq_of_lt (s.imm12_lt imm), s.imm12_toNat]

/-- A signed comparison as the 0 or 1 written (R152, R160). -/
theorem boolWord_ltS_toNat_mod (s : State) (a b : Word) :
    (boolWord (ltS s.bits a b)).toNat % 2 ^ s.bits = if signedAt s.bits a < signedAt s.bits b then 1 else 0 := by
  simp [boolWord_toNat_mod, ltS]

/-- An unsigned comparison as the 0 or 1 written (R152, R161). -/
theorem boolWord_ltU_toNat_mod (s : State) (a b : Word) :
    (boolWord (ltU s.bits a b)).toNat % 2 ^ s.bits = if unsignedAt s.bits a < unsignedAt s.bits b then 1 else 0 := by
  simp [boolWord_toNat_mod, ltU]

theorem xor_toNat_mod {n : Nat} {a b : Word} (ha : a.toNat < 2 ^ n) (hb : b.toNat < 2 ^ n) :
    (a ^^^ b).toNat % 2 ^ n = a.toNat ^^^ b.toNat := by
  rw [BitVec.toNat_xor, Nat.mod_eq_of_lt (Nat.xor_lt_two_pow ha hb)]

theorem or_toNat_mod {n : Nat} {a b : Word} (ha : a.toNat < 2 ^ n) (hb : b.toNat < 2 ^ n) :
    (a ||| b).toNat % 2 ^ n = a.toNat ||| b.toNat := by
  rw [BitVec.toNat_or, Nat.mod_eq_of_lt (Nat.or_lt_two_pow ha hb)]

theorem and_toNat_mod {n : Nat} (a : Word) {b : Word} (hb : b.toNat < 2 ^ n) :
    (a &&& b).toNat % 2 ^ n = a.toNat &&& b.toNat := by
  rw [BitVec.toNat_and, Nat.mod_eq_of_lt (Nat.and_lt_two_pow _ hb)]

theorem State.wordBits_of_operandsFirst {s : State} (h : s.cfg.wordMode = .operandsFirst) : s.wordBits = 32 := by
  simp [State.wordBits, h]

/-- A result restricted to its low 32 bits and sign-extended depends on these bits only (R156). -/
theorem sext_word_toNat_mod {s : State} (hx : s.cfg.xlen = .rv64) {v : Word} {k : Nat} (hk : v.toNat % 2 ^ 32 = k % 2 ^ 32) :
    (sext 32 v).toNat % 2 ^ s.bits = sextNat 64 32 k := by
  rw [s.sext_result (by omega) (by omega), State.bits_of_rv64 hx, sextNat_of_mod_eq hk]

theorem sext_shlAt_word_toNat_mod {s : State} (hx : s.cfg.xlen = .rv64) (r : RegIdx) (k : Nat) :
    (sext 32 (shlAt 32 (s.getX r) k)).toNat % 2 ^ s.bits = sextNat 64 32 (s.natX r * 2 ^ k) :=
  sext_word_toNat_mod hx (by rw [shlAt_toNat (by omega), Nat.mod_mod, s.getX_toNat])

theorem sext_shrAt_word_toNat_mod {s : State} (hx : s.cfg.xlen = .rv64) (r : RegIdx) (k : Nat) :
    (sext 32 (shrAt 32 (s.getX r) k)).toNat % 2 ^ s.bits = sextNat 64 32 (s.natX r % 2 ^ 32 / 2 ^ k) :=
  sext_word_toNat_mod hx (by rw [shrAt_toNat (by omega), s.getX_toNat])

/-- The sign extension of an arithmetic right shift within n bits is the shift of the signed value (R181, R186). -/
theorem sext_sarAt_toNat_mod (s : State) {n : Nat} (hn : 0 < n) (h : n ≤ 64) (r : RegIdx) (k : Nat) :
    (sext n (sarAt n (s.getX r) k)).toNat % 2 ^ s.bits = modNat s.bits (s.lowX n r / 2 ^ k) := by
  obtain ⟨hlo, hhi⟩ := s.lowX_bounds hn r
  obtain ⟨hlo', hhi'⟩ := ediv_two_pow_bounds (k := k) hlo hhi
  rw [s.sext_result hn h, sarAt_toNat hn h]
  exact sextNat_modNat hn hlo' hhi'

/-! ### Immediate operands (R159 to R167) -/

theorem immediateArithmetic_encoded (xl : Xlen) :
    EncodedI xl 0b0010011#7 0b000#3 .addi ∧ EncodedI xl 0b0010011#7 0b010#3 .slti ∧
    EncodedI xl 0b0010011#7 0b011#3 .sltiu ∧ EncodedI xl 0b0010011#7 0b100#3 .xori ∧
    EncodedI xl 0b0010011#7 0b110#3 .ori ∧ EncodedI xl 0b0010011#7 0b111#3 .andi := by
  refine ⟨encodedI_of_row .addi ?_ fun _ => rfl, encodedI_of_row .slti ?_ fun _ => rfl, encodedI_of_row .sltiu ?_ fun _ => rfl,
    encodedI_of_row .xori ?_ fun _ => rfl, encodedI_of_row .ori ?_ fun _ => rfl, encodedI_of_row .andi ?_ fun _ => rfl⟩ <;>
    cases xl <;> decide +kernel

/-- Settles O12: each word has the fields of its row, and each instruction is the ALU functor with the sign-extended immediate. -/
theorem immediateArithmetic : Obligations.ImmediateArithmetic := by
  unfold Obligations.ImmediateArithmetic
  refine ⟨immediateArithmetic_encoded, fun s rd rs1 imm => ⟨fun h => ?addi, fun h => ?slti, fun h => ?sltiu, fun h => ?xori,
    fun h => ?ori, fun h => ?andi⟩⟩
  case addi => exact yields_aluImm (exec_addi ..) h (add_imm12_toNat_mod s le_rfl rs1 imm)
  case slti =>
    refine yields_aluImm (exec_slti ..) h ?_
    rw [boolWord_ltS_toNat_mod, s.signedAt_getX, s.signedAt_imm12]
  case sltiu =>
    refine yields_aluImm (exec_sltiu ..) h ?_
    rw [boolWord_ltU_toNat_mod, s.unsignedAt_getX, s.unsignedAt_imm12]
  case xori =>
    refine yields_aluImm (exec_xori ..) h ?_
    rw [xor_toNat_mod (s.natX_lt rs1) (s.imm12_lt imm), s.getX_toNat, s.imm12_toNat]
  case ori =>
    refine yields_aluImm (exec_ori ..) h ?_
    rw [or_toNat_mod (s.natX_lt rs1) (s.imm12_lt imm), s.getX_toNat, s.imm12_toNat]
  case andi =>
    refine yields_aluImm (exec_andi ..) h ?_
    rw [and_toNat_mod _ (s.imm12_lt imm), s.getX_toNat, s.imm12_toNat]

theorem immediateShifts_encoded : EncodedShift 0b001#3 0b000000#6 .slli ∧ EncodedShift 0b101#3 0b000000#6 .srli ∧
    EncodedShift 0b101#3 0b010000#6 .srai := by
  refine ⟨encodedShift_of_rows .slli ?_ ?_ ?_ fun _ => rfl, encodedShift_of_rows .srli ?_ ?_ ?_ fun _ => rfl,
    encodedShift_of_rows .srai ?_ ?_ ?_ fun _ => rfl⟩ <;> decide +kernel

/-- Settles O13: the rows of the two registries differ in bit 25 only, and the amount is masked to the register width. -/
theorem immediateShifts : Obligations.ImmediateShifts := by
  unfold Obligations.ImmediateShifts
  refine ⟨immediateShifts_encoded, fun s rd rs1 shamt => ?_⟩
  rw [← s.shamtImm_eq]
  exact ⟨fun h => yields_aluImm (exec_slli ..) h (shlAt_getX s rs1 _),
    fun h => yields_aluImm (exec_srli ..) h (shrAt_getX s rs1 _),
    fun h => yields_aluImm (exec_srai ..) h (sarAt_getX s rs1 _)⟩

/-! ### Register operands (R168 to R177) -/

theorem registerArithmetic_encoded (xl : Xlen) :
    EncodedR xl 0b0110011#7 0b000#3 0b0000000#7 .add ∧ EncodedR xl 0b0110011#7 0b000#3 0b0100000#7 .sub ∧
    EncodedR xl 0b0110011#7 0b001#3 0b0000000#7 .sll ∧ EncodedR xl 0b0110011#7 0b010#3 0b0000000#7 .slt ∧
    EncodedR xl 0b0110011#7 0b011#3 0b0000000#7 .sltu ∧ EncodedR xl 0b0110011#7 0b100#3 0b0000000#7 .xor ∧
    EncodedR xl 0b0110011#7 0b101#3 0b0000000#7 .srl ∧ EncodedR xl 0b0110011#7 0b101#3 0b0100000#7 .sra ∧
    EncodedR xl 0b0110011#7 0b110#3 0b0000000#7 .or ∧ EncodedR xl 0b0110011#7 0b111#3 0b0000000#7 .and := by
  refine ⟨encodedR_of_row .add ?_ fun _ => rfl, encodedR_of_row .sub ?_ fun _ => rfl, encodedR_of_row .sll ?_ fun _ => rfl,
    encodedR_of_row .slt ?_ fun _ => rfl, encodedR_of_row .sltu ?_ fun _ => rfl, encodedR_of_row .xor ?_ fun _ => rfl,
    encodedR_of_row .srl ?_ fun _ => rfl, encodedR_of_row .sra ?_ fun _ => rfl, encodedR_of_row .or ?_ fun _ => rfl,
    encodedR_of_row .and ?_ fun _ => rfl⟩ <;>
    cases xl <;> decide +kernel

/-- Settles O14: each instruction is the ALU functor over two registers, with the amount of a shift masked to the register width. -/
theorem registerArithmetic : Obligations.RegisterArithmetic := by
  unfold Obligations.RegisterArithmetic
  refine ⟨registerArithmetic_encoded, fun s rd rs1 rs2 => ?_⟩
  rw [← s.shamtReg_eq]
  refine ⟨fun h => ?add, fun h => ?sub, fun h => ?sll, fun h => ?slt, fun h => ?sltu, fun h => ?xor, fun h => ?srl, fun h => ?sra,
    fun h => ?or, fun h => ?and⟩
  case add => exact yields_aluReg (exec_add ..) h (add_toNat_mod s.bits_le ..)
  case sub => exact yields_aluReg (exec_sub ..) h (sub_toNat_mod s.bits_le ..)
  case sll => exact yields_aluReg (exec_sll ..) h (shlAt_getX s rs1 _)
  case slt =>
    refine yields_aluReg (exec_slt ..) h ?_
    rw [boolWord_ltS_toNat_mod, s.signedAt_getX, s.signedAt_getX]
  case sltu =>
    refine yields_aluReg (exec_sltu ..) h ?_
    rw [boolWord_ltU_toNat_mod, s.unsignedAt_getX, s.unsignedAt_getX]
  case xor => exact yields_aluReg (exec_xor ..) h (xor_toNat_mod (s.natX_lt rs1) (s.natX_lt rs2))
  case srl => exact yields_aluReg (exec_srl ..) h (shrAt_getX s rs1 _)
  case sra => exact yields_aluReg (exec_sra ..) h (sarAt_getX s rs1 _)
  case or => exact yields_aluReg (exec_or ..) h (or_toNat_mod (s.natX_lt rs1) (s.natX_lt rs2))
  case and => exact yields_aluReg (exec_and ..) h (and_toNat_mod _ (s.natX_lt rs2))

/-! ### Word variants (R178 to R186) -/

theorem wordVariants_encoded :
    EncodedI .rv64 0b0011011#7 0b000#3 .addiw ∧ EncodedR .rv64 0b0011011#7 0b001#3 0b0000000#7 .slliw ∧
    EncodedR .rv64 0b0011011#7 0b101#3 0b0000000#7 .srliw ∧ EncodedR .rv64 0b0011011#7 0b101#3 0b0100000#7 .sraiw ∧
    EncodedR .rv64 0b0111011#7 0b000#3 0b0000000#7 .addw ∧ EncodedR .rv64 0b0111011#7 0b000#3 0b0100000#7 .subw ∧
    EncodedR .rv64 0b0111011#7 0b001#3 0b0000000#7 .sllw ∧ EncodedR .rv64 0b0111011#7 0b101#3 0b0000000#7 .srlw ∧
    EncodedR .rv64 0b0111011#7 0b101#3 0b0100000#7 .sraw := by
  refine ⟨encodedI_of_row .addiw ?_ fun _ => rfl, encodedR_of_row .slliw ?_ fun _ => rfl, encodedR_of_row .srliw ?_ fun _ => rfl,
    encodedR_of_row .sraiw ?_ fun _ => rfl, encodedR_of_row .addw ?_ fun _ => rfl, encodedR_of_row .subw ?_ fun _ => rfl,
    encodedR_of_row .sllw ?_ fun _ => rfl, encodedR_of_row .srlw ?_ fun _ => rfl, encodedR_of_row .sraw ?_ fun _ => rfl⟩ <;>
    decide +kernel

/-- No row of the registry of XLEN = 32 has an opcode of the word variants. -/
theorem wordVariants_miss_rv32 {w : BitVec 32} (h : opcodeOf w = 0b0011011#7 ∨ opcodeOf w = 0b0111011#7) :
    decodeWord .rv32 w = none := by
  rcases h with hop | hop
  · exact decodeWord_eq_none_of_opcodeOf (by decide +kernel) (by decide) hop
  · exact decodeWord_eq_none_of_opcodeOf (by decide +kernel) (by decide) hop

/-- SLLIW has five bits of amount: with bit 25 set its word misses (R91). -/
theorem slliw_miss_of_bit25 {w : BitVec 32} (hop : opcodeOf w = 0b0011011#7) (hf3 : funct3Of w = 0b001#3)
    (h25 : w.extractLsb' 25 1 = 1#1) : decodeWord .rv64 w = none :=
  decodeWord_eq_none_of_noRowOfFields (l := [⟨0, 7, 0b0011011#7⟩, ⟨12, 3, 0b001#3⟩, ⟨25, 1, 1#1⟩]) (by decide +kernel)
    (bits_low_of_opcodeOf hop) (by simp [HasFields, bits, hop, hf3, h25])

/-- Settles O15: the low 32 bits of each result are those of the operation on the operands' low 32 bits, and the sign extension
depends on them only. -/
theorem wordVariants : Obligations.WordVariants := by
  unfold Obligations.WordVariants
  refine ⟨wordVariants_encoded, fun _ => wordVariants_miss_rv32, fun _ => slliw_miss_of_bit25,
    fun s rd rs1 rs2 imm shamt hx hmode => ?_⟩
  have hbits : s.bits = 64 := State.bits_of_rv64 hx
  have hword : s.wordBits = 32 := State.wordBits_of_operandsFirst hmode
  rw [← shamtWord_eq]
  refine ⟨fun h => ?addiw, fun h => ?slliw, fun h => ?srliw, fun h => ?sraiw, fun h => ?addw, fun h => ?subw, fun h => ?sllw,
    fun h => ?srlw, fun h => ?sraw⟩
  case addiw =>
    refine yields_aluImm (exec_addiw ..) h (sext_word_toNat_mod hx ?_)
    rw [add_imm12_toNat_mod s (by omega), modNat_mod (by omega)]
  case slliw =>
    refine yields_aluImm (exec_slliw ..) h ?_
    rw [hword, sext_shlAt_word_toNat_mod hx]
  case srliw =>
    refine yields_aluImm (exec_srliw ..) h ?_
    rw [hword, sext_shrAt_word_toNat_mod hx]
  case sraiw =>
    refine yields_aluImm (exec_sraiw ..) h ?_
    rw [hword, sext_sarAt_toNat_mod s (by omega) (by omega), hbits]
  case addw => exact yields_aluReg (exec_addw ..) h (sext_word_toNat_mod hx (add_toNat_mod (by omega) ..))
  case subw =>
    refine yields_aluReg (exec_subw ..) h (sext_word_toNat_mod hx ?_)
    rw [sub_toNat_mod (by omega), modNat_mod (by omega), s.getX_toNat, s.getX_toNat]
  case sllw =>
    refine yields_aluReg (exec_sllw ..) h ?_
    rw [hword, sext_shlAt_word_toNat_mod hx]
  case srlw =>
    refine yields_aluReg (exec_srlw ..) h ?_
    rw [hword, sext_shrAt_word_toNat_mod hx]
  case sraw =>
    refine yields_aluReg (exec_sraw ..) h ?_
    rw [hword, sext_sarAt_toNat_mod s (by omega) (by omega), hbits]

end Sys2Proof.Machine

/-! Loads and stores: encodings, what a register or the memory holds afterwards, frames and completion. -/

namespace Sys2Proof

/-! ### Encodings without a destination, and misses by opcode and funct3 (R81, R108) -/

theorem encodedS_of_row {xl : Xlen} {op : BitVec 7} {f3 : BitVec 3} {mk : RegIdx → RegIdx → BitVec 12 → Instr} (o : Op)
    (h : RowOfFields xl o [⟨0, 7, op⟩, ⟨12, 3, f3⟩]) (hf : ∀ w, fieldsOf o w = mk (fRs1 w) (fRs2 w) (fImmS w)) :
    EncodedS xl op f3 mk := by
  intro w hop hf3
  rw [decodeWord_of_rowOfFields h (by simp [HasFields, bits, hop, hf3]), hf]
  rfl

/-- A word whose opcode and funct3 no row wants together is a decode miss. -/
theorem decodeWord_eq_none_of_funct3Of {xl : Xlen} {w : BitVec 32} {op : BitVec 7} {f3 : BitVec 3}
    (h : NoRowOfFields xl [⟨0, 7, op⟩, ⟨12, 3, f3⟩]) (hlow : op.extractLsb' 0 2 = 3) (hop : opcodeOf w = op)
    (hf3 : funct3Of w = f3) : decodeWord xl w = none :=
  decodeWord_eq_none_of_noRowOfFields h ((bits_low_of_opcodeOf hop).trans hlow) (by simp [HasFields, bits, hop, hf3])

end Sys2Proof

namespace Sys2Proof.Machine

/-! ### The bytes read, extended into a register -/

/-- Extended to its own width, a value is its low bits. -/
theorem sextNat_self {n : Nat} (hn : 0 < n) (a : Nat) : sextNat n n a = a % 2 ^ n := by
  rw [sextNat, ← BitVec.toNat_ofNat, ← toInt_eq_signedNat hn, ← toNat_eq_modNat]

/-- A number of n bytes, zero-extended within the register width, is itself (R11). -/
theorem zext_memRead_toNat_mod (s : State) (a : Nat) {n : Nat} (hn : 8 * n ≤ s.bits) :
    (zext (8 * n) (s.memRead a n)).toNat % 2 ^ s.bits = s.readNat a n := by
  have hbits := s.bits_le
  have hread := s.readNat_lt a n
  rw [zext_toNat (by omega), s.memRead_toNat a (by omega), Nat.mod_eq_of_lt hread,
    Nat.mod_eq_of_lt (hread.trans_le (Nat.pow_le_pow_right (by decide) hn))]

/-- A load that sign-extends its n bytes (R230). -/
theorem loads_sext {s : State} {i : Instr} {d : Op} {rd : RegIdx} {reads : List RegIdx} {ea : Word} (n : Nat)
    (he : exec i s = loadInto d rd reads ea n (sext (8 * n)) s) (hpos : 0 < n) (hn : n ≤ 8) (h : s.HazardFree d rd reads)
    (ha : s.Admits ea.toNat n) : Loads s i rd (sextNat s.bits (8 * n) (s.readNat ea.toNat n)) ea.toNat n :=
  loads_loadInto he h ha (by rw [s.sext_result (by omega) (by omega), s.memRead_toNat _ hn])

/-- A load that zero-extends its n bytes (R230). -/
theorem loads_zext {s : State} {i : Instr} {d : Op} {rd : RegIdx} {reads : List RegIdx} {ea : Word} (n : Nat)
    (he : exec i s = loadInto d rd reads ea n (zext (8 * n)) s) (hn : 8 * n ≤ s.bits) (h : s.HazardFree d rd reads)
    (ha : s.Admits ea.toNat n) : Loads s i rd (s.readNat ea.toNat n) ea.toNat n :=
  loads_loadInto he h ha (zext_memRead_toNat_mod s _ hn)

/-- On XLEN = 64 a doubleword fills the register, and its extension is the number read (R238). -/
theorem sextNat_readNat_doubleword {s : State} (hx : s.cfg.xlen = .rv64) (a : Nat) :
    sextNat s.bits 64 (s.readNat a 8) = s.readNat a 8 := by
  rw [State.bits_of_rv64 hx, sextNat_self (by decide), Nat.mod_eq_of_lt (s.readNat_lt a 8)]

/-! ### Loads (R232 to R238) -/

theorem loadInstructions_encoded (xl : Xlen) :
    EncodedI xl 0b0000011#7 0b000#3 .lb ∧ EncodedI xl 0b0000011#7 0b001#3 .lh ∧ EncodedI xl 0b0000011#7 0b010#3 .lw ∧
    EncodedI xl 0b0000011#7 0b100#3 .lbu ∧ EncodedI xl 0b0000011#7 0b101#3 .lhu := by
  refine ⟨encodedI_of_row .lb ?_ fun _ => rfl, encodedI_of_row .lh ?_ fun _ => rfl, encodedI_of_row .lw ?_ fun _ => rfl,
    encodedI_of_row .lbu ?_ fun _ => rfl, encodedI_of_row .lhu ?_ fun _ => rfl⟩ <;>
    cases xl <;> decide +kernel

theorem loadInstructions_encoded_rv64 :
    EncodedI .rv64 0b0000011#7 0b110#3 .lwu ∧ EncodedI .rv64 0b0000011#7 0b011#3 .ld := by
  refine ⟨encodedI_of_row .lwu ?_ fun _ => rfl, encodedI_of_row .ld ?_ fun _ => rfl⟩ <;> decide +kernel

/-- The registry of XLEN = 32 has no LWU and no LD. -/
theorem loadInstructions_miss_rv32 {w : BitVec 32} (hop : opcodeOf w = 0b0000011#7)
    (h : funct3Of w = 0b110#3 ∨ funct3Of w = 0b011#3) : decodeWord .rv32 w = none := by
  rcases h with hf3 | hf3
  · exact decodeWord_eq_none_of_funct3Of (by decide +kernel) (by decide) hop hf3
  · exact decodeWord_eq_none_of_funct3Of (by decide +kernel) (by decide) hop hf3

/-- Settles O25: each word has the fields of its row, and each instruction is the load functor with its length and extension. -/
theorem loadInstructions : Obligations.LoadInstructions := by
  unfold Obligations.LoadInstructions
  refine ⟨loadInstructions_encoded, loadInstructions_encoded_rv64, fun _ => loadInstructions_miss_rv32, fun s rd rs1 imm => ?_⟩
  have hbits : 32 ≤ s.bits := by rcases s.bits_cases with h | h <;> omega
  refine ⟨?lb, ?lh, ?lw, ?lbu, ?lhu, fun h ha _ => ?lwu, fun h ha hx => ?ld⟩
  case lb => exact loads_sext 1 (exec_lb ..) (by decide) (by decide)
  case lh => exact loads_sext 2 (exec_lh ..) (by decide) (by decide)
  case lw => exact loads_sext 4 (exec_lw ..) (by decide) (by decide)
  case lbu => exact loads_zext 1 (exec_lbu ..) (by omega)
  case lhu => exact loads_zext 2 (exec_lhu ..) (by omega)
  case lwu => exact loads_zext 4 (exec_lwu ..) hbits h ha
  case ld =>
    rw [← sextNat_readNat_doubleword hx]
    exact loads_sext 8 (exec_ld ..) (by decide) le_rfl h ha

/-! ### Stores (R239 to R242) -/

theorem storeInstructions_encoded (xl : Xlen) :
    EncodedS xl 0b0100011#7 0b000#3 .sb ∧ EncodedS xl 0b0100011#7 0b001#3 .sh ∧ EncodedS xl 0b0100011#7 0b010#3 .sw := by
  refine ⟨encodedS_of_row .sb ?_ fun _ => rfl, encodedS_of_row .sh ?_ fun _ => rfl, encodedS_of_row .sw ?_ fun _ => rfl⟩ <;>
    cases xl <;> decide +kernel

theorem sd_encoded_rv64 : EncodedS .rv64 0b0100011#7 0b011#3 .sd := encodedS_of_row .sd (by decide +kernel) fun _ => rfl

/-- The registry of XLEN = 32 has no SD. -/
theorem sd_miss_rv32 {w : BitVec 32} (hop : opcodeOf w = 0b0100011#7) (hf3 : funct3Of w = 0b011#3) :
    decodeWord .rv32 w = none := decodeWord_eq_none_of_funct3Of (by decide +kernel) (by decide) hop hf3

/-- Settles O26: each word has the fields of its row, and each instruction is the store functor with its length. -/
theorem storeInstructions : Obligations.StoreInstructions := by
  unfold Obligations.StoreInstructions
  refine ⟨storeInstructions_encoded, sd_encoded_rv64, fun _ => sd_miss_rv32, fun s rs1 rs2 imm => ⟨?sb, ?sh, ?sw, fun ha _ => ?sd⟩⟩
  case sb => exact stores_storeFrom (exec_sb ..)
  case sh => exact stores_storeFrom (exec_sh ..)
  case sw => exact stores_storeFrom (exec_sw ..)
  case sd => exact stores_storeFrom (exec_sd ..) ha

end Sys2Proof.Machine

/-! Control transfer: encodings of the branches, the pending advance they leave, frames and completion. -/

namespace Sys2Proof

/-! ### Encodings of the branches (R81, R88) -/

theorem encodedB_of_row {xl : Xlen} {op : BitVec 7} {f3 : BitVec 3} {mk : RegIdx → RegIdx → BitVec 12 → Instr} (o : Op)
    (h : RowOfFields xl o [⟨0, 7, op⟩, ⟨12, 3, f3⟩]) (hf : ∀ w, fieldsOf o w = mk (fRs1 w) (fRs2 w) (fImmB w)) :
    EncodedB xl op f3 mk := by
  intro w hop hf3
  rw [decodeWord_of_rowOfFields h (by simp [HasFields, bits, hop, hf3]), hf]
  rfl

theorem branches_encoded (xl : Xlen) :
    EncodedB xl 0b1100011#7 0b000#3 .beq ∧ EncodedB xl 0b1100011#7 0b001#3 .bne ∧ EncodedB xl 0b1100011#7 0b100#3 .blt ∧
    EncodedB xl 0b1100011#7 0b101#3 .bge ∧ EncodedB xl 0b1100011#7 0b110#3 .bltu ∧ EncodedB xl 0b1100011#7 0b111#3 .bgeu := by
  refine ⟨encodedB_of_row .beq ?_ fun _ => rfl, encodedB_of_row .bne ?_ fun _ => rfl, encodedB_of_row .blt ?_ fun _ => rfl,
    encodedB_of_row .bge ?_ fun _ => rfl, encodedB_of_row .bltu ?_ fun _ => rfl, encodedB_of_row .bgeu ?_ fun _ => rfl⟩ <;>
    cases xl <;> decide +kernel

end Sys2Proof

namespace Sys2Proof.Machine

/-! ### The predicates of the branches as numbers (R152, R254 to R259) -/

theorem State.getX_beq_getX_iff (s : State) (a b : RegIdx) : (s.getX a == s.getX b) = true ↔ s.natX a = s.natX b := by
  rw [beq_iff_eq, ← BitVec.toNat_inj, s.getX_toNat, s.getX_toNat]

theorem State.ltS_getX_iff (s : State) (a b : RegIdx) : ltS s.bits (s.getX a) (s.getX b) = true ↔ s.intX a < s.intX b := by
  rw [ltS, decide_eq_true_iff, s.signedAt_getX, s.signedAt_getX]

theorem State.ltU_getX_iff (s : State) (a b : RegIdx) : ltU s.bits (s.getX a) (s.getX b) = true ↔ s.natX a < s.natX b := by
  rw [ltU, decide_eq_true_iff, s.unsignedAt_getX, s.unsignedAt_getX]

/-! ### Branches (R250, R254 to R259) -/

/-- The branch functor over a B-format offset, its predicate read as a proposition. -/
theorem advances_of_predicate {s : State} {i : Instr} {c : Bool} {off : BitVec 12} {p : Prop} [Decidable p]
    (he : exec i s = branchIf c (s.immB off) s) (hp : c = true ↔ p) :
    Advances s i (if p then modNat s.bits (off.toInt * 2) else s.adv.toNat) := by
  refine advances_branchIf he ?_
  rw [if_congr hp rfl rfl, s.immB_toNat, modNat_mod_self]

/-- The branch functor over the negation of a predicate: the offset is taken where the predicate fails. -/
theorem advances_of_not_predicate {s : State} {i : Instr} {c : Bool} {off : BitVec 12} {p : Prop} [Decidable p]
    (he : exec i s = branchIf (!c) (s.immB off) s) (hp : c = true ↔ p) :
    Advances s i (if p then s.adv.toNat else modNat s.bits (off.toInt * 2)) := by
  have hnot : (!c) = true ↔ ¬p := by rw [Bool.not_eq_true', ← Bool.not_eq_true, hp]
  rw [← ite_not]
  exact advances_of_predicate he hnot

/-- Settles O28: each word has the fields of its row, and each instruction is the branch functor over its predicate or over the
negation of it. -/
theorem branches : Obligations.Branches := by
  unfold Obligations.Branches
  refine ⟨branches_encoded, fun s rs1 rs2 off => ⟨?beq, ?bne, ?blt, ?bge, ?bltu, ?bgeu⟩⟩
  case beq => exact advances_of_predicate (exec_beq ..) (s.getX_beq_getX_iff rs1 rs2)
  case bne => exact advances_of_not_predicate (exec_bne ..) (s.getX_beq_getX_iff rs1 rs2)
  case blt => exact advances_of_predicate (exec_blt ..) (s.ltS_getX_iff rs1 rs2)
  case bge => exact advances_of_not_predicate (exec_bge ..) (s.ltS_getX_iff rs1 rs2)
  case bltu => exact advances_of_predicate (exec_bltu ..) (s.ltU_getX_iff rs1 rs2)
  case bgeu => exact advances_of_not_predicate (exec_bgeu ..) (s.ltU_getX_iff rs1 rs2)

end Sys2Proof.Machine

/-! Load-reserved: words by a mask over their bits, encodings, results, reservation and frame of LR.W and LR.D. -/

namespace Sys2Proof

/-! ### Words by their bits under a mask -/

/-- The registry holds a row of entry `o` for 32-bit words with this care mask and this want, and no earlier row refines it. -/
abbrev RowOfMask (xl : Xlen) (o : Op) (mask want : BitVec 32) : Prop :=
  ∃ r ∈ rows, r.op = o ∧ r.appliesTo xl = true ∧ r.mask = mask ∧ r.want = want ∧ bits want 0 2 = 3 ∧ refinements o = []

/-- Every row of the registry cares about a bit under the mask and wants it otherwise. -/
abbrev NoRowOfMask (xl : Xlen) (mask want : BitVec 32) : Prop :=
  ∀ r ∈ registry xl, mask &&& r.mask &&& (want ^^^ r.want) ≠ 0

/-- A field that lies under the mask is the field of the wanted bits. -/
theorem bits_eq_of_and_eq {w mask want : BitVec 32} (h : w &&& mask = want) {lo len : Nat}
    (hm : bits mask lo len = BitVec.allOnes len) : bits w lo len = bits want lo len := by
  rw [bits] at hm
  rw [← h, bits, bits, BitVec.extractLsb'_and, hm, BitVec.and_allOnes]

/-- A row accepts a word that has the wanted bits under its care mask (R97). -/
theorem accepts_of_and_eq {r : Row} {w : BitVec 32} (h : w &&& r.mask = r.want) : r.accepts w = true := by
  rw [accepts_iff, ← h]
  apply BitVec.eq_of_getLsbD_eq
  intro i _
  cases hmask : r.mask.getLsbD i <;> simp [hmask]

/-- A row that cares about a bit under the mask and wants it otherwise does not accept the word: the mask and its bits are a matcher
in conflict with the row's. -/
theorem not_accepts_of_and_eq {r : Row} {w mask want : BitVec 32} (h : w &&& mask = want)
    (hc : mask &&& r.mask &&& (want ^^^ r.want) ≠ 0) : r.accepts w = false :=
  not_accepts_of_conflicts (r := { r with mask, want }) (bne_iff_ne.mpr hc) (accepts_of_and_eq h)

/-- A row's words decode to its entry, with the word's fields. -/
theorem encodedMask_of_row {xl : Xlen} {mask want : BitVec 32} {mk : BitVec 32 → Instr} (o : Op) (h : RowOfMask xl o mask want)
    (hf : ∀ w, fieldsOf o w = mk w) : EncodedMask xl mask want mk := by
  obtain ⟨r, hr, rfl, hx, rfl, rfl, hwide, hrefine⟩ := h
  intro w hw
  have ha : r.accepts w = true := accepts_of_and_eq hw
  have hlow : bits w 0 2 = 3 := (bits_eq_of_accepts (rows_low r hr).1 ha).trans hwide
  exact decodeWord_of_row r (instrWord_of_wide hlow) hr hx ha (hf w) (by simp [hrefine])

/-- A 32-bit word whose bits under a mask contradict every row is a decode miss (R108). -/
theorem decodeWord_eq_none_of_noRowOfMask {xl : Xlen} {w mask want : BitVec 32} (h : NoRowOfMask xl mask want)
    (hlow : bits mask 0 2 = 3 ∧ bits want 0 2 = 3) (hw : w &&& mask = want) : decodeWord xl w = none := by
  rw [decodeWord_eq_none_iff, instrWord_of_wide ((bits_eq_of_and_eq hw hlow.1).trans hlow.2)]
  exact fun r hr => not_accepts_of_and_eq hw (h r hr)

/-! ### Encodings of load-reserved (R92, R105) -/

theorem lrW_encoded (xl : Xlen) : EncodedMask xl 0xf9f0707f#32 0x1000202f#32 fun w =>
    .lrW (w.extractLsb' 7 5) (w.extractLsb' 15 5) (w.extractLsb' 26 1) (w.extractLsb' 25 1) :=
  encodedMask_of_row .lrW (by cases xl <;> decide +kernel) fun _ => rfl

theorem lrD_encoded_rv64 : EncodedMask .rv64 0xf9f0707f#32 0x1000302f#32 fun w =>
    .lrD (w.extractLsb' 7 5) (w.extractLsb' 15 5) (w.extractLsb' 26 1) (w.extractLsb' 25 1) :=
  encodedMask_of_row .lrD (by decide +kernel) fun _ => rfl

/-- The registry of XLEN = 32 has no LR.D. -/
theorem lrD_miss_rv32 {w : BitVec 32} (hw : w &&& 0xf9f0707f#32 = 0x1000302f#32) : decodeWord .rv32 w = none :=
  decodeWord_eq_none_of_noRowOfMask (by decide +kernel) (by decide) hw

/-- A row that agrees with the load-reserved bits, of either length, wants `rs2` to be 0 (R105). -/
theorem rows_loadReserved_rs2 : ∀ r ∈ rows, 0xf800607f#32 &&& r.mask &&& (0x1000202f#32 ^^^ r.want) ≠ 0 ∨
    (bits r.mask 20 5 = BitVec.allOnes 5 ∧ bits r.want 20 5 = 0) := by
  decide +kernel

theorem loadReserved_miss_of_rs2 {xl : Xlen} {w : BitVec 32} (hw : w &&& 0xf800607f#32 = 0x1000202f#32)
    (hrs2 : w.extractLsb' 20 5 ≠ 0#5) : decodeWord xl w = none := by
  have hlow : bits w 0 2 = 3 := bits_eq_of_and_eq hw (by decide)
  rw [decodeWord_eq_none_iff, instrWord_of_wide hlow]
  intro r hr
  rcases rows_loadReserved_rs2 r (mem_rows_of_mem_registry hr) with hother | ⟨hmask, hwant⟩
  · exact not_accepts_of_and_eq hw hother
  · exact not_accepts_of_field 20 5 hmask (by rw [hwant]; exact hrs2)

end Sys2Proof

namespace Sys2Proof.Machine

/-! ### Load-reserved (R271, R273) -/

/-- A load-reserved that sign-extends its n bytes. -/
theorem reserves_sext {s : State} {i : Instr} {d : Op} {rd : RegIdx} {reads : List RegIdx} {ea : Word} (n : Nat)
    (he : exec i s = loadReserved d rd reads ea n (sext (8 * n)) s) (hpos : 0 < n) (hn : n ≤ 8) (h : s.HazardFree d rd reads)
    (ha : s.Admits ea.toNat n) :
    ∃ t, exec i s = .next t ∧ ReservesX s t rd (sextNat s.bits (8 * n) (s.readNat ea.toNat n)) ea n := by
  rw [← s.memRead_toNat ea.toNat hn, ← s.sext_result (by omega) (by omega)]
  exact reserves_loadReserved he h ha

/-- Settles O31: the words are those of the two rows, which alone agree with the load-reserved bits and want `rs2` to be 0; each
instruction is the load-reserved functor with its length, and on XLEN = 64 a doubleword fills the register. -/
theorem loadReservedInstructions : Obligations.LoadReservedInstructions := by
  unfold Obligations.LoadReservedInstructions
  refine ⟨lrW_encoded, lrD_encoded_rv64, fun _ => lrD_miss_rv32, fun _ _ => loadReserved_miss_of_rs2,
    fun s rd rs1 aq rl => ⟨?lrW, fun h ha hx => ?lrD⟩⟩
  case lrW => exact reserves_sext 4 (exec_lrW ..) (by decide) (by decide)
  case lrD =>
    rw [← sextNat_readNat_doubleword hx]
    exact reserves_sext 8 (exec_lrD ..) (by decide) le_rfl h ha

end Sys2Proof.Machine

/-! What every step keeps: the shape of the state, the frame of an instruction, the reservation and the even `pc`, each proved of the
next states of `ExecEffect`. -/

namespace Sys2Proof.Machine

/-! ### The shape of the state (R10, R20, R30) -/

/-- Every next state of an instruction has the shape of the state before it. -/
theorem ExecEffect.inv {i : Instr} {s t : State} (he : ExecEffect i s t) (h : s.Inv) : t.Inv := by
  cases he with
  | same _ => exact h
  | advance _ v _ => exact State.inv_setAdv h v
  | result _ rd v _ => exact State.inv_setX h rd v
  | load _ rd a n v _ _ => exact State.inv_setX (State.inv_noteDraws h a n) rd v
  | store _ a n v _ _ => exact State.inv_memWrite h a v n
  | jal _ rd v _ _ => exact State.inv_setAdv (State.inv_setX h rd _) v
  | jalr _ rd _ _ _ => exact State.inv_jumpTo (State.inv_setX h rd _) _
  | reserve rd rs1 _ _ n v _ =>
    have hfits : ∀ a ∈ some (s.getX rs1), (s.noteDraws (s.getX rs1).toNat n).Fits a := by
      simpa [State.Fits] using s.fits_getX rs1
    exact State.inv_setX (State.inv_setResv (State.inv_noteDraws h _ n) hfits) rd v
  | conditional rd rs1 _ _ _ n v _ _ _ _ =>
    have hnone : ∀ a ∈ (none : Option Word), (s.memWrite (s.getX rs1).toNat v n).Fits a := by simp
    exact State.inv_setX (State.inv_setResv (State.inv_memWrite h _ v n) hnone) rd 0
  | failed rd _ _ _ _ _ _ => exact State.inv_setX h rd 1

/-- Settles O51: a miss sets `adv` to 0 between the prologue and the epilogue, an instruction is one of the effects, and all of these
keep the invariant. -/
theorem stepKeepsInvariant : Obligations.StepKeepsInvariant := by
  unfold Obligations.StepKeepsInvariant
  intro s t h hstep
  have hprologue := State.inv_prologue h
  rcases step_next hstep with ⟨-, rfl⟩ | ⟨i, u, -, hexec, rfl⟩
  · exact State.inv_epilogue (State.inv_setAdv hprologue 0)
  · exact State.inv_epilogue ((exec_effect hexec).inv hprologue)

/-! ### The frame of an instruction (R25, R26, R28, R39) -/

/-- An instruction writes no register but its destination. -/
theorem ExecEffect.getX_eq {i : Instr} {s t : State} (he : ExecEffect i s t) {r : RegIdx} (hr : i.dest ≠ some r) :
    t.getX r = s.getX r := by
  have hne : ∀ {rd}, i.dest = some rd → r ≠ rd := fun hd h => hr (h ▸ hd)
  cases he with
  | same _ => rfl
  | advance _ v _ => rfl
  | result _ rd v dest => exact s.getX_setX_ne (hne dest) v
  | load _ rd a n v dest _ => rw [State.getX_setX_ne _ (hne dest), State.noteDraws_getX]
  | store _ a n v _ _ => exact s.memWrite_getX a v n r
  | jal _ rd v dest _ => rw [State.setAdv_getX, State.getX_setX_ne _ (hne dest)]
  | jalr _ rd rs1 imm eff =>
    have dest : i.dest = some rd := by rw [Instr.dest, eff]; rfl
    rw [State.jumpTo_getX, State.getX_setX_ne _ (hne dest)]
  | reserve rd rs1 _ _ n v lr =>
    have dest : i.dest = some rd := by rcases lr with rfl | rfl <;> rfl
    rw [State.getX_setX_ne _ (hne dest), State.setResv_getX, State.noteDraws_getX]
  | conditional rd rs1 _ _ _ n v sc _ _ _ =>
    have dest : i.dest = some rd := by rcases sc with rfl | rfl <;> rfl
    rw [State.getX_setX_ne _ (hne dest), State.setResv_getX, State.memWrite_getX]
  | failed rd _ _ _ _ sc _ =>
    have dest : i.dest = some rd := by rcases sc with rfl | rfl <;> rfl
    exact s.getX_setX_ne (hne dest) 1

/-- A store leaves the bytes outside its span. -/
theorem State.byteOf_memWrite_outside (s : State) {a n k : Nat} (h : ¬ (a ≤ k ∧ k < a + n)) (v : Word) :
    (s.memWrite a v n).byteOf k = s.byteOf k := by
  rw [s.byteOf_memWrite, if_neg fun hin => h ⟨hin.1, hin.2.1⟩]

/-- An instruction writes no byte outside the span it stores to. -/
theorem ExecEffect.byteOf_eq {i : Instr} {s t : State} (he : ExecEffect i s t) {k : Nat}
    (hk : ∀ a n, storeSpan i s = some (a, n) → ¬ (a ≤ k ∧ k < a + n)) : t.byteOf k = s.byteOf k := by
  cases he with
  | store _ a n v span _ => exact s.byteOf_memWrite_outside (hk a n span) v
  | conditional rd rs1 _ _ _ n v _ _ span _ =>
    rw [State.setX_byteOf, State.setResv_byteOf, s.byteOf_memWrite_outside (hk _ n span)]
  | _ => simp

/-- An instruction writes no float register, no parameter and nothing of the host's. -/
theorem ExecEffect.host_eq {i : Instr} {s t : State} (he : ExecEffect i s t) :
    t.fs = s.fs ∧ t.cfg = s.cfg ∧ t.image = s.image ∧ t.loadFailed = s.loadFailed := by
  cases he <;> simp

/-- An instruction that is not a `jalr`, and does not expand to one, leaves `pc` to the epilogue. -/
theorem ExecEffect.pc_eq {i : Instr} {s t : State} (he : ExecEffect i s t) (h : ∀ rd rs1 imm, i.effective ≠ .jalr rd rs1 imm) :
    t.pc = s.pc := by
  cases he with
  | jalr _ rd rs1 imm eff => exact absurd eff (h rd rs1 imm)
  | _ => simp

/-- Settles O55: each part of the frame holds of every effect. -/
theorem instructionFrame : Obligations.InstructionFrame := by
  unfold Obligations.InstructionFrame
  intro i s t h
  have he := exec_effect h
  obtain ⟨hfs, hcfg, himage, hfailed⟩ := he.host_eq
  exact ⟨fun _ => he.getX_eq, fun _ => he.byteOf_eq, hfs, hcfg, himage, hfailed, he.pc_eq⟩

/-! ### The reservation (R63) -/

/-- An instruction that is neither a load-reserved nor a store-conditional keeps the reservation. -/
theorem ExecEffect.resv_eq {i : Instr} {s t : State} (he : ExecEffect i s t) (h : atomicOp i.op = false) : t.resv = s.resv := by
  cases he with
  | reserve _ _ _ _ _ _ lr => rcases lr with rfl | rfl <;> cases h
  | conditional _ _ _ _ _ _ _ sc _ _ _ => rcases sc with rfl | rfl <;> cases h
  | _ => simp

/-- Settles O34: the two functors of the atomic instructions, and for every other instruction its effect. -/
theorem reservationKept : Obligations.ReservationKept := by
  unfold Obligations.ReservationKept
  intro i s t h
  cases i
  case lrW => exact loadReserved_resv ((exec_lrW ..).symm.trans h)
  case lrD => exact loadReserved_resv ((exec_lrD ..).symm.trans h)
  case scW => exact storeConditional_resv ((exec_scW ..).symm.trans h)
  case scD => exact storeConditional_resv ((exec_scD ..).symm.trans h)
  all_goals exact (exec_effect h).resv_eq rfl

/-! ### The even `pc` (R29, R260) -/

/-- The low bit of a value survives its reduction to the register width. -/
theorem narrow_even (s : State) {v : Word} (h : v.toNat % 2 = 0) : (narrow s.bits v).toNat % 2 = 0 := by
  rw [narrow_toNat s.bits_le, Nat.mod_mod_of_dvd _ (dvd_pow_self 2 s.bits_pos.ne'), h]

theorem add_even {a b : Word} (ha : a.toNat % 2 = 0) (hb : b.toNat % 2 = 0) : (a + b).toNat % 2 = 0 := by
  rw [BitVec.toNat_add]; omega

theorem State.prologue_adv_even (s : State) : s.prologue.adv.toNat % 2 = 0 := by
  rw [s.prologue_adv]
  refine narrow_even s ?_
  rcases widthOf_cases s.fetchWord with h | h <;> rw [h] <;> rfl

/-- Every instruction leaves `pc` and the pending advance even where they were. -/
theorem ExecEffect.even {i : Instr} {s t : State} (he : ExecEffect i s t) (hpc : s.PcEven) (hadv : s.adv.toNat % 2 = 0) :
    t.PcEven ∧ t.adv.toNat % 2 = 0 := by
  cases he with
  | advance _ v even => exact ⟨hpc, narrow_even s even⟩
  | jal _ rd v _ even => exact ⟨by simpa [State.PcEven] using hpc, narrow_even (s.setX rd _) even⟩
  | jalr _ rd rs1 imm _ =>
    have htarget : ((s.getX rs1 + s.imm12 imm) &&& ~~~1).toNat % 2 = 0 := by rw [and_not_one_toNat, Nat.mul_mod_left]
    exact ⟨narrow_even (s.setX rd _) htarget, narrow_even (s.setX rd _) rfl⟩
  | _ => exact ⟨by simpa [State.PcEven] using hpc, by simpa using hadv⟩

/-- Settles O54: the epilogue adds an even advance to an even `pc`. -/
theorem pcStaysEven : Obligations.PcStaysEven := by
  unfold Obligations.PcStaysEven
  intro s t h hstep
  have hpc : s.prologue.PcEven := by simpa [State.PcEven] using h
  rcases step_next hstep with ⟨-, rfl⟩ | ⟨i, u, -, hexec, rfl⟩
  · exact narrow_even _ (add_even hpc (narrow_even _ rfl))
  · obtain ⟨hpc', hadv'⟩ := (exec_effect hexec).even hpc s.prologue_adv_even
    exact narrow_even u (add_even hpc' hadv')

end Sys2Proof.Machine

/-! No instruction reads or writes a float register: a state with other float registers gives the same reads, and every operation
commutes with the replacement. -/

namespace Sys2Proof.Machine

/-- The state with these float registers. -/
def State.withFs (s : State) (f : Vector FWord 32) : State := { s with fs := f }

/-- What a step answers, with these float registers in a next state. -/
def resultWithFs (f : Vector FWord 32) : Result → Result
  | .next t => .next (t.withFs f)
  | .fault e => .fault e
  | .refused r => .refused r

section
variable (s : State) (f : Vector FWord 32)

/-! ### What is read and updated -/

theorem State.withFs_bits : (s.withFs f).bits = s.bits := rfl

theorem State.withFs_imm12 (imm : BitVec 12) : (s.withFs f).imm12 imm = s.imm12 imm := rfl

theorem State.withFs_wordBits : (s.withFs f).wordBits = s.wordBits := rfl

theorem State.withFs_shamtImm (shamt : BitVec 6) : (s.withFs f).shamtImm shamt = s.shamtImm shamt := rfl

theorem State.withFs_shamtReg (v : Word) : (s.withFs f).shamtReg v = s.shamtReg v := rfl

theorem State.withFs_memRead (a n : Nat) : (s.withFs f).memRead a n = s.memRead a n := by
  induction n with
  | zero => rfl
  | succ n ih => rw [State.memRead, State.memRead, ih]; rfl

theorem State.withFs_fetchWord : (s.withFs f).fetchWord = s.fetchWord :=
  congrArg (BitVec.setWidth 32) (s.withFs_memRead f s.pc.toNat 4)

theorem State.withFs_setX (rd : RegIdx) (v : Word) : (s.withFs f).setX rd v = (s.setX rd v).withFs f := by
  unfold State.setX; split <;> rfl

theorem State.withFs_setResv (r : Option Word) : (s.withFs f).setResv r = (s.setResv r).withFs f := rfl

theorem State.withFs_noteDraws (a n : Nat) : (s.withFs f).noteDraws a n = (s.noteDraws a n).withFs f := by
  unfold State.noteDraws
  rw [show (s.withFs f).cfg = s.cfg from rfl]
  split
  · split <;> rfl
  · rfl

theorem State.withFs_writeByte (a : Nat) (b : Byte) : (s.withFs f).writeByte a b = (s.writeByte a b).withFs f := by
  unfold State.writeByte
  change (if a < s.cfg.memSize then _ else _) = _
  split <;> rfl

theorem State.withFs_memWrite (a : Nat) (v : Word) (n : Nat) : (s.withFs f).memWrite a v n = (s.memWrite a v n).withFs f := by
  induction n with
  | zero => rfl
  | succ n ih => rw [State.memWrite, ih, State.withFs_writeByte, State.memWrite]

theorem State.withFs_prologue : (s.withFs f).prologue = s.prologue.withFs f := by
  unfold State.prologue
  rw [s.withFs_fetchWord]
  exact congrArg (fun t : State => t.setAdv _) (s.withFs_noteDraws f s.pc.toNat 4)

/-! ### The shared operations -/

theorem checked_withFs {d : Op} {rd : RegIdx} {reads : List RegIdx} {r r' : Result} (h : r' = resultWithFs f r) :
    checked d rd reads (s.withFs f) r' = resultWithFs f (checked d rd reads s r) := by
  subst h
  unfold checked
  change (if s.hazard d rd reads then _ else _) = _
  split <;> rfl

theorem next_setX_withFs (rd : RegIdx) (v : Word) : .next ((s.withFs f).setX rd v) = resultWithFs f (.next (s.setX rd v)) := by
  rw [s.withFs_setX]; rfl

theorem aluImm_withFs (d : Op) (g : Word → Word → Word) (rd rs1 : RegIdx) (b : Word) :
    aluImm d g rd rs1 b (s.withFs f) = resultWithFs f (aluImm d g rd rs1 b s) :=
  checked_withFs s f (next_setX_withFs s f rd _)

theorem aluReg_withFs (d : Op) (g : Word → Word → Word) (rd rs1 rs2 : RegIdx) :
    aluReg d g rd rs1 rs2 (s.withFs f) = resultWithFs f (aluReg d g rd rs1 rs2 s) :=
  checked_withFs s f (next_setX_withFs s f rd _)

theorem aluDiv_withFs (d : Op) (corner : Word → Word → Bool) (g : Word → Word → Word) (rd rs1 rs2 : RegIdx) :
    aluDiv d corner g rd rs1 rs2 (s.withFs f) = resultWithFs f (aluDiv d corner g rd rs1 rs2 s) := by
  refine checked_withFs s f ?_
  change (if s.cfg.divCorners == .refuse && corner (s.getX rs1) (s.getX rs2) then _ else _) = _
  split
  · rfl
  · exact next_setX_withFs s f rd _

theorem loadInto_withFs (d : Op) (rd : RegIdx) (reads : List RegIdx) (ea : Word) (n : Nat) (ext : Word → Word) :
    loadInto d rd reads ea n ext (s.withFs f) = resultWithFs f (loadInto d rd reads ea n ext s) := by
  refine checked_withFs s f ?_
  change (if s.accessStops ea.toNat n then _ else _) = _
  split
  · rfl
  · rw [s.withFs_noteDraws, s.withFs_memRead]
    exact next_setX_withFs (s.noteDraws ea.toNat n) f rd _

theorem storeFrom_withFs (ea : Word) (n : Nat) (v : Word) :
    storeFrom ea n v (s.withFs f) = resultWithFs f (storeFrom ea n v s) := by
  unfold storeFrom
  change (if s.accessStops ea.toNat n then _ else _) = _
  split
  · rfl
  · rw [s.withFs_memWrite]; rfl

theorem loadReserved_withFs (d : Op) (rd : RegIdx) (reads : List RegIdx) (ea : Word) (n : Nat) (ext : Word → Word) :
    loadReserved d rd reads ea n ext (s.withFs f) = resultWithFs f (loadReserved d rd reads ea n ext s) := by
  refine checked_withFs s f ?_
  change (if s.accessStops ea.toNat n then _ else _) = _
  split
  · rfl
  · rw [s.withFs_noteDraws, State.withFs_setResv, s.withFs_memRead]
    exact next_setX_withFs _ f rd _

theorem storeConditional_withFs (d : Op) (rd : RegIdx) (reads : List RegIdx) (ea : Word) (n : Nat) (v : Word) :
    storeConditional d rd reads ea n v (s.withFs f) = resultWithFs f (storeConditional d rd reads ea n v s) := by
  refine checked_withFs s f ?_
  change (if s.resv = some ea then if s.accessStops ea.toNat n then _ else _ else _) = _
  split
  · split
    · rfl
    · rw [s.withFs_memWrite, State.withFs_setResv]
      exact next_setX_withFs _ f rd 0
  · exact next_setX_withFs s f rd 1

theorem branchIf_withFs (c : Bool) (off : Word) : branchIf c off (s.withFs f) = resultWithFs f (branchIf c off s) := by
  cases c <;> rfl

theorem execLui_withFs (rd : RegIdx) (imm : BitVec 20) : execLui rd imm (s.withFs f) = resultWithFs f (execLui rd imm s) :=
  checked_withFs s f (next_setX_withFs s f rd _)

theorem execAuipc_withFs (rd : RegIdx) (imm : BitVec 20) :
    execAuipc rd imm (s.withFs f) = resultWithFs f (execAuipc rd imm s) :=
  checked_withFs s f (next_setX_withFs s f rd _)

theorem execJal_withFs (rd : RegIdx) (off : BitVec 20) : execJal rd off (s.withFs f) = resultWithFs f (execJal rd off s) := by
  refine checked_withFs s f ?_
  rw [s.withFs_setX]
  rfl

theorem execJalr_withFs (rd rs1 : RegIdx) (imm : BitVec 12) :
    execJalr rd rs1 imm (s.withFs f) = resultWithFs f (execJalr rd rs1 imm s) := by
  refine checked_withFs s f ?_
  rw [s.withFs_setX]
  rfl

/-! ### The instructions and the step -/

theorem exec_withFs (i : Instr) : exec i (s.withFs f) = resultWithFs f (exec i s) := by
  cases i
  case lui | cLui => exact execLui_withFs ..
  case auipc => exact execAuipc_withFs ..
  case jal | cJal | cJ => exact execJal_withFs ..
  case jalr | cJr | cJalr => exact execJalr_withFs ..
  case beq | bne | blt | bge | bltu | bgeu | cBeqz | cBnez => exact branchIf_withFs ..
  case lb | lh | lw | lbu | lhu | lwu | ld | cLw | cLd | cLwsp | cLdsp => exact loadInto_withFs ..
  case sb | sh | sw | sd | cSw | cSd | cSwsp | cSdsp => exact storeFrom_withFs ..
  case addi | xori | ori | andi | cAddi4spn | cNop | cAddi | cLi | cAddi16sp | cAndi => exact aluImm_withFs ..
  case slti | sltiu | slli | srli | srai | cSlli | cSrli | cSrai =>
    simp only [exec, execCSlli, execCSrli, execCSrai, execSlti, execSltiu, execSlli, execSrli, execSrai, s.withFs_bits,
      s.withFs_shamtImm]
    exact aluImm_withFs ..
  case addiw | cAddiw | slliw | srliw | sraiw =>
    simp only [exec, execCAddiw, execAddiw, execSlliw, execSrliw, execSraiw, s.withFs_wordBits, s.withFs_imm12]
    exact aluImm_withFs ..
  case add | sub | xor | or | and | cSub | cXor | cOr | cAnd | cMv | cAdd =>
    exact aluReg_withFs ..
  case sll | slt | sltu | srl | sra | mul | mulh | mulhsu | mulhu =>
    simp only [exec, execSll, execSlt, execSltu, execSrl, execSra, execMul, execMulh, execMulhsu, execMulhu, s.withFs_bits,
      s.withFs_shamtReg]
    exact aluReg_withFs ..
  case addw | subw | mulw | cSubw | cAddw | sllw | srlw | sraw =>
    simp only [exec, execCSubw, execCAddw, execAddw, execSubw, execMulw, execSllw, execSrlw, execSraw, s.withFs_wordBits]
    exact aluReg_withFs ..
  case div | divu | rem | remu | divw | divuw | remw | remuw =>
    simp only [exec, execDiv, execDivu, execRem, execRemu, execDivw, execDivuw, execRemw, execRemuw, s.withFs_bits,
      s.withFs_wordBits]
    exact aluDiv_withFs ..
  case lrW | lrD => exact loadReserved_withFs ..
  case scW | scD => exact storeConditional_withFs ..
  all_goals rfl

theorem finish_withFs (r : Result) : finish (resultWithFs f r) = resultWithFs f (finish r) := by
  cases r <;> rfl

theorem step_withFs : step (s.withFs f) = resultWithFs f (step s) := by
  unfold step State.fetchStops State.fetchRefused State.fetchLeaves
  rw [s.withFs_fetchWord, s.withFs_prologue, show (s.withFs f).loadFailed = s.loadFailed from rfl,
    show (s.withFs f).cfg = s.cfg from rfl, show (s.withFs f).pc = s.pc from rfl]
  split
  · rfl
  · split
    · rfl
    · split
      · rfl
      · split
        · rfl
        · rw [exec_withFs, finish_withFs]

end

/-- Settles O56: the replacement commutes with the step. -/
theorem floatRegistersUnread : Obligations.FloatRegistersUnread := by
  unfold Obligations.FloatRegistersUnread
  intro s f
  rw [show { s with fs := f } = s.withFs f from rfl, step_withFs]
  cases step s <;> rfl

end Sys2Proof.Machine

/-! The encoder and the decoder are inverse: no bit of a word is lost in the fields its entry reads, the fields of an instruction read
back from its word, and the word is matched by the instruction's own entry. -/

namespace Sys2Proof

/-! ### Encoding the fields read from a word -/

/-- Each bit of the result is constant, or the argument's bit at the same place. -/
def Spreads (f : BitVec 32 → BitVec 32) : Prop := ∀ v, f v = f 0 ||| (v &&& f (BitVec.allOnes 32))

theorem spreads_const (c : BitVec 32) : Spreads fun _ => c := by
  intro v
  apply BitVec.eq_of_getLsbD_eq
  intro j _
  cases h : c.getLsbD j <;> simp [h]

theorem Spreads.or {f g : BitVec 32 → BitVec 32} (hf : Spreads f) (hg : Spreads g) : Spreads fun v => f v ||| g v := by
  intro v
  apply BitVec.eq_of_getLsbD_eq
  intro j _
  simp only [hf v, hg v, BitVec.getLsbD_or, BitVec.getLsbD_and]
  cases v.getLsbD j <;> simp [Bool.or_assoc, Bool.or_left_comm]

/-- A field put back where it was read from. -/
theorem spreads_place_bits (lo len : Nat) : Spreads fun v => place (bits v lo len) lo := by
  intro v
  apply BitVec.eq_of_getLsbD_eq
  intro j hj
  simp only [place, bits, BitVec.getLsbD_or, BitVec.getLsbD_and, BitVec.getLsbD_shiftLeft, BitVec.getLsbD_setWidth,
    BitVec.getLsbD_extractLsb', BitVec.getLsbD_allOnes, BitVec.ofNat_eq_ofNat, BitVec.getLsbD_zero]
  by_cases hlo : j < lo
  · simp [hlo]
  · have hat : lo + (j - lo) = j := by omega
    have h32 : j - lo < 32 := by omega
    by_cases hlen : j - lo < len <;> simp [hj, hlo, hlen, hat, h32]

theorem place_zero (n lo : Nat) : place (0 : BitVec n) lo = 0 := by simp [place]

/-- The word `base` with the fields `(lo, len)` of `v` put where they are read from. -/
def withFieldsOf (base : BitVec 32) (fields : List (Nat × Nat)) (v : BitVec 32) : BitVec 32 :=
  fields.foldl (fun x p => x ||| place (bits v p.1 p.2) p.1) base

theorem spreads_withFieldsOf (base : BitVec 32) (fields : List (Nat × Nat)) : Spreads (withFieldsOf base fields) := by
  have step : ∀ (l : List (Nat × Nat)) (f : BitVec 32 → BitVec 32), Spreads f →
      Spreads fun v => l.foldl (fun x p => x ||| place (bits v p.1 p.2) p.1) (f v) := by
    intro l
    induction l with
    | nil => exact fun _ hf => hf
    | cons p l ih => exact fun f hf => ih (fun v => f v ||| place (bits v p.1 p.2) p.1) (hf.or (spreads_place_bits p.1 p.2))
  exact step fields (fun _ => base) (spreads_const base)

theorem spreads_of_eq {f : BitVec 32 → BitVec 32} {base : BitVec 32} {fields : List (Nat × Nat)}
    (h : ∀ v, f v = withFieldsOf base fields v) : Spreads f :=
  (funext h : f = _) ▸ spreads_withFieldsOf base fields

/-! The immediates that the encoding scatters are read as one by concatenation, and a piece of the concatenation is the field it was
read from. -/

theorem extractLsb'_append_low {n m start len : Nat} (hi : BitVec n) (lo : BitVec m) (h : start + len ≤ m) :
    (BitVec.append hi lo).extractLsb' start len = lo.extractLsb' start len := BitVec.extractLsb'_append_eq_of_add_le h

theorem extractLsb'_append_high {n m start len : Nat} (hi : BitVec n) (lo : BitVec m) (h : m ≤ start) :
    (BitVec.append hi lo).extractLsb' start len = hi.extractLsb' (start - m) len := BitVec.extractLsb'_append_eq_of_le h

theorem extractLsb'_bits (v : BitVec 32) {lo len start n : Nat} (h : start + n ≤ len) :
    (bits v lo len).extractLsb' start n = bits v (lo + start) n := by
  apply BitVec.eq_of_getLsbD_eq
  intro j hj
  have hin : start + j < len := by omega
  simp [bits, hj, hin, Nat.add_assoc]

theorem encU_of_fields (base v : BitVec 32) :
    encU base (fRd v) (fImmU v) = withFieldsOf base [(7, 5), (12, 20)] v := rfl

theorem encJ_of_fields (base v : BitVec 32) :
    encJ base (fRd v) (fImmJ v) = withFieldsOf base [(7, 5), (12, 8), (20, 1), (21, 10), (31, 1)] v := by
  simp (disch := omega) only [encJ, fRd, fImmJ, HAppend.hAppend, extractLsb'_append_low, extractLsb'_append_high,
    extractLsb'_bits, Nat.reduceSub, Nat.reduceAdd]
  rfl

theorem encI_of_fields (base v : BitVec 32) :
    encI base (fRd v) (fRs1 v) (fImmI v) = withFieldsOf base [(7, 5), (15, 5), (20, 12)] v := rfl

theorem encS_of_fields (base v : BitVec 32) :
    encS base (fRs1 v) (fRs2 v) (fImmS v) = withFieldsOf base [(7, 5), (15, 5), (20, 5), (25, 7)] v := by
  simp (disch := omega) only [encS, fRs1, fRs2, fImmS, HAppend.hAppend, extractLsb'_append_low, extractLsb'_append_high,
    extractLsb'_bits, Nat.reduceSub, Nat.reduceAdd]
  rfl

theorem encB_of_fields (base v : BitVec 32) :
    encB base (fRs1 v) (fRs2 v) (fImmB v) = withFieldsOf base [(7, 1), (8, 4), (15, 5), (20, 5), (25, 6), (31, 1)] v := by
  simp (disch := omega) only [encB, fRs1, fRs2, fImmB, HAppend.hAppend, extractLsb'_append_low, extractLsb'_append_high,
    extractLsb'_bits, Nat.reduceSub, Nat.reduceAdd]
  rfl

theorem encShift_of_fields (base v : BitVec 32) :
    encShift base (fRd v) (fRs1 v) (fShamt v) = withFieldsOf base [(7, 5), (15, 5), (20, 6)] v := rfl

theorem encShiftW_of_fields (base v : BitVec 32) :
    encShiftW base (fRd v) (fRs1 v) (fShamtW v) = withFieldsOf base [(7, 5), (15, 5), (20, 5)] v := rfl

theorem encR_of_fields (base v : BitVec 32) :
    encR base (fRd v) (fRs1 v) (fRs2 v) = withFieldsOf base [(7, 5), (15, 5), (20, 5)] v := rfl

theorem encFence_of_fields (base v : BitVec 32) :
    encFence base (fFm v) (fPred v) (fSucc v) (fRs1 v) (fRd v) = withFieldsOf base [(7, 5), (15, 5), (20, 4), (24, 4), (28, 4)] v := rfl

theorem encFenceI_of_fields (base v : BitVec 32) :
    encFenceI base (fImmI v) (fRs1 v) (fRd v) = withFieldsOf base [(7, 5), (15, 5), (20, 12)] v := rfl

theorem encCsr_of_fields (base v : BitVec 32) :
    encCsr base (fRd v) (fCsr v) (fRs1 v) = withFieldsOf base [(7, 5), (15, 5), (20, 12)] v := rfl

theorem encLr_of_fields (base v : BitVec 32) :
    encLr base (fRd v) (fRs1 v) (fAq v) (fRl v) = withFieldsOf base [(7, 5), (15, 5), (25, 1), (26, 1)] v := rfl

theorem encSc_of_fields (base v : BitVec 32) :
    encSc base (fRd v) (fRs1 v) (fRs2 v) (fAq v) (fRl v) = withFieldsOf base [(7, 5), (15, 5), (20, 5), (25, 1), (26, 1)] v := rfl

theorem encCRdP_of_fields (base v : BitVec 32) :
    encCRdP base (fCRdLo v) = withFieldsOf base [(2, 3)] v := rfl

theorem encCIW_of_fields (base v : BitVec 32) :
    encCIW base (fCRdLo v) (fImmCIW v) = withFieldsOf base [(2, 3), (5, 1), (6, 1), (7, 4), (11, 2)] v := by
  simp (disch := omega) only [encCIW, fCRdLo, fImmCIW, HAppend.hAppend, extractLsb'_append_low, extractLsb'_append_high,
    extractLsb'_bits, Nat.reduceSub, Nat.reduceAdd]
  rfl

theorem encCLw_of_fields (base v : BitVec 32) :
    encCLw base (fCRdLo v) (fCRs1 v) (fImmCLw v) = withFieldsOf base [(2, 3), (5, 1), (6, 1), (7, 3), (10, 3)] v := by
  simp (disch := omega) only [encCLw, fCRdLo, fCRs1, fImmCLw, HAppend.hAppend, extractLsb'_append_low, extractLsb'_append_high,
    extractLsb'_bits, Nat.reduceSub, Nat.reduceAdd]
  rfl

theorem encCLd_of_fields (base v : BitVec 32) :
    encCLd base (fCRdLo v) (fCRs1 v) (fImmCLd v) = withFieldsOf base [(2, 3), (5, 2), (7, 3), (10, 3)] v := by
  simp (disch := omega) only [encCLd, fCRdLo, fCRs1, fImmCLd, HAppend.hAppend, extractLsb'_append_low, extractLsb'_append_high,
    extractLsb'_bits, Nat.reduceSub, Nat.reduceAdd]
  rfl

theorem encCI_of_fields (base v : BitVec 32) :
    encCI base (fRd v) (fImmCI v) = withFieldsOf base [(2, 5), (7, 5), (12, 1)] v := by
  simp (disch := omega) only [encCI, fRd, fImmCI, HAppend.hAppend, extractLsb'_append_low, extractLsb'_append_high,
    extractLsb'_bits, Nat.reduceSub, Nat.reduceAdd]
  rfl

theorem encCI16_of_fields (base v : BitVec 32) :
    encCI16 base (fImmCI16 v) = withFieldsOf base [(2, 1), (3, 2), (5, 1), (6, 1), (12, 1)] v := by
  simp (disch := omega) only [encCI16, fImmCI16, HAppend.hAppend, extractLsb'_append_low, extractLsb'_append_high,
    extractLsb'_bits, Nat.reduceSub, Nat.reduceAdd]
  rfl

theorem encCRd_of_fields (base v : BitVec 32) :
    encCRd base (fRd v) = withFieldsOf base [(7, 5)] v := rfl

theorem encCJ_of_fields (base v : BitVec 32) :
    encCJ base (fImmCJ v) = withFieldsOf base [(2, 1), (3, 3), (6, 1), (7, 1), (8, 1), (9, 2), (11, 1), (12, 1)] v := by
  simp (disch := omega) only [encCJ, fImmCJ, HAppend.hAppend, extractLsb'_append_low, extractLsb'_append_high,
    extractLsb'_bits, Nat.reduceSub, Nat.reduceAdd]
  rfl

theorem encCBImm_of_fields (base v : BitVec 32) :
    encCBImm base (fCRs1 v) (fImmCI v) = withFieldsOf base [(2, 5), (7, 3), (12, 1)] v := by
  simp (disch := omega) only [encCBImm, fCRs1, fImmCI, HAppend.hAppend, extractLsb'_append_low, extractLsb'_append_high,
    extractLsb'_bits, Nat.reduceSub, Nat.reduceAdd]
  rfl

theorem encCA_of_fields (base v : BitVec 32) :
    encCA base (fCRs1 v) (fCRdLo v) = withFieldsOf base [(2, 3), (7, 3)] v := rfl

theorem encCB_of_fields (base v : BitVec 32) :
    encCB base (fCRs1 v) (fImmCB v) = withFieldsOf base [(2, 1), (3, 2), (5, 2), (7, 3), (10, 2), (12, 1)] v := by
  simp (disch := omega) only [encCB, fCRs1, fImmCB, HAppend.hAppend, extractLsb'_append_low, extractLsb'_append_high,
    extractLsb'_bits, Nat.reduceSub, Nat.reduceAdd]
  rfl

theorem encCILw_of_fields (base v : BitVec 32) : encCILw (fRd v) base (fImmCILw v) = withFieldsOf base [(2, 2), (4, 3), (7, 5), (12, 1)] v := by
  simp (disch := omega) only [encCILw, fRd, fImmCILw, HAppend.hAppend, extractLsb'_append_low, extractLsb'_append_high,
    extractLsb'_bits, Nat.reduceSub, Nat.reduceAdd]
  rfl

theorem encCILd_of_fields (base v : BitVec 32) : encCILd (fRd v) base (fImmCILd v) = withFieldsOf base [(2, 3), (5, 2), (7, 5), (12, 1)] v := by
  simp (disch := omega) only [encCILd, fRd, fImmCILd, HAppend.hAppend, extractLsb'_append_low, extractLsb'_append_high,
    extractLsb'_bits, Nat.reduceSub, Nat.reduceAdd]
  rfl

theorem encCR_of_fields (base v : BitVec 32) :
    encCR base (fRd v) (fCRs2 v) = withFieldsOf base [(2, 5), (7, 5)] v := rfl

theorem encCSSw_of_fields (base v : BitVec 32) :
    encCSSw base (fCRs2 v) (fImmCSSw v) = withFieldsOf base [(2, 5), (7, 2), (9, 4)] v := by
  simp (disch := omega) only [encCSSw, fCRs2, fImmCSSw, HAppend.hAppend, extractLsb'_append_low, extractLsb'_append_high,
    extractLsb'_bits, Nat.reduceSub, Nat.reduceAdd]
  rfl

theorem encCSSd_of_fields (base v : BitVec 32) :
    encCSSd base (fCRs2 v) (fImmCSSd v) = withFieldsOf base [(2, 5), (7, 3), (10, 3)] v := by
  simp (disch := omega) only [encCSSd, fCRs2, fImmCSSd, HAppend.hAppend, extractLsb'_append_low, extractLsb'_append_high,
    extractLsb'_bits, Nat.reduceSub, Nat.reduceAdd]
  rfl

theorem encCI0_of_fields (base v : BitVec 32) : encCI0 base (fImmCI v) = withFieldsOf base [(2, 5), (12, 1)] v := by
  simp (disch := omega) only [encCI0, encCI, fImmCI, HAppend.hAppend, extractLsb'_append_low, extractLsb'_append_high,
    extractLsb'_bits, Nat.reduceSub, Nat.reduceAdd, place_zero, or_zero_word]
  rfl

theorem encCILw_zero_of_fields (base v : BitVec 32) :
    encCILw 0 base (fImmCILw v) = withFieldsOf base [(2, 2), (4, 3), (12, 1)] v := by
  simp (disch := omega) only [encCILw, fImmCILw, HAppend.hAppend, extractLsb'_append_low, extractLsb'_append_high,
    extractLsb'_bits, Nat.reduceSub, Nat.reduceAdd, place_zero, or_zero_word]
  rfl

theorem encCILd_zero_of_fields (base v : BitVec 32) :
    encCILd 0 base (fImmCILd v) = withFieldsOf base [(2, 3), (5, 2), (12, 1)] v := by
  simp (disch := omega) only [encCILd, fImmCILd, HAppend.hAppend, extractLsb'_append_low, extractLsb'_append_high,
    extractLsb'_bits, Nat.reduceSub, Nat.reduceAdd, place_zero, or_zero_word]
  rfl

/-- The word of the fields an entry reads has them where they were read, and else the entry's own bits. -/
theorem encode_fieldsOf_spreads (op : Op) : Spreads fun v => encode (fieldsOf op v) := by
  cases op
  case lui | auipc => exact spreads_of_eq (encU_of_fields _)
  case jal => exact spreads_of_eq (encJ_of_fields _)
  case jalr | lb | lh | lw | lbu | lhu | lwu | ld | addi | slti | sltiu | xori | ori | andi | addiw =>
    exact spreads_of_eq (encI_of_fields _)
  case sb | sh | sw | sd => exact spreads_of_eq (encS_of_fields _)
  case beq | bne | blt | bge | bltu | bgeu => exact spreads_of_eq (encB_of_fields _)
  case slli | srli | srai => exact spreads_of_eq (encShift_of_fields _)
  case slliw | srliw | sraiw => exact spreads_of_eq (encShiftW_of_fields _)
  case add | sub | sll | slt | sltu | xor | srl | sra | or | and | addw | subw | sllw | srlw | sraw | mul | mulh | mulhsu |
      mulhu | div | divu | rem | remu | mulw | divw | divuw | remw | remuw =>
    exact spreads_of_eq (encR_of_fields _)
  case fence => exact spreads_of_eq (encFence_of_fields _)
  case fenceI => exact spreads_of_eq (encFenceI_of_fields _)
  case csrrw | csrrs | csrrc | csrrwi | csrrsi | csrrci => exact spreads_of_eq (encCsr_of_fields _)
  case lrW | lrD => exact spreads_of_eq (encLr_of_fields _)
  case scW | scD => exact spreads_of_eq (encSc_of_fields _)
  case cAddi4spnRes => exact spreads_of_eq (encCRdP_of_fields _)
  case cAddi4spn => exact spreads_of_eq (encCIW_of_fields _)
  case cLw | cFlw | cSw | cFsw => exact spreads_of_eq (encCLw_of_fields _)
  case cFld | cLd | cFsd | cSd => exact spreads_of_eq (encCLd_of_fields _)
  case cAddi | cAddiw | cLi | cLui | cSlli => exact spreads_of_eq (encCI_of_fields _)
  case cAddiwRes => exact spreads_of_eq (encCI0_of_fields _)
  case cAddi16sp => exact spreads_of_eq (encCI16_of_fields _)
  case cLuiRes | cJr | cJalr => exact spreads_of_eq (encCRd_of_fields _)
  case cJal | cJ => exact spreads_of_eq (encCJ_of_fields _)
  case cSrli | cSrai | cAndi => exact spreads_of_eq (encCBImm_of_fields _)
  case cSub | cXor | cOr | cAnd | cSubw | cAddw => exact spreads_of_eq (encCA_of_fields _)
  case cBeqz | cBnez => exact spreads_of_eq (encCB_of_fields _)
  case cLwsp | cFlwsp => exact spreads_of_eq (encCILw_of_fields _)
  case cFldsp | cLdsp => exact spreads_of_eq (encCILd_of_fields _)
  case cLwspRes => exact spreads_of_eq (encCILw_zero_of_fields _)
  case cLdspRes => exact spreads_of_eq (encCILd_zero_of_fields _)
  case cMv | cAdd => exact spreads_of_eq (encCR_of_fields _)
  case cSwsp | cFswsp => exact spreads_of_eq (encCSSw_of_fields _)
  case cFsdsp | cSdsp => exact spreads_of_eq (encCSSd_of_fields _)
  case ecall | ebreak | cInvalid | cNop | cAddi16spRes | cJrRes | cEbreak => exact spreads_const _

end Sys2Proof

namespace Sys2Proof

/-! ### The fields of an encoded instruction -/

/-- An instruction's fields read back from its word. -/
theorem fieldsOf_encode (i : Instr) : fieldsOf i.op (encode i) = i := by
  cases i <;>
    simp (disch := decide) only [Instr.op, encode, fieldsOf, encU_fields, encJ_fields, encI_fields, encS_fields, encB_fields,
      encShift_fields, encShiftW_fields, encR_fields, encFence_fields, encFenceI_fields, encCsr_fields, encLr_fields, encSc_fields,
      encCRdP_fields, encCIW_fields, encCLw_fields, encCLd_fields, encCSw_fields, encCSd_fields, encCI_fields, encCI0_fields,
      encCI16_fields, encCRd_fields, encCJ_fields, encCBImm_fields, encCA_fields, encCB_fields, encCILw_fields, encCILd_fields,
      encCR_fields, encCSSw_fields, encCSSd_fields]

/-! ### The word of what a row reads -/

/-- The bits of a word that an entry reads into fields. -/
def Op.free (op : Op) : BitVec 32 := encode (fieldsOf op (BitVec.allOnes 32))

/-- The bits that a word presented to a row is without: the upper half, where the row is of a 16-bit instruction (R102). -/
def Row.absent (r : Row) : BitVec 32 := if bits r.want 0 2 = 3 then 0 else 0xffff0000

/-- The entry's own bits are those the row wants. -/
theorem rows_encode_zero : ∀ r ∈ rows, encode (fieldsOf r.op 0) = r.want := by decide +kernel

/-- Each bit of a word is cared about, or read into a field, or absent. -/
theorem rows_cover : ∀ r ∈ rows, r.mask ||| r.op.free ||| r.absent = BitVec.allOnes 32 := by decide +kernel

/-- No bit that is absent is wanted or read into a field. -/
theorem rows_absent : ∀ r ∈ rows, (r.want ||| r.op.free) &&& r.absent = 0 := by decide +kernel

theorem encode_fieldsOf {r : Row} (hr : r ∈ rows) (v : BitVec 32) :
    encode (fieldsOf r.op v) = r.want ||| (v &&& r.op.free) := by
  rw [← rows_encode_zero r hr]
  exact encode_fieldsOf_spreads r.op v

/-- The word of what a row reads from a word that it accepts is that word. -/
theorem encode_fieldsOf_of_accepts {r : Row} (hr : r ∈ rows) {v : BitVec 32} (ha : r.accepts v = true) (hv : v &&& r.absent = 0) :
    encode (fieldsOf r.op v) = v := by
  rw [encode_fieldsOf hr]
  have hcover := rows_cover r hr
  have hwant := rows_want_within_mask r hr
  have hmask := (accepts_iff r v).mp ha
  apply BitVec.eq_of_getLsbD_eq
  intro j hj
  have hat : ∀ {x y : BitVec 32}, x = y → x.getLsbD j = y.getLsbD j := fun h => congrArg (·.getLsbD j) h
  replace hcover := hat hcover
  replace hwant := hat hwant
  replace hmask := hat hmask
  replace hv := hat hv
  simp only [BitVec.getLsbD_or, BitVec.getLsbD_and, BitVec.getLsbD_xor, BitVec.getLsbD_not, BitVec.getLsbD_allOnes, hj,
    decide_true, Bool.true_and, BitVec.ofNat_eq_ofNat, BitVec.getLsbD_zero] at hcover hwant hmask hv ⊢
  generalize r.mask.getLsbD j = m at *
  generalize r.want.getLsbD j = x at *
  generalize r.op.free.getLsbD j = f at *
  generalize r.absent.getLsbD j = a at *
  generalize v.getLsbD j = b at *
  clear hat
  revert m x f a b
  decide

/-- The word presented to a row that accepts it is without the bits that are absent. -/
theorem instrWord_and_absent {r : Row} (hr : r ∈ rows) {w : BitVec 32} (ha : r.accepts (instrWord w) = true) :
    instrWord w &&& r.absent = 0 := by
  have hlow : bits r.want 0 2 = bits w 0 2 := (bits_eq_of_accepts (rows_low r hr).1 ha).symm.trans (instrWord_low w)
  rw [Row.absent, hlow]
  by_cases h3 : bits w 0 2 = 3
  · simp [h3]
  · have hnarrow : isWide w = false := by simpa [isWide] using h3
    apply BitVec.eq_of_getLsbD_eq
    intro j hj
    have hhigh : ∀ i : Fin 32, 16 ≤ i.val ∨ (0xffff0000#32).getLsbD i = false := by decide
    rw [if_neg h3, BitVec.getLsbD_and]
    rcases hhigh ⟨j, hj⟩ with h | h
    · simp [instrWord, hnarrow, bits, Nat.not_lt.mpr h]
    · simp [h]

/-- A word without the absent bits is presented to the registry as it is. -/
theorem instrWord_eq_self {r : Row} {w : BitVec 32} (hlow : bits w 0 2 = bits r.want 0 2)
    (hw : w &&& r.absent = 0) : instrWord w = w := by
  by_cases h3 : bits w 0 2 = 3
  · exact instrWord_of_wide h3
  · refine instrWord_of_narrow h3 ?_
    have := congrArg (fun x => bits x 16 16) hw
    rw [Row.absent, if_neg (hlow ▸ h3)] at this
    rw [← BitVec.and_allOnes (x := bits w 16 16)]
    simpa [bits, BitVec.extractLsb'_and] using this

/-- The word of an instruction, as its row presents it. -/
theorem encode_eq {r : Row} (hr : r ∈ rows) {i : Instr} (hop : r.op = i.op) : encode i = r.want ||| (encode i &&& r.op.free) := by
  rw [← encode_fieldsOf hr, hop, fieldsOf_encode]

/-! ### Well-formed instructions and the rows that accept their words -/

theorem shamtFits_rv32_iff (shamt : BitVec 6) : shamtFits .rv32 shamt = true ↔ shamt.extractLsb' 5 1 = 0 := by
  revert shamt
  decide

theorem exists_row_of_wf {xl : Xlen} {i : Instr} (h : i.wf xl = true) : ∃ r ∈ registry xl, r.op = i.op := by
  cases xl <;> cases i <;> simp [Instr.wf, Instr.op] at h ⊢ <;> decide +kernel

end Sys2Proof

namespace Sys2Proof

/-! ### Well-formedness and the refinements of a row -/

theorem append_eq_zero_iff {n m : Nat} {a : BitVec n} {b : BitVec m} : a ++ b = 0 ↔ a = 0 ∧ b = 0 := by
  constructor
  · intro h
    have ha := congrArg (fun x => x.extractLsb' m n) h
    have hb := congrArg (fun x => x.extractLsb' 0 m) h
    simp only [HAppend.hAppend, extractLsb'_append_high _ _ (Nat.le_refl m), Nat.sub_self] at ha
    simp only [HAppend.hAppend, extractLsb'_append_low a b (show 0 + m ≤ m by omega)] at hb
    exact ⟨by simpa using ha, by simpa using hb⟩
  · rintro ⟨rfl, rfl⟩
    simp

theorem fImmCI_eq_zero_iff {w : BitVec 32} : fImmCI w = 0 ↔ bits w 12 1 = 0 ∧ bits w 2 5 = 0 := append_eq_zero_iff

theorem fImmCIW_eq_zero_iff {w : BitVec 32} :
    fImmCIW w = 0 ↔ ((bits w 7 4 = 0 ∧ bits w 11 2 = 0) ∧ bits w 5 1 = 0) ∧ bits w 6 1 = 0 :=
  append_eq_zero_iff.trans (and_congr_left' (append_eq_zero_iff.trans (and_congr_left' append_eq_zero_iff)))

theorem fImmCI16_eq_zero_iff {w : BitVec 32} :
    fImmCI16 w = 0 ↔ (((bits w 12 1 = 0 ∧ bits w 3 2 = 0) ∧ bits w 5 1 = 0) ∧ bits w 2 1 = 0) ∧ bits w 6 1 = 0 :=
  append_eq_zero_iff.trans
    (and_congr_left' (append_eq_zero_iff.trans (and_congr_left' (append_eq_zero_iff.trans (and_congr_left' append_eq_zero_iff)))))

/-- The fields that an entry's row cares about, for the entries that refine another or are refined (R363): those of the immediate are
the pieces it is read from. -/
def careFields : Op → List WordField
  | .cInvalid => [⟨0, 2, 0⟩, ⟨2, 3, 0⟩, ⟨5, 1, 0⟩, ⟨6, 1, 0⟩, ⟨7, 4, 0⟩, ⟨11, 2, 0⟩, ⟨13, 3, 0⟩]
  | .cAddi4spnRes => [⟨0, 2, 0⟩, ⟨5, 1, 0⟩, ⟨6, 1, 0⟩, ⟨7, 4, 0⟩, ⟨11, 2, 0⟩, ⟨13, 3, 0⟩]
  | .cAddi4spn => [⟨0, 2, 0⟩, ⟨13, 3, 0⟩]
  | .cNop => [⟨0, 2, 1⟩, ⟨2, 5, 0⟩, ⟨7, 5, 0⟩, ⟨12, 1, 0⟩, ⟨13, 3, 0⟩]
  | .cAddi => [⟨0, 2, 1⟩, ⟨13, 3, 0⟩]
  | .cAddiwRes => [⟨0, 2, 1⟩, ⟨7, 5, 0⟩, ⟨13, 3, 1⟩]
  | .cAddiw => [⟨0, 2, 1⟩, ⟨13, 3, 1⟩]
  | .cAddi16spRes => [⟨0, 2, 1⟩, ⟨2, 1, 0⟩, ⟨3, 2, 0⟩, ⟨5, 1, 0⟩, ⟨6, 1, 0⟩, ⟨7, 5, 2⟩, ⟨12, 1, 0⟩, ⟨13, 3, 3⟩]
  | .cAddi16sp => [⟨0, 2, 1⟩, ⟨7, 5, 2⟩, ⟨13, 3, 3⟩]
  | .cLuiRes => [⟨0, 2, 1⟩, ⟨2, 5, 0⟩, ⟨12, 1, 0⟩, ⟨13, 3, 3⟩]
  | .cLui => [⟨0, 2, 1⟩, ⟨13, 3, 3⟩]
  | .cLwspRes => [⟨0, 2, 2⟩, ⟨7, 5, 0⟩, ⟨13, 3, 2⟩]
  | .cLwsp => [⟨0, 2, 2⟩, ⟨13, 3, 2⟩]
  | .cLdspRes => [⟨0, 2, 2⟩, ⟨7, 5, 0⟩, ⟨13, 3, 3⟩]
  | .cLdsp => [⟨0, 2, 2⟩, ⟨13, 3, 3⟩]
  | .cJrRes => [⟨0, 2, 2⟩, ⟨2, 5, 0⟩, ⟨7, 5, 0⟩, ⟨12, 1, 0⟩, ⟨13, 3, 4⟩]
  | .cJr => [⟨0, 2, 2⟩, ⟨2, 5, 0⟩, ⟨12, 1, 0⟩, ⟨13, 3, 4⟩]
  | .cMv => [⟨0, 2, 2⟩, ⟨12, 1, 0⟩, ⟨13, 3, 4⟩]
  | .cEbreak => [⟨0, 2, 2⟩, ⟨2, 5, 0⟩, ⟨7, 5, 0⟩, ⟨12, 1, 1⟩, ⟨13, 3, 4⟩]
  | .cJalr => [⟨0, 2, 2⟩, ⟨2, 5, 0⟩, ⟨12, 1, 1⟩, ⟨13, 3, 4⟩]
  | .cAdd => [⟨0, 2, 2⟩, ⟨12, 1, 1⟩, ⟨13, 3, 4⟩]
  | _ => []

theorem rows_careFields : ∀ r ∈ rows, careFields r.op ≠ [] → r.mask = maskOf ((careFields r.op).map fun f => (f.lo, f.len)) ∧
    ∀ f ∈ careFields r.op, bits r.mask f.lo f.len = BitVec.allOnes f.len ∧ bits r.want f.lo f.len = f.val := by
  decide +kernel

theorem accepts_iff_careFields {r : Row} (hr : r ∈ rows) (hc : careFields r.op ≠ []) {w : BitVec 32} :
    r.accepts w = true ↔ HasFields w (careFields r.op) := by
  obtain ⟨hmask, hfields⟩ := rows_careFields r hr hc
  constructor
  · intro ha f hf
    obtain ⟨hcare, hwant⟩ := hfields f hf
    rw [bits_eq_of_accepts hcare ha, hwant]
  · intro hw
    refine accepts_of_fields _ hmask (List.forall_mem_map.mpr fun f hf => ?_)
    rw [hw f hf, (hfields f hf).2]

/-- The rows of the registry that refine a row are those of its entry's refinements, and all of them are known by their fields. -/
theorem registry_refinements (xl : Xlen) : ∀ r ∈ registry xl, ∀ o ∈ refinements r.op,
    careFields r.op ≠ [] ∧ careFields o ≠ [] ∧ ∃ r' ∈ registry xl, r'.op = o := by
  cases xl <;> decide +kernel

/-- No row that refines `r` accepts the word. -/
abbrev Unrefined (xl : Xlen) (r : Row) (w : BitVec 32) : Prop := ∀ r' ∈ registry xl, r'.op ∈ refinements r.op → r'.accepts w = false

theorem unrefined_iff {xl : Xlen} {r : Row} (hr : r ∈ registry xl) {w : BitVec 32} :
    Unrefined xl r w ↔ ∀ o ∈ refinements r.op, ¬ HasFields w (careFields o) := by
  constructor
  · intro h o ho hw
    obtain ⟨-, hc, r', hr', rfl⟩ := registry_refinements xl r hr o ho
    exact Bool.false_ne_true ((h r' hr' ho).symm.trans ((accepts_iff_careFields (mem_rows_of_mem_registry hr') hc).mpr hw))
  · intro h r' hr' ho
    obtain ⟨-, hc, -⟩ := registry_refinements xl r hr _ ho
    rw [← Bool.not_eq_true, accepts_iff_careFields (mem_rows_of_mem_registry hr') hc]
    exact h _ ho

/-- Where an entry is refined, an instruction read by it is well formed exactly where no refinement takes the word. -/
theorem wf_iff_of_refined {o : Op} (ho : refinements o ≠ []) {w : BitVec 32} (hw : HasFields w (careFields o)) {xl : Xlen}
    (hx : o = .cAddiw ∨ o = .cLdsp → xl = .rv64) :
    (fieldsOf o w).wf xl = true ↔ ∀ o' ∈ refinements o, ¬ HasFields w (careFields o') := by
  cases o
  case cAddi4spnRes | cAddi4spn | cAddi | cAddiw | cAddi16sp | cLuiRes | cLui | cLwsp | cLdsp | cJr | cMv | cJalr | cAdd =>
    simp only [HasFields, careFields, List.forall_mem_cons, List.not_mem_nil, false_imp_iff, implies_true, and_true] at hw
    simp only [refinements, List.forall_mem_cons, List.not_mem_nil, false_imp_iff, implies_true, and_true, HasFields, careFields,
      hw, fieldsOf, Instr.wf, bne_iff_ne, ne_eq, Bool.and_eq_true, Bool.not_eq_true', Bool.and_eq_false_iff, beq_eq_false_iff_ne,
      beq_iff_eq, hx, true_or, or_true, fImmCI_eq_zero_iff, fImmCIW_eq_zero_iff, fImmCI16_eq_zero_iff, fRd, fCRdLo, fCRs2]
    tauto
  all_goals exact absurd rfl ho

/-! ### The shift amounts (R91, R332, R344) -/

/-- The entries with a six-bit shift amount, whose rows differ between the two XLEN values. -/
def Op.isShift (o : Op) : Bool := [.slli, .srli, .srai, .cSlli, .cSrli, .cSrai].contains o

/-- The place of the amount's bit 5 in the word. -/
def amountTop (o : Op) : Nat := if o.width = 4 then 25 else 12

theorem shamtFits_rv64 (shamt : BitVec 6) : shamtFits .rv64 shamt = true := decide_eq_true shamt.isLt

theorem fShamt_top (w : BitVec 32) : (fShamt w).extractLsb' 5 1 = bits w 25 1 := extractLsb'_bits w (by omega)

theorem fImmCI_top (w : BitVec 32) : (fImmCI w).extractLsb' 5 1 = bits w 12 1 :=
  (extractLsb'_append_high _ _ (by omega)).trans (extractLsb'_bits w (by omega))

theorem wf_shift_rv64 {o : Op} (ho : o.isShift = true) (w : BitVec 32) : (fieldsOf o w).wf .rv64 = true := by
  cases o
  case slli | srli | srai | cSlli | cSrli | cSrai => exact shamtFits_rv64 _
  all_goals exact absurd ho (by decide)

theorem wf_shift_rv32_iff {o : Op} (ho : o.isShift = true) (w : BitVec 32) :
    (fieldsOf o w).wf .rv32 = true ↔ bits w (amountTop o) 1 = 0 := by
  cases o
  case slli | srli | srai => exact (shamtFits_rv32_iff _).trans (by rw [fShamt_top]; rfl)
  case cSlli | cSrli | cSrai => exact (shamtFits_rv32_iff _).trans (by rw [fImmCI_top]; rfl)
  all_goals exact absurd ho (by decide)

/-- On XLEN = 32 the row of a shift wants the amount's bit 5 to be 0. -/
theorem rows_amountTop : ∀ r ∈ registry .rv32, r.op.isShift = true →
    bits r.mask (amountTop r.op) 1 = 1 ∧ bits r.want (amountTop r.op) 1 = 0 := by decide +kernel

/-! ### A row's instructions are well formed -/

theorem rows_wf_zero (xl : Xlen) : ∀ r ∈ registry xl, refinements r.op = [] → (fieldsOf r.op 0).wf xl = true := by
  cases xl <;> decide +kernel

/-- Where an entry is not refined, and is no shift, its fields take any value. -/
theorem wf_eq_of_unrestricted {o : Op} (hr : refinements o = []) (hs : o.isShift = false) (xl : Xlen) (w : BitVec 32) :
    (fieldsOf o w).wf xl = (fieldsOf o 0).wf xl := by
  cases o
  case cAddi4spnRes | cAddi4spn | cAddi | cAddiw | cAddi16sp | cLuiRes | cLui | cLwsp | cLdsp | cJr | cMv | cJalr | cAdd =>
    cases hr
  case slli | srli | srai | cSlli | cSrli | cSrai => exact absurd hs (by decide)
  all_goals rfl

theorem rv64_of_refined (xl : Xlen) : ∀ r ∈ registry xl, r.op = .cAddiw ∨ r.op = .cLdsp → xl = .rv64 := by
  cases xl <;> decide +kernel

/-- What a row reads from a word that it accepts is well formed exactly where no row that refines it accepts the word. -/
theorem wf_iff_unrefined {xl : Xlen} {r : Row} (hr : r ∈ registry xl) {w : BitVec 32} (ha : r.accepts w = true) :
    (fieldsOf r.op w).wf xl = true ↔ Unrefined xl r w := by
  rw [unrefined_iff hr]
  by_cases hrefine : refinements r.op = []
  · refine iff_of_true ?_ (by simp [hrefine])
    cases hs : r.op.isShift
    · rw [wf_eq_of_unrestricted hrefine hs, rows_wf_zero xl r hr hrefine]
    · cases xl
      · obtain ⟨hmask, hwant⟩ := rows_amountTop r hr hs
        exact (wf_shift_rv32_iff hs w).mpr ((bits_eq_of_accepts hmask ha).trans hwant)
      · exact wf_shift_rv64 hs w
  · obtain ⟨o, ho⟩ := List.exists_mem_of_ne_nil _ hrefine
    have hc := (registry_refinements xl r hr o ho).1
    exact wf_iff_of_refined hrefine ((accepts_iff_careFields (mem_rows_of_mem_registry hr) hc).mp ha) (rv64_of_refined xl r hr)

/-! ### A row accepts the words of its well-formed instructions -/

/-- A row fixes no bit that it reads into a field, but the top of a shift's amount on XLEN = 32. -/
theorem rows_free_of_mask (xl : Xlen) : ∀ r ∈ registry xl, r.mask &&& r.op.free &&& ~~~r.want =
    if xl = .rv32 ∧ r.op.isShift = true then place 1#1 (amountTop r.op) else 0 := by
  cases xl <;> decide +kernel

theorem accepts_encode {xl : Xlen} {i : Instr} (hi : i.wf xl = true) {r : Row} (hr : r ∈ registry xl) (hop : r.op = i.op) :
    r.accepts (encode i) = true := by
  have hheld : r.mask &&& r.op.free &&& ~~~r.want &&& encode i = 0 := by
    rw [rows_free_of_mask xl r hr]
    split
    · next h =>
      obtain ⟨rfl, hs⟩ := h
      rw [← fieldsOf_encode i, ← hop, wf_shift_rv32_iff hs] at hi
      exact (BitVec.and_comm _ _).trans (mask_place hi 1)
    · simp
  have hword := encode_eq (mem_rows_of_mem_registry hr) hop
  rw [accepts_iff]
  apply BitVec.eq_of_getLsbD_eq
  intro j hj
  replace hheld := congrArg (·.getLsbD j) hheld
  replace hword := congrArg (·.getLsbD j) hword
  simp only [BitVec.getLsbD_or, BitVec.getLsbD_and, BitVec.getLsbD_xor, BitVec.getLsbD_not, hj,
    decide_true, Bool.true_and, BitVec.ofNat_eq_ofNat, BitVec.getLsbD_zero] at hheld hword ⊢
  generalize r.mask.getLsbD j = m at *
  generalize r.want.getLsbD j = x at *
  generalize r.op.free.getLsbD j = f at *
  generalize (encode i).getLsbD j = b at *
  revert m x f b
  decide

theorem encode_and_absent {i : Instr} {r : Row} (hr : r ∈ rows) (hop : r.op = i.op) : encode i &&& r.absent = 0 := by
  have hword := encode_eq hr hop
  have habsent := rows_absent r hr
  apply BitVec.eq_of_getLsbD_eq
  intro j _
  replace hword := congrArg (·.getLsbD j) hword
  replace habsent := congrArg (·.getLsbD j) habsent
  simp only [BitVec.getLsbD_or, BitVec.getLsbD_and, BitVec.ofNat_eq_ofNat, BitVec.getLsbD_zero] at hword habsent ⊢
  generalize r.want.getLsbD j = x at *
  generalize r.op.free.getLsbD j = f at *
  generalize r.absent.getLsbD j = a at *
  generalize (encode i).getLsbD j = b at *
  revert x f a b
  decide

/-- A well-formed instruction is read back from its word. -/
theorem decodeWord_encode {xl : Xlen} {i : Instr} (hi : i.wf xl = true) : decodeWord xl (encode i) = some i := by
  obtain ⟨r, hr, hop⟩ := exists_row_of_wf hi
  have hrow := mem_rows_of_mem_registry hr
  have ha := accepts_encode hi hr hop
  have hfields : fieldsOf r.op (encode i) = i := by rw [hop, fieldsOf_encode]
  have hself : instrWord (encode i) = encode i :=
    instrWord_eq_self (bits_eq_of_accepts (rows_low r hrow).1 ha) (encode_and_absent hrow hop)
  have hnone : Unrefined xl r (encode i) := by rwa [← wf_iff_unrefined hr ha, hfields]
  rw [decodeWord, describe, hself, findRow_of_accepts hr ha hnone, Option.map_some, Option.map_some]
  exact congrArg some hfields

/-! ### Encode of decode -/

/-- The order of the registry: an entry and one that it refines are not each other's refinement. -/
theorem rows_refinements_asymm : ∀ r ∈ rows, ∀ o ∈ refinements r.op, r.op ∉ refinements o := by decide +kernel

/-- No row that refines the row found accepts the word. -/
theorem unrefined_of_findRow {xl : Xlen} {w : BitVec 32} {r : Row} (h : findRow xl w = some r) : Unrefined xl r w := by
  obtain ⟨before, after, he, ha, hbefore⟩ := findRow_eq_some_iff.mp h
  have hr : r ∈ registry xl := by simp [he]
  intro r' hr' ho
  have hp := registry_conflicts xl
  rw [he, List.pairwise_append, List.pairwise_cons] at hp
  obtain ⟨-, ⟨hafter, -⟩, -⟩ := hp
  rw [he, List.mem_append, List.mem_cons] at hr'
  rcases hr' with hr' | rfl | hr'
  · exact hbefore r' hr'
  · exact absurd ho (rows_refinements_asymm r' (mem_rows_of_mem_registry hr) _ ho)
  · rcases hafter r' hr' with hc | hc
    · exact not_accepts_of_conflicts hc ha
    · exact absurd hc (rows_refinements_asymm r (mem_rows_of_mem_registry hr) _ ho)

theorem exists_findRow_of_decodeWord {xl : Xlen} {w : BitVec 32} {i : Instr} (h : decodeWord xl w = some i) :
    ∃ r, findRow xl (instrWord w) = some r ∧ i = fieldsOf r.op (instrWord w) := by
  rw [decodeWord, describe, Option.map_map, Option.map_eq_some_iff] at h
  obtain ⟨r, hr, rfl⟩ := h
  exact ⟨r, hr, rfl⟩

theorem wf_of_decodeWord {xl : Xlen} {w : BitVec 32} {i : Instr} (h : decodeWord xl w = some i) : i.wf xl = true := by
  obtain ⟨r, hfind, rfl⟩ := exists_findRow_of_decodeWord h
  obtain ⟨before, after, he, ha, -⟩ := findRow_eq_some_iff.mp hfind
  exact (wf_iff_unrefined (by simp [he]) ha).mpr (unrefined_of_findRow hfind)

theorem encode_of_decodeWord {xl : Xlen} {w : BitVec 32} {i : Instr} (h : decodeWord xl w = some i) : encode i = instrWord w := by
  obtain ⟨r, hr, ha, rfl⟩ := exists_row_of_decodeWord h
  have hrow := mem_rows_of_mem_registry hr
  exact encode_fieldsOf_of_accepts hrow ha (instrWord_and_absent hrow ha)

/-- Settles O2: the row found accepts the word and no refinement of it does, so its fields are well formed and are the whole word. -/
theorem encodeOfDecode : Obligations.EncodeOfDecode := by
  unfold Obligations.EncodeOfDecode
  intro xl w i h
  refine ⟨wf_of_decodeWord h, ?_⟩
  rw [encode_of_decodeWord h, instrWord, isWide]
  simp [bits]

/-! ### The bytes of a word -/

theorem leByte_toNat_eq (w : BitVec 32) (k : Nat) : leByte w.toNat k = w.extractLsb' (8 * k) 8 := by
  apply BitVec.eq_of_toNat_eq
  simp [leByte, Nat.shiftRight_eq_div_pow]

/-- The four bytes of a word make it again. -/
theorem append_bytes (w : BitVec 32) :
    w.extractLsb' 24 8 ++ w.extractLsb' 16 8 ++ w.extractLsb' 8 8 ++ w.extractLsb' 0 8 = w := by
  repeat rw [BitVec.extractLsb'_append_extractLsb'_eq_extractLsb' (by omega)]
  exact BitVec.extractLsb'_eq_self

theorem isWide_of_low {w v : BitVec 32} (h : bits w 0 2 = bits v 0 2) : isWide w = isWide v := by rw [isWide, h, isWide]

theorem instrWord_of_not_wide {w : BitVec 32} (h : isWide w = false) : instrWord w = (w.extractLsb' 0 16).setWidth 32 := by
  simp [instrWord, h, bits]

theorem instrWord_instrWord (w : BitVec 32) : instrWord (instrWord w) = instrWord w := by
  have hlow := isWide_of_low (instrWord_low w)
  cases h : isWide w
  · rw [instrWord_of_not_wide (hlow.trans h), instrWord_of_not_wide h, BitVec.extractLsb'_setWidth_of_le (by omega),
      BitVec.extractLsb'_eq_self]
  · rw [instrWord, hlow, h, if_pos rfl]

theorem decodeWord_instrWord (xl : Xlen) (w : BitVec 32) : decodeWord xl (instrWord w) = decodeWord xl w := by
  rw [decodeWord, decodeWord, describe, describe, instrWord_instrWord]

/-- The lowest byte gives the length (R80). -/
theorem isWide_low_byte (w : BitVec 32) : isWide ((w.extractLsb' 0 8).setWidth 32) = isWide w := by
  refine isWide_of_low (BitVec.eq_of_getLsbD_eq fun j hj => ?_)
  have h8 : j < 8 := by omega
  have h32 : j < 32 := by omega
  simp [bits, hj, h8, h32]

/-- Of a 16-bit instruction the two low bytes decide. -/
theorem decodeWord_low_bytes (xl : Xlen) {w : BitVec 32} (h : isWide w = false) :
    decodeWord xl ((w.extractLsb' 8 8 ++ w.extractLsb' 0 8).setWidth 32) = decodeWord xl w := by
  rw [BitVec.extractLsb'_append_extractLsb'_eq_extractLsb' (by omega), ← instrWord_of_not_wide h, decodeWord_instrWord]

/-- The decoder over bytes reads a word laid out little-endian, all of it or the low half. -/
theorem decode_bytes {xl : Xlen} {w : BitVec 32} {i : Instr} {rest : List Byte} (h : decodeWord xl w = some i) :
    decode xl (((List.range i.width).map fun k => w.extractLsb' (8 * k) 8) ++ rest) = .ok (i, rest) := by
  have hwidth := width_of_decodeWord h
  cases hw : isWide w
  · have htwo : i.width = 2 := by simp [hwidth, widthOf, hw]
    simp [htwo, List.range_succ, decode, isWide_low_byte, hw, decodeWord_low_bytes, h]
  · have hfour : i.width = 4 := by simp [hwidth, widthOf, hw]
    simp [hfour, List.range_succ, decode, isWide_low_byte, hw, append_bytes, h]

/-- What the decoder reads from the four bytes of a word is what the word decodes to. -/
theorem decodeWord_of_decode {xl : Xlen} {w : BitVec 32} {i : Instr} {rest : List Byte}
    (h : decode xl [w.extractLsb' 0 8, w.extractLsb' 8 8, w.extractLsb' 16 8, w.extractLsb' 24 8] = .ok (i, rest)) :
    decodeWord xl w = some i := by
  cases hw : isWide w
  · simp only [decode, isWide_low_byte, hw, Bool.false_eq_true, if_false, decodeWord_low_bytes xl hw] at h
    cases hd : decodeWord xl w <;> simp_all
  · simp only [decode, isWide_low_byte, hw, if_true, append_bytes] at h
    cases hd : decodeWord xl w <;> simp_all

/-- Settles O1: the word of the instruction decodes to it, and the decoder over bytes puts the word together again. -/
theorem decodeOfEncode : Obligations.DecodeOfEncode := by
  unfold Obligations.DecodeOfEncode
  intro xl i rest hi
  have h := decode_bytes (rest := rest) (decodeWord_encode hi)
  simpa only [encodeBytes, leByte_toNat_eq] using h

end Sys2Proof

/-! Which words no entry takes, and what a translation ends at. -/

namespace Sys2Proof

/-! ### The words that miss (R108, R362) -/

/-- Every row of the registry wants the key field otherwise or all the fields of a list of `L`, and each list of `L` is all that some
row wants. -/
abbrev Covers (xl : Xlen) (key : WordField) (L : List (List WordField)) : Prop :=
  (∀ r ∈ registry xl, bits r.mask key.lo key.len &&& (key.val ^^^ bits r.want key.lo key.len) ≠ 0 ∨
    ∃ l ∈ L, ∀ f ∈ l, bits r.mask f.lo f.len = BitVec.allOnes f.len ∧ bits r.want f.lo f.len = f.val) ∧
  ∀ l ∈ L, ∃ r ∈ registry xl, r.mask = maskOf (l.map fun f => (f.lo, f.len)) ∧ HasFields r.want l

/-- The rows of a key field, as lists of fields. -/
structure Cover (xl : Xlen) (key : WordField) where
  /-- The fields that each row cares about. -/
  lists : List (List WordField)
  /-- The registry has these rows for the key and no others. -/
  covers : Covers xl key lists

/-- Among the words with a key field, those that miss are those that have not all the fields of any list. -/
theorem decodeWord_eq_none_iff_of_covers {xl : Xlen} {key : WordField} {L : List (List WordField)} (h : Covers xl key L) {w : BitVec 32}
    (hkey : bits (instrWord w) key.lo key.len = key.val) : decodeWord xl w = none ↔ ∀ l ∈ L, ¬ HasFields (instrWord w) l := by
  obtain ⟨hrows, hlists⟩ := h
  rw [decodeWord_eq_none_iff]
  constructor
  · intro hnone l hl hw
    obtain ⟨r, hr, hmask, hwant⟩ := hlists l hl
    have ha : r.accepts (instrWord w) = true :=
      accepts_of_fields _ hmask (List.forall_mem_map.mpr fun f hf => (hw f hf).trans (hwant f hf).symm)
    exact Bool.false_ne_true ((hnone r hr).symm.trans ha)
  · intro hnone r hr
    rw [← Bool.not_eq_true]
    intro ha
    rcases hrows r hr with hother | ⟨l, hl, hfields⟩
    · exact hother (hkey ▸ bits_and_xor_eq_zero_of_accepts ha key.lo key.len)
    · exact hnone l hl fun f hf => (bits_eq_of_accepts (hfields f hf).1 ha).trans (hfields f hf).2

/-- A word of an opcode. -/
abbrev opField (op : BitVec 7) : WordField := ⟨0, 7, op⟩

/-- The fields of a row with an opcode and funct3. -/
abbrev f3Fields (op : BitVec 7) (f3 : BitVec 3) : List WordField := [opField op, ⟨12, 3, f3⟩]

/-- The fields of a row with an opcode, funct3 and funct7. -/
abbrev f7Fields (op : BitVec 7) (f3 : BitVec 3) (f7 : BitVec 7) : List WordField := [opField op, ⟨12, 3, f3⟩, ⟨25, 7, f7⟩]

/-- Whether a word with this opcode misses. -/
abbrev MissesAsListed (xl : Xlen) (op : BitVec 7) : Prop :=
  ∀ w : BitVec 32, opcodeOf w = op → (decodeWord xl w = none ↔ inTables xl w = false)

theorem missesAsListed_of_covers {xl : Xlen} {op : BitVec 7} (L : Cover xl (opField op)) (hlow : op.extractLsb' 0 2 = 3)
    (hL : ∀ w : BitVec 32, opcodeOf w = op → ((∀ l ∈ L.lists, ¬ HasFields w l) ↔ inTables xl w = false)) : MissesAsListed xl op := by
  intro w hop
  have hself : instrWord w = w := instrWord_of_wide ((bits_low_of_opcodeOf hop).trans hlow)
  rw [decodeWord_eq_none_iff_of_covers L.covers (by rw [hself]; exact hop), hself, hL w hop]

theorem bits_opcode (w : BitVec 32) : bits w 0 7 = opcodeOf w := rfl

theorem bits_funct3 (w : BitVec 32) : bits w 12 3 = funct3Of w := rfl

theorem bits_funct7 (w : BitVec 32) : bits w 25 7 = funct7Of w := rfl

/-- funct6, the bits of funct7 above a six-bit shift amount. -/
theorem bits_funct6 (w : BitVec 32) : bits w 26 6 = (funct7Of w).extractLsb' 1 6 :=
  (extractLsb'_bits w (lo := 25) (len := 7) (start := 1) (n := 6) (by omega)).symm

theorem bits_whole (w : BitVec 32) : bits w 0 32 = w := BitVec.extractLsb'_eq_self

theorem forall_f3Fields_iff {op : BitVec 7} {w : BitVec 32} (hop : opcodeOf w = op) (fs : List (BitVec 3)) :
    (∀ l ∈ fs.map (f3Fields op), ¬ HasFields w l) ↔ funct3Of w ∉ fs := by
  simp only [List.forall_mem_map, HasFields, List.forall_mem_cons, List.not_mem_nil, false_imp_iff, implies_true, and_true, bits_opcode,
    hop, bits_funct3, true_and]
  exact ⟨fun h hmem => h _ hmem rfl, fun h x hx he => h (he ▸ hx)⟩

theorem forall_f7Fields_iff {op : BitVec 7} {w : BitVec 32} (hop : opcodeOf w = op) (ps : List (BitVec 3 × BitVec 7)) :
    (∀ l ∈ ps.map fun p => f7Fields op p.1 p.2, ¬ HasFields w l) ↔ (funct3Of w, funct7Of w) ∉ ps := by
  simp only [List.forall_mem_map, HasFields, List.forall_mem_cons, List.not_mem_nil, false_imp_iff, implies_true, and_true, bits_opcode,
    hop, bits_funct3, bits_funct7, true_and]
  exact ⟨fun h hmem => h _ hmem ⟨rfl, rfl⟩, fun h x hx he => h (he.1 ▸ he.2 ▸ hx)⟩

/-- LUI, AUIPC or JAL. -/
def upperRows (xl : Xlen) (op : {op : BitVec 7 // op ∈ [0b0110111#7, 0b0010111#7, 0b1101111#7]}) : Cover xl (opField op) :=
  ⟨[[opField op]], by revert op; cases xl <;> decide +kernel⟩

theorem missesAsListed_upper (xl : Xlen) (op : {op : BitVec 7 // op ∈ [0b0110111#7, 0b0010111#7, 0b1101111#7]}) :
    MissesAsListed xl op := by
  refine missesAsListed_of_covers (upperRows xl op) (by revert op; decide) fun w hop => ?_
  obtain ⟨op, hmem⟩ := op
  have h : op = 0b0110111#7 ∨ op = 0b0010111#7 ∨ op = 0b1101111#7 := by simpa using hmem
  rcases h with rfl | rfl | rfl <;> simp [upperRows, inTables, HasFields, bits_opcode, hop]

def jalrRows (xl : Xlen) : Cover xl (opField 0b1100111#7) := ⟨[0].map (f3Fields 0b1100111#7), by cases xl <;> decide +kernel⟩

theorem missesAsListed_jalr (xl : Xlen) : MissesAsListed xl 0b1100111#7 := by
  refine missesAsListed_of_covers (jalrRows xl) rfl fun w hop => ?_
  rw [jalrRows, forall_f3Fields_iff hop]
  simp [inTables, hop]

def branchRows (xl : Xlen) : Cover xl (opField 0b1100011#7) :=
  ⟨[0, 1, 4, 5, 6, 7].map (f3Fields 0b1100011#7), by cases xl <;> decide +kernel⟩

theorem missesAsListed_branch (xl : Xlen) : MissesAsListed xl 0b1100011#7 := by
  refine missesAsListed_of_covers (branchRows xl) rfl fun w hop => ?_
  rw [branchRows, forall_f3Fields_iff hop]
  conv_rhs => simp [inTables, hop]
  generalize funct3Of w = f3
  revert f3
  decide

def loadRows (xl : Xlen) : Cover xl (opField 0b0000011#7) :=
  ⟨(if xl = .rv64 then [0, 1, 2, 3, 4, 5, 6] else [0, 1, 2, 4, 5]).map (f3Fields 0b0000011#7), by cases xl <;> decide +kernel⟩

theorem missesAsListed_load (xl : Xlen) : MissesAsListed xl 0b0000011#7 := by
  refine missesAsListed_of_covers (loadRows xl) rfl fun w hop => ?_
  rw [loadRows, forall_f3Fields_iff hop]
  conv_rhs => simp [inTables, hop]
  generalize funct3Of w = f3
  revert f3
  cases xl <;> decide

def storeRows (xl : Xlen) : Cover xl (opField 0b0100011#7) :=
  ⟨(if xl = .rv64 then [0, 1, 2, 3] else [0, 1, 2]).map (f3Fields 0b0100011#7), by cases xl <;> decide +kernel⟩

theorem missesAsListed_store (xl : Xlen) : MissesAsListed xl 0b0100011#7 := by
  refine missesAsListed_of_covers (storeRows xl) rfl fun w hop => ?_
  rw [storeRows, forall_f3Fields_iff hop]
  conv_rhs => simp [inTables, hop]
  generalize funct3Of w = f3
  revert f3
  cases xl <;> decide

/-- The rows of opcode OP-IMM by funct3, and of its shifts by funct7 on XLEN = 32. -/
def opImmRows32 : Cover .rv32 (opField 0b0010011#7) :=
  ⟨[0, 2, 3, 4, 6, 7].map (f3Fields 0b0010011#7) ++ [(1, 0), (5, 0), (5, 0b0100000)].map fun p => f7Fields 0b0010011#7 p.1 p.2,
    by decide +kernel⟩

/-- The rows of opcode OP-IMM by funct3, and of its shifts by funct6 on XLEN = 64. -/
def opImmRows64 : Cover .rv64 (opField 0b0010011#7) :=
  ⟨[0, 2, 3, 4, 6, 7].map (f3Fields 0b0010011#7) ++ [f3Fields 0b0010011#7 1 ++ [⟨26, 6, 0⟩], f3Fields 0b0010011#7 5 ++ [⟨26, 6, 0⟩],
    f3Fields 0b0010011#7 5 ++ [⟨26, 6, 0b010000⟩]], by decide +kernel⟩

theorem missesAsListed_opImm (xl : Xlen) : MissesAsListed xl 0b0010011#7 := by
  cases xl
  · refine missesAsListed_of_covers opImmRows32 rfl fun w hop => ?_
    rw [opImmRows32, List.forall_mem_append, forall_f3Fields_iff hop, forall_f7Fields_iff hop]
    conv_rhs => simp [inTables, hop]
    generalize funct3Of w = f3, funct7Of w = f7
    revert f3 f7
    decide +kernel
  · refine missesAsListed_of_covers opImmRows64 rfl fun w hop => ?_
    rw [opImmRows64, List.forall_mem_append, forall_f3Fields_iff hop]
    simp [inTables, HasFields, bits_opcode, bits_funct3, bits_funct6, hop]
    generalize funct3Of w = f3, funct7Of w = f7
    revert f3 f7
    decide +kernel

/-- The rows of groups I and M of opcode OP, by funct3 and funct7. -/
def opRows (xl : Xlen) : Cover xl (opField 0b0110011#7) :=
  ⟨[(0, 0), (1, 0), (2, 0), (3, 0), (4, 0), (5, 0), (6, 0), (7, 0), (0, 1), (1, 1), (2, 1), (3, 1), (4, 1), (5, 1), (6, 1), (7, 1),
    (0, 0b0100000), (5, 0b0100000)].map fun p => f7Fields 0b0110011#7 p.1 p.2, by cases xl <;> decide +kernel⟩

theorem missesAsListed_op (xl : Xlen) : MissesAsListed xl 0b0110011#7 := by
  refine missesAsListed_of_covers (opRows xl) rfl fun w hop => ?_
  rw [opRows, forall_f7Fields_iff hop]
  conv_rhs => simp [inTables, hop]
  generalize funct3Of w = f3, funct7Of w = f7
  revert f3 f7
  decide +kernel

def miscMemRows (xl : Xlen) : Cover xl (opField 0b0001111#7) :=
  ⟨[0, 1].map (f3Fields 0b0001111#7), by cases xl <;> decide +kernel⟩

theorem missesAsListed_miscMem (xl : Xlen) : MissesAsListed xl 0b0001111#7 := by
  refine missesAsListed_of_covers (miscMemRows xl) rfl fun w hop => ?_
  rw [miscMemRows, forall_f3Fields_iff hop]
  simp [inTables, hop]

/-- ECALL and EBREAK, which are whole words, and the CSR instructions. -/
def systemRows (xl : Xlen) : Cover xl (opField 0b1110011#7) :=
  ⟨[[⟨0, 32, 0x00000073⟩], [⟨0, 32, 0x00100073⟩]] ++ [1, 2, 3, 5, 6, 7].map (f3Fields 0b1110011#7), by cases xl <;> decide +kernel⟩

theorem missesAsListed_system (xl : Xlen) : MissesAsListed xl 0b1110011#7 := by
  refine missesAsListed_of_covers (systemRows xl) rfl fun w hop => ?_
  rw [systemRows, List.forall_mem_append, forall_f3Fields_iff hop]
  by_cases h0 : funct3Of w = 0#3
  · simp [inTables, HasFields, bits_whole, hop, h0]
  · have hecall : w ≠ 115#32 := fun h => h0 (by rw [h]; rfl)
    have hebreak : w ≠ 1048691#32 := fun h => h0 (by rw [h]; rfl)
    simp [inTables, HasFields, bits_whole, hop, h0, hecall, hebreak]
    generalize funct3Of w = f3 at *
    revert f3
    decide

/-- Load-reserved, with `rs2` 0, and store-conditional, of each length that the XLEN has. -/
def amoRows (xl : Xlen) : Cover xl (opField 0b0101111#7) :=
  ⟨(if xl = .rv64 then [2, 3] else [2]).map (fun f3 => f3Fields 0b0101111#7 f3 ++ [⟨27, 5, 0b00010⟩, ⟨20, 5, 0⟩]) ++
    (if xl = .rv64 then [2, 3] else [2]).map fun f3 => f3Fields 0b0101111#7 f3 ++ [⟨27, 5, 0b00011⟩], by cases xl <;> decide +kernel⟩

theorem missesAsListed_amo (xl : Xlen) : MissesAsListed xl 0b0101111#7 := by
  refine missesAsListed_of_covers (amoRows xl) rfl fun w hop => ?_
  cases xl <;> simp [amoRows, inTables, HasFields, bits_opcode, bits_funct3, hop] <;> simp only [bits] <;> tauto

/-- The rows of opcode OP-IMM-32, which XLEN = 64 alone has. -/
def opImm32Rows (xl : Xlen) : Cover xl (opField 0b0011011#7) :=
  ⟨if xl = .rv64 then [0].map (f3Fields 0b0011011#7) ++ [(1, 0), (5, 0), (5, 0b0100000)].map fun p => f7Fields 0b0011011#7 p.1 p.2 else [],
    by cases xl <;> decide +kernel⟩

theorem missesAsListed_opImm32 (xl : Xlen) : MissesAsListed xl 0b0011011#7 := by
  refine missesAsListed_of_covers (opImm32Rows xl) rfl fun w hop => ?_
  cases xl
  · simp [opImm32Rows, inTables, hop]
  · simp only [opImm32Rows, reduceIte, List.forall_mem_append, forall_f3Fields_iff hop, forall_f7Fields_iff hop]
    conv_rhs => simp [inTables, hop]
    generalize funct3Of w = f3, funct7Of w = f7
    revert f3 f7
    decide +kernel

/-- The rows of opcode OP-32, which XLEN = 64 alone has. -/
def op32Rows (xl : Xlen) : Cover xl (opField 0b0111011#7) :=
  ⟨if xl = .rv64 then [(0, 0), (1, 0), (5, 0), (0, 0b0100000), (5, 0b0100000), (0, 1), (4, 1), (5, 1), (6, 1), (7, 1)].map
    fun p => f7Fields 0b0111011#7 p.1 p.2 else [], by cases xl <;> decide +kernel⟩

theorem missesAsListed_op32 (xl : Xlen) : MissesAsListed xl 0b0111011#7 := by
  refine missesAsListed_of_covers (op32Rows xl) rfl fun w hop => ?_
  cases xl
  · simp [op32Rows, inTables, hop]
  · simp only [op32Rows, reduceIte, forall_f7Fields_iff hop]
    conv_rhs => simp [inTables, hop]
    generalize funct3Of w = f3, funct7Of w = f7
    revert f3 f7
    decide +kernel

/-- The opcodes of R104 and R105. -/
def opcodes : List (BitVec 7) := [0b0110111#7, 0b0010111#7, 0b1101111#7, 0b1100111#7, 0b1100011#7, 0b0000011#7, 0b0100011#7,
  0b0010011#7, 0b0110011#7, 0b0001111#7, 0b1110011#7, 0b0101111#7, 0b0011011#7, 0b0111011#7]

theorem rows_opcodes : ∀ r ∈ rows, bits r.want 0 2 = 3 → bits r.mask 0 7 = BitVec.allOnes 7 ∧ bits r.want 0 7 ∈ opcodes := by
  decide +kernel

/-- A word of an opcode that no row has. -/
theorem decodeWord_eq_none_of_not_mem_opcodes {xl : Xlen} {w : BitVec 32} (hlow : bits w 0 2 = 3) (h : opcodeOf w ∉ opcodes) :
    decodeWord xl w = none := by
  rw [decodeWord_eq_none_iff, instrWord_of_wide hlow]
  intro r hr
  rw [← Bool.not_eq_true]
  intro ha
  have hrow := mem_rows_of_mem_registry hr
  have hwide : bits r.want 0 2 = 3 := (bits_eq_of_accepts (rows_low r hrow).1 ha).symm.trans hlow
  obtain ⟨hmask, hop⟩ := rows_opcodes r hrow hwide
  rw [← bits_eq_of_accepts hmask ha] at hop
  exact h hop

theorem decodeWord_eq_none_iff_inTables {xl : Xlen} {w : BitVec 32} (hlow : bits w 0 2 = 3) :
    decodeWord xl w = none ↔ inTables xl w = false := by
  by_cases hmem : opcodeOf w ∈ opcodes
  · simp only [opcodes, List.mem_cons, List.not_mem_nil, or_false] at hmem
    rcases hmem with h | h | h | h | h | h | h | h | h | h | h | h | h | h
    · exact missesAsListed_upper xl ⟨_, by decide⟩ w h
    · exact missesAsListed_upper xl ⟨_, by decide⟩ w h
    · exact missesAsListed_upper xl ⟨_, by decide⟩ w h
    · exact missesAsListed_jalr xl w h
    · exact missesAsListed_branch xl w h
    · exact missesAsListed_load xl w h
    · exact missesAsListed_store xl w h
    · exact missesAsListed_opImm xl w h
    · exact missesAsListed_op xl w h
    · exact missesAsListed_miscMem xl w h
    · exact missesAsListed_system xl w h
    · exact missesAsListed_amo xl w h
    · exact missesAsListed_opImm32 xl w h
    · exact missesAsListed_op32 xl w h
  · refine iff_of_true (decodeWord_eq_none_of_not_mem_opcodes hlow hmem) ?_
    simp only [opcodes, List.mem_cons, List.not_mem_nil, or_false, not_or] at hmem
    simp [inTables, hmem]

/-! ### The half-words that miss (R362) -/

theorem extractLsb'_eq_bits (w : BitVec 32) (lo len : Nat) : w.extractLsb' lo len = bits w lo len := rfl

theorem extractLsb'_half (w : BitVec 32) {lo len : Nat} (h : lo + len ≤ 16) : (bits w 0 16).extractLsb' lo len = bits w lo len := by
  rw [extractLsb'_bits w h, Nat.zero_add]

/-- A field of the low half-word is that of the word presented to the registry. -/
theorem bits_instrWord_of_half {w : BitVec 32} {lo len : Nat} (h : lo + len ≤ 16) : bits (instrWord w) lo len = bits w lo len := by
  cases hw : isWide w
  · rw [instrWord_of_not_wide hw, bits, BitVec.extractLsb'_setWidth_of_le (by omega)]
    exact extractLsb'_half w h
  · simp [instrWord, hw]

/-- Bit 6, of the field that tells the instructions of CA format apart. -/
theorem bits_six (w : BitVec 32) : bits w 6 1 = (bits w 5 2).extractLsb' 1 1 :=
  (extractLsb'_bits w (lo := 5) (len := 2) (start := 1) (n := 1) (by omega)).symm

/-- The fields of a row of a quadrant with the bits 15:13 above. -/
abbrev halfFields (q : BitVec 2) (f3 : BitVec 3) : List WordField := [⟨0, 2, q⟩, ⟨13, 3, f3⟩]

/-- Whether the half-words of a quadrant miss as R362 says. -/
abbrev HalvesMissAsListed (xl : Xlen) (q : BitVec 2) : Prop :=
  ∀ w : BitVec 32, bits w 0 2 = q → (decodeWord xl w = none ↔ missingHalf xl (halfOf w) = true)

theorem halvesMissAsListed_of_covers {xl : Xlen} {q : BitVec 2} (L : Cover xl ⟨0, 2, q⟩)
    (hL : ∀ w : BitVec 32, bits w 0 2 = q →
      ((∀ l ∈ L.lists, ¬ HasFields (instrWord w) l) ↔ missingHalf xl (halfOf w) = true)) : HalvesMissAsListed xl q := by
  intro w hq
  rw [decodeWord_eq_none_iff_of_covers L.covers ((bits_instrWord_of_half (show 0 + 2 ≤ 16 by omega)).trans hq), hL w hq]

def quadrantZeroRows (xl : Xlen) : Cover xl ⟨0, 2, 0#2⟩ := ⟨[0, 1, 2, 3, 5, 6, 7].map (halfFields 0), by cases xl <;> decide +kernel⟩

theorem halvesMissAsListed_zero (xl : Xlen) : HalvesMissAsListed xl 0#2 := by
  refine halvesMissAsListed_of_covers (quadrantZeroRows xl) fun w hq => ?_
  simp [quadrantZeroRows, HasFields, bits_instrWord_of_half, missingHalf, extractLsb'_eq_bits, extractLsb'_half, hq]
  generalize bits w 13 3 = f3
  revert f3
  decide

/-- The rows of quadrant 01 on XLEN = 32: those under funct3 100 by bits 11:10, bit 12 and bits 6:5. -/
def quadrantOneRows32 : Cover .rv32 ⟨0, 2, 1#2⟩ :=
  ⟨[0, 1, 2, 3, 5, 6, 7].map (halfFields 1) ++ [halfFields 1 4 ++ [⟨10, 2, 2⟩]] ++
    [0, 1].map (fun f2 => halfFields 1 4 ++ [⟨10, 2, f2⟩, ⟨12, 1, 0⟩]) ++
    [0, 1, 2, 3].map fun ca => halfFields 1 4 ++ [⟨10, 2, 3⟩, ⟨12, 1, 0⟩, ⟨5, 2, ca⟩], by decide +kernel⟩

/-- The rows of quadrant 01 on XLEN = 64, where the shifts do not care about bit 12. -/
def quadrantOneRows64 : Cover .rv64 ⟨0, 2, 1#2⟩ :=
  ⟨[0, 1, 2, 3, 5, 6, 7].map (halfFields 1) ++ [0, 1, 2].map (fun f2 => halfFields 1 4 ++ [⟨10, 2, f2⟩]) ++
    [0, 1, 2, 3].map (fun ca => halfFields 1 4 ++ [⟨10, 2, 3⟩, ⟨12, 1, 0⟩, ⟨5, 2, ca⟩]) ++
    [0, 1].map fun ca => halfFields 1 4 ++ [⟨10, 2, 3⟩, ⟨12, 1, 1⟩, ⟨5, 2, ca⟩], by decide +kernel⟩

theorem halvesMissAsListed_one (xl : Xlen) : HalvesMissAsListed xl 1#2 := by
  cases xl
  · refine halvesMissAsListed_of_covers quadrantOneRows32 fun w hq => ?_
    simp [quadrantOneRows32, HasFields, bits_instrWord_of_half, missingHalf, extractLsb'_eq_bits, extractLsb'_half, hq]
    generalize bits w 13 3 = f3, bits w 12 1 = b, bits w 10 2 = f2, bits w 5 2 = ca
    rcases eq_or_ne f3 4#3 with rfl | h4
    · revert b f2 ca
      simp
      decide
    · simp [h4]
      bv_omega
  · refine halvesMissAsListed_of_covers quadrantOneRows64 fun w hq => ?_
    simp [quadrantOneRows64, HasFields, bits_instrWord_of_half, missingHalf, extractLsb'_eq_bits, extractLsb'_half, bits_six, hq]
    generalize bits w 13 3 = f3, bits w 12 1 = b, bits w 10 2 = f2, bits w 5 2 = ca
    rcases eq_or_ne f3 4#3 with rfl | h4
    · revert b f2 ca
      simp
      decide
    · simp [h4]
      bv_omega

def quadrantTwoRows32 : Cover .rv32 ⟨0, 2, 2#2⟩ :=
  ⟨[1, 2, 3, 5, 6, 7].map (halfFields 2) ++ [(0, 0), (4, 0), (4, 1)].map fun p => halfFields 2 p.1 ++ [⟨12, 1, p.2⟩], by decide +kernel⟩

def quadrantTwoRows64 : Cover .rv64 ⟨0, 2, 2#2⟩ :=
  ⟨[0, 1, 2, 3, 5, 6, 7].map (halfFields 2) ++ [0, 1].map fun b => halfFields 2 4 ++ [⟨12, 1, b⟩], by decide +kernel⟩

theorem halvesMissAsListed_two (xl : Xlen) : HalvesMissAsListed xl 2#2 := by
  cases xl
  · refine halvesMissAsListed_of_covers quadrantTwoRows32 fun w hq => ?_
    simp [quadrantTwoRows32, HasFields, bits_instrWord_of_half, missingHalf, extractLsb'_eq_bits, extractLsb'_half, hq]
    generalize bits w 13 3 = f3, bits w 12 1 = b
    revert f3 b
    decide
  · refine halvesMissAsListed_of_covers quadrantTwoRows64 fun w hq => ?_
    simp [quadrantTwoRows64, HasFields, bits_instrWord_of_half, missingHalf, extractLsb'_eq_bits, extractLsb'_half, hq]
    generalize bits w 13 3 = f3, bits w 12 1 = b
    revert f3 b
    decide

/-- Settles O7: opcode by opcode and quadrant by quadrant, the fields the rows care about against those of R104, R105 and R362. -/
theorem wordsThatMiss : Obligations.WordsThatMiss := by
  unfold Obligations.WordsThatMiss
  intro xl w
  refine ⟨decodeWord_eq_none_iff_inTables, fun hnarrow => ?half⟩
  case half =>
    have hquadrants : ∀ q : BitVec 2, q = 0#2 ∨ q = 1#2 ∨ q = 2#2 ∨ q = 3#2 := by decide
    rcases hquadrants (w.extractLsb' 0 2) with h | h | h | h
    · exact halvesMissAsListed_zero xl w h
    · exact halvesMissAsListed_one xl w h
    · exact halvesMissAsListed_two xl w h
    · exact absurd h hnarrow

/-! ### Translation (R130, R134, R310) -/

/-- An expansion is a 32-bit instruction that is no placeholder but EBREAK. -/
def expansionOps : List Op := [.addi, .lw, .ld, .sw, .sd, .jal, .addiw, .lui, .srli, .srai, .andi, .sub, .xor, .or, .and, .subw, .addw,
  .beq, .bne, .slli, .jalr, .add, .ebreak]

theorem op_mem_of_expansion {i e : Instr} (h : i.expansion = some e) : e.op ∈ expansionOps := by
  cases i <;> simp only [Instr.expansion, reduceCtorEq, Option.some.injEq] at h <;> subst h <;> simp only [Instr.op] <;> decide

theorem expansionOps_kind : ∀ o ∈ expansionOps, o.width = 4 ∧ (o.kind = .executor ∨ o.kind = .noop) := by decide +kernel

/-- Only a 16-bit instruction has an expansion. -/
theorem expansion_eq_none_of_width {i : Instr} (h : i.width = 4) : i.expansion = none := by
  cases i <;> simp_all [Instr.width, Instr.op, Op.width, Instr.expansion]

/-- The expansion of a well-formed instruction is well formed on the same XLEN. -/
theorem expansion_wf {xl : Xlen} {i e : Instr} (h : i.expansion = some e) (hi : i.wf xl = true) : e.wf xl = true := by
  cases i <;> simp only [Instr.expansion, reduceCtorEq, Option.some.injEq] at h <;> subst h <;> simp_all [Instr.wf]

theorem resolve_of_expansion_none {xl : Xlen} {raw : BitVec 32} {i : Instr} (hops : Nat) (hd : decodeWord xl raw = some i)
    (h : i.expansion = none) : resolve xl hops raw = some i := by
  rw [resolve, hd]
  simp [Instr.translate, h]

theorem resolve_of_expansion {xl : Xlen} {raw : BitVec 32} {i e : Instr} (hops : Nat) (hd : decodeWord xl raw = some i)
    (h : i.expansion = some e) : resolve xl (hops + 1) raw = resolve xl hops (encode e) := by
  rw [resolve, hd]
  simp [Instr.translate, h]

/-- Settles O45: the expansion is well formed, so its word decodes to it, and it has no expansion itself. -/
theorem atMostOneHop : Obligations.AtMostOneHop := by
  unfold Obligations.AtMostOneHop
  intro xl raw i hd
  refine ⟨resolve_of_expansion_none _ hd, fun e he => ?_⟩
  have hdecode : decodeWord xl (encode e) = some e := decodeWord_encode (expansion_wf he (wf_of_decodeWord hd))
  obtain ⟨hwidth, hkind⟩ := expansionOps_kind _ (op_mem_of_expansion he)
  have hnone : e.expansion = none := expansion_eq_none_of_width hwidth
  exact ⟨hdecode, hwidth, hnone, hkind, (resolve_of_expansion 0 hd he).trans (resolve_of_expansion_none 0 hdecode hnone)⟩

/-! ### Words of the spec's vectors -/

/-- Settles O3: the decoder runs on the bytes. -/
theorem writtenOutWords : Obligations.WrittenOutWords := by
  unfold Obligations.WrittenOutWords
  and_intros <;> decide +kernel

end Sys2Proof

namespace Sys2Proof.Machine

/-- Settles O8: the formatter runs on the words. -/
theorem formatVectors : Obligations.FormatVectors := by
  unfold Obligations.FormatVectors
  and_intros <;> decide +kernel

/-- Settles O44: the meaning of a compressed instruction is the execution of its expansion. -/
theorem actsAsExpansion : Obligations.ActsAsExpansion := by
  unfold Obligations.ActsAsExpansion
  intro i e s h
  cases i <;> simp only [Instr.expansion, reduceCtorEq, Option.some.injEq] at h <;> subst h <;> rfl

/-- Settles O35: no executor looks at the ordering bits. -/
theorem orderingBitsIgnored : Obligations.OrderingBitsIgnored := by
  unfold Obligations.OrderingBitsIgnored
  intros
  and_intros <;> rfl

end Sys2Proof.Machine

/-! The 16-bit encodings, and the placeholders and reserved entries. -/

namespace Sys2Proof

/-! ### Half-words by their rows (R84, R85, R93 to R96, R363) -/

/-- The registry holds a row of entry `o` for 16-bit words with this care mask and this want. -/
abbrev RowOfHalf (xl : Xlen) (o : Op) (mask want : BitVec 16) : Prop :=
  ∃ r ∈ registry xl, r.op = o ∧ r.mask = mask.setWidth 32 ∧ r.want = want.setWidth 32 ∧ bits r.want 0 2 ≠ 3

/-- A half-word of a row is presented to the registry zero-extended, and the row accepts it. -/
theorem accepts_half {r : Row} (hr : r ∈ rows) {mask want : BitVec 16} (hmask : r.mask = mask.setWidth 32)
    (hwant : r.want = want.setWidth 32) (hnarrow : bits r.want 0 2 ≠ 3) {w : BitVec 32} (hw : halfOf w &&& mask = want) :
    instrWord w = (halfOf w).setWidth 32 ∧ r.accepts ((halfOf w).setWidth 32) = true := by
  have ha : r.accepts ((halfOf w).setWidth 32) = true :=
    accepts_of_and_eq (by rw [hmask, hwant, ← hw, ← BitVec.setWidth_and])
  refine ⟨instrWord_of_not_wide ?_, ha⟩
  have hlow : bits ((halfOf w).setWidth 32) 0 2 = bits w 0 2 := by
    rw [bits, BitVec.extractLsb'_setWidth_of_le (by omega)]
    exact extractLsb'_half w (lo := 0) (len := 2) (by omega)
  rw [isWide, beq_eq_false_iff_ne, ← hlow, bits_eq_of_accepts (rows_low r hr).1 ha]
  exact hnarrow

/-- A row's half-words decode to its entry, with the half-word's fields, where these are well formed: no row that refines it takes such
a half-word. -/
theorem encodedHalf_of_wf {xl : Xlen} {mask want : BitVec 16} {mk : BitVec 16 → Instr} {taken : BitVec 16 → Bool} (o : Op)
    (h : RowOfHalf xl o mask want) (hf : ∀ h, fieldsOf o (h.setWidth 32) = mk h)
    (hwf : ∀ h, h &&& mask = want → taken h = false → (mk h).wf xl = true) : EncodedHalf xl mask want mk taken := by
  obtain ⟨r, hr, rfl, hmask, hwant, hnarrow⟩ := h
  intro w hw htaken
  obtain ⟨hself, ha⟩ := accepts_half (mem_rows_of_mem_registry hr) hmask hwant hnarrow hw
  have hnone : Unrefined xl r ((halfOf w).setWidth 32) := (wf_iff_unrefined hr ha).mp (by rw [hf]; exact hwf _ hw htaken)
  rw [decodeWord, describe, hself, findRow_of_accepts hr ha hnone, Option.map_some, Option.map_some, Descriptor.instr, hf]

/-- The half-words of a row that no row refines. -/
theorem encodedHalf_of_row {xl : Xlen} {mask want : BitVec 16} {mk : BitVec 16 → Instr} (o : Op)
    (h : RowOfHalf xl o mask want) (hrefine : refinements o = []) (hf : ∀ h, fieldsOf o (h.setWidth 32) = mk h) :
    EncodedHalf xl mask want mk := by
  obtain ⟨r, hr, rfl, hmask, hwant, hnarrow⟩ := h
  intro w hw _
  obtain ⟨hself, ha⟩ := accepts_half (mem_rows_of_mem_registry hr) hmask hwant hnarrow hw
  rw [decodeWord, describe, hself, findRow_of_accepts hr ha (by simp [hrefine]), Option.map_some, Option.map_some,
    Descriptor.instr, hf]

/-! The fields of a half-word are those of its zero extension. -/

theorem bits_setWidth_half (h : BitVec 16) (lo len : Nat) : bits (h.setWidth 32) lo len = h.extractLsb' lo len := by
  apply BitVec.eq_of_getLsbD_eq
  intro i hi
  by_cases hlt : lo + i < 32
  · simp [bits, hi, hlt]
  · simp [bits, hi, hlt, BitVec.getLsbD_of_ge h (lo + i) (by omega)]

theorem fRd_half (h : BitVec 16) : fRd (h.setWidth 32) = halfRd h := bits_setWidth_half ..

theorem fCRs2_half (h : BitVec 16) : fCRs2 (h.setWidth 32) = halfRs2 h := bits_setWidth_half ..

theorem fCRdLo_half (h : BitVec 16) : fCRdLo (h.setWidth 32) = halfLow h := bits_setWidth_half ..

theorem fCRs1_half (h : BitVec 16) : fCRs1 (h.setWidth 32) = halfHigh h := bits_setWidth_half ..

theorem fImmCI_half (h : BitVec 16) : fImmCI (h.setWidth 32) = halfCI h := by simp only [fImmCI, bits_setWidth_half]

theorem fImmCIW_half (h : BitVec 16) : fImmCIW (h.setWidth 32) = halfCIW h := by simp only [fImmCIW, bits_setWidth_half]

theorem fImmCI16_half (h : BitVec 16) : fImmCI16 (h.setWidth 32) = halfCI16 h := by simp only [fImmCI16, bits_setWidth_half]

theorem fImmCLw_half (h : BitVec 16) : fImmCLw (h.setWidth 32) = halfCLw h := by simp only [fImmCLw, bits_setWidth_half]

theorem fImmCLd_half (h : BitVec 16) : fImmCLd (h.setWidth 32) = halfCLd h := by simp only [fImmCLd, bits_setWidth_half]

theorem fImmCSSw_half (h : BitVec 16) : fImmCSSw (h.setWidth 32) = halfCSSw h := by simp only [fImmCSSw, bits_setWidth_half]

theorem fImmCSSd_half (h : BitVec 16) : fImmCSSd (h.setWidth 32) = halfCSSd h := by simp only [fImmCSSd, bits_setWidth_half]

theorem fImmCILw_half (h : BitVec 16) : fImmCILw (h.setWidth 32) = halfLwsp h := by simp only [fImmCILw, bits_setWidth_half]

theorem fImmCILd_half (h : BitVec 16) : fImmCILd (h.setWidth 32) = halfLdsp h := by simp only [fImmCILd, bits_setWidth_half]

theorem fImmCJ_half (h : BitVec 16) : fImmCJ (h.setWidth 32) = halfCJ h := by simp only [fImmCJ, bits_setWidth_half]

theorem fImmCB_half (h : BitVec 16) : fImmCB (h.setWidth 32) = halfCB h := by simp only [fImmCB, bits_setWidth_half]

/-! ### Words of the placeholders and the reserved entries (R280, R363) -/

theorem encodedCsr_of_row {xl : Xlen} {f3 : BitVec 3} {mk : RegIdx → BitVec 12 → BitVec 5 → Instr} (o : Op)
    (h : RowOfFields xl o [⟨0, 7, 0b1110011#7⟩, ⟨12, 3, f3⟩]) (hf : ∀ w, fieldsOf o w = mk (fRd w) (fCsr w) (fRs1 w)) :
    EncodedCsr xl f3 mk := by
  intro w hop hf3
  rw [decodeWord_of_rowOfFields h (by simp [HasFields, bits, hop, hf3]), hf]
  rfl

theorem csr_encoded (xl : Xlen) : EncodedCsr xl 0b001#3 .csrrw ∧ EncodedCsr xl 0b010#3 .csrrs ∧ EncodedCsr xl 0b011#3 .csrrc ∧
    EncodedCsr xl 0b101#3 .csrrwi ∧ EncodedCsr xl 0b110#3 .csrrsi ∧ EncodedCsr xl 0b111#3 .csrrci := by
  refine ⟨encodedCsr_of_row .csrrw ?_ fun _ => rfl, encodedCsr_of_row .csrrs ?_ fun _ => rfl, encodedCsr_of_row .csrrc ?_ fun _ => rfl,
    encodedCsr_of_row .csrrwi ?_ fun _ => rfl, encodedCsr_of_row .csrrsi ?_ fun _ => rfl, encodedCsr_of_row .csrrci ?_ fun _ => rfl⟩ <;>
    cases xl <;> decide +kernel

theorem fences_encoded (xl : Xlen) :
    (EncodedMask xl 0x0000707f#32 0x0000000f#32 fun w =>
      .fence (w.extractLsb' 28 4) (w.extractLsb' 24 4) (w.extractLsb' 20 4) (w.extractLsb' 15 5) (w.extractLsb' 7 5)) ∧
    EncodedMask xl 0x0000707f#32 0x0000100f#32 fun w =>
      .fenceI (w.extractLsb' 20 12) (w.extractLsb' 15 5) (w.extractLsb' 7 5) := by
  refine ⟨encodedMask_of_row .fence ?_ fun _ => rfl, encodedMask_of_row .fenceI ?_ fun _ => rfl⟩ <;> cases xl <;> decide +kernel

theorem floatDoubles_encoded (xl : Xlen) :
    (EncodedHalf xl 0xe003#16 0x2000#16 fun h => .cFld (halfLow h) (halfHigh h) (halfCLd h)) ∧
    (EncodedHalf xl 0xe003#16 0xa000#16 fun h => .cFsd (halfHigh h) (halfLow h) (halfCLd h)) ∧
    (EncodedHalf xl 0xe003#16 0x2002#16 fun h => .cFldsp (halfRd h) (halfLdsp h)) ∧
    EncodedHalf xl 0xe003#16 0xa002#16 fun h => .cFsdsp (halfRs2 h) (halfCSSd h) :=
  ⟨encodedHalf_of_row .cFld (by cases xl <;> decide +kernel) rfl fun h => by simp only [fieldsOf, fCRdLo_half, fCRs1_half, fImmCLd_half],
    encodedHalf_of_row .cFsd (by cases xl <;> decide +kernel) rfl fun h => by simp only [fieldsOf, fCRdLo_half, fCRs1_half, fImmCLd_half],
    encodedHalf_of_row .cFldsp (by cases xl <;> decide +kernel) rfl fun h => by simp only [fieldsOf, fRd_half, fImmCILd_half],
    encodedHalf_of_row .cFsdsp (by cases xl <;> decide +kernel) rfl fun h => by simp only [fieldsOf, fCRs2_half, fImmCSSd_half]⟩

theorem floatSingles_encoded_rv32 :
    (EncodedHalf .rv32 0xe003#16 0x6000#16 fun h => .cFlw (halfLow h) (halfHigh h) (halfCLw h)) ∧
    (EncodedHalf .rv32 0xe003#16 0xe000#16 fun h => .cFsw (halfHigh h) (halfLow h) (halfCLw h)) ∧
    (EncodedHalf .rv32 0xe003#16 0x6002#16 fun h => .cFlwsp (halfRd h) (halfLwsp h)) ∧
    EncodedHalf .rv32 0xe003#16 0xe002#16 fun h => .cFswsp (halfRs2 h) (halfCSSw h) :=
  ⟨encodedHalf_of_row .cFlw (by decide +kernel) rfl fun h => by simp only [fieldsOf, fCRdLo_half, fCRs1_half, fImmCLw_half],
    encodedHalf_of_row .cFsw (by decide +kernel) rfl fun h => by simp only [fieldsOf, fCRdLo_half, fCRs1_half, fImmCLw_half],
    encodedHalf_of_row .cFlwsp (by decide +kernel) rfl fun h => by simp only [fieldsOf, fRd_half, fImmCILw_half],
    encodedHalf_of_row .cFswsp (by decide +kernel) rfl fun h => by simp only [fieldsOf, fCRs2_half, fImmCSSw_half]⟩

theorem ecall_encoded (xl : Xlen) : decodeWord xl 0x00000073#32 = some .ecall := by cases xl <;> decide +kernel

theorem ebreak_encoded (xl : Xlen) : decodeWord xl 0x00100073#32 = some .ebreak := by cases xl <;> decide +kernel

theorem reserved_encoded (xl : Xlen) :
    (EncodedHalf xl 0xffff#16 0x0000#16 fun _ => .cInvalid) ∧
    EncodedHalf xl 0xffe3#16 0x0000#16 (fun h => .cAddi4spnRes (halfLow h)) (fun h => halfLow h == 0) ∧
    (EncodedHalf xl 0xffff#16 0x6101#16 fun _ => .cAddi16spRes) ∧
    EncodedHalf xl 0xf07f#16 0x6001#16 (fun h => .cLuiRes (halfRd h)) (fun h => halfRd h == 2) ∧
    (EncodedHalf xl 0xef83#16 0x4002#16 fun h => .cLwspRes (halfLwsp h)) ∧
    EncodedHalf xl 0xffff#16 0x8002#16 fun _ => .cJrRes :=
  ⟨encodedHalf_of_row .cInvalid (by cases xl <;> decide +kernel) rfl fun _ => rfl,
    encodedHalf_of_wf .cAddi4spnRes (by cases xl <;> decide +kernel) (fun h => by simp only [fieldsOf, fCRdLo_half])
      fun h _ htaken => by rw [Instr.wf, bne, htaken, Bool.not_false],
    encodedHalf_of_row .cAddi16spRes (by cases xl <;> decide +kernel) rfl fun _ => rfl,
    encodedHalf_of_wf .cLuiRes (by cases xl <;> decide +kernel) (fun h => by simp only [fieldsOf, fRd_half])
      fun h _ htaken => by rw [Instr.wf, bne, htaken, Bool.not_false],
    encodedHalf_of_row .cLwspRes (by cases xl <;> decide +kernel) rfl fun h => by simp only [fieldsOf, fImmCILw_half],
    encodedHalf_of_row .cJrRes (by cases xl <;> decide +kernel) rfl fun _ => rfl⟩

theorem reserved_encoded_rv64 :
    (EncodedHalf .rv64 0xef83#16 0x2001#16 fun h => .cAddiwRes (halfCI h)) ∧
    EncodedHalf .rv64 0xef83#16 0x6002#16 fun h => .cLdspRes (halfLdsp h) :=
  ⟨encodedHalf_of_row .cAddiwRes (by decide +kernel) rfl fun h => by simp only [fieldsOf, fImmCI_half],
    encodedHalf_of_row .cLdspRes (by decide +kernel) rfl fun h => by simp only [fieldsOf, fImmCILd_half]⟩

end Sys2Proof

namespace Sys2Proof.Machine

/-- Settles O36: each word has the fields of its row, and each executor is the no-op functor. -/
theorem placeholders : Obligations.Placeholders := by
  unfold Obligations.Placeholders
  refine ⟨fun xl => ?encodings, floatSingles_encoded_rv32, fun s fm pred succ rs1 rd csr uimm r r' u => ?effects⟩
  case encodings =>
    obtain ⟨hfence, hfenceI⟩ := fences_encoded xl
    obtain ⟨hrw, hrs, hrc, hrwi, hrsi, hrci⟩ := csr_encoded xl
    exact ⟨hfence, hfenceI, ecall_encoded xl, ebreak_encoded xl, hrw, hrs, hrc, hrwi, hrsi, hrci, floatDoubles_encoded xl⟩
  case effects => and_intros <;> rfl

theorem advances_stall {s : State} {i : Instr} (he : exec i s = stall s) : Advances s i 0 :=
  ⟨_, he, congrArg BitVec.toNat (narrow_zero s.bits_le), rfl⟩

/-- Settles O38: each half-word has the fields of its row, and each executor is the stall. -/
theorem reservedEntries : Obligations.ReservedEntries := by
  unfold Obligations.ReservedEntries
  refine ⟨reserved_encoded, reserved_encoded_rv64, fun s r rd u => ?_⟩
  and_intros <;> exact advances_stall rfl

end Sys2Proof.Machine

/-! Upper immediates, multiply and divide, and the other reading of the word variants: encodings, results, frames and completion. -/

namespace Sys2Proof

/-! ### Encodings (R81) -/

theorem encodedU_of_row {xl : Xlen} {op : BitVec 7} {mk : RegIdx → BitVec 20 → Instr} (o : Op) (h : RowOfFields xl o [⟨0, 7, op⟩])
    (hf : ∀ w, fieldsOf o w = mk (fRd w) (fImmU w)) : EncodedU xl op mk := by
  intro w hop
  rw [decodeWord_of_rowOfFields h (by simp [HasFields, bits, hop]), hf]
  rfl

theorem upperImmediates_encoded (xl : Xlen) : EncodedU xl 0b0110111#7 .lui ∧ EncodedU xl 0b0010111#7 .auipc := by
  refine ⟨encodedU_of_row .lui ?_ fun _ => rfl, encodedU_of_row .auipc ?_ fun _ => rfl⟩ <;> cases xl <;> decide +kernel

theorem multiplyDivide_encoded (xl : Xlen) :
    (EncodedR xl 0b0110011#7 0b000#3 0b0000001#7 .mul ∧ EncodedR xl 0b0110011#7 0b001#3 0b0000001#7 .mulh ∧
      EncodedR xl 0b0110011#7 0b010#3 0b0000001#7 .mulhsu ∧ EncodedR xl 0b0110011#7 0b011#3 0b0000001#7 .mulhu) ∧
    EncodedR xl 0b0110011#7 0b100#3 0b0000001#7 .div ∧ EncodedR xl 0b0110011#7 0b101#3 0b0000001#7 .divu ∧
    EncodedR xl 0b0110011#7 0b110#3 0b0000001#7 .rem ∧ EncodedR xl 0b0110011#7 0b111#3 0b0000001#7 .remu := by
  refine ⟨⟨encodedR_of_row .mul ?_ fun _ => rfl, encodedR_of_row .mulh ?_ fun _ => rfl, encodedR_of_row .mulhsu ?_ fun _ => rfl,
    encodedR_of_row .mulhu ?_ fun _ => rfl⟩, encodedR_of_row .div ?_ fun _ => rfl, encodedR_of_row .divu ?_ fun _ => rfl,
    encodedR_of_row .rem ?_ fun _ => rfl, encodedR_of_row .remu ?_ fun _ => rfl⟩ <;>
    cases xl <;> decide +kernel

theorem multiplyDivide_encoded_rv64 :
    EncodedR .rv64 0b0111011#7 0b000#3 0b0000001#7 .mulw ∧
    EncodedR .rv64 0b0111011#7 0b100#3 0b0000001#7 .divw ∧ EncodedR .rv64 0b0111011#7 0b101#3 0b0000001#7 .divuw ∧
    EncodedR .rv64 0b0111011#7 0b110#3 0b0000001#7 .remw ∧ EncodedR .rv64 0b0111011#7 0b111#3 0b0000001#7 .remuw := by
  refine ⟨encodedR_of_row .mulw ?_ fun _ => rfl, encodedR_of_row .divw ?_ fun _ => rfl, encodedR_of_row .divuw ?_ fun _ => rfl,
    encodedR_of_row .remw ?_ fun _ => rfl, encodedR_of_row .remuw ?_ fun _ => rfl⟩ <;>
    decide +kernel

end Sys2Proof

namespace Sys2Proof.Machine

/-! ### Addresses and upper immediates (R51, R157, R158) -/

/-- Settles O10: the sum narrowed to the register width. -/
theorem effectiveAddress : Obligations.EffectiveAddress := by
  unfold Obligations.EffectiveAddress
  intro s rs1 imm
  rw [State.ea, narrow_toNat s.bits_le, add_imm12_toNat_mod s le_rfl]

/-- An executor that reads no register is never in hazard. -/
theorem yields_unchecked {s : State} {i : Instr} {d : Op} {rd : RegIdx} {v : Word} {k : Nat}
    (he : exec i s = checked d rd [] s (.next (s.setX rd v))) (hk : v.toNat % 2 ^ s.bits = k) : Yields s i rd k :=
  ⟨_, he.trans (checked_of_free (by simp [State.HazardFree]) _), writesX_of_eq rfl hk⟩

/-- Settles O11: the immediate is a sign-extended multiple of 4096, alone or added to `pc`. -/
theorem upperImmediates : Obligations.UpperImmediates := by
  unfold Obligations.UpperImmediates
  refine ⟨upperImmediates_encoded, fun s rd imm => ⟨yields_unchecked (exec_lui ..) ?lui, yields_unchecked (exec_auipc ..) ?auipc⟩⟩
  case lui => rw [s.immU_toNat, modNat_mod_self]
  case auipc => rw [add_toNat_mod s.bits_le, s.immU_toNat, add_modNat]

/-! ### Multiplication (R210, R212 to R215, R220) -/

theorem modNat_mul (n : Nat) (x y : Int) : modNat n (x * y) = modNat n x * modNat n y % 2 ^ n := by
  apply Int.ofNat_inj.mp
  push_cast
  rw [modNat_cast, modNat_cast, modNat_cast, ← Int.mul_emod]

/-- The low half of a product does not depend on the signs. -/
theorem multiply_low_toNat_mod (s : State) (a b : RegIdx) :
    ((multiply s.bits (s.getX a) (s.getX b) true true).2).toNat % 2 ^ s.bits = s.natX a * s.natX b % 2 ^ s.bits := by
  rw [multiply_snd s.bits_le, modNat_mod_self, if_pos rfl, if_pos rfl, modNat_mul, modNat_signedAt, modNat_signedAt, ← Nat.mul_mod,
    s.getX_toNat, s.getX_toNat]

/-- The high half of an unsigned product fits. -/
theorem modNat_high_unsigned (s : State) (a b : RegIdx) :
    modNat s.bits ((s.natX a : Int) * s.natX b / 2 ^ s.bits) = s.natX a * s.natX b / 2 ^ s.bits := by
  have hlt : s.natX a * s.natX b / 2 ^ s.bits < 2 ^ s.bits :=
    Nat.div_lt_of_lt_mul (Nat.mul_lt_mul'' (s.natX_lt a) (s.natX_lt b))
  have hcast : (s.natX a : Int) * s.natX b / 2 ^ s.bits = ((s.natX a * s.natX b / 2 ^ s.bits : Nat) : Int) := by push_cast; rfl
  rw [hcast, modNat_ofNat, Nat.mod_eq_of_lt hlt]

/-- Settles O17: the halves of the product, with the operands read as the instruction reads them. -/
theorem multiplication : Obligations.Multiplication := by
  unfold Obligations.Multiplication
  refine ⟨fun xl => (multiplyDivide_encoded xl).1, multiplyDivide_encoded_rv64.1, fun s rd rs1 rs2 => ⟨fun h => ?mul, fun h => ?mulh,
    fun h => ?mulhsu, fun h => ?mulhu, fun h hx _ => ?mulw⟩⟩
  case mul => exact yields_aluReg (exec_mul ..) h (multiply_low_toNat_mod s rs1 rs2)
  case mulh =>
    refine yields_aluReg (exec_mulh ..) h ?_
    rw [multiply_fst s.bits_le, modNat_mod_self, if_pos rfl, if_pos rfl, s.signedAt_getX, s.signedAt_getX]
  case mulhsu =>
    refine yields_aluReg (exec_mulhsu ..) h ?_
    rw [multiply_fst s.bits_le, modNat_mod_self, if_pos rfl, if_neg (by decide), s.signedAt_getX, s.unsignedAt_getX]
  case mulhu =>
    refine yields_aluReg (exec_mulhu ..) h ?_
    rw [multiply_fst s.bits_le, modNat_mod_self, if_neg (by decide), if_neg (by decide), s.unsignedAt_getX, s.unsignedAt_getX,
      modNat_high_unsigned]
  case mulw => exact yields_aluReg (exec_mulw ..) h (sext_word_toNat_mod hx (mul_toNat_mod (by omega) ..))

/-! ### Division (R211, R216 to R219, R221 to R224) -/

/-- Settles O18: the corner tests are those of the quotient and the remainder, and every result fits. -/
theorem division : Obligations.Division := by
  unfold Obligations.Division
  refine ⟨fun xl => (multiplyDivide_encoded xl).2, fun s rd rs1 rs2 => ?_⟩
  have hsigned := cornerS_iff s.bits (s.getX rs1) (s.getX rs2)
  rw [s.signedAt_getX, s.signedAt_getX] at hsigned
  have hunsigned := cornerU_iff s.bits (s.getX rs1) (s.getX rs2)
  rw [s.getX_toNat, Nat.mod_eq_of_lt (s.natX_lt rs2)] at hunsigned
  rw [← hsigned, ← hunsigned]
  refine ⟨fun h hc => yields_aluDiv (exec_div ..) h hc ?div, fun h hc => yields_aluDiv (exec_divu ..) h hc ?divu,
    fun h hc => yields_aluDiv (exec_rem ..) h hc ?rem, fun h hc => yields_aluDiv (exec_remu ..) h hc ?remu⟩
  case div => rw [divS_toNat s.bits_pos s.bits_le, Nat.mod_eq_of_lt (quotS_lt s.bits_pos ..), s.signedAt_getX, s.signedAt_getX]
  case divu =>
    rw [divU_toNat s.bits_le, s.getX_toNat, s.getX_toNat, Nat.mod_eq_of_lt (s.natX_lt rs1), Nat.mod_eq_of_lt (s.natX_lt rs2),
      Nat.mod_eq_of_lt (quotU_lt (s.natX_lt rs1))]
  case rem => rw [remS_toNat s.bits_le, Nat.mod_eq_of_lt (remainS_lt ..), s.signedAt_getX, s.signedAt_getX]
  case remu =>
    rw [remU_toNat s.bits_le, s.getX_toNat, s.getX_toNat, Nat.mod_eq_of_lt (s.natX_lt rs1), Nat.mod_eq_of_lt (s.natX_lt rs2),
      Nat.mod_eq_of_lt (remainU_lt (s.natX_lt rs1))]

section WordDivision

variable {s : State} {rd rs1 rs2 : RegIdx} {n : Nat} {a b : Int} {x y : Nat}

/-! The word divisions in the width that `WORD_MODE` gives them, their result restricted to 32 bits. -/

theorem yields_divw (hx : s.cfg.xlen = .rv64) (hpos : 0 < n) (hn : n ≤ 64) (hword : s.wordBits = n)
    (ha : signedAt n (s.getX rs1) = a) (hb : signedAt n (s.getX rs2) = b) (h : s.HazardFree .divw rd [rs1, rs2])
    (hc : s.Divides (CornerS n a b)) : Yields s (.divw rd rs1 rs2) rd (sextNat 64 32 (quotS n a b)) := by
  subst hword ha hb
  rw [← cornerS_iff] at hc
  exact yields_aluDiv (exec_divw ..) h hc (sext_word_toNat_mod hx (by rw [divS_toNat hpos hn]))

theorem yields_remw (hx : s.cfg.xlen = .rv64) (hn : n ≤ 64) (hword : s.wordBits = n)
    (ha : signedAt n (s.getX rs1) = a) (hb : signedAt n (s.getX rs2) = b) (h : s.HazardFree .remw rd [rs1, rs2])
    (hc : s.Divides (CornerS n a b)) : Yields s (.remw rd rs1 rs2) rd (sextNat 64 32 (remainS n a b)) := by
  subst hword ha hb
  rw [← cornerS_iff] at hc
  exact yields_aluDiv (exec_remw ..) h hc (sext_word_toNat_mod hx (by rw [remS_toNat hn]))

theorem yields_divuw (hx : s.cfg.xlen = .rv64) (hn : n ≤ 64) (hword : s.wordBits = n) (ha : s.natX rs1 % 2 ^ n = x)
    (hb : s.natX rs2 % 2 ^ n = y) (h : s.HazardFree .divuw rd [rs1, rs2]) (hc : s.Divides (y = 0)) :
    Yields s (.divuw rd rs1 rs2) rd (sextNat 64 32 (quotU n x y)) := by
  subst hword ha hb
  rw [← s.getX_toNat, ← cornerU_iff _ (s.getX rs1)] at hc
  exact yields_aluDiv (exec_divuw ..) h hc (sext_word_toNat_mod hx (by rw [divU_toNat hn, s.getX_toNat, s.getX_toNat]))

theorem yields_remuw (hx : s.cfg.xlen = .rv64) (hn : n ≤ 64) (hword : s.wordBits = n) (ha : s.natX rs1 % 2 ^ n = x)
    (hb : s.natX rs2 % 2 ^ n = y) (h : s.HazardFree .remuw rd [rs1, rs2]) (hc : s.Divides (y = 0)) :
    Yields s (.remuw rd rs1 rs2) rd (sextNat 64 32 (remainU x y)) := by
  subst hword ha hb
  rw [← s.getX_toNat, ← cornerU_iff _ (s.getX rs1)] at hc
  exact yields_aluDiv (exec_remuw ..) h hc (sext_word_toNat_mod hx (by rw [remU_toNat hn, s.getX_toNat, s.getX_toNat]))

end WordDivision

/-- Settles O19: the word divisions in 32 bits. -/
theorem wordDivision : Obligations.WordDivision := by
  unfold Obligations.WordDivision
  refine ⟨multiplyDivide_encoded_rv64.2, fun s rd rs1 rs2 hx hmode => ?_⟩
  have hword : s.wordBits = 32 := State.wordBits_of_operandsFirst hmode
  have hlow : ∀ r, signedAt 32 (s.getX r) = s.lowX 32 r := s.signedAt_getX_low (by omega)
  exact ⟨yields_divw hx (by omega) (by omega) hword (hlow _) (hlow _), yields_divuw hx (by omega) hword rfl rfl,
    yields_remw hx (by omega) hword (hlow _) (hlow _), yields_remuw hx (by omega) hword rfl rfl⟩

/-- Settles O20: each division is the ALU functor that refuses its corner. -/
theorem divisionCornersRefused : Obligations.DivisionCornersRefused := by
  unfold Obligations.DivisionCornersRefused
  intro s rd rs1 rs2 hr
  refine ⟨fun hc => ?signed, fun hc => ?unsigned, fun hmode hc => ?wordSigned, fun hmode hc => ?wordUnsigned⟩
  case signed =>
    rw [← s.signedAt_getX, ← s.signedAt_getX, ← cornerS_iff] at hc
    exact ⟨fun h => (exec_div ..).trans (aluDiv_refuses h hr hc _), fun h => (exec_rem ..).trans (aluDiv_refuses h hr hc _)⟩
  case unsigned =>
    rw [← Nat.mod_eq_of_lt (s.natX_lt rs2), ← s.getX_toNat, ← cornerU_iff _ (s.getX rs1)] at hc
    exact ⟨fun h => (exec_divu ..).trans (aluDiv_refuses h hr hc _), fun h => (exec_remu ..).trans (aluDiv_refuses h hr hc _)⟩
  case wordSigned =>
    rw [← s.signedAt_getX_low (by omega), ← s.signedAt_getX_low (by omega), ← cornerS_iff,
      ← State.wordBits_of_operandsFirst hmode] at hc
    exact ⟨fun h => (exec_divw ..).trans (aluDiv_refuses h hr hc _), fun h => (exec_remw ..).trans (aluDiv_refuses h hr hc _)⟩
  case wordUnsigned =>
    rw [← s.getX_toNat, ← cornerU_iff _ (s.getX rs1), ← State.wordBits_of_operandsFirst hmode] at hc
    exact ⟨fun h => (exec_divuw ..).trans (aluDiv_refuses h hr hc _), fun h => (exec_remuw ..).trans (aluDiv_refuses h hr hc _)⟩

/-! ### Word variants on 64-bit operands (R156, decision D11) -/

theorem State.wordBits_of_resultOnly {s : State} (hx : s.cfg.xlen = .rv64) (h : s.cfg.wordMode = .resultOnly) : s.wordBits = 64 := by
  rw [State.wordBits, h, ← State.bits_of_rv64 hx]

theorem sext_shlAt_toNat_mod {s : State} (hx : s.cfg.xlen = .rv64) (r : RegIdx) (k : Nat) :
    (sext 32 (shlAt 64 (s.getX r) k)).toNat % 2 ^ s.bits = sextNat 64 32 (s.natX r * 2 ^ k) :=
  sext_word_toNat_mod hx (by rw [shlAt_toNat (by omega), mod_64_mod (by omega), s.getX_toNat])

theorem sext_shrAt_toNat_mod {s : State} (hx : s.cfg.xlen = .rv64) (r : RegIdx) (k : Nat) :
    (sext 32 (shrAt 64 (s.getX r) k)).toNat % 2 ^ s.bits = sextNat 64 32 (s.natX r / 2 ^ k) :=
  sext_word_toNat_mod hx (by rw [shrAt_toNat (by omega), Nat.mod_eq_of_lt (s.getX r).isLt, s.getX_toNat])

theorem sext_sarAt_word_toNat_mod {s : State} (hx : s.cfg.xlen = .rv64) (r : RegIdx) (k : Nat) :
    (sext 32 (sarAt 64 (s.getX r) k)).toNat % 2 ^ s.bits = sextNat 64 32 (modNat 64 (s.intX r / 2 ^ k)) := by
  have hbits : s.bits = 64 := State.bits_of_rv64 hx
  have h := sarAt_getX s r k
  rw [hbits, Nat.mod_eq_of_lt (sarAt 64 (s.getX r) k).isLt] at h
  exact sext_word_toNat_mod hx (by rw [h])

/-- Settles O16: as the word variants, with the operation in 64 bits. -/
theorem wordVariantsResultOnly : Obligations.WordVariantsResultOnly := by
  unfold Obligations.WordVariantsResultOnly
  intro s rd rs1 rs2 imm shamt hx hmode
  have hbits : s.bits = 64 := State.bits_of_rv64 hx
  have hword : s.wordBits = 64 := State.wordBits_of_resultOnly hx hmode
  have hsigned : ∀ r, signedAt 64 (s.getX r) = s.intX r := fun r => hbits ▸ s.signedAt_getX r
  have hunsigned : ∀ r, s.natX r % 2 ^ 64 = s.natX r := fun r => Nat.mod_eq_of_lt (s.getX r).isLt
  rw [← shamtWord_eq]
  refine ⟨fun h => ?addiw, fun h => ?slliw, fun h => ?srliw, fun h => ?sraiw, fun h => ?addw, fun h => ?subw, fun h => ?sllw,
    fun h => ?srlw, fun h => ?sraw, fun h => ?mulw, ?divw, ?divuw, ?remw, ?remuw⟩
  case addiw =>
    refine yields_aluImm (exec_addiw ..) h (sext_word_toNat_mod hx ?_)
    rw [add_imm12_toNat_mod s (by omega), modNat_mod (by omega)]
  case slliw => exact yields_aluImm (exec_slliw ..) h (by rw [hword, sext_shlAt_toNat_mod hx])
  case srliw => exact yields_aluImm (exec_srliw ..) h (by rw [hword, sext_shrAt_toNat_mod hx])
  case sraiw => exact yields_aluImm (exec_sraiw ..) h (by rw [hword, sext_sarAt_word_toNat_mod hx])
  case addw => exact yields_aluReg (exec_addw ..) h (sext_word_toNat_mod hx (add_toNat_mod (by omega) ..))
  case subw =>
    refine yields_aluReg (exec_subw ..) h (sext_word_toNat_mod hx ?_)
    rw [sub_toNat_mod (by omega), modNat_mod (by omega), s.getX_toNat, s.getX_toNat]
  case sllw => exact yields_aluReg (exec_sllw ..) h (by rw [hword, sext_shlAt_toNat_mod hx])
  case srlw => exact yields_aluReg (exec_srlw ..) h (by rw [hword, sext_shrAt_toNat_mod hx])
  case sraw => exact yields_aluReg (exec_sraw ..) h (by rw [hword, sext_sarAt_word_toNat_mod hx])
  case mulw => exact yields_aluReg (exec_mulw ..) h (sext_word_toNat_mod hx (mul_toNat_mod (by omega) ..))
  case divw => exact yields_divw hx (by omega) le_rfl hword (hsigned _) (hsigned _)
  case divuw => exact yields_divuw hx le_rfl hword (hunsigned _) (hunsigned _)
  case remw => exact yields_remw hx le_rfl hword (hsigned _) (hsigned _)
  case remuw => exact yields_remuw hx le_rfl hword (hunsigned _) (hunsigned _)

end Sys2Proof.Machine

/-! Reads and disjoint writes of memory, what the parameters stop, and what the host's operations leave. -/

namespace Sys2Proof.Machine

/-! ### Memory (R34, R52, R53, R58) -/

/-- Past the end of the buffer a read is a byte of the fill (R58). -/
theorem State.readByte_of_outside (s : State) {a k : Nat} (h : s.cfg.memSize ≤ a + k) : s.readByte a k = s.oobByte k :=
  if_neg (by omega)

/-- A read that leaves the buffer uses up its draws (R58). -/
theorem State.noteDraws_draws_of_outside {s : State} {a n : Nat} (h : s.cfg.memSize < a + n) (hf : s.cfg.oobFill = .draw) :
    (s.noteDraws a n).draws = s.draws + n := by
  rw [State.noteDraws, hf]
  exact congrArg State.draws (if_neg (by omega))

/-- Settles O21: the number by `State.memRead_toNat`, each byte by its place, the draws by `State.noteDraws`. -/
theorem memoryRead : Obligations.MemoryRead := by
  unfold Obligations.MemoryRead
  intro s a n hn
  have hn8 : n ≤ 8 := by simp only [List.mem_cons, List.not_mem_nil, or_false] at hn; omega
  refine ⟨s.memRead_toNat a hn8, fun k _ hin => s.readByte_of_inside hin, fun k _ hout hf => ?drawn, fun k b _ hout hf => ?fixed,
    s.noteDraws_eq a n, s.noteDraws_of_inside, State.noteDraws_draws_of_outside⟩
  case drawn => rw [s.readByte_of_outside hout, State.oobByte, hf]
  case fixed => rw [s.readByte_of_outside hout, State.oobByte, hf]

/-- States with canonical memory that agree in everything else, and in what every byte reads as, are equal. -/
theorem State.ext_of_byteOf {s t : State} (hs : s.MemWf) (ht : t.MemWf) (hrest : t = { s with mem := t.mem })
    (hbytes : ∀ k, s.byteOf k = t.byteOf k) : s = t := by
  have hcfg : t.cfg = s.cfg := by rw [hrest]
  have hmem : s.mem = t.mem := by
    refine Memory.ext_of_read hs (by rw [← hcfg]; exact ht) fun k => ?_
    have hk := hbytes k
    rwa [State.byteOf, State.byteOf, hcfg] at hk
  rw [hrest, ← hmem]

/-- Settles O24: both orders give each byte the one write that covers it, and canonical memory is determined by its bytes. -/
theorem disjointWritesCommute : Obligations.DisjointWritesCommute := by
  unfold Obligations.DisjointWritesCommute
  intro s a b n m v w hwf hdisjoint
  refine State.ext_of_byteOf (State.memWrite_memWf (State.memWrite_memWf hwf ..) ..) (State.memWrite_memWf (State.memWrite_memWf hwf ..) ..)
    ?rest fun k => ?bytes
  case rest =>
    rw [State.memWrite_eq (s.memWrite b w m), State.memWrite_eq s b, State.memWrite_eq (s.memWrite a v n) b w m, State.memWrite_eq s a]
  case bytes =>
    simp only [State.byteOf_memWrite, State.memWrite_cfg]
    by_cases ha : a ≤ k ∧ k < a + n
    · have hb : ¬ (b ≤ k ∧ k < b + m ∧ k < s.cfg.memSize) := by omega
      rw [if_neg hb, if_neg hb]
    · have ha' : ¬ (a ≤ k ∧ k < a + n ∧ k < s.cfg.memSize) := by omega
      rw [if_neg ha', if_neg ha']

/-! ### What stops an instruction or a fetch (R56, R59, R67, R147, R421) -/

/-- No instruction both loads and stores. -/
theorem storeSpan_eq_none_of_loadSpan {i : Instr} {s : State} {p : Nat × Nat} (h : loadSpan i s = some p) : storeSpan i s = none := by
  unfold loadSpan at h
  unfold storeSpan
  generalize i.effective = e at *
  cases e
  case lb | lh | lw | lbu | lhu | lwu | ld | lrW | lrD => rfl
  all_goals cases h

/-- The span an instruction accesses is one. -/
theorem span_unique {i : Instr} {s : State} {p q : Nat × Nat} (hp : loadSpan i s = some p ∨ storeSpan i s = some p)
    (hq : loadSpan i s = some q ∨ storeSpan i s = some q) : p = q := by
  rcases hp with hp | hp <;> rcases hq with hq | hq
  · exact Option.some.inj (hp.symm.trans hq)
  · rw [storeSpan_eq_none_of_loadSpan hp] at hq; cases hq
  · rw [storeSpan_eq_none_of_loadSpan hq] at hp; cases hp
  · exact Option.some.inj (hp.symm.trans hq)

/-- An access that the policy stops ends at its own span, where no hazard ended it before (R59). -/
theorem ExecOutcome.eq_of_stopped {i : Instr} {s : State} {r : Result} (ho : ExecOutcome i s r) (hfree : ∀ rd, ¬ Hazards i s rd)
    {a n : Nat} (hspan : loadSpan i s = some (a, n) ∨ storeSpan i s = some (a, n)) (hstops : s.accessStops a n = true) :
    r = .fault (.accessOutsideBuffer a n) := by
  cases ho with
  | hazard rd h => exact absurd h (hfree rd)
  | outside _ a' n' span _ => cases span_unique span hspan; rfl
  | corner _ noLoad noStore _ => rcases hspan with h | h <;> simp [noLoad, noStore] at h
  | completes _ inside t => rw [inside a n hspan] at hstops; cases hstops

/-- Settles O27: an access by the outcomes of an instruction, a fetch by the order in which a step decides. -/
theorem faultSettingStops : Obligations.FaultSettingStops := by
  unfold Obligations.FaultSettingStops
  refine fun s hpolicy => ⟨fun i a n hfree hspan hout => ?access, fun hl hout => ?fetch⟩
  case access =>
    refine (exec_outcome i s).eq_of_stopped ?_ hspan ((s.accessStops_eq_true_iff a n).mpr ⟨hpolicy, hout⟩)
    rintro rd ⟨hmem, hdest, hne, hreads⟩
    exact hfree rd hdest ⟨hmem, hne, hreads⟩
  case fetch =>
    have hstops : s.fetchStops = true := s.fetchStops_eq_true_iff.mpr ⟨hpolicy, hout⟩
    simp [step, hl, hstops]

/-- The hazard fault is answered where the check applies, and nowhere else. -/
theorem ExecOutcome.dataHazard_iff {i : Instr} {s : State} {r : Result} (ho : ExecOutcome i s r) (rd : RegIdx) :
    r = .fault (.dataHazard rd) ↔ Hazards i s rd := by
  cases ho with
  | hazard rd' h =>
    constructor
    · intro e; cases e; exact h
    · intro h'; rw [Option.some.inj (h.2.1.symm.trans h'.2.1)]
  | outside free => exact iff_of_false (by simp) (free rd)
  | corner free => exact iff_of_false (by simp) (free rd)
  | completes free => exact iff_of_false (by simp) (free rd)

/-- Settles O46: by the outcomes of an instruction. -/
theorem dataHazard : Obligations.DataHazard := by
  unfold Obligations.DataHazard
  exact fun i s rd => (exec_outcome i s).dataHazard_iff rd

/-- With the normative parameters every instruction completes (R7, R59). -/
theorem ExecOutcome.completes_of_normative {i : Instr} {s : State} {r : Result} (ho : ExecOutcome i s r) (hn : s.cfg.Normative) :
    ∃ t, r = .next t := by
  obtain ⟨hpolicy, hset, hcorners⟩ := hn
  cases ho with
  | hazard rd h => simp [Hazards, hset] at h
  | outside _ a n _ stops => simp [s.accessStops_eq_true_iff, hpolicy] at stops
  | corner _ _ _ refuse => simp [hcorners] at refuse
  | completes _ _ t => exact ⟨t, rfl⟩

/-- Settles O50: a fetch that is made misses, or runs an instruction that completes; one that is not made is refused. -/
theorem everyStepCompletes : Obligations.EveryStepCompletes := by
  unfold Obligations.EveryStepCompletes
  refine fun s hn hl => ⟨fun hmade => ?completes, fun hrefuse hout => ?refused⟩
  case completes =>
    have hadmits : s.AdmitsFetch (widthOf s.fetchWord) := by
      rintro (hpolicy | hrefuse)
      · simp [hn.1] at hpolicy
      · simpa [hrefuse] using hmade
    cases hd : decodeWord s.cfg.xlen s.fetchWord with
    | none => exact ⟨_, step_of_miss hl hadmits hd⟩
    | some i =>
      obtain ⟨t, ht⟩ := (exec_outcome i s.prologue).completes_of_normative (by rwa [s.prologue_cfg])
      exact ⟨t.epilogue, by rw [step_of_decode hl hadmits hd, ht]; rfl⟩
  case refused =>
    have hstops : s.fetchStops = false := by rw [← Bool.not_eq_true, s.fetchStops_eq_true_iff, hn.1]; simp
    have hrefused : s.fetchRefused = true := s.fetchRefused_eq_true_iff.mpr ⟨hrefuse, hout⟩
    simp [step, hl, hstops, hrefused]

/-! ### Reset and load (R410 to R412, R414 to R416) -/

/-- The state that construction, reset and a successful load leave: a fresh one with the writes of an image done, the image remembered
and this many bytes drawn. -/
def State.restored (c : Params) (fill : ResetFill) (image : List PortWrite) (draws : Nat) : State :=
  { (State.fresh c fill).portWrites image with image := image, draws := draws }

section
variable (c : Params) (fill : ResetFill) (image : List PortWrite) (draws : Nat)

/-- Only memory is not as reset draws it. -/
theorem State.fresh_eq : State.fresh c fill = { State.atReset c fill.regs with mem := (State.fresh c fill).mem } := by
  rw [State.fresh, State.drawMemory_eq]; exact State.portWrites_eq _ _

theorem State.restored_eq : State.restored c fill image draws =
    { State.atReset c fill.regs with mem := (State.restored c fill image draws).mem, image := image, draws := draws } := by
  unfold State.restored
  rw [State.portWrites_eq, State.fresh_eq]

theorem State.atReset_fits (v : Word) : (State.atReset c fill.regs).Fits (narrow c.xlen.bits v) := narrow_lt (xlen_le _) v

theorem State.restored_inv : (State.restored c fill image draws).Inv := by
  have hmem : (State.restored c fill image draws).MemWf := State.portWrites_memWf (State.fresh_memWf c fill) image
  rw [State.restored_eq] at hmem ⊢
  refine ⟨fun i => ?_, State.atReset_fits c fill _, Nat.two_pow_pos _, by simp [State.atReset], hmem⟩
  have hxs : (State.atReset c fill.regs).xs[i] = narrow c.xlen.bits fill.regs.xs[i] := Vector.getElem_map ..
  exact hxs ▸ State.atReset_fits c fill _

/-- A register after reset is the drawn one (R412). -/
theorem State.natX_atReset (i : Fin 31) :
    (State.atReset c fill.regs).natX (BitVec.ofNat 5 (i.val + 1)) = (fill.regs.xs[i]).toNat % 2 ^ c.xlen.bits := by
  have hindex : (BitVec.ofNat 5 (i.val + 1)).toNat = i.val + 1 := by rw [BitVec.toNat_ofNat]; omega
  have hne : BitVec.ofNat 5 (i.val + 1) ≠ 0 := fun h => by rw [h] at hindex; cases hindex
  rw [State.natX, State.getX, if_neg hne, narrow_toNat (State.bits_le _)]
  simp only [hindex, Nat.add_sub_cancel, State.atReset, Vector.getElem_map, State.bits, narrow_toNat (xlen_le _), Nat.mod_mod]
  rfl

theorem State.byteOf_restored {k : Nat} (hk : k < c.memSize) :
    (State.restored c fill image draws).byteOf k = (lastWrite image k).getD (filledByte c fill k) := by
  rw [← State.byteOf_fresh c fill hk, ← State.byteOf_portWrites _ _ (by rwa [State.fresh_cfg])]
  rfl

theorem State.restored_resetTo : ResetTo (State.restored c fill image draws) c fill image where
  cfg := by rw [State.restored_eq]; rfl
  pc := by rw [State.restored_eq]; exact narrow_toNat (xlen_le _) _
  adv := by rw [State.restored_eq]; rfl
  resv := by rw [State.restored_eq]; rfl
  zero := rfl
  regs i := by rw [State.restored_eq]; exact State.natX_atReset c fill i
  floats := by rw [State.restored_eq]; rfl
  bytes a := by
    have hcfg : (State.restored c fill image draws).cfg = c := by rw [State.restored_eq]; rfl
    rw [observeMem, hcfg]
    split
    · rename_i ha; rw [State.byteOf_restored c fill image draws ha]
    · rfl
  image := rfl
  usable := by rw [State.restored_eq]; rfl

theorem hostConstruct_eq : hostConstruct c fill = State.restored c fill [] 0 := by
  rw [State.restored_eq, hostConstruct, State.fresh_eq]; rfl

end

theorem hostReset_eq (s : State) (fill : ResetFill) : hostReset s fill = State.restored s.cfg fill s.image s.draws := rfl

/-- The image that a source holds, where it is well formed to its end. -/
def LoadSource.image (offset : Nat) : LoadSource → Option (List PortWrite)
  | .raw bytes => some [(offset, bytes)]
  | .records items => if (streamWrites offset items).2 = none then some (streamWrites offset items).1 else none
  | .elf => none

/-- The state that a load writes to: a fresh one, the image and the count of draws kept. -/
def State.loading (s : State) (fill : ResetFill) : State := { State.fresh s.cfg fill with image := s.image, draws := s.draws }

section
variable (s : State) (fill : ResetFill)

/-- The writes of a load leave the memory that a reset with its image leaves. -/
theorem State.portWrites_loading (ws : List PortWrite) :
    (s.loading fill).portWrites ws = { State.restored s.cfg fill ws s.draws with image := s.image } := by
  have hmem := State.portWrites_mem_congr (s := s.loading fill) (t := State.fresh s.cfg fill) rfl rfl ws
  rw [State.portWrites_eq, hmem, State.restored, State.portWrites_eq (State.fresh s.cfg fill)]
  rfl

theorem hostLoad_raw (bytes : List Byte) (offset : Nat) :
    hostLoad s fill (.raw bytes) offset = .loaded (State.restored s.cfg fill [(offset, bytes)] s.draws) :=
  congrArg (fun u : State => LoadResult.loaded { u with image := [(offset, bytes)] }) (s.portWrites_loading fill [(offset, bytes)])

theorem hostLoad_of_wellFormed {items : List LoadItem} {offset : Nat} {ws : List PortWrite}
    (h : streamWrites offset items = (ws, none)) :
    hostLoad s fill (.records items) offset = .loaded (State.restored s.cfg fill ws s.draws) := by
  simp only [hostLoad, h]
  exact congrArg (fun u : State => LoadResult.loaded { u with image := ws }) (s.portWrites_loading fill ws)

/-- A load fails at the first malformed item, with the writes before it done (R416). -/
theorem hostLoad_of_malformed {items : List LoadItem} {offset : Nat} {ws : List PortWrite} {reason : String}
    (h : streamWrites offset items = (ws, some reason)) : hostLoad s fill (.records items) offset =
      .failed reason { State.restored s.cfg fill ws s.draws with image := s.image, loadFailed := true } := by
  simp only [hostLoad, h]
  exact congrArg (fun u : State => LoadResult.failed reason { u with loadFailed := true }) (s.portWrites_loading fill ws)

/-- A load succeeds on a source that is well formed, and leaves what reset leaves with its image (R414). -/
theorem hostLoad_eq_loaded_iff (src : LoadSource) (offset : Nat) (t : State) : hostLoad s fill src offset = .loaded t ↔
    ∃ ws, src.image offset = some ws ∧ State.restored s.cfg fill ws s.draws = t := by
  cases src with
  | elf => simp [hostLoad, LoadSource.image]
  | raw bytes => simp [hostLoad_raw, LoadSource.image]
  | records items =>
    rcases h : streamWrites offset items with ⟨ws, none | reason⟩
    · simp [hostLoad_of_wellFormed s fill h, LoadSource.image, h]
    · simp [hostLoad_of_malformed s fill h, LoadSource.image, h]

end

/-- Settles O52: the state at reset has drawn registers and no listed byte. -/
theorem resetInvariant : Obligations.ResetInvariant := by
  unfold Obligations.ResetInvariant
  exact State.restored_inv primaryParams ⟨RegisterFill.ofSeed primaryParams.xlen primaryParams.seed, []⟩ [] 0

/-- Settles O53: each operation leaves a fresh state with an image written. -/
theorem hostOperationsInvariant : Obligations.HostOperationsInvariant := by
  unfold Obligations.HostOperationsInvariant
  refine ⟨fun c fill => ?construct, fun s fill => State.restored_inv .., fun s t fill src offset h => ?load⟩
  case construct => rw [hostConstruct_eq]; exact State.restored_inv ..
  case load =>
    obtain ⟨ws, -, rfl⟩ := (hostLoad_eq_loaded_iff ..).mp h
    exact State.restored_inv ..

/-- Settles O58: both operations leave a fresh state with an image written. -/
theorem resetValues : Obligations.ResetValues := by
  unfold Obligations.ResetValues
  refine ⟨fun c fill => ?construct, fun s fill => State.restored_resetTo ..⟩
  case construct => rw [hostConstruct_eq]; exact State.restored_resetTo ..

/-- Settles O59: a load leaves what a reset leaves with the image of its source, and the image does not depend on the draw. -/
theorem resetRestoresImage : Obligations.ResetRestoresImage := by
  unfold Obligations.ResetRestoresImage
  refine ⟨fun s fill bytes offset => ?raw, fun s fill records offset h => ?records, fun s t u fill fill' src offset ht hu => ?again⟩
  case raw => exact ⟨_, (hostLoad_eq_loaded_iff ..).mpr ⟨_, rfl, rfl⟩, State.restored_resetTo ..⟩
  case records =>
    have himage : (LoadSource.records (records.map .record)).image offset = some (dataWrites offset records) := by
      rw [LoadSource.image, streamWrites_records offset h, if_pos rfl]
    exact ⟨_, (hostLoad_eq_loaded_iff ..).mpr ⟨_, himage, rfl⟩, State.restored_resetTo ..⟩
  case again =>
    obtain ⟨ws, hws, rfl⟩ := (hostLoad_eq_loaded_iff ..).mp ht
    obtain ⟨ws', hws', rfl⟩ := (hostLoad_eq_loaded_iff ..).mp hu
    cases hws.symm.trans hws'
    rw [hostReset_eq, (State.restored_resetTo s.cfg fill ws s.draws).cfg]
    rfl

/-- Settles O60: the writes stop at the malformed item, and what a reset writes is the image from before. -/
theorem failedLoadIsUnusable : Obligations.FailedLoadIsUnusable := by
  unfold Obligations.FailedLoadIsUnusable
  intro s fill fill' offset good bad later hgood hbad
  obtain ⟨reason, hwrites⟩ := streamWrites_malformed offset hgood hbad later
  refine ⟨reason, _, hostLoad_of_malformed s fill hwrites, ?partially, rfl, ?step, ?reset⟩
  case partially =>
    have h := State.restored_resetTo s.cfg fill (dataWrites offset good) s.draws
    rw [State.restored_eq] at h ⊢
    exact h
  case step => simp [step]
  case reset =>
    rw [hostReset_eq, (State.restored_resetTo s.cfg fill (dataWrites offset good) s.draws).cfg]
    exact State.restored_resetTo ..

end Sys2Proof.Machine

/-! Jumps, store-conditional, and the compressed instructions: encodings, results, frames and completion. -/

namespace Sys2Proof

/-! ### Encodings of the jumps and of store-conditional (R81, R90, R92, R105) -/

theorem encodedJ_of_row {xl : Xlen} {op : BitVec 7} {mk : RegIdx → BitVec 20 → Instr} (o : Op) (h : RowOfFields xl o [⟨0, 7, op⟩])
    (hf : ∀ w, fieldsOf o w = mk (fRd w) (fImmJ w)) : EncodedJ xl op mk := by
  intro w hop
  rw [decodeWord_of_rowOfFields h (by simp [HasFields, bits, hop]), hf]
  rfl

theorem jumps_encoded (xl : Xlen) : EncodedJ xl 0b1101111#7 .jal ∧ EncodedI xl 0b1100111#7 0b000#3 .jalr := by
  refine ⟨encodedJ_of_row .jal ?_ fun _ => rfl, encodedI_of_row .jalr ?_ fun _ => rfl⟩ <;> cases xl <;> decide +kernel

theorem scW_encoded (xl : Xlen) : EncodedMask xl 0xf800707f#32 0x1800202f#32 fun w =>
    .scW (w.extractLsb' 7 5) (w.extractLsb' 15 5) (w.extractLsb' 20 5) (w.extractLsb' 26 1) (w.extractLsb' 25 1) :=
  encodedMask_of_row .scW (by cases xl <;> decide +kernel) fun _ => rfl

theorem scD_encoded_rv64 : EncodedMask .rv64 0xf800707f#32 0x1800302f#32 fun w =>
    .scD (w.extractLsb' 7 5) (w.extractLsb' 15 5) (w.extractLsb' 20 5) (w.extractLsb' 26 1) (w.extractLsb' 25 1) :=
  encodedMask_of_row .scD (by decide +kernel) fun _ => rfl

/-- The registry of XLEN = 32 has no SC.D. -/
theorem scD_miss_rv32 {w : BitVec 32} (hw : w &&& 0xf800707f#32 = 0x1800302f#32) : decodeWord .rv32 w = none :=
  decodeWord_eq_none_of_noRowOfMask (by decide +kernel) (by decide) hw

/-! ### Encodings of the compressed instructions (R84, R85, R93 to R96, R363) -/

/-- No bit of a half-word is lost in the fields of its row. -/
theorem encode_fieldsOf_half {xl : Xlen} {o : Op} {mask want h : BitVec 16} (hrow : RowOfHalf xl o mask want)
    (hw : h &&& mask = want) : encode (fieldsOf o (h.setWidth 32)) = h.setWidth 32 := by
  obtain ⟨r, hr, rfl, hmask, hwant, hnarrow⟩ := hrow
  have hhalf : halfOf (h.setWidth 32) = h := (bits_setWidth_half h 0 16).trans BitVec.extractLsb'_eq_self
  obtain ⟨hself, ha⟩ := accepts_half (mem_rows_of_mem_registry hr) hmask hwant hnarrow (w := h.setWidth 32) (by rwa [hhalf])
  rw [hhalf] at hself ha
  have habsent := instrWord_and_absent (mem_rows_of_mem_registry hr) (w := h.setWidth 32) (by rwa [hself])
  rw [hself] at habsent
  exact encode_fieldsOf_of_accepts (mem_rows_of_mem_registry hr) ha habsent

theorem fieldsOf_cAddi_half (h : BitVec 16) : fieldsOf .cAddi (h.setWidth 32) = .cAddi (halfRd h) (halfCI h) := by
  simp only [fieldsOf, fRd_half, fImmCI_half]

/-- The one half-word of C.ADDI with both fields 0 is C.NOP's. -/
theorem wf_cAddi_half {xl : Xlen} (hrow : RowOfHalf xl .cAddi 0xe003#16 0x0001#16) (h : BitVec 16) (hw : h &&& 0xe003#16 = 0x0001#16)
    (htaken : (h == 0x0001#16) = false) : (Instr.cAddi (halfRd h) (halfCI h)).wf xl = true := by
  have hword := encode_fieldsOf_half hrow hw
  rw [fieldsOf_cAddi_half] at hword
  rw [Instr.wf, Bool.not_eq_true', Bool.eq_false_iff]
  intro hzero
  rw [Bool.and_eq_true, beq_iff_eq, beq_iff_eq] at hzero
  rw [hzero.1, hzero.2] at hword
  have hone := congrArg (BitVec.setWidth 16) hword
  rw [BitVec.setWidth_setWidth_of_le _ (by omega), BitVec.setWidth_eq] at hone
  rw [← hone] at htaken
  exact absurd htaken (by decide)

theorem compressedImmediates_encoded (xl : Xlen) :
    EncodedHalf xl 0xe003#16 0x0000#16 (fun h => .cAddi4spn (halfLow h) (halfCIW h)) (fun h => halfCIW h == 0) ∧
    (EncodedHalf xl 0xffff#16 0x0001#16 fun _ => .cNop) ∧
    EncodedHalf xl 0xe003#16 0x0001#16 (fun h => .cAddi (halfRd h) (halfCI h)) (fun h => h == 0x0001#16) ∧
    (EncodedHalf xl 0xe003#16 0x4001#16 fun h => .cLi (halfRd h) (halfCI h)) ∧
    EncodedHalf xl 0xef83#16 0x6101#16 (fun h => .cAddi16sp (halfCI16 h)) (fun h => halfCI16 h == 0) ∧
    EncodedHalf xl 0xe003#16 0x6001#16 (fun h => .cLui (halfRd h) (halfCI h)) (fun h => halfRd h == 2 || halfCI h == 0) :=
  have cAddi : RowOfHalf xl .cAddi 0xe003#16 0x0001#16 := by cases xl <;> decide +kernel
  ⟨encodedHalf_of_wf .cAddi4spn (by cases xl <;> decide +kernel) (fun h => by simp only [fieldsOf, fCRdLo_half, fImmCIW_half])
      fun h _ htaken => by rw [Instr.wf, bne, htaken, Bool.not_false],
    encodedHalf_of_row .cNop (by cases xl <;> decide +kernel) rfl fun _ => rfl,
    encodedHalf_of_wf .cAddi cAddi fieldsOf_cAddi_half (wf_cAddi_half cAddi),
    encodedHalf_of_row .cLi (by cases xl <;> decide +kernel) rfl fun h => by simp only [fieldsOf, fRd_half, fImmCI_half],
    encodedHalf_of_wf .cAddi16sp (by cases xl <;> decide +kernel) (fun h => by simp only [fieldsOf, fImmCI16_half])
      fun h _ htaken => by rw [Instr.wf, bne, htaken, Bool.not_false],
    encodedHalf_of_wf .cLui (by cases xl <;> decide +kernel) (fun h => by simp only [fieldsOf, fRd_half, fImmCI_half])
      fun h _ htaken => by rw [Instr.wf, bne, bne, ← Bool.not_or, htaken, Bool.not_false]⟩

theorem cAddiw_encoded_rv64 :
    EncodedHalf .rv64 0xe003#16 0x2001#16 (fun h => .cAddiw (halfRd h) (halfCI h)) (fun h => halfRd h == 0) :=
  encodedHalf_of_wf .cAddiw (by decide +kernel) (fun h => by simp only [fieldsOf, fRd_half, fImmCI_half])
    fun h _ htaken => by rw [Instr.wf, bne, htaken]; rfl

theorem compressedShifts_encoded :
    (EncodedHalf .rv32 0xfc03#16 0x8001#16 fun h => .cSrli (halfHigh h) (halfCI h)) ∧
    (EncodedHalf .rv64 0xec03#16 0x8001#16 fun h => .cSrli (halfHigh h) (halfCI h)) ∧
    (EncodedHalf .rv32 0xfc03#16 0x8401#16 fun h => .cSrai (halfHigh h) (halfCI h)) ∧
    (EncodedHalf .rv64 0xec03#16 0x8401#16 fun h => .cSrai (halfHigh h) (halfCI h)) ∧
    (∀ xl, EncodedHalf xl 0xec03#16 0x8801#16 fun h => .cAndi (halfHigh h) (halfCI h)) ∧
    (EncodedHalf .rv32 0xf003#16 0x0002#16 fun h => .cSlli (halfRd h) (halfCI h)) ∧
    (EncodedHalf .rv64 0xe003#16 0x0002#16 fun h => .cSlli (halfRd h) (halfCI h)) :=
  have cSrli : ∀ h, fieldsOf .cSrli (h.setWidth 32) = .cSrli (halfHigh h) (halfCI h) := fun h => by
    simp only [fieldsOf, fCRs1_half, fImmCI_half]
  have cSrai : ∀ h, fieldsOf .cSrai (h.setWidth 32) = .cSrai (halfHigh h) (halfCI h) := fun h => by
    simp only [fieldsOf, fCRs1_half, fImmCI_half]
  have cSlli : ∀ h, fieldsOf .cSlli (h.setWidth 32) = .cSlli (halfRd h) (halfCI h) := fun h => by
    simp only [fieldsOf, fRd_half, fImmCI_half]
  ⟨encodedHalf_of_row .cSrli (by decide +kernel) rfl cSrli, encodedHalf_of_row .cSrli (by decide +kernel) rfl cSrli,
    encodedHalf_of_row .cSrai (by decide +kernel) rfl cSrai, encodedHalf_of_row .cSrai (by decide +kernel) rfl cSrai,
    fun xl => encodedHalf_of_row .cAndi (by cases xl <;> decide +kernel) rfl fun h => by simp only [fieldsOf, fCRs1_half, fImmCI_half],
    encodedHalf_of_row .cSlli (by decide +kernel) rfl cSlli, encodedHalf_of_row .cSlli (by decide +kernel) rfl cSlli⟩

theorem compressedRegisters_encoded (xl : Xlen) :
    (EncodedHalf xl 0xfc63#16 0x8c01#16 fun h => .cSub (halfHigh h) (halfLow h)) ∧
    (EncodedHalf xl 0xfc63#16 0x8c21#16 fun h => .cXor (halfHigh h) (halfLow h)) ∧
    (EncodedHalf xl 0xfc63#16 0x8c41#16 fun h => .cOr (halfHigh h) (halfLow h)) ∧
    (EncodedHalf xl 0xfc63#16 0x8c61#16 fun h => .cAnd (halfHigh h) (halfLow h)) ∧
    EncodedHalf xl 0xf003#16 0x8002#16 (fun h => .cMv (halfRd h) (halfRs2 h)) (fun h => halfRs2 h == 0) ∧
    EncodedHalf xl 0xf003#16 0x9002#16 (fun h => .cAdd (halfRd h) (halfRs2 h)) (fun h => halfRs2 h == 0) :=
  ⟨encodedHalf_of_row .cSub (by cases xl <;> decide +kernel) rfl fun h => by simp only [fieldsOf, fCRs1_half, fCRdLo_half],
    encodedHalf_of_row .cXor (by cases xl <;> decide +kernel) rfl fun h => by simp only [fieldsOf, fCRs1_half, fCRdLo_half],
    encodedHalf_of_row .cOr (by cases xl <;> decide +kernel) rfl fun h => by simp only [fieldsOf, fCRs1_half, fCRdLo_half],
    encodedHalf_of_row .cAnd (by cases xl <;> decide +kernel) rfl fun h => by simp only [fieldsOf, fCRs1_half, fCRdLo_half],
    encodedHalf_of_wf .cMv (by cases xl <;> decide +kernel) (fun h => by simp only [fieldsOf, fRd_half, fCRs2_half])
      fun h _ htaken => by rw [Instr.wf, bne, htaken, Bool.not_false],
    encodedHalf_of_wf .cAdd (by cases xl <;> decide +kernel) (fun h => by simp only [fieldsOf, fRd_half, fCRs2_half])
      fun h _ htaken => by rw [Instr.wf, bne, htaken, Bool.not_false]⟩

theorem compressedRegisters_encoded_rv64 :
    (EncodedHalf .rv64 0xfc63#16 0x9c01#16 fun h => .cSubw (halfHigh h) (halfLow h)) ∧
    (EncodedHalf .rv64 0xfc63#16 0x9c21#16 fun h => .cAddw (halfHigh h) (halfLow h)) :=
  ⟨encodedHalf_of_row .cSubw (by decide +kernel) rfl fun h => by simp only [fieldsOf, fCRs1_half, fCRdLo_half],
    encodedHalf_of_row .cAddw (by decide +kernel) rfl fun h => by simp only [fieldsOf, fCRs1_half, fCRdLo_half]⟩

theorem compressedMemory_encoded (xl : Xlen) :
    (EncodedHalf xl 0xe003#16 0x4000#16 fun h => .cLw (halfLow h) (halfHigh h) (halfCLw h)) ∧
    EncodedHalf xl 0xe003#16 0x4002#16 (fun h => .cLwsp (halfRd h) (halfLwsp h)) (fun h => halfRd h == 0) ∧
    (EncodedHalf xl 0xe003#16 0xc000#16 fun h => .cSw (halfHigh h) (halfLow h) (halfCLw h)) ∧
    (EncodedHalf xl 0xe003#16 0xc002#16 fun h => .cSwsp (halfRs2 h) (halfCSSw h)) :=
  ⟨encodedHalf_of_row .cLw (by cases xl <;> decide +kernel) rfl fun h => by simp only [fieldsOf, fCRs1_half, fCRdLo_half, fImmCLw_half],
    encodedHalf_of_wf .cLwsp (by cases xl <;> decide +kernel) (fun h => by simp only [fieldsOf, fRd_half, fImmCILw_half])
      fun h _ htaken => by rw [Instr.wf, bne, htaken, Bool.not_false],
    encodedHalf_of_row .cSw (by cases xl <;> decide +kernel) rfl fun h => by simp only [fieldsOf, fCRs1_half, fCRdLo_half, fImmCLw_half],
    encodedHalf_of_row .cSwsp (by cases xl <;> decide +kernel) rfl fun h => by simp only [fieldsOf, fCRs2_half, fImmCSSw_half]⟩

theorem compressedMemory_encoded_rv64 :
    (EncodedHalf .rv64 0xe003#16 0x6000#16 fun h => .cLd (halfLow h) (halfHigh h) (halfCLd h)) ∧
    EncodedHalf .rv64 0xe003#16 0x6002#16 (fun h => .cLdsp (halfRd h) (halfLdsp h)) (fun h => halfRd h == 0) ∧
    (EncodedHalf .rv64 0xe003#16 0xe000#16 fun h => .cSd (halfHigh h) (halfLow h) (halfCLd h)) ∧
    (EncodedHalf .rv64 0xe003#16 0xe002#16 fun h => .cSdsp (halfRs2 h) (halfCSSd h)) :=
  ⟨encodedHalf_of_row .cLd (by decide +kernel) rfl fun h => by simp only [fieldsOf, fCRs1_half, fCRdLo_half, fImmCLd_half],
    encodedHalf_of_wf .cLdsp (by decide +kernel) (fun h => by simp only [fieldsOf, fRd_half, fImmCILd_half])
      fun h _ htaken => by rw [Instr.wf, bne, htaken]; rfl,
    encodedHalf_of_row .cSd (by decide +kernel) rfl fun h => by simp only [fieldsOf, fCRs1_half, fCRdLo_half, fImmCLd_half],
    encodedHalf_of_row .cSdsp (by decide +kernel) rfl fun h => by simp only [fieldsOf, fCRs2_half, fImmCSSd_half]⟩

theorem compressedTransfers_encoded (xl : Xlen) :
    (EncodedHalf xl 0xe003#16 0xa001#16 fun h => .cJ (halfCJ h)) ∧
    (EncodedHalf xl 0xe003#16 0xc001#16 fun h => .cBeqz (halfHigh h) (halfCB h)) ∧
    (EncodedHalf xl 0xe003#16 0xe001#16 fun h => .cBnez (halfHigh h) (halfCB h)) ∧
    EncodedHalf xl 0xf07f#16 0x8002#16 (fun h => .cJr (halfRd h)) (fun h => halfRd h == 0) ∧
    EncodedHalf xl 0xf07f#16 0x9002#16 (fun h => .cJalr (halfRd h)) (fun h => halfRd h == 0) ∧
    (EncodedHalf xl 0xffff#16 0x9002#16 fun _ => .cEbreak) :=
  ⟨encodedHalf_of_row .cJ (by cases xl <;> decide +kernel) rfl fun h => by simp only [fieldsOf, fImmCJ_half],
    encodedHalf_of_row .cBeqz (by cases xl <;> decide +kernel) rfl fun h => by simp only [fieldsOf, fCRs1_half, fImmCB_half],
    encodedHalf_of_row .cBnez (by cases xl <;> decide +kernel) rfl fun h => by simp only [fieldsOf, fCRs1_half, fImmCB_half],
    encodedHalf_of_wf .cJr (by cases xl <;> decide +kernel) (fun h => by simp only [fieldsOf, fRd_half])
      fun h _ htaken => by rw [Instr.wf, bne, htaken, Bool.not_false],
    encodedHalf_of_wf .cJalr (by cases xl <;> decide +kernel) (fun h => by simp only [fieldsOf, fRd_half])
      fun h _ htaken => by rw [Instr.wf, bne, htaken, Bool.not_false],
    encodedHalf_of_row .cEbreak (by cases xl <;> decide +kernel) rfl fun _ => rfl⟩

theorem cJal_encoded_rv32 : EncodedHalf .rv32 0xe003#16 0x2001#16 fun h => .cJal (halfCJ h) :=
  encodedHalf_of_row .cJal (by decide +kernel) rfl fun h => by simp only [fieldsOf, fImmCJ_half]

end Sys2Proof

namespace Sys2Proof.Machine

/-! ### Jumps (R251 to R253) -/

/-- The link value in a register, whatever the transfer does to `pc` and `adv`. -/
theorem State.link_linksX (s : State) (rd : RegIdx) (p a : Word) :
    LinksX s { s.setX rd s.linkValue with pc := p, adv := a } rd := by
  have hwrites := s.setX_writesX rd s.linkValue
  have hlink : s.linkValue.toNat % 2 ^ s.bits = (s.pc.toNat + s.adv.toNat) % 2 ^ s.bits := by
    rw [State.linkValue, narrow_toNat s.bits_le, Nat.mod_mod, add_toNat_mod s.bits_le]
  refine ⟨?dest, hwrites.others, hwrites.bytes, ?rest⟩
  case dest => rw [← hlink]; exact hwrites.dest
  case rest => rw [hwrites.rest]

theorem exec_jal_next (s : State) (rd : RegIdx) (off : BitVec 20) :
    exec (.jal rd off) s = .next ((s.setX rd s.linkValue).setAdv (s.immJ off)) :=
  checked_of_free (by simp [State.HazardFree]) _

theorem exec_jalr_next {s : State} {rd rs1 : RegIdx} (h : s.HazardFree .jalr rd [rs1]) (imm : BitVec 12) :
    exec (.jalr rd rs1 imm) s = .next ((s.setX rd s.linkValue).jumpTo ((s.getX rs1 + s.imm12 imm) &&& ~~~1)) :=
  checked_of_free h _

theorem State.narrow_immJ_toNat (s : State) (off : BitVec 20) : (narrow s.bits (s.immJ off)).toNat = modNat s.bits (off.toInt * 2) := by
  rw [narrow_toNat s.bits_le, s.immJ_toNat, modNat_mod_self]

/-- The target of a jump to a register: bit 0 is cleared before or after the sum is reduced to the register width (R253). -/
theorem State.narrow_target_toNat (s : State) (rs1 : RegIdx) (imm : BitVec 12) :
    (narrow s.bits ((s.getX rs1 + s.imm12 imm) &&& ~~~1)).toNat = modNat s.bits (s.natX rs1 + imm.toInt) / 2 * 2 := by
  have hsum := add_imm12_toNat_mod s le_rfl rs1 imm
  rw [narrow_toNat s.bits_le, and_not_one_toNat, ← hsum]
  rcases s.bits_cases with h | h <;> rw [h] <;> omega

/-- Settles O29: the link value is written first, from the old state, and so is the target computed. -/
theorem jumps : Obligations.Jumps := by
  unfold Obligations.Jumps
  refine ⟨jumps_encoded, fun s rd rs1 off imm => ⟨⟨_, exec_jal_next s rd off, ?jal⟩, fun h => ⟨_, exec_jalr_next h imm, ?jalr⟩⟩⟩
  case jal =>
    refine ⟨s.link_linksX rd _ _, s.setX_pc rd _, ?_⟩
    rw [State.setAdv_adv, State.setX_bits, s.narrow_immJ_toNat]
  case jalr =>
    refine ⟨s.link_linksX rd _ _, ?_, narrow_zero (State.bits_le _)⟩
    rw [State.jumpTo_pc, State.setX_bits, s.narrow_target_toNat]

/-! ### Store-conditional (R272, R274) -/

/-- Settles O32: each instruction is the store-conditional functor with its length. -/
theorem storeConditionalInstructions : Obligations.StoreConditionalInstructions := by
  unfold Obligations.StoreConditionalInstructions
  refine ⟨scW_encoded, scD_encoded_rv64, fun _ => scD_miss_rv32, fun s rd rs1 rs2 aq rl => ⟨fun h => ⟨?_, ?_⟩, fun h _ => ⟨?_, ?_⟩⟩⟩
  · exact conditionallyStores_storeConditional (exec_scW ..) h
  · exact yields_storeConditional (exec_scW ..) h
  · exact conditionallyStores_storeConditional (exec_scD ..) h
  · exact yields_storeConditional (exec_scD ..) h

/-! ### The effect of an expansion (R310) -/

/-- What holds of the next state of an expansion holds of the next state of the compressed instruction. -/
theorem next_of_expansion {s : State} {i e : Instr} {P : State → Prop} (he : i.expansion = some e)
    (h : ∃ t, exec e s = .next t ∧ P t) : ∃ t, exec i s = .next t ∧ P t := by
  rwa [actsAsExpansion i e s he]

theorem hazardFree_zero (s : State) (d : Op) (reads : List RegIdx) : s.HazardFree d 0 reads := fun h => h.2.1 rfl

/-- No executor is in hazard with `x0` as its one source. -/
theorem hazardFree_of_reads_zero (s : State) (d : Op) (rd : RegIdx) : s.HazardFree d rd [0] :=
  fun h => h.2.1 (List.mem_singleton.mp h.2.2)

/-- The three word variants whose result does not depend on `WORD_MODE`, at either setting (R178, R182, R183). -/
theorem wordVariants_of_rv64 {s : State} (hx : s.cfg.xlen = .rv64) (rd rs1 rs2 : RegIdx) (imm : BitVec 12) :
    (s.HazardFree .addiw rd [rs1] → Yields s (.addiw rd rs1 imm) rd (sextNat 64 32 (modNat 64 (s.natX rs1 + imm.toInt)))) ∧
    (s.HazardFree .addw rd [rs1, rs2] → Yields s (.addw rd rs1 rs2) rd (sextNat 64 32 (s.natX rs1 + s.natX rs2))) ∧
    (s.HazardFree .subw rd [rs1, rs2] →
      Yields s (.subw rd rs1 rs2) rd (sextNat 64 32 (modNat 64 ((s.natX rs1 : Int) - s.natX rs2)))) := by
  cases hmode : s.cfg.wordMode with
  | operandsFirst =>
    obtain ⟨addiw, -, -, -, addw, subw, -⟩ := wordVariants.2.2.2 s rd rs1 rs2 imm 0 hx hmode
    exact ⟨addiw, addw, subw⟩
  | resultOnly =>
    obtain ⟨addiw, -, -, -, addw, subw, -⟩ := wordVariantsResultOnly s rd rs1 rs2 imm 0 hx hmode
    exact ⟨addiw, addw, subw⟩

theorem yields_addi {s : State} {rd rs1 : RegIdx} {imm : BitVec 12} (h : s.HazardFree .addi rd [rs1]) :
    Yields s (.addi rd rs1 imm) rd (modNat s.bits (s.natX rs1 + imm.toInt)) := (immediateArithmetic.2 s rd rs1 imm).1 h

/-- Settles O39: each instruction is its expansion, with the immediate scaled and extended. -/
theorem compressedImmediates : Obligations.CompressedImmediates := by
  unfold Obligations.CompressedImmediates
  refine ⟨compressedImmediates_encoded, cAddiw_encoded_rv64, fun s r rd imm8 imm => ⟨fun h => ?cAddi4spn, ?cNop, fun h => ?cAddi,
    fun h hx => ?cAddiw, ?cLi, fun h => ?cAddi16sp, ?cLui⟩⟩
  case cAddi4spn =>
    rw [← modNat_ofNat, Nat.cast_add, Nat.cast_mul, Nat.cast_ofNat, ← ciwImm_toInt]
    exact next_of_expansion rfl (yields_addi h)
  case cNop => exact aluImm_next (hazardFree_zero s .addi [0]) _ _
  case cAddi =>
    rw [← ciImm_toInt]
    exact next_of_expansion rfl (yields_addi h)
  case cAddiw =>
    rw [← ciImm_toInt]
    exact next_of_expansion rfl ((wordVariants_of_rv64 hx rd rd 0 (ciImm imm)).1 h)
  case cLi =>
    have hvalue : modNat s.bits imm.toInt = modNat s.bits (s.natX 0 + (ciImm imm).toInt) := by
      rw [s.natX_zero, ciImm_toInt, Nat.cast_zero, zero_add]
    rw [hvalue]
    exact next_of_expansion rfl (yields_addi (hazardFree_of_reads_zero s .addi rd))
  case cAddi16sp =>
    rw [← ci16Imm_toInt]
    exact next_of_expansion rfl (yields_addi h)
  case cLui =>
    rw [← BitVec.toInt_signExtend_of_le (w := 6) (v := 20) (by omega)]
    exact next_of_expansion rfl (upperImmediates.2 s rd (imm.signExtend 20)).1

/-- Settles O40: each instruction is its expansion. -/
theorem compressedShifts : Obligations.CompressedShifts := by
  unfold Obligations.CompressedShifts
  refine ⟨compressedShifts_encoded, fun s r rd shamt imm => ?_⟩
  obtain ⟨-, srli, srai⟩ := immediateShifts.2 s r.full r.full shamt
  obtain ⟨-, -, -, -, -, andi⟩ := immediateArithmetic.2 s r.full r.full (ciImm imm)
  obtain ⟨slli, -⟩ := immediateShifts.2 s rd rd shamt
  rw [ciImm_toInt] at andi
  exact ⟨fun h => next_of_expansion rfl (srli h), fun h => next_of_expansion rfl (srai h), fun h => next_of_expansion rfl (andi h),
    fun h => next_of_expansion rfl (slli h)⟩

/-- Settles O41: each instruction is its expansion. -/
theorem compressedRegisters : Obligations.CompressedRegisters := by
  unfold Obligations.CompressedRegisters
  refine ⟨compressedRegisters_encoded, compressedRegisters_encoded_rv64, fun s r r2 rd rs2 => ?_⟩
  obtain ⟨-, sub, -, -, -, xor, -, -, or, and⟩ := registerArithmetic.2 s r.full r.full r2.full
  have add := fun rs1 => (registerArithmetic.2 s rd rs1 rs2).1
  refine ⟨fun h => next_of_expansion rfl (sub h), fun h => next_of_expansion rfl (xor h), fun h => next_of_expansion rfl (or h),
    fun h => next_of_expansion rfl (and h), fun h hx => ?cSubw, fun h hx => ?cAddw, fun h => ?cMv,
    fun h => next_of_expansion rfl (add rd h)⟩
  case cSubw => exact next_of_expansion rfl ((wordVariants_of_rv64 hx r.full r.full r2.full 0).2.2 h)
  case cAddw => exact next_of_expansion rfl ((wordVariants_of_rv64 hx r.full r.full r2.full 0).2.1 h)
  case cMv =>
    have hvalue : s.natX rs2 = (s.natX 0 + s.natX rs2) % 2 ^ s.bits := by
      rw [s.natX_zero, Nat.zero_add, Nat.mod_eq_of_lt (s.natX_lt rs2)]
    rw [hvalue]
    exact next_of_expansion rfl (add 0 h)

/-- The effective address with a displacement that is a scaled unsigned offset (R95, R96). -/
theorem State.ea_toNat_of_scaled (s : State) (rs1 : RegIdx) {imm : BitVec 12} {n m : Nat} (h : imm.toInt = n * m) :
    (s.ea rs1 imm).toNat = (s.natX rs1 + n * m) % 2 ^ s.bits := by
  rw [effectiveAddress, h, ← modNat_ofNat]
  push_cast
  rfl

/-- Settles O42: each instruction is its expansion, at the register plus the scaled offset. -/
theorem compressedMemory : Obligations.CompressedMemory := by
  unfold Obligations.CompressedMemory
  refine ⟨compressedMemory_encoded, compressedMemory_encoded_rv64, fun s r r1 rd off soff => ?_⟩
  rw [← s.ea_toNat_of_scaled r1.full (clwImm_toInt off), ← s.ea_toNat_of_scaled r1.full (cldImm_toInt off),
    ← s.ea_toNat_of_scaled 2 (lwspImm_toInt soff), ← s.ea_toNat_of_scaled 2 (ldspImm_toInt soff)]
  obtain ⟨-, -, lw, -⟩ := loadInstructions.2.2.2 s r.full r1.full (clwImm off)
  obtain ⟨-, -, -, -, -, -, ld⟩ := loadInstructions.2.2.2 s r.full r1.full (cldImm off)
  obtain ⟨-, -, lwsp, -⟩ := loadInstructions.2.2.2 s rd 2 (lwspImm soff)
  obtain ⟨-, -, -, -, -, -, ldsp⟩ := loadInstructions.2.2.2 s rd 2 (ldspImm soff)
  obtain ⟨-, -, sw, -⟩ := storeInstructions.2.2.2 s r1.full r.full (clwImm off)
  obtain ⟨-, -, -, sd⟩ := storeInstructions.2.2.2 s r1.full r.full (cldImm off)
  obtain ⟨-, -, swsp, -⟩ := storeInstructions.2.2.2 s 2 rd (lwspImm soff)
  obtain ⟨-, -, -, sdsp⟩ := storeInstructions.2.2.2 s 2 rd (ldspImm soff)
  exact ⟨fun h ha => next_of_expansion rfl (lw h ha), fun h ha hx => next_of_expansion rfl (ld h ha hx),
    fun h ha => next_of_expansion rfl (lwsp h ha), fun h ha hx => next_of_expansion rfl (ldsp h ha hx),
    fun ha => next_of_expansion rfl (sw ha), fun ha hx => next_of_expansion rfl (sd ha hx),
    fun ha => next_of_expansion rfl (swsp ha), fun ha hx => next_of_expansion rfl (sdsp ha hx)⟩

/-- Settles O43: each instruction is its expansion; C.J and C.JR write no link, their destination being `x0`. -/
theorem compressedTransfers : Obligations.CompressedTransfers := by
  unfold Obligations.CompressedTransfers
  refine ⟨compressedTransfers_encoded, cJal_encoded_rv32, fun s r rs1 off boff => ?_⟩
  have hoff : (off.signExtend 20).toInt = off.toInt := BitVec.toInt_signExtend_of_le (by omega)
  have hboff : (boff.signExtend 12).toInt = boff.toInt := BitVec.toInt_signExtend_of_le (by omega)
  have htarget : modNat s.bits (s.natX rs1 + (0#12).toInt) / 2 * 2 = s.natX rs1 / 2 * 2 := by
    rw [BitVec.toInt_zero, Int.add_zero, modNat_ofNat, Nat.mod_eq_of_lt (s.natX_lt rs1)]
  obtain ⟨beq, bne, -⟩ := branches.2 s r.full 0 (boff.signExtend 12)
  rw [hboff, s.natX_zero] at beq bne
  refine ⟨next_of_expansion rfl ⟨_, exec_jal_next s 0 (off.signExtend 20), ?cJ⟩, ?cJal,
    next_of_expansion rfl ⟨_, exec_jalr_next (hazardFree_zero s _ [rs1]) 0, ?cJr⟩, fun h => ?cJalr, next_of_expansion rfl beq,
    next_of_expansion rfl bne, rfl⟩
  case cJ => exact ⟨by rw [← hoff]; exact s.narrow_immJ_toNat _, rfl⟩
  case cJal => rw [← hoff]; exact next_of_expansion rfl (jumps.2 s 1 0 (off.signExtend 20) 0).1
  case cJr => exact ⟨(s.narrow_target_toNat rs1 0).trans htarget, narrow_zero s.bits_le, rfl⟩
  case cJalr => rw [← htarget]; exact next_of_expansion rfl ((jumps.2 s 1 rs1 0 0).2 h)

end Sys2Proof.Machine

/-! Whole steps: the fetch, the instruction between the prologue and the epilogue, transfers, placeholders, stalls and stores. -/

namespace Sys2Proof.Machine

/-! ### The fetch (R66, R131, R132) -/

theorem State.fetchWord_toNat (s : State) : s.fetchWord.toNat = s.readNat s.pc.toNat 4 := by
  rw [State.fetchWord, BitVec.toNat_setWidth, s.memRead_toNat _ (by omega), Nat.mod_eq_of_lt (s.readNat_lt _ 4)]

/-- The bytes of the fetched word are those read at `pc` (R66). -/
theorem State.fetchWord_byte (s : State) {k : Nat} (hk : k < 4) : s.fetchWord.extractLsb' (8 * k) 8 = s.readByte s.pc.toNat k := by
  rw [← leByte_toNat_eq, s.fetchWord_toNat, s.leByte_readNat _ hk]

theorem State.prologue_adv_toNat (s : State) : s.prologue.adv.toNat = widthOf s.fetchWord := by
  rw [s.prologue_adv, narrow_toNat s.bits_le]
  rcases widthOf_cases s.fetchWord with h | h <;> rcases s.bits_cases with h' | h' <;> rw [h, h'] <;> rfl

theorem State.epilogue_pc_toNat (s : State) : s.epilogue.pc.toNat = (s.pc.toNat + s.adv.toNat) % 2 ^ s.bits := by
  rw [s.epilogue_pc, narrow_toNat s.bits_le, add_toNat_mod s.bits_le]

/-- Settles O47: the four bytes at `pc` are those of the fetched word. -/
theorem stepRunsDecodedInstruction : Obligations.StepRunsDecodedInstruction := by
  unfold Obligations.StepRunsDecodedInstruction
  intro s i rest hl ha hdecode
  have hbytes : ∀ k, k < 4 → s.readByte s.pc.toNat k = s.fetchWord.extractLsb' (8 * k) 8 := fun k hk => (s.fetchWord_byte hk).symm
  rw [hbytes 0 (by omega), hbytes 1 (by omega), hbytes 2 (by omega), hbytes 3 (by omega)] at hdecode
  have hd := decodeWord_of_decode hdecode
  have hwidth := width_of_decodeWord hd
  rw [hwidth] at ha ⊢
  refine ⟨?step, s.prologue_adv_toNat, s.prologue_eq, State.prologue_draws_of_inside, fun t => ⟨rfl, t.epilogue_pc_toNat⟩⟩
  case step =>
    rw [step_of_decode hl ha hd]
    cases exec i s.prologue <;> rfl

/-! ### A step that runs an instruction (R130, R135, R136) -/

section
variable {s u : State} {i : Instr}

theorem Runs.step_eq (h : Runs s i) : step s = finish (exec i s.prologue) := by
  obtain ⟨hl, ha, hd⟩ := h
  rw [width_of_decodeWord hd] at ha
  exact step_of_decode hl ha hd

theorem Runs.step_next (h : Runs s i) (hu : exec i s.prologue = .next u) : step s = .next u.epilogue := by
  rw [h.step_eq, hu]; rfl

theorem Runs.prologue_adv (h : Runs s i) : s.prologue.adv.toNat = i.width := by
  rw [s.prologue_adv_toNat, width_of_decodeWord h.2.2]

end

theorem State.prologue_natX (s : State) (r : RegIdx) : s.prologue.natX r = s.natX r := by simp [State.natX]

theorem State.prologue_intX (s : State) (r : RegIdx) : s.prologue.intX r = s.intX r := by
  rw [State.intX, s.prologue_natX, s.prologue_bits, State.intX]

/-! ### Placeholders, reserved entries and stalls (R109, R140, R280) -/

/-- The entries of kind no-op. -/
def noopOp : Op → Bool
  | .fence | .fenceI | .ecall | .ebreak | .csrrw | .csrrs | .csrrc | .csrrwi | .csrrsi | .csrrci | .cFld | .cFlw | .cFsd | .cFsw
  | .cFldsp | .cFlwsp | .cFsdsp | .cFswsp => true
  | _ => false

/-- The entries of kind reserved. -/
def reservedOp : Op → Bool
  | .cInvalid | .cAddi4spnRes | .cAddiwRes | .cAddi16spRes | .cLuiRes | .cLwspRes | .cLdspRes | .cJrRes => true
  | _ => false

/-- The kinds in the registry. -/
theorem op_of_kind (op : Op) : (op.kind = .noop → noopOp op = true) ∧ (op.kind = .reserved → reservedOp op = true) := by
  cases op <;> decide +kernel

theorem exec_of_noop {i : Instr} (h : i.op.kind = .noop) (s : State) : exec i s = .next s := by
  have hop := (op_of_kind i.op).1 h
  cases i
  case fence | fenceI | ecall | ebreak | csrrw | csrrs | csrrc | csrrwi | csrrsi | csrrci | cFld | cFlw | cFsd | cFsw | cFldsp |
    cFlwsp | cFsdsp | cFswsp => rfl
  all_goals cases hop

theorem exec_of_reserved {i : Instr} (h : i.op.kind = .reserved) (s : State) : exec i s = stall s := by
  have hop := (op_of_kind i.op).2 h
  cases i
  case cInvalid | cAddi4spnRes | cAddiwRes | cAddi16spRes | cLuiRes | cLwspRes | cLdspRes | cJrRes => rfl
  all_goals cases hop

/-- Settles O37: a no-op leaves the advance of the prologue to the epilogue, a reserved entry takes it back. -/
theorem placeholderSteps : Obligations.PlaceholderSteps := by
  unfold Obligations.PlaceholderSteps
  refine fun s i hruns hp => ⟨fun hkind => ?noop, fun hkind => ?reserved⟩
  case noop =>
    refine ⟨_, hruns.step_next (exec_of_noop hkind _), ?pc, ?rest⟩
    case pc => rw [State.epilogue_pc_toNat, hruns.prologue_adv, s.prologue_pc, s.prologue_bits]
    case rest => rw [s.prologue_eq]; rfl
  case reserved =>
    have hstall : exec i s.prologue = .next (s.prologue.setAdv 0) := exec_of_reserved hkind _
    exact ⟨{ s with adv := 0, draws := s.prologue.draws }, by rw [hruns.step_next hstall, State.epilogue_of_miss hp], rfl⟩

/-- A step that stalls on a fetch from inside the buffer changes nothing but the pending advance. -/
theorem step_of_stall {s : State} (hl : s.loadFailed = false) (hin : s.pc.toNat + 4 ≤ s.cfg.memSize) (hp : s.Fits s.pc)
    (hd : decodeWord s.cfg.xlen s.fetchWord = none ∨ ∃ i, decodeWord s.cfg.xlen s.fetchWord = some i ∧ i.op.kind = .reserved) :
    step s = .next { s with adv := 0 } := by
  have hadmits : s.AdmitsFetch (widthOf s.fetchWord) := fun _ => by rcases widthOf_cases s.fetchWord with h | h <;> omega
  have hstall : step s = .next (s.prologue.setAdv 0).epilogue := by
    rcases hd with hd | ⟨i, hd, hkind⟩
    · exact step_of_miss hl hadmits hd
    · rw [step_of_decode hl hadmits hd, exec_of_reserved hkind]; rfl
  rw [hstall, State.epilogue_of_miss hp, State.prologue_draws_of_inside hin]

/-- Settles O49: the stall leaves a state that fetches the same word. -/
theorem stallRepeats : Obligations.StallRepeats := by
  unfold Obligations.StallRepeats
  intro s hl hin hp hd
  exact ⟨{ s with adv := 0 }, step_of_stall hl hin hp hd, step_of_stall (s := { s with adv := 0 }) hl hin hp hd, rfl⟩

/-! ### Transfers (R133, R136, R250 to R259) -/

section
variable {s u : State} {i : Instr} {rd : RegIdx}

/-- After an instruction that leaves `pc`, the epilogue adds the pending advance to the address of the instruction. -/
theorem epilogue_pc_of_adv (hbits : u.bits = s.bits) (hpc : u.pc = s.pc) {z : Int} (hadv : u.adv.toNat = modNat s.bits z) :
    u.epilogue.pc.toNat = modNat s.bits (s.pc.toNat + z) := by
  rw [u.epilogue_pc_toNat, hbits, hpc, hadv, add_modNat]

theorem Runs.step_of_advances (h : Runs s i) {z : Int} (ha : Advances s.prologue i (modNat s.bits z)) :
    ∃ t, step s = .next t ∧ t.pc.toNat = modNat s.bits (s.pc.toNat + z) := by
  obtain ⟨u, hu, hadv, hrest⟩ := ha
  refine ⟨u.epilogue, h.step_next hu, epilogue_pc_of_adv ?_ ?_ hadv⟩ <;> rw [hrest]
  · exact s.prologue_bits
  · exact s.prologue_pc

theorem State.modNat_width (s : State) (i : Instr) (h : i.width = 2 ∨ i.width = 4) : modNat s.bits i.width = i.width := by
  rw [modNat_ofNat]
  rcases h with h | h <;> rcases s.bits_cases with h' | h' <;> rw [h, h'] <;> rfl

/-- A branch goes to its target where the predicate holds, else past itself. -/
theorem Runs.step_of_branch (h : Runs s i) {p : Prop} [Decidable p] {off : Int}
    (ha : Advances s.prologue i (if p then modNat s.bits off else s.prologue.adv.toNat)) :
    ∃ t, step s = .next t ∧ t.pc.toNat = modNat s.bits (s.pc.toNat + if p then off else i.width) := by
  have hwidth : i.width = 2 ∨ i.width = 4 := by rw [width_of_decodeWord h.2.2]; exact widthOf_cases _
  refine h.step_of_advances ?_
  rwa [apply_ite (modNat s.bits), s.modNat_width i hwidth, ← h.prologue_adv]

theorem Runs.step_of_branch_not (h : Runs s i) {p : Prop} [Decidable p] {off : Int}
    (ha : Advances s.prologue i (if p then s.prologue.adv.toNat else modNat s.bits off)) :
    ∃ t, step s = .next t ∧ t.pc.toNat = modNat s.bits (s.pc.toNat + if p then (i.width : Int) else off) := by
  rw [← ite_not] at ha ⊢
  exact h.step_of_branch ha

/-- After a jump the epilogue adds nothing to the target. -/
theorem epilogue_pc_of_jump (hbits : u.bits = s.bits) {k : Nat} (hk : k < 2 ^ s.bits) (hpc : u.pc.toNat = k / 2 * 2) (hadv : u.adv = 0) :
    u.epilogue.pc.toNat = k / 2 * 2 := by
  have hfits : u.Fits u.pc := by rw [State.Fits, hpc, hbits]; exact (Nat.div_mul_le_self k 2).trans_lt hk
  rw [State.epilogue_of_adv_zero hadv hfits, hpc]

theorem LinksX.bits_eq (h : LinksX s.prologue u rd) : u.bits = s.bits := by
  rw [h.rest]; exact s.prologue_bits

/-- The link value of a whole step is the address of the next instruction in sequence (R133). -/
theorem Runs.link_eq (h : Runs s i) (hlinks : LinksX s.prologue u rd) :
    u.epilogue.natX rd = if rd = 0 then 0 else (s.pc.toNat + i.width) % 2 ^ s.bits := by
  have hdest := hlinks.dest
  rwa [s.prologue_pc, h.prologue_adv, s.prologue_bits] at hdest

/-- A step that runs a jump by a pending advance. -/
theorem Runs.step_of_jal (h : Runs s i) {z : Int} (hex : ∃ u, exec i s.prologue = .next u ∧ LinksX s.prologue u rd ∧
      u.pc = s.prologue.pc ∧ u.adv.toNat = modNat s.bits z) :
    ∃ t, step s = .next t ∧ t.pc.toNat = modNat s.bits (s.pc.toNat + z) ∧
      t.natX rd = if rd = 0 then 0 else (s.pc.toNat + i.width) % 2 ^ s.bits := by
  obtain ⟨u, hu, hlinks, hpc, hadv⟩ := hex
  rw [s.prologue_pc] at hpc
  exact ⟨_, h.step_next hu, epilogue_pc_of_adv hlinks.bits_eq hpc hadv, h.link_eq hlinks⟩

/-- A step that runs a jump to a register. -/
theorem Runs.step_of_jalr (h : Runs s i) {k : Nat} (hk : k < 2 ^ s.bits) (hex : ∃ u, exec i s.prologue = .next u ∧
      LinksX s.prologue u rd ∧ u.pc.toNat = k / 2 * 2 ∧ u.adv = 0) :
    ∃ t, step s = .next t ∧ t.pc.toNat = k / 2 * 2 ∧ t.natX rd = if rd = 0 then 0 else (s.pc.toNat + i.width) % 2 ^ s.bits := by
  obtain ⟨u, hu, hlinks, hpc, hadv⟩ := hex
  exact ⟨_, h.step_next hu, epilogue_pc_of_jump hlinks.bits_eq hk hpc hadv, h.link_eq hlinks⟩

end

/-- Settles O30: the instruction runs after the prologue, which has the width in the pending advance and leaves every operand. -/
theorem transferSteps : Obligations.TransferSteps := by
  unfold Obligations.TransferSteps
  intro s rd rs1 rs2 off imm boff coff r cboff
  obtain ⟨hjal, hjalr⟩ := jumps.2 s.prologue rd rs1 off imm
  obtain ⟨hbeq, hbne, hblt, hbge, hbltu, hbgeu⟩ := branches.2 s.prologue rs1 rs2 boff
  obtain ⟨hcJ, hcJal, hcJr, hcJalr, hcBeqz, hcBnez, -⟩ := compressedTransfers.2.2 s.prologue r rs1 coff cboff
  simp only [State.prologue_natX, State.prologue_intX, State.prologue_bits]
    at hjal hjalr hbeq hbne hblt hbge hbltu hbgeu hcJ hcJal hcJr hcJalr hcBeqz hcBnez
  have hkept : s.HazardFree .jalr rd [rs1] → s.prologue.HazardFree .jalr rd [rs1] := State.HazardFree.of_cfg_eq s.prologue_cfg
  have hkept1 : s.HazardFree .jalr 1 [rs1] → s.prologue.HazardFree .jalr 1 [rs1] := State.HazardFree.of_cfg_eq s.prologue_cfg
  refine ⟨fun h => h.step_of_jal hjal, fun h hfree => h.step_of_jalr (modNat_lt ..) (hjalr (hkept hfree)),
    fun h => h.step_of_branch hbeq, fun h => h.step_of_branch_not hbne, fun h => h.step_of_branch hblt,
    fun h => h.step_of_branch_not hbge, fun h => h.step_of_branch hbltu, fun h => h.step_of_branch_not hbgeu,
    fun h => h.step_of_advances hcJ, fun h => h.step_of_jal hcJal, fun h => ?cJr,
    fun h hfree => h.step_of_jalr (s.natX_lt rs1) (hcJalr (hkept1 hfree)), fun h => h.step_of_branch hcBeqz,
    fun h => h.step_of_branch_not hcBnez⟩
  case cJr =>
    obtain ⟨u, hu, hpc, hadv, hrest⟩ := hcJr
    refine ⟨_, h.step_next hu, epilogue_pc_of_jump ?_ (s.natX_lt rs1) hpc hadv⟩
    rw [hrest]; exact s.prologue_bits

/-! ### Stores and the next fetch (R74) -/

theorem storeSpan_prologue (i : Instr) (s : State) : storeSpan i s.prologue = storeSpan i s := by
  simp [storeSpan, State.ea, State.imm12]

theorem storeValue_prologue (i : Instr) (s : State) : storeValue i s.prologue = storeValue i s := by
  simp [storeValue, State.prologue_natX]

/-- Settles O57: the fetch reads the bytes that the store left, the prologue and the epilogue having touched none. -/
theorem storeSeenByNextFetch : Obligations.StoreSeenByNextFetch := by
  unfold Obligations.StoreSeenByNextFetch
  intro s t i a n hruns hspan hstep k hk hin
  cases hexec : exec i s.prologue with
  | next u =>
    rw [hruns.step_next hexec] at hstep
    cases hstep
    obtain ⟨hbytes, -, -, hcfg⟩ := exec_stores ((storeSpan_prologue i s).trans hspan) hexec
    have hsize : u.epilogue.pc.toNat + k < s.prologue.cfg.memSize := by rw [← hcfg]; exact hin
    rw [State.fetchWord_byte _ hk, State.readByte_of_inside _ hin, State.epilogue_byteOf, hbytes, storeValue_prologue,
      State.prologue_byteOf]
    simp only [hsize, and_true]
  | fault f => rw [hruns.step_eq, hexec] at hstep; cases hstep
  | refused r => rw [hruns.step_eq, hexec] at hstep; cases hstep

end Sys2Proof.Machine
